-- ==== Sys2Proof/Word.lean ====
section
/-! DEFINITION. The plain words of the machine: bytes, 32-bit words, 64-bit words and thread masks (R7). -/

namespace Sys2Proof

/-- One byte. -/
abbrev Byte := BitVec 8

/-- The 32-bit value one thread holds in a vector register (R16). -/
abbrev Word := BitVec 32

/-- A 64-bit code word, address or register pair (R7, R67). -/
abbrev DWord := BitVec 64

/-- One bit for each of the 32 threads of a swarm (R16). -/
abbrev Mask := BitVec 32

/-- The values of one register in the 32 threads, thread 0 first. -/
abbrev Lanes := List Word

/-- Number of threads of a swarm. -/
abbrev threads : Nat := 32

end Sys2Proof
end

