-- ==== Sys2Proof/Config.lean ====
section
/-! DEFINITION. What this part fixes (VER, FEAT, capacities) and the free values of the specification.
A free value is a constant without a body: nothing can evaluate it, so a statement holds for every value of it (log 3). -/

namespace Sys2Proof.Config

/-- VER.ISA of the Lerez (R3, R85). -/
def isa : Nat := 3

/-- VER.IMPL of the Lerez (R85). -/
def impl : Nat := 3

/-- VER.STEP, which the specification leaves to the part (R85; log 4). -/
opaque stepping : BitVec 8

/-- FEAT1.CXLTIER, which the specification leaves to the part (R85; log 4). -/
opaque cxlTier : Bool

/-- FEAT0: every gate bit reads 1 on the Lerez (R84, R85). -/
def feat0 : Word := 0xFF

/-- FEAT2: cores, lanes and resident swarms (R85). -/
def feat2 : Word := BitVec.ofNat 32 (768 + 8 * 2 ^ 16 + 32 * 2 ^ 20)

/-- NONE, the code address at which no clause begins (R17). -/
def noneAddr : DWord := 0xFFFFFFFFFFFFFFFF

/-- A free choice among the alternatives the specification leaves open, applied to State's counter (log 3). -/
opaque freeNat : Nat → Nat

/-- An unspecified byte: of the task region at a task's start (R144), of a tile after a replay (R220) and of a faulted
stream entry (R278); applied to an epoch and an index (log 3). -/
opaque freeByte : Nat → Nat → Byte

/-- Nanoseconds and cycles that pass over one step, applied to State's counter (log 5). -/
opaque elapsedNs : Nat → Nat
opaque elapsedCycles : Nat → Nat

/-- Cores of the package and of a die (R2). -/
def cores : Nat := 768

/-- Bytes of a die's L2, of the package's twelve HBM4E stacks and of its second tier (R2). -/
def l2Bytes : Nat := 512 * 2 ^ 20
def hbmBytes : Nat := 12 * 64 * 2 ^ 30
def secondTierBytes : Nat := 4096 * 10 ^ 9

/-- A die's L2: slices, and a slice's data, tags, sets and ways (R1, R298). A line is held in one of three sizes. -/
def slices : Nat := 64
def sliceBytes : Nat := 8 * 2 ^ 20
def sliceTags : Nat := 65536
def sliceSets : Nat := 4096
def sliceWays : Nat := 16
def lineSizes : List Nat := [256, 192, 128]
/-- Which of the three sizes a line's bytes compress to, and the set of a line in its slice: the specification gives neither function
(R298; log 94). -/
opaque lineCoding : List Byte → Nat
opaque lineSet : Nat → Nat
/-- How many events of a counter source happen at a location for a context while a step's time passes, where the specification does not define
them finely enough to be counted (R384; log 29). -/
opaque sourceEvents : Nat → Nat → Nat → Nat → Nat

/-- AES-XTS-256 of a line under a context's key, and the line's integrity tag over its ciphertext and physical address (R328). The keys
are the security block's, and the specification gives no function for the tag: free values, by context, line and bytes (log 75). -/
opaque cipher : Nat → Nat → List Byte → List Byte
opaque integrityTag : Nat → Nat → List Byte → BitVec 64

/-- Whether an address of a queue's ring lies in the device rather than the host: RING may name either, and the specification gives no
test (R330; log 31). -/
opaque deviceAddress : Nat → Bool

/-- Second-tier address of the save area that firmware gives a launch: a free value, by the launch's number (R377, R378; log 32). -/
opaque saveArea : Nat → Nat

/-- Physical registers of a lane (R35). -/
def laneRegs : Nat := 512

/-- Entries of a core's write-combining buffer (R152). -/
def wcbEntries : Nat := 32

/-- Sets and ways of the L1 (R151). -/
def l1Sets : Nat := 256
def l1Ways : Nat := 8

/-- Version budget of a core, in entries (R304). -/
def versionBudget : Nat := 16384

/-- Slice contexts of a cluster's forager (R273). -/
def sliceContexts : Nat := 64

/-- Entries of a die's hold queue (R322). -/
def holdEntries : Nat := 2048

/-- Outstanding ATS translation requests of the package (R381). -/
def atsLimit : Nat := 1024

/-- Entries of the page-request tag table (R381). -/
def tagEntries : Nat := 4096

/-- Queues mapped to hardware at one time, and host-visible queues (R330, R333). -/
def mappedQueues : Nat := 256
def hostQueues : Nat := 8192

/-- Fabric ports of a module (R393). -/
def ports : Nat := 36

/-- Tags a kill list holds (R380). -/
def killTags : Nat := 16

end Sys2Proof.Config
end

