-- ==== Sys2Proof/Syntax.lean ====
section
/-! DEFINITION. The instructions and events of spec/opcode_table.json, one constructor a row.
An instruction carries the fields of its 64-bit word (R74 to R77). An event carries what its agent names: which swarm, core, packet
or request it concerns. Events have no encoding. -/

namespace Sys2Proof

/-- The TYPE codes of R76. -/
inductive Ty where
  | none | s8 | s16 | s32 | s64 | n8 | n16 | n32 | n64 | f32 | f16 | bf16 | e4m3 | e5m2 | q16 | s4
  deriving DecidableEq, Repr

/-- The TYPE code of a modifier (R76). -/
def Ty.code : Ty → BitVec 4
  | .none => 0 | .s8 => 1 | .s16 => 2 | .s32 => 3 | .s64 => 4 | .n8 => 5 | .n16 => 6 | .n32 => 7
  | .n64 => 8 | .f32 => 9 | .f16 => 10 | .bf16 => 11 | .e4m3 => 12 | .e5m2 => 13 | .q16 => 14 | .s4 => 15

/-- The modifier of a TYPE code (R76). -/
def Ty.ofCode (c : BitVec 4) : Ty :=
  match c.toNat with
  | 0 => .none | 1 => .s8 | 2 => .s16 | 3 => .s32 | 4 => .s64 | 5 => .n8 | 6 => .n16 | 7 => .n32
  | 8 => .n64 | 9 => .f32 | 10 => .f16 | 11 => .bf16 | 12 => .e4m3 | 13 => .e5m2 | 14 => .q16 | _ => .s4

/-- The fields of an instruction word below its opcode (R74, R75): four operand bytes, MOD, GE, the RND or SCOPE field, the
last-read bits and the guard. Every format is a reading of these fields; Format H reads the four bytes as its payload. -/
structure Fields where
  /-- bits 55:48: DST, PDST, DATA or ACC -/
  dst : BitVec 8
  /-- bits 47:40: OPA or BASE -/
  opa : BitVec 8
  /-- bits 39:32: OPB, SEL or the high half of a 16-bit immediate -/
  opb : BitVec 8
  /-- bits 31:24: OPC or the low half of a 16-bit immediate -/
  opc : BitVec 8
  /-- bits 23:20: the code of TYPE -/
  tyc : BitVec 4
  /-- bits 19:14: OPX -/
  opx : BitVec 6
  /-- bit 13: guard enable -/
  ge : Bool
  /-- bits 12:10: RND (Formats A, B) or SCOPE (Formats E, G) -/
  rnd : BitVec 3
  /-- bits 9:7: the last-read bits -/
  lr : BitVec 3
  /-- bits 6:0: GUARD -/
  guard : BitVec 7
  deriving DecidableEq, Repr

namespace Fields

/-- TYPE (R76). -/
def ty (f : Fields) : Ty := Ty.ofCode f.tyc
/-- MOD, bits 23:14 (R75). -/
def mod (f : Fields) : BitVec 10 := f.tyc ++ f.opx
/-- IMM16 of Format B and OFF16 of Format E (R75). -/
def imm16 (f : Fields) : BitVec 16 := f.opb ++ f.opc
/-- OFF32 of Format D and PAYLOAD of Format H (R75). -/
def off32 (f : Fields) : BitVec 32 := f.dst ++ f.opa ++ f.opb ++ f.opc
/-- IMM18 of Format G (R75). -/
def imm18 (f : Fields) : BitVec 18 := f.opc ++ f.mod
/-- SEL of Format G (R75). -/
def sel (f : Fields) : BitVec 8 := f.opb
/-- The truth table of TERN and PLOP, MOD bits 21:14 (R101, R106). -/
def tt (f : Fields) : BitVec 8 := (f.mod).setWidth 8

end Fields

/-- A swarm, or the access slice of a swarm: launch sequence, core, index in the workgroup (R19, R285). -/
structure SwarmRef where
  seq : Nat
  core : Nat
  idx : Nat
  slice : Bool
  deriving DecidableEq, Repr

/-- A workgroup: its launch's sequence and its core (R343). -/
structure WgRef where
  seq : Nat
  core : Nat
  deriving DecidableEq, Repr

/-- A translation the host answers (R161, R306, R309, R320, R328). -/
structure Mapping where
  ctx : Nat
  va : Nat
  len : Nat
  pa : Nat
  writable : Bool
  code : Bool
  cell : Bool
  /-- the core and launch tag of a page of the on-chip kind (R306) -/
  onChip : Option (Nat × Nat)
  /-- the module a remote cell page is homed on (R320) -/
  remote : Option Nat
  encrypted : Bool
  deriving DecidableEq, Repr

/-- Codes of a Page Request Group Response (R382). -/
inductive PrgCode where
  | success | invalidRequest | responseFailure
  deriving DecidableEq, Repr

/-- The steps of a native migration, and a copy pass of an E1-compatible one from its old frame to its new one (R323, R324). -/
inductive MigrationStep where
  | e1Pass (oldPa newPa : Nat)
  | mark (oldPa : Nat)
  | copy (newPa : Nat)
  | writeFrame (newPa : Nat)
  | release
  deriving DecidableEq, Repr

/-- Where an event counter stands (R384). -/
inductive CounterLoc where
  | core (n : Nat) | die (n : Nat) | fabric
  deriving DecidableEq, Repr

/-- A change of a program-counter slot (R16, R365). -/
structure SlotEdit where
  pc : Option DWord
  mask : Option Mask
  rpc : Option DWord
  rjp : Option DWord
  valid : Option Bool
  parked : Option Bool
  deriving DecidableEq, Repr

/-- A stream register as the host leaves it (R276, R365): the descriptor of its binding, the entries generated and not consumed, by their flags
and fault marks, its walk's position, the flags of the entry read last, and the binding queued behind it. The entries' words lie in the ring. -/
structure StreamEdit where
  reg : Nat
  desc : List Byte
  head : Nat
  entries : List (BitVec 4 × Option (Nat × Nat))
  ended : Bool
  pos : List Nat
  eodf : BitVec 8
  next : Option (List Byte)
  deriving DecidableEq, Repr

/-- What the host changes in a stopped swarm before it resumes it (R365). -/
structure SwarmEdit where
  slotA : SlotEdit
  slotB : SlotEdit
  live : Option Mask
  rsv : Option Nat
  prog : Option Nat
  /-- stream registers that are unbound, and those that are bound -/
  unbind : List Nat
  bind : List StreamEdit
  regs : List (Nat × Nat × Word)
  preds : List (Nat × Mask)
  mode : Option Word
  dsDepth : Option Nat
  /-- the restart label, with RPC, RJP and DSDEPTH of its record -/
  restart : Option (DWord × DWord × DWord × Nat)
  wrapCause : Option Word
  deriving DecidableEq, Repr

/-- A fabric packet (R396): the header's fields, the payload sectors, and which of them fail their check values. -/
structure Packet where
  gen : Nat
  src : Nat
  srank : Nat
  dst : Nat
  op : Nat
  last : Bool
  ident : Bool
  jobtag : Nat
  chunk : Nat
  cid : Nat
  addr : Nat
  payload : List Byte
  bad : List Nat
  deriving DecidableEq, Repr

/-- The rows of spec/opcode_table.json, in its order. -/
inductive Instr where
  /-- IADD_REG: Adds two registers per element, wrapping or saturating, in every active thread. (R96) -/
  | iaddReg (f : Fields)
  /-- IADD_IMM: Adds a register and an extended immediate, wrapping or saturating. (R96) -/
  | iaddImm (f : Fields)
  /-- ISUB_REG: Subtracts two registers per element, wrapping or saturating. (R96) -/
  | isubReg (f : Fields)
  /-- ISUB_IMM: Subtracts an extended immediate from a register, wrapping or saturating. (R96) -/
  | isubImm (f : Fields)
  /-- IMUL_REG: Multiplies two 32-bit registers, wrapping or saturating. (R96) -/
  | imulReg (f : Fields)
  /-- IMUL_IMM: Multiplies a register by an extended immediate, wrapping or saturating. (R96) -/
  | imulImm (f : Fields)
  /-- IMULH: Writes bits 63:32 of the exact signed or unsigned 64-bit product. (R96) -/
  | imulh (f : Fields)
  /-- IMAD: Computes a × b + c exactly, then wraps or saturates once. (R96) -/
  | imad (f : Fields)
  /-- IMIN_REG: Writes the per-element minimum of two registers by signedness. (R96) -/
  | iminReg (f : Fields)
  /-- IMIN_IMM: Writes the minimum of a register and an extended immediate. (R96) -/
  | iminImm (f : Fields)
  /-- IMAX_REG: Writes the per-element maximum of two registers by signedness. (R96) -/
  | imaxReg (f : Fields)
  /-- IMAX_IMM: Writes the maximum of a register and an extended immediate. (R96) -/
  | imaxImm (f : Fields)
  /-- IABS: Writes the absolute value per element, wrapping or saturating the most negative value. (R96) -/
  | iabs (f : Fields)
  /-- ADDC: Adds with carry in and carry out through a predicate. (R97) -/
  | addc (f : Fields)
  /-- SUBB: Subtracts with borrow in and borrow out through a predicate. (R97) -/
  | subb (f : Fields)
  /-- IADDW: Adds two 64-bit register pairs into a pair. (R98) -/
  | iaddw (f : Fields)
  /-- IMADW: Computes a 64-bit a × b + c into a register pair. (R98) -/
  | imadw (f : Fields)
  /-- IDOT4: Forms a four-element integer or FP8 dot product added to c. (R99) -/
  | idot4 (f : Fields)
  /-- ISAD: Adds the sum of absolute differences of four packed bytes to c. (R99) -/
  | isad (f : Fields)
  /-- POPC: Writes the number of set bits of a. (R100) -/
  | popc (f : Fields)
  /-- CLZ: Writes the count of leading zero bits of a. (R100) -/
  | clz (f : Fields)
  /-- AND_REG: Bitwise AND of two registers. (R101) -/
  | andReg (f : Fields)
  /-- AND_IMM: Bitwise AND of a register and a zero-extended immediate. (R101) -/
  | andImm (f : Fields)
  /-- OR_REG: Bitwise OR of two registers. (R101) -/
  | orReg (f : Fields)
  /-- OR_IMM: Bitwise OR of a register and a zero-extended immediate. (R101) -/
  | orImm (f : Fields)
  /-- XOR_REG: Bitwise XOR of two registers. (R101) -/
  | xorReg (f : Fields)
  /-- XOR_IMM: Bitwise XOR of a register and a zero-extended immediate. (R101) -/
  | xorImm (f : Fields)
  /-- TERN: Applies an 8-bit truth table bitwise to three sources. (R101) -/
  | tern (f : Fields)
  /-- SHL_REG: Shifts left by a register amount clamped to 32. (R102) -/
  | shlReg (f : Fields)
  /-- SHL_IMM: Shifts left by an immediate amount. (R102) -/
  | shlImm (f : Fields)
  /-- SHR_REG: Logical right shift by a register amount. (R102) -/
  | shrReg (f : Fields)
  /-- SHR_IMM: Logical right shift by an immediate amount. (R102) -/
  | shrImm (f : Fields)
  /-- SAR_REG: Arithmetic right shift by a register amount. (R102) -/
  | sarReg (f : Fields)
  /-- SAR_IMM: Arithmetic right shift by an immediate amount. (R102) -/
  | sarImm (f : Fields)
  /-- FSHL_REG: Funnel shift left of hi:lo by a register amount. (R102) -/
  | fshlReg (f : Fields)
  /-- FSHL_IMM: Funnel shift left of a register pair by an immediate. (R102) -/
  | fshlImm (f : Fields)
  /-- FSHR_REG: Funnel shift right of hi:lo by a register amount. (R102) -/
  | fshrReg (f : Fields)
  /-- FSHR_IMM: Funnel shift right of a register pair by an immediate. (R102) -/
  | fshrImm (f : Fields)
  /-- BREV: Reverses the 32 bits of a. (R103) -/
  | brev (f : Fields)
  /-- BFX_REG: Extracts a bit field described by a register. (R103) -/
  | bfxReg (f : Fields)
  /-- BFX_IMM: Extracts a bit field described by an immediate. (R103) -/
  | bfxImm (f : Fields)
  /-- BFI_REG: Inserts a field of a into b at a position and length from c. (R103) -/
  | bfiReg (f : Fields)
  /-- BFI_IMM: Inserts a field of a into d's prior value by an immediate descriptor. (R103) -/
  | bfiImm (f : Fields)
  /-- PERM: Selects or sign-fills four bytes from the eight bytes of a and b. (R103) -/
  | perm (f : Fields)
  /-- SEL: Writes a where a predicate is set, else b. (R104) -/
  | sel (f : Fields)
  /-- MOV: Copies a register or pair. (R104) -/
  | mov (f : Fields)
  /-- MOVI: Writes an extended immediate to a register. (R104) -/
  | movi (f : Fields)
  /-- P2V: Packs up to 32 consecutive predicates into a register. (R104) -/
  | p2v (f : Fields)
  /-- V2P: Unpacks register bits into consecutive predicates. (R104) -/
  | v2p (f : Fields)
  /-- ICMP: Integer compare writing a predicate, optionally combined with another. (R105) -/
  | icmp (f : Fields)
  /-- FCMP: IEEE floating-point compare writing a predicate. (R105) -/
  | fcmp (f : Fields)
  /-- PLOP: Combines three predicates by a truth table into a predicate. (R106) -/
  | plop (f : Fields)
  /-- PICK: Gives each active thread a value read from another thread by an index rule. (R114) -/
  | pick (f : Fields)
  /-- PGATH: Gathers one predicate across the active threads into a uniform value. (R115) -/
  | pgath (f : Fields)
  /-- SRED: Reduces a register across active threads by index tree, or exactly with .X. (R116) -/
  | sred (f : Fields)
  /-- REDL: Long vector reduction over a scratchpad array using a resumable work area. (R117) -/
  | redl (f : Fields)
  /-- CVT: Converts between integer and floating-point formats with rounding and saturation. (R110) -/
  | cvt (f : Fields)
  /-- QPACK: Quantises an FP32 value to a Q16 code in one nibble of d. (R112) -/
  | qpack (f : Fields)
  /-- QUNPK: Dequantises one Q16 code with its scales to a float. (R111) -/
  | qunpk (f : Fields)
  /-- QSCALE: Computes the block scale placing |a| at code 15. (R113) -/
  | qscale (f : Fields)
  /-- PRADD: Adds packed FP16 or BF16 pairs. (R109) -/
  | pradd (f : Fields)
  /-- PRMUL: Multiplies packed FP16 or BF16 pairs. (R109) -/
  | prmul (f : Fields)
  /-- PRFMA: Fused multiply-add of packed FP16 or BF16 pairs. (R109) -/
  | prfma (f : Fields)
  /-- FADD_REG: FP32 add of two registers, rounded once. (R107) -/
  | faddReg (f : Fields)
  /-- FADD_IMM: FP32 add of a register and an immediate. (R107) -/
  | faddImm (f : Fields)
  /-- FMUL_REG: FP32 multiply of two registers. (R107) -/
  | fmulReg (f : Fields)
  /-- FMUL_IMM: FP32 multiply of a register by an immediate. (R107) -/
  | fmulImm (f : Fields)
  /-- FFMA_REG: FP32 fused a × b + c, rounded once. (R107) -/
  | ffmaReg (f : Fields)
  /-- FFMA_IMM: FP32 fused a × imm + d, rounded once. (R107) -/
  | ffmaImm (f : Fields)
  /-- FMIN_REG: FP32 minimum of two registers. (R107) -/
  | fminReg (f : Fields)
  /-- FMIN_IMM: FP32 minimum of a register and an immediate. (R107) -/
  | fminImm (f : Fields)
  /-- FMAX_REG: FP32 maximum of two registers. (R107) -/
  | fmaxReg (f : Fields)
  /-- FMAX_IMM: FP32 maximum of a register and an immediate. (R107) -/
  | fmaxImm (f : Fields)
  /-- FDIV: Correctly rounded FP32 division. (R107) -/
  | fdiv (f : Fields)
  /-- FSQRT: Correctly rounded FP32 square root. (R107) -/
  | fsqrt (f : Fields)
  /-- FRCP: Correctly rounded FP32 reciprocal. (R107) -/
  | frcp (f : Fields)
  /-- FRSQ: Correctly rounded FP32 reciprocal square root. (R107) -/
  | frsq (f : Fields)
  /-- FEXP2: Correctly rounded FP32 power of two. (R107) -/
  | fexp2 (f : Fields)
  /-- FLOG2: Correctly rounded FP32 base-2 logarithm. (R107) -/
  | flog2 (f : Fields)
  /-- BRA: Direct conditional branch, dividing the slot by R27 when threads disagree. (R120) -/
  | bra (f : Fields)
  /-- BRX: Indirect branch to per-thread targets, splitting one target at a time. (R121) -/
  | brx (f : Fields)
  /-- BEOD: Branches on a stream register's end-of-dimension flag. (R120) -/
  | beod (f : Fields)
  /-- CALL: Writes the next clause address to a link pair and branches. (R120) -/
  | call (f : Fields)
  /-- RET: Branches to the per-thread address held in a pair. (R121) -/
  | ret (f : Fields)
  /-- REJOIN: Sets the issuing slot's pending reconvergence target. (R122) -/
  | rejoin (f : Fields)
  /-- EXIT: Removes the active threads from LIVE and the slot, ending the slot when empty. (R123) -/
  | exit (f : Fields)
  /-- NOP: Has no effect. (R124) -/
  | nop (f : Fields)
  /-- GETSR: Reads a special register into every active thread. (R125) -/
  | getsr (f : Fields)
  /-- SETSR: Writes MODE from the lowest thread, checking reserved values. (R126) -/
  | setsr (f : Fields)
  /-- GROW: Raises the swarm's register reservation, waiting or failing non-blocking when the lane lacks room. (R36) -/
  | grow (f : Fields)
  /-- SHRINK: Lowers the reservation and unmaps registers at or above n. (R36) -/
  | shrink (f : Fields)
  /-- SETRESTART: Registers a restart label with the slot's RPC, RJP and DSDEPTH. (R128) -/
  | setrestart (f : Fields)
  /-- TRAP: Raises SoftwareTrap with detail n when any thread is active. (R129) -/
  | trap (f : Fields)
  /-- BKPT: Raises Breakpoint with detail n when any thread is active. (R129) -/
  | bkpt (f : Fields)
  /-- LD: Loads from global memory, cached or home form, optionally acquiring. (R167) -/
  | ld (f : Fields)
  /-- ST: Stores to global memory through the write-combining buffer, optionally releasing. (R167) -/
  | st (f : Fields)
  /-- LDS: Loads from the workgroup scratchpad. (R169) -/
  | lds (f : Fields)
  /-- STS: Stores to the workgroup scratchpad. (R169) -/
  | sts (f : Fields)
  /-- GATHER: Long instruction reading indexed global elements into the scratchpad. (R172) -/
  | gather (f : Fields)
  /-- SCATTER: Long instruction writing scratchpad elements to indexed global addresses. (R172) -/
  | scatter (f : Fields)
  /-- CPIN: Starts an asynchronous copy from global memory into the scratchpad. (R174) -/
  | cpin (f : Fields)
  /-- CPOUT: Starts an asynchronous copy from the scratchpad to global memory. (R174) -/
  | cpout (f : Fields)
  /-- ATOM: Immediate indivisible read-modify-write at the home atomic unit. (R177) -/
  | atom (f : Fields)
  /-- ATOMV: Read-modify-write on the task's version of the word. (R178) -/
  | atomv (f : Fields)
  /-- RED: Issues a reduction performed at its home after the clause completes, with no result. (R178) -/
  | red (f : Fields)
  /-- PREFETCH: Brings a sector into the L2 or L1 without faulting. (R185) -/
  | prefetch (f : Fields)
  /-- FLUSH: Starts writing dirty L2 lines of a range back to memory. (R184) -/
  | flush (f : Fields)
  /-- INVL1: Invalidates all or a range of the core's L1 sectors. (R183) -/
  | invl1 (f : Fields)
  /-- FENCE: Acquire, release or both at a scope. (R180) -/
  | fence (f : Fields)
  /-- FENCEX: Waits for source-path operations and orders them before destination-path accesses. (R181) -/
  | fencex (f : Fields)
  /-- WAITC: Adds a counter threshold wait to its clause and orders completed operations. (R182) -/
  | waitc (f : Fields)
  /-- QINIT: Initialises a hive queue and takes ownership of it. (R187) -/
  | qinit (f : Fields)
  /-- QPUSH: Pushes one entry to a hive queue, blocking or not. (R189) -/
  | qpush (f : Fields)
  /-- QPOP: Pops one entry from a hive queue, blocking or not. (R189) -/
  | qpop (f : Fields)
  /-- TBAR: Arrives at a team or workgroup barrier and waits for the phase to complete. (R190) -/
  | tbar (f : Fields)
  /-- PROPOSE: Proposes a value to a decide-once cell name and receives the decision. (R314) -/
  | propose (f : Fields)
  /-- DOCRD: Reads a decide-once cell name without proposing. (R315) -/
  | docrd (f : Fields)
  /-- RECYCLE: Requests that a decided cell be emptied with its incarnation advanced. (R316) -/
  | recycle (f : Fields)
  /-- RESV: Makes an operand-buffer reservation record live. (R195) -/
  | resv (f : Fields)
  /-- RELS: Frees a reservation record after its readers finish. (R196) -/
  | rels (f : Fields)
  /-- CPOB: Starts a copy into an operand-buffer reservation. (R197) -/
  | cpob (f : Fields)
  /-- MMA: Makes the swarm's arrival at a collective matrix multiply-accumulate. (R203) -/
  | mma (f : Fields)
  /-- MMAW: Makes the swarm's arrival at a six-pass FP32 sliced matrix multiply. (R204) -/
  | mmaw (f : Fields)
  /-- ACCALLOC: Maps an accumulator name to a zeroed free tile, waiting when none is free. (R209) -/
  | accalloc (f : Fields)
  /-- ACCFREE: Unmaps an accumulator name and returns its tile to the pool. (R210) -/
  | accfree (f : Fields)
  /-- ACCZERO: Zeroes a tile, or the exception counters with .EXC. (R211) -/
  | acczero (f : Fields)
  /-- ACCRD: Reads tile elements or an exception counter into registers. (R212) -/
  | accrd (f : Fields)
  /-- ACCWR: Writes register values into tile elements. (R213) -/
  | accwr (f : Fields)
  /-- DRAIN: Long instruction storing, adding or exactly accumulating tile rows to a destination. (R216) -/
  | drain (f : Fields)
  /-- WBIND: Reads a walk or push descriptor and binds or appends it to a stream register. (R289) -/
  | wbind (f : Fields)
  /-- WRESET: Unbinds one or all stream registers. (R290) -/
  | wreset (f : Fields)
  /-- FGSTART: Starts the swarm's access slice with four arguments. (R291) -/
  | fgstart (f : Fields)
  /-- FGWAIT: Waits for, stops, or tests the swarm's access slice. (R292) -/
  | fgwait (f : Fields)
  /-- SPUSH: Appends one entry to an open push stream. (R293) -/
  | spush (f : Fields)
  /-- FETCH: Collectively ends the open task and obtains the workgroup's next tile. (R351) -/
  | fetch (f : Fields)
  /-- COMMIT: Makes the swarm's end arrival as commit or partial commit. (R352) -/
  | commit (f : Fields)
  /-- ABANDON: Makes the swarm's end arrival as abandon. (R352) -/
  | abandon (f : Fields)
  /-- ENQ: Reserves space for and enqueues a command to a work queue from a kernel. (R354) -/
  | enq (f : Fields)
  /-- WRAPRET: Ends a diverted swarm's wrap-up, arriving as abandon if needed. (R353) -/
  | wrapret (f : Fields)
  /-- RGET: Starts a remote read from a rank into the scratchpad. (R403) -/
  | rget (f : Fields)
  /-- RPUT: Starts a remote write from the scratchpad to a rank, optionally releasing at .POD. (R403) -/
  | rput (f : Fields)
  /-- MCAST: Starts a remote write to a consecutive range of ranks. (R403) -/
  | mcast (f : Fields)
  /-- CRED: Contributes a range of chunks to a collective reduction. (R412) -/
  | cred (f : Fields)
  /-- GENFENCE: Fences to the next membership generation from a table image. (R402) -/
  | genfence (f : Fields)
  /-- SNAP: Takes or ends a snapshot view over a range. (R416) -/
  | snap (f : Fields)
  /-- JOIN: Takes a rank by fencing into a newer generation and starts the reel. (R419) -/
  | join (f : Fields)
  /-- IMX: Prefix supplying a 32-bit immediate to the next instruction. (R80) -/
  | imx (f : Fields)
  /-- MSK: Prefix supplying a mask value to PICK, MMA or MMAW. (R80) -/
  | msk (f : Fields)
  /-- RECONVERGENCE_PARK: A slot about to issue an RCP clause at its RPC parks and the stack is popped by R29. (R28) -/
  | reconvergencePark (r : SwarmRef)
  /-- WAIT_CONDITION_MET: A WAITING swarm's clause wait condition is met and it becomes READY. (R132) -/
  | waitConditionMet (r : SwarmRef)
  /-- ACTIVE_SLOT_FILL: A lane passes its free active slot to the longest-READY swarm. (R133) -/
  | activeSlotFill (core lane : Nat)
  /-- FORCED_SWAP: A swarm or team READY for 1,024 cycles forces a swap at the next clause boundary. (R134) -/
  | forcedSwap (core lane : Nat)
  /-- TEAM_ENTRY: A ready team takes all its lanes together once each lane's clause completes. (R135) -/
  | teamEntry (w : WgRef) (team : Nat)
  /-- SCOREBOARD_REBUILD: After a scoreboard mismatch the copies are rebuilt in 16 cycles and the clause reissued. (R138) -/
  | scoreboardRebuild (r : SwarmRef)
  /-- BANK_DROWSY: A register bank idle for 512 cycles without active-swarm registers becomes drowsy. (R139) -/
  | bankDrowsy (core lane bank : Nat)
  /-- ACC_REFRESH_SLOT: An accumulator refresh bank is rewritten in its scheduled 48-cycle slot. (R148) -/
  | accRefreshSlot (core bank : Nat) (bad : List Nat)
  /-- WC_ENTRY_AGE_DRAIN: A write-combining entry drains to its home 4,096 cycles after its first write. (R152) -/
  | wcEntryAgeDrain (core sector : Nat)
  /-- COPY_COMPLETE: A CPIN or CPOUT finishes its bytes and lowers the COPY counter. (R175) -/
  | copyComplete (id : Nat)
  /-- CPOB_COMPLETE: A CPOB finishes writing the operand buffer and lowers the MATRIX counter. (R198) -/
  | cpobComplete (id : Nat)
  /-- FLUSH_COMPLETE: FLUSH finishes writing back its range page by page and lowers the LDST counter. (R184) -/
  | flushComplete (id : Nat)
  /-- MMA_ACCEPT: The matrix engine accepts a completed team arrival, checking it and completing members' clauses. (R201) -/
  | mmaAccept (r : SwarmRef)
  /-- MMA_RESULT_WRITE: An accepted MMA writes its result to the tile and lowers MATRIX counters. (R207) -/
  | mmaResultWrite (id : Nat)
  /-- ACCUMULATOR_RECLAIM: On tile deadlock the youngest holder's accumulators are discarded and its swarms restart. (R224) -/
  | accumulatorReclaim (core : Nat)
  /-- ATOMIC_UNIT_REQUEST: A home slice's atomic unit performs an arriving ATOM, RED or float add. (R301) -/
  | atomicUnitRequest (id : Nat)
  /-- ANNOUNCEMENT_DELIVERY: Announcements reach every die 16 cycles after sending and invalidate shared copies. (R299) -/
  | announcementDelivery
  /-- SECTOR_FETCH_REPLY: A home's reply to a die copy fetch arrives and is kept or discarded by announcement count. (R300) -/
  | sectorFetchReply (id : Nat)
  /-- CELL_REQUEST_AT_HOME: A cell's home performs a PROPOSE, DOCRD or RECYCLE row indivisibly. (R311) -/
  | cellRequestAtHome (id : Nat)
  /-- WALK_ENTRY_GENERATE: The forager's walk unit generates the next stream entry into a ring. (R278) -/
  | walkEntryGenerate (r : SwarmRef) (w : Nat)
  /-- SLICE_CONTEXT_GRANT: A freed slice context is granted to the longest-waiting FGSTART. (R291) -/
  | sliceContextGrant (cluster : Nat)
  /-- TASK_END: After every end arrival and counter drain the task commits or discards and releases its waiters. (R348) -/
  | taskEnd (w : WgRef)
  /-- TIEBREAK_TIMEOUT: Twins waiting on a disagreeing request trap Unresolved after 1 ms without a run. (R376) -/
  | tiebreakTimeout (w : WgRef)
  /-- TASK_REPLAY: After a machine trap the workgroup halts, drains, discards and restarts from task-start records. (R371) -/
  | taskReplay (w : WgRef)
  /-- TRAP_WITHOUT_REPLAY: A task ended by an unreplayed trap is discarded, marked and its swarms sent back to FETCH or wrap-up. (R372) -/
  | trapWithoutReplay (w : WgRef)
  /-- DOORBELL_WRITE: The host writes a queue's new write index to its doorbell. (R330) -/
  | doorbellWrite (q index : Nat)
  /-- NOP_COMMAND: A work-queue NOP command completes. (R331) -/
  | nopCommand (q : Nat)
  /-- LAUNCH: A work-queue LAUNCH command is admitted and waits for placement. (R331) -/
  | launch (q : Nat)
  /-- SIGNAL: A work-queue SIGNAL writes its value as a .POD release after earlier commands complete. (R332) -/
  | signal (q : Nat)
  /-- LAUNCH_PLACEMENT: A waiting launch is placed on every core of its rectangle once all can take it. (R340) -/
  | launchPlacement (id : Nat)
  /-- LAUNCH_COMPLETE: A finished launch's completion record is written and its vector raised. (R341) -/
  | launchComplete (id : Nat)
  /-- MAPPING_EVALUATION: Firmware re-evaluates which gangs are mapped, at least every 100 µs. (R335) -/
  | mappingEvaluation
  /-- EXTENSION_REFILL: Firmware moves extension commands into a queue's ring as it drains. (R355) -/
  | extensionRefill (q : Nat)
  /-- DIVERSION: At the diversion time every swarm of the launch is sent to its wrap-up entry. (R358) -/
  | diversion (id : Nat)
  /-- DEADLINE_OVERRUN: At the deadline running swarms stop, open versions are discarded and the launch completes DeadlineOverrun. (R360) -/
  | deadlineOverrun (id : Nat)
  /-- WATCHDOG_EXPIRY: A launch's watchdog count reaches its limit and the launch is cancelled. (R383) -/
  | watchdogExpiry (id : Nat)
  /-- PREEMPTION: A launch is stopped, drained, its accumulators discarded and its state saved. (R377) -/
  | preemption (id : Nat)
  /-- CONTEXT_RESTORE: A pre-empted launch is placed again and its swarms restored. (R377) -/
  | contextRestore (id : Nat)
  /-- DEFERRED_ACTIVATION: A deferred firmware image activates once old-layout launches are resaved or drained. (R379) -/
  | deferredActivation
  /-- PAGE_REQUEST_RESPONSE: A Page Request Group Response releases, faults or fails waiting accesses. (R382) -/
  | pageRequestResponse (ctx group : Nat) (code : PrgCode)
  /-- PAGE_REQUEST_RETRY: A fault with no free tag entry retries every 4,096 cycles. (R381) -/
  | pageRequestRetry (die : Nat)
  /-- HOLD_RETRY: An access held without a hold-queue entry retries translation every 4,096 cycles. (R322) -/
  | holdRetry (die : Nat)
  /-- MIGRATION: Firmware moves a page, holding accesses to it until the new frame is written. (R323) -/
  | migration (ctx va len : Nat) (p : MigrationStep)
  /-- GRANULE_COPY_COMPLETE: A snapshot granule's shadow copy completes and held writes are released. (R325) -/
  | granuleCopyComplete (ctx view granule shadow : Nat)
  /-- VIEW_ENDED: After 10 ms without a shadow frame the oldest view is ended and reported. (R325) -/
  | viewEnded (ctx : Nat)
  /-- SCRUB_VISIT: The scrubber visits a line, checks it and logs any finding. Errors that the visit is the first to meet, pairs of a sector
  and a kind of R327, come with the event. (R326) -/
  | scrubVisit (die line : Nat) (found : List (Nat × Nat))
  /-- MODULE_RESET: Module reset clears state, membership and reads the module number from the planes. (R401) -/
  | moduleReset (planes : List Nat)
  /-- THERMAL_THROTTLE: Firmware lowers the arithmetic clock to meet the power cap or junction limit. (R363) -/
  | thermalThrottle (mhz : Nat)
  /-- THERMAL_SHUTDOWN: Above 115 °C or on coolant loss every launch stops and the dies power down. (R363) -/
  | thermalShutdown
  /-- PTP_MESSAGE: An IEEE 1588 message disciplines CLKNS by slewing or stepping. (R356) -/
  | ptpMessage (offset : Int)
  /-- SYNC_LOSS: Loss of PTP synchronisation puts the clock into holdover. (R356) -/
  | syncLoss
  /-- MAILBOX_INSTALL_QUEUE: The driver installs a queue descriptor through the firmware mailbox. (R330) -/
  | mailboxInstallQueue (q : Nat) (desc : List Byte)
  /-- MAILBOX_REMOVE_QUEUE: The host removes a queue, unmapping its gang when allowed. (R335) -/
  | mailboxRemoveQueue (q : Nat)
  /-- MAILBOX_CANCEL_LAUNCH: Host cancellation diverts or stops a launch. (R358) -/
  | mailboxCancelLaunch (id : Nat)
  /-- MAILBOX_PREEMPT: The host requests pre-emption of a launch. (R377) -/
  | mailboxPreempt (id : Nat)
  /-- MAILBOX_KILL_CONTEXT: Kills a context, fencing out every write before releasing its memory. (R380) -/
  | mailboxKillContext (ctx : Nat)
  /-- MAILBOX_RESUME_SWARM: The host resumes a stopped swarm from its changed state. (R365) -/
  | mailboxResumeSwarm (r : SwarmRef) (edit : SwarmEdit)
  /-- MAILBOX_FIRMWARE_IMAGE: Offers a signed firmware image for activation. (R379) -/
  | mailboxFirmwareImage (layout : Nat) (signed : Bool)
  /-- MAILBOX_TRAP_AREA: Installs a context's trap record area. (R367) -/
  | mailboxTrapArea (ctx base entries idx vec : Nat)
  /-- TRAP_READ_INDEX_WRITE: The host publishes its trap-record read index. (R367) -/
  | trapReadIndexWrite (ctx index : Nat)
  /-- MAILBOX_WATCHDOG_LIMIT: Sets a context's watchdog limit. (R383) -/
  | mailboxWatchdogLimit (ctx limit : Nat)
  /-- MAILBOX_COUNTER_SELECT: Sets an event counter's selector. (R384) -/
  | mailboxCounterSelect (loc : CounterLoc) (k : Nat) (sel : Word)
  /-- MAILBOX_COUNTER_READ: Returns the 48-bit value of a named counter. (R384) -/
  | mailboxCounterRead (loc : CounterLoc) (k : Nat)
  /-- MAILBOX_POWER_CAP: Sets the module power cap. (R363) -/
  | mailboxPowerCap (watts : Nat)
  /-- MAILBOX_REENABLE_PAGE_REQUESTS: Re-enables page requests of a context after a Response Failure. (R382) -/
  | mailboxReenablePageRequests (ctx : Nat)
  /-- MAILBOX_BIND_FABRIC_OWNER: Binds the fabric owner context with its JOBTAG and first membership. (R401) -/
  | mailboxBindFabricOwner (ctx jobtag : Nat) (image : List Byte)
  /-- MAILBOX_WATCH_LIST: Sets the heartbeat watch list. (R414) -/
  | mailboxWatchList (mods : List Nat)
  /-- MAILBOX_SUSPECT_MAP: Sets the suspect map address. (R415) -/
  | mailboxSuspectMap (addr : Nat)
  /-- MAILBOX_COLLECTIVE_AREA: Assigns the collective area in second-tier memory. (R410) -/
  | mailboxCollectiveArea (base size : Nat)
  /-- KEY_INSTALL: The host installs a context's encryption key over SPDM. (R362) -/
  | keyInstall (ctx : Nat)
  /-- REGISTER_WRITE_IGNORED: A write to a BAR0 register without behaviour of its own is ignored. (R384) -/
  | registerWriteIgnored (offset : Nat) (value : DWord)
  /-- DEBUG_HALT: The debugger halts a swarm, squashing its clause. (R132) -/
  | debugHalt (r : SwarmRef)
  /-- DEBUG_RESUME: The debugger resumes a halted swarm to its prior state. (R132) -/
  | debugResume (r : SwarmRef)
  /-- FLIT_RECEIVE: A received flit is CRC-checked, acknowledged or replayed, and its packets unpacked. (R394) -/
  | flitReceive (port : Nat) (flit : List Byte)
  /-- RGET_REQUEST: A target serves an arriving RGET request from its homes. (R403) -/
  | rgetRequest (p : Packet)
  /-- RGET_DATA: Arriving RGET data are checked and written to the scratchpad. (R404) -/
  | rgetData (p : Packet)
  /-- RPUT_DATA: Arriving RPUT or MCAST data are performed at the target's homes. (R404) -/
  | rputData (p : Packet)
  /-- ACKNOWLEDGEMENT: A transfer acknowledgement arrives and completes the transfer when all are in. (R404) -/
  | acknowledgement (p : Packet)
  /-- TRANSFER_ACK_TIMEOUT: A transfer without acknowledgement for 1 ms completes with a deferred trap. (R404) -/
  | transferAckTimeout (id : Nat)
  /-- CONTRIBUTION: A contribution packet is accepted by key, stored early or dropped, completing chunks. (R409) -/
  | contribution (p : Packet)
  /-- SWITCH_RESULT: A switch-formed chunk result arrives and is written at DST. (R408) -/
  | switchResult (p : Packet)
  /-- CELL_REQUEST: A remote cell request arrives at the home module. (R320) -/
  | cellRequest (p : Packet)
  /-- CELL_REPLY: A remote cell reply arrives for the requesting swarm. (R320) -/
  | cellReply (p : Packet)
  /-- CELL_REPLY_TIMEOUT: A remote cell request without reply for 1 ms returns HOMELOST. (R320) -/
  | cellReplyTimeout (id : Nat)
  /-- HEARTBEAT: A heartbeat arrives, marking its plane up and clearing suspicion. (R414) -/
  | heartbeat (port src : Nat)
  /-- HEARTBEAT_TIMER: Every 20 µs heartbeats are sent on every up plane. (R414) -/
  | heartbeatTimer
  /-- SUSPICION_TIMEOUT: A member silent for 100 µs becomes suspected and the suspect map is written. (R414) -/
  | suspicionTimeout (m : Nat)
  /-- FENCE_MARKER: A fence marker arrives and counts toward the fence of its generation. (R426) -/
  | fenceMarker (port src gen : Nat)
  /-- FENCE_TIMEOUT: A fence missing a marker after 10 ms is abandoned with result 3. (R402) -/
  | fenceTimeout
  /-- KILL_NOTICE: A kill notice lists a context's tag and is acknowledged after its writes are done. (R380) -/
  | killNotice (src tag : Nat)
  /-- KILL_ACK: A kill acknowledgement arrives toward the kill fence. (R380) -/
  | killAck (src tag : Nat)
  /-- STRIPE_REQUEST: A peer serves or refuses a stripe read through its snapshot view. (R417) -/
  | stripeRequest (p : Packet)
  /-- STRIPE_DATA: Stripe data arrive and the reel writes them, completing when all stripes end. (R419) -/
  | stripeData (p : Packet)
  /-- STRIPE_TIMEOUT: An unanswered stripe after 1 ms is retried from ALTRANK or counted failed. (R419) -/
  | stripeTimeout (k : Nat)
  /-- ATS_TRANSLATION_COMPLETION: An outstanding ATS translation request returns, filling the die's translation cache and freeing a request slot for held misses. (R381) -/
  | atsTranslationCompletion (die ctx va : Nat) (result : Option Mapping)
  /-- JUNCTION_TEMPERATURE_CHANGE: A core's junction temperature crosses 100 °C, and the accumulator refresh period switches between 4,096 and 2,048 cycles at the next multiple of 4,096. (R148) -/
  | junctionTemperatureChange (core : Nat) (hot : Bool)
  /-- PORT_UP: A fabric port that went down returns to service, and chunks waiting on its plane proceed. (R408) -/
  | portUp (port : Nat)
  /-- HEARTBEAT_MISS: Five consecutive heartbeats from a peer are missed on one plane, and that plane becomes down for that peer. (R414) -/
  | heartbeatMiss (peer port : Nat)
  deriving DecidableEq, Repr

end Sys2Proof
end

