-- ==== Sys2Proof/Decode.lean ====
section
/-! DEFINITION. Decoding of 64-bit words and its inverse: the opcode map of R83 and the field layout of R74 and R75. Decoding is
total: a word whose opcode is unassigned, or is a clause header's, is rejected by name. What a decoded word's fields may hold is the
business of the clause-start checks of R82 (Machine/Shape.lean). -/

namespace Sys2Proof

/-- Why a word is no instruction (check 5 of R82). -/
inductive DecodeError where
  | header
  | unassigned (opcode : BitVec 8)
  deriving DecidableEq, Repr

/-- The fields below the opcode (R74, R75). -/
def Fields.ofWord (w : DWord) : Fields where
  dst := w.extractLsb' 48 8
  opa := w.extractLsb' 40 8
  opb := w.extractLsb' 32 8
  opc := w.extractLsb' 24 8
  tyc := w.extractLsb' 20 4
  opx := w.extractLsb' 14 6
  ge := w.getLsbD 13
  rnd := w.extractLsb' 10 3
  lr := w.extractLsb' 7 3
  guard := w.extractLsb' 0 7

/-- The word of an opcode and its fields (R74, R75). -/
def Fields.toWord (op : BitVec 8) (f : Fields) : DWord :=
  op ++ f.dst ++ f.opa ++ f.opb ++ f.opc ++ f.tyc ++ f.opx ++ BitVec.ofBool f.ge ++ f.rnd ++ f.lr ++ f.guard

/-- The instruction of an opcode (R83), on the fields given. -/
def Instr.ofOpcode (op : Nat) (f : Fields) : Option Instr :=
  match op with
  | 0x00 => some (.iaddReg f)
  | 0x10 => some (.iaddImm f)
  | 0x01 => some (.isubReg f)
  | 0x11 => some (.isubImm f)
  | 0x02 => some (.imulReg f)
  | 0x12 => some (.imulImm f)
  | 0x03 => some (.imulh f)
  | 0x04 => some (.imad f)
  | 0x05 => some (.iminReg f)
  | 0x14 => some (.iminImm f)
  | 0x06 => some (.imaxReg f)
  | 0x15 => some (.imaxImm f)
  | 0x07 => some (.iabs f)
  | 0x08 => some (.addc f)
  | 0x09 => some (.subb f)
  | 0x0A => some (.iaddw f)
  | 0x0B => some (.imadw f)
  | 0x0C => some (.idot4 f)
  | 0x0D => some (.isad f)
  | 0x0E => some (.popc f)
  | 0x0F => some (.clz f)
  | 0x20 => some (.andReg f)
  | 0x16 => some (.andImm f)
  | 0x21 => some (.orReg f)
  | 0x17 => some (.orImm f)
  | 0x22 => some (.xorReg f)
  | 0x18 => some (.xorImm f)
  | 0x23 => some (.tern f)
  | 0x24 => some (.shlReg f)
  | 0x19 => some (.shlImm f)
  | 0x25 => some (.shrReg f)
  | 0x1A => some (.shrImm f)
  | 0x26 => some (.sarReg f)
  | 0x1B => some (.sarImm f)
  | 0x27 => some (.fshlReg f)
  | 0x1C => some (.fshlImm f)
  | 0x28 => some (.fshrReg f)
  | 0x1D => some (.fshrImm f)
  | 0x29 => some (.brev f)
  | 0x2A => some (.bfxReg f)
  | 0x1E => some (.bfxImm f)
  | 0x2B => some (.bfiReg f)
  | 0x1F => some (.bfiImm f)
  | 0x2C => some (.perm f)
  | 0x2D => some (.sel f)
  | 0x2E => some (.mov f)
  | 0x13 => some (.movi f)
  | 0x2F => some (.p2v f)
  | 0x33 => some (.v2p f)
  | 0x30 => some (.icmp f)
  | 0x31 => some (.fcmp f)
  | 0x32 => some (.plop f)
  | 0x34 => some (.pick f)
  | 0x35 => some (.pgath f)
  | 0x36 => some (.sred f)
  | 0x37 => some (.redl f)
  | 0x38 => some (.cvt f)
  | 0x39 => some (.qpack f)
  | 0x3A => some (.qunpk f)
  | 0x3B => some (.qscale f)
  | 0x3C => some (.pradd f)
  | 0x3D => some (.prmul f)
  | 0x3E => some (.prfma f)
  | 0x40 => some (.faddReg f)
  | 0x4B => some (.faddImm f)
  | 0x41 => some (.fmulReg f)
  | 0x4C => some (.fmulImm f)
  | 0x42 => some (.ffmaReg f)
  | 0x4D => some (.ffmaImm f)
  | 0x43 => some (.fminReg f)
  | 0x4E => some (.fminImm f)
  | 0x44 => some (.fmaxReg f)
  | 0x4F => some (.fmaxImm f)
  | 0x45 => some (.fdiv f)
  | 0x46 => some (.fsqrt f)
  | 0x47 => some (.frcp f)
  | 0x48 => some (.frsq f)
  | 0x49 => some (.fexp2 f)
  | 0x4A => some (.flog2 f)
  | 0x50 => some (.bra f)
  | 0x51 => some (.brx f)
  | 0x52 => some (.beod f)
  | 0x53 => some (.call f)
  | 0x54 => some (.ret f)
  | 0x55 => some (.rejoin f)
  | 0x56 => some (.exit f)
  | 0x57 => some (.nop f)
  | 0x58 => some (.getsr f)
  | 0x59 => some (.setsr f)
  | 0x5A => some (.grow f)
  | 0x5B => some (.shrink f)
  | 0x5C => some (.setrestart f)
  | 0x5D => some (.trap f)
  | 0x5E => some (.bkpt f)
  | 0x60 => some (.ld f)
  | 0x61 => some (.st f)
  | 0x62 => some (.lds f)
  | 0x63 => some (.sts f)
  | 0x64 => some (.gather f)
  | 0x65 => some (.scatter f)
  | 0x66 => some (.cpin f)
  | 0x67 => some (.cpout f)
  | 0x68 => some (.atom f)
  | 0x69 => some (.atomv f)
  | 0x6A => some (.red f)
  | 0x6B => some (.prefetch f)
  | 0x6C => some (.flush f)
  | 0x6D => some (.invl1 f)
  | 0x6E => some (.fence f)
  | 0x6F => some (.fencex f)
  | 0x70 => some (.waitc f)
  | 0x71 => some (.qinit f)
  | 0x72 => some (.qpush f)
  | 0x73 => some (.qpop f)
  | 0x74 => some (.tbar f)
  | 0x75 => some (.propose f)
  | 0x76 => some (.docrd f)
  | 0x77 => some (.recycle f)
  | 0x80 => some (.resv f)
  | 0x81 => some (.rels f)
  | 0x82 => some (.cpob f)
  | 0x83 => some (.mma f)
  | 0x84 => some (.mmaw f)
  | 0x85 => some (.accalloc f)
  | 0x86 => some (.accfree f)
  | 0x87 => some (.acczero f)
  | 0x88 => some (.accrd f)
  | 0x89 => some (.accwr f)
  | 0x8A => some (.drain f)
  | 0x90 => some (.wbind f)
  | 0x91 => some (.wreset f)
  | 0x92 => some (.fgstart f)
  | 0x93 => some (.fgwait f)
  | 0x94 => some (.spush f)
  | 0xA0 => some (.fetch f)
  | 0xA1 => some (.commit f)
  | 0xA2 => some (.abandon f)
  | 0xA3 => some (.enq f)
  | 0xA4 => some (.wrapret f)
  | 0xB0 => some (.rget f)
  | 0xB1 => some (.rput f)
  | 0xB2 => some (.mcast f)
  | 0xB3 => some (.cred f)
  | 0xB4 => some (.genfence f)
  | 0xB5 => some (.snap f)
  | 0xB6 => some (.join f)
  | 0xE0 => some (.imx f)
  | 0xE1 => some (.msk f)
  | _ => none

/-- The opcode and fields of an instruction; an event has none (R83). -/
def Instr.opcode : Instr → Option (BitVec 8 × Fields)
  | .iaddReg f => some (0x00, f)
  | .iaddImm f => some (0x10, f)
  | .isubReg f => some (0x01, f)
  | .isubImm f => some (0x11, f)
  | .imulReg f => some (0x02, f)
  | .imulImm f => some (0x12, f)
  | .imulh f => some (0x03, f)
  | .imad f => some (0x04, f)
  | .iminReg f => some (0x05, f)
  | .iminImm f => some (0x14, f)
  | .imaxReg f => some (0x06, f)
  | .imaxImm f => some (0x15, f)
  | .iabs f => some (0x07, f)
  | .addc f => some (0x08, f)
  | .subb f => some (0x09, f)
  | .iaddw f => some (0x0A, f)
  | .imadw f => some (0x0B, f)
  | .idot4 f => some (0x0C, f)
  | .isad f => some (0x0D, f)
  | .popc f => some (0x0E, f)
  | .clz f => some (0x0F, f)
  | .andReg f => some (0x20, f)
  | .andImm f => some (0x16, f)
  | .orReg f => some (0x21, f)
  | .orImm f => some (0x17, f)
  | .xorReg f => some (0x22, f)
  | .xorImm f => some (0x18, f)
  | .tern f => some (0x23, f)
  | .shlReg f => some (0x24, f)
  | .shlImm f => some (0x19, f)
  | .shrReg f => some (0x25, f)
  | .shrImm f => some (0x1A, f)
  | .sarReg f => some (0x26, f)
  | .sarImm f => some (0x1B, f)
  | .fshlReg f => some (0x27, f)
  | .fshlImm f => some (0x1C, f)
  | .fshrReg f => some (0x28, f)
  | .fshrImm f => some (0x1D, f)
  | .brev f => some (0x29, f)
  | .bfxReg f => some (0x2A, f)
  | .bfxImm f => some (0x1E, f)
  | .bfiReg f => some (0x2B, f)
  | .bfiImm f => some (0x1F, f)
  | .perm f => some (0x2C, f)
  | .sel f => some (0x2D, f)
  | .mov f => some (0x2E, f)
  | .movi f => some (0x13, f)
  | .p2v f => some (0x2F, f)
  | .v2p f => some (0x33, f)
  | .icmp f => some (0x30, f)
  | .fcmp f => some (0x31, f)
  | .plop f => some (0x32, f)
  | .pick f => some (0x34, f)
  | .pgath f => some (0x35, f)
  | .sred f => some (0x36, f)
  | .redl f => some (0x37, f)
  | .cvt f => some (0x38, f)
  | .qpack f => some (0x39, f)
  | .qunpk f => some (0x3A, f)
  | .qscale f => some (0x3B, f)
  | .pradd f => some (0x3C, f)
  | .prmul f => some (0x3D, f)
  | .prfma f => some (0x3E, f)
  | .faddReg f => some (0x40, f)
  | .faddImm f => some (0x4B, f)
  | .fmulReg f => some (0x41, f)
  | .fmulImm f => some (0x4C, f)
  | .ffmaReg f => some (0x42, f)
  | .ffmaImm f => some (0x4D, f)
  | .fminReg f => some (0x43, f)
  | .fminImm f => some (0x4E, f)
  | .fmaxReg f => some (0x44, f)
  | .fmaxImm f => some (0x4F, f)
  | .fdiv f => some (0x45, f)
  | .fsqrt f => some (0x46, f)
  | .frcp f => some (0x47, f)
  | .frsq f => some (0x48, f)
  | .fexp2 f => some (0x49, f)
  | .flog2 f => some (0x4A, f)
  | .bra f => some (0x50, f)
  | .brx f => some (0x51, f)
  | .beod f => some (0x52, f)
  | .call f => some (0x53, f)
  | .ret f => some (0x54, f)
  | .rejoin f => some (0x55, f)
  | .exit f => some (0x56, f)
  | .nop f => some (0x57, f)
  | .getsr f => some (0x58, f)
  | .setsr f => some (0x59, f)
  | .grow f => some (0x5A, f)
  | .shrink f => some (0x5B, f)
  | .setrestart f => some (0x5C, f)
  | .trap f => some (0x5D, f)
  | .bkpt f => some (0x5E, f)
  | .ld f => some (0x60, f)
  | .st f => some (0x61, f)
  | .lds f => some (0x62, f)
  | .sts f => some (0x63, f)
  | .gather f => some (0x64, f)
  | .scatter f => some (0x65, f)
  | .cpin f => some (0x66, f)
  | .cpout f => some (0x67, f)
  | .atom f => some (0x68, f)
  | .atomv f => some (0x69, f)
  | .red f => some (0x6A, f)
  | .prefetch f => some (0x6B, f)
  | .flush f => some (0x6C, f)
  | .invl1 f => some (0x6D, f)
  | .fence f => some (0x6E, f)
  | .fencex f => some (0x6F, f)
  | .waitc f => some (0x70, f)
  | .qinit f => some (0x71, f)
  | .qpush f => some (0x72, f)
  | .qpop f => some (0x73, f)
  | .tbar f => some (0x74, f)
  | .propose f => some (0x75, f)
  | .docrd f => some (0x76, f)
  | .recycle f => some (0x77, f)
  | .resv f => some (0x80, f)
  | .rels f => some (0x81, f)
  | .cpob f => some (0x82, f)
  | .mma f => some (0x83, f)
  | .mmaw f => some (0x84, f)
  | .accalloc f => some (0x85, f)
  | .accfree f => some (0x86, f)
  | .acczero f => some (0x87, f)
  | .accrd f => some (0x88, f)
  | .accwr f => some (0x89, f)
  | .drain f => some (0x8A, f)
  | .wbind f => some (0x90, f)
  | .wreset f => some (0x91, f)
  | .fgstart f => some (0x92, f)
  | .fgwait f => some (0x93, f)
  | .spush f => some (0x94, f)
  | .fetch f => some (0xA0, f)
  | .commit f => some (0xA1, f)
  | .abandon f => some (0xA2, f)
  | .enq f => some (0xA3, f)
  | .wrapret f => some (0xA4, f)
  | .rget f => some (0xB0, f)
  | .rput f => some (0xB1, f)
  | .mcast f => some (0xB2, f)
  | .cred f => some (0xB3, f)
  | .genfence f => some (0xB4, f)
  | .snap f => some (0xB5, f)
  | .join f => some (0xB6, f)
  | .imx f => some (0xE0, f)
  | .msk f => some (0xE1, f)
  | .reconvergencePark _ => none
  | .waitConditionMet _ => none
  | .activeSlotFill _ _ => none
  | .forcedSwap _ _ => none
  | .teamEntry _ _ => none
  | .scoreboardRebuild _ => none
  | .bankDrowsy _ _ _ => none
  | .accRefreshSlot _ _ _ => none
  | .wcEntryAgeDrain _ _ => none
  | .copyComplete _ => none
  | .cpobComplete _ => none
  | .flushComplete _ => none
  | .mmaAccept _ => none
  | .mmaResultWrite _ => none
  | .accumulatorReclaim _ => none
  | .atomicUnitRequest _ => none
  | .announcementDelivery => none
  | .sectorFetchReply _ => none
  | .cellRequestAtHome _ => none
  | .walkEntryGenerate _ _ => none
  | .sliceContextGrant _ => none
  | .taskEnd _ => none
  | .tiebreakTimeout _ => none
  | .taskReplay _ => none
  | .trapWithoutReplay _ => none
  | .doorbellWrite _ _ => none
  | .nopCommand _ => none
  | .launch _ => none
  | .signal _ => none
  | .launchPlacement _ => none
  | .launchComplete _ => none
  | .mappingEvaluation => none
  | .extensionRefill _ => none
  | .diversion _ => none
  | .deadlineOverrun _ => none
  | .watchdogExpiry _ => none
  | .preemption _ => none
  | .contextRestore _ => none
  | .deferredActivation => none
  | .pageRequestResponse _ _ _ => none
  | .pageRequestRetry _ => none
  | .holdRetry _ => none
  | .migration _ _ _ _ => none
  | .granuleCopyComplete _ _ _ _ => none
  | .viewEnded _ => none
  | .scrubVisit _ _ _ => none
  | .moduleReset _ => none
  | .thermalThrottle _ => none
  | .thermalShutdown => none
  | .ptpMessage _ => none
  | .syncLoss => none
  | .mailboxInstallQueue _ _ => none
  | .mailboxRemoveQueue _ => none
  | .mailboxCancelLaunch _ => none
  | .mailboxPreempt _ => none
  | .mailboxKillContext _ => none
  | .mailboxResumeSwarm _ _ => none
  | .mailboxFirmwareImage _ _ => none
  | .mailboxTrapArea _ _ _ _ _ => none
  | .trapReadIndexWrite _ _ => none
  | .mailboxWatchdogLimit _ _ => none
  | .mailboxCounterSelect _ _ _ => none
  | .mailboxCounterRead _ _ => none
  | .mailboxPowerCap _ => none
  | .mailboxReenablePageRequests _ => none
  | .mailboxBindFabricOwner _ _ _ => none
  | .mailboxWatchList _ => none
  | .mailboxSuspectMap _ => none
  | .mailboxCollectiveArea _ _ => none
  | .keyInstall _ => none
  | .registerWriteIgnored _ _ => none
  | .debugHalt _ => none
  | .debugResume _ => none
  | .flitReceive _ _ => none
  | .rgetRequest _ => none
  | .rgetData _ => none
  | .rputData _ => none
  | .acknowledgement _ => none
  | .transferAckTimeout _ => none
  | .contribution _ => none
  | .switchResult _ => none
  | .cellRequest _ => none
  | .cellReply _ => none
  | .cellReplyTimeout _ => none
  | .heartbeat _ _ => none
  | .heartbeatTimer => none
  | .suspicionTimeout _ => none
  | .fenceMarker _ _ _ => none
  | .fenceTimeout => none
  | .killNotice _ _ => none
  | .killAck _ _ => none
  | .stripeRequest _ => none
  | .stripeData _ => none
  | .stripeTimeout _ => none
  | .atsTranslationCompletion _ _ _ _ => none
  | .junctionTemperatureChange _ _ => none
  | .portUp _ => none
  | .heartbeatMiss _ _ => none

/-- The opcode field of a word. -/
def opcodeOf (w : DWord) : BitVec 8 := w.extractLsb' 56 8

/-- The instruction a word encodes, or why it is none (R74, R83, check 5 of R82). -/
def decodeWord (w : DWord) : Except DecodeError Instr :=
  match Instr.ofOpcode (opcodeOf w).toNat (Fields.ofWord w) with
  | some i => .ok i
  | none => if 0xF0 ≤ (opcodeOf w).toNat then .error .header else .error (.unassigned (opcodeOf w))

/-- The little-endian value of a list of bytes (R7). -/
def bytesToNat : List Byte → Nat
  | [] => 0
  | b :: bs => b.toNat + 256 * bytesToNat bs

/-- The n low bytes of a value, lowest first (R7). -/
def natToBytes : Nat → Nat → List Byte
  | 0, _ => []
  | n + 1, v => BitVec.ofNat 8 v :: natToBytes n (v / 256)

/-- Decoding from bytes as memory holds them: eight bytes make one word, and the rest is handed back (R7, R67). -/
def decode (bytes : List Byte) : Option (Except DecodeError Instr × List Byte) :=
  match bytes with
  | b0 :: b1 :: b2 :: b3 :: b4 :: b5 :: b6 :: b7 :: rest =>
    some (decodeWord (BitVec.ofNat 64 (bytesToNat [b0, b1, b2, b3, b4, b5, b6, b7])), rest)
  | _ => none

/-- The word of an instruction; an event has none. -/
def encode (i : Instr) : Option DWord :=
  i.opcode.map fun p => p.2.toWord p.1

/-- The instruction the decoder reads from a word numbered as spec/opcode_table.json numbers it: the word's bytes are laid out
little-endian and handed to the decoder. -/
def decodeTableWord (_nbits w : Nat) : Option Instr :=
  match decode (natToBytes 8 w) with
  | some (.ok i, _) => some i
  | _ => none

end Sys2Proof
end

