-- ==== Sys2Proof/Machine/Shape.lean ====
section
/-! DEFINITION. What each instruction's word may hold (R75 to R81, R84 and the entries), as one table of shapes, and the word checks 6
to 11 of R82 over it. -/

namespace Sys2Proof

/-- What an operand byte of a word names (R75, R77, R193). -/
inductive Use where
  /-- reserved, 0x00 -/
  | un
  /-- part of an immediate, an offset or a field checked elsewhere -/
  | imm
  /-- one register, stream register or constant, read -/
  | src
  /-- a vector register or constant, read (WAITC) -/
  | srcV
  /-- an even pair or the constant zero, read -/
  | pair
  /-- a quad or the constant zero, read: ST.Q and STS.Q, both stores, and FGSTART by its own entry (R77, R288; log 78) -/
  | quadZ
  /-- a quad, read -/
  | quad
  /-- an even register with its successor, read -/
  | even
  /-- one register, a pair or a quad, written -/
  | dst
  | dstPair
  | dstQuad
  /-- one register, a pair or a quad, read and written -/
  | rw
  | rwPair
  | rwQuad
  /-- a stream register, written (SPUSH) -/
  | stream
  /-- a predicate -/
  | pred
  /-- an accumulator name, a reservation handle, an exception counter -/
  | acc
  | handle
  | counter
  /-- a quarter block of an MMA, or zero (R200) -/
  | quarter
  /-- a SEL value the entry lists or not; an unlisted one traps IllegalInstruction, or ReservedField by the entry's word -/
  | sel (listed : Bool)
  | selReserved (listed : Bool)
  deriving DecidableEq, Repr

/-- The three readings of bits 12:10 (R74, R78). -/
inductive RndRule where
  | rounds
  | reserved
  | scope (ok : Bool)
  deriving DecidableEq, Repr

/-- What a word may hold: its operand bytes, whether its MOD and immediate are admitted, its RND or SCOPE, guard and last-read bits. -/
structure Shape where
  dst : Use
  opa : Use
  opb : Use
  opc : Use
  /-- TYPE, OPX or a MOD assigned whole are admitted (R76) -/
  modOk : Bool
  /-- unused bits of IMM18 are zero -/
  immOk : Bool
  rnd : RndRule
  guard : Bool
  lr : BitVec 3
  deriving DecidableEq, Repr

namespace Shape

/-- Integer TYPEs of the A forms of R96. -/
def packed : List Ty := [.s8, .s16, .s32, .n8, .n16, .n32]
/-- 32-bit integer TYPEs. -/
def int32 : List Ty := [.s32, .n32]

/-- A register form of Format A or C. -/
def a (dst opa opb opc : Use) (modOk : Bool) (rnd : Bool := false) : Shape :=
  ⟨dst, opa, opb, opc, modOk, true, if rnd then .rounds else .reserved, true, 7⟩

/-- An immediate form of Format B. -/
def b (dst opa : Use) (modOk : Bool) (rnd : Bool := false) : Shape :=
  ⟨dst, opa, .imm, .imm, modOk, true, if rnd then .rounds else .reserved, true, 7⟩

/-- A label form of Format D. -/
def d (modOk guard : Bool) : Shape := ⟨.imm, .imm, .imm, .imm, modOk, true, .reserved, guard, 0⟩

/-- A memory form of Format E. -/
def e (data : Use) (modOk : Bool) (rnd : RndRule := .reserved) (guard : Bool := true) (lr : BitVec 3 := 3) : Shape :=
  ⟨data, .pair, .imm, .imm, modOk, true, rnd, guard, lr⟩

/-- A matrix form of Format F. Its guard is the entry's: R193 admits one on CPOB, ACCRD and ACCWR, where R74 reserves GE and GUARD in
all of Format F; the model follows R193 (log 78). -/
def m (acc opa opb opc : Use) (modOk guard : Bool) (lr : BitVec 3 := 7) : Shape :=
  ⟨acc, opa, opb, opc, modOk, true, .reserved, guard, lr⟩

/-- A system form of Format G. -/
def g (dst opa sel : Use) (immOk : Bool) (guard : Bool) (rnd : RndRule := .reserved) (lr : BitVec 3 := 1) : Shape :=
  ⟨dst, opa, sel, .imm, true, immOk, rnd, guard, lr⟩

end Shape

/-- The special registers R18 lists. -/
def srListed (n : BitVec 8) : Bool :=
  let k := n.toNat
  k ≤ 4 || (8 ≤ k && k ≤ 0x16) || k = 0x18 || k = 0x19 || (0x20 ≤ k && k ≤ 0x27)

/-- The special registers of 64 bits (R125). -/
def srWide (n : BitVec 8) : Bool :=
  n.toNat ∈ [0x0F, 0x12, 0x13, 0x15, 0x16]

/-- TYPE admitted, and OPX below a bound that the entry's modifiers fill (R76). -/
def tyIn (f : Fields) (ts : List Ty) : Bool := decide (f.ty ∈ ts)
/-- OPX holds the integer saturation bit alone (R94). -/
def opxSat (f : Fields) : Bool := f.opx.toNat ≤ 1
/-- OPX bits 1:0 are the saturation select (R94). -/
def opxSf (f : Fields) : Bool := f.opx.toNat ≤ 2
/-- OPX is zero. -/
def opx0 (f : Fields) : Bool := decide (f.opx = 0)
/-- The source TYPE of CVT (R110). -/
def cvtSrc (f : Fields) : Ty := Ty.ofCode (f.opx.extractLsb' 0 4)
/-- Register width class of a TYPE: whether it takes a pair (R50, R110). -/
def Ty.wide : Ty → Bool
  | .s64 | .n64 => true
  | _ => false
/-- TYPEs that read as floating point (R41). -/
def Ty.isFloat : Ty → Bool
  | .f32 | .f16 | .bf16 | .e4m3 | .e5m2 => true
  | _ => false
/-- TYPEs read as signed (R50, R79). -/
def Ty.signed : Ty → Bool
  | .s8 | .s16 | .s32 | .s64 | .s4 => true
  | _ => false

/-- SRED and REDL: OP, X and SF of R116. -/
def sredOk (f : Fields) : Bool :=
  let op := (f.opx.extractLsb' 0 3).toNat
  let x := f.opx.getLsbD 3
  let sf := (f.opx.extractLsb' 4 2).toNat
  op ≤ 5 && (f.ty ≠ .f32 || op ≤ 2) && (!x || (f.ty = .f32 && op = 0)) && sf ≠ 3
    && (sf = 0 || (f.ty = .f32 && op = 0 && !x))

/-- ORD and SCOPE agree (R167, R176). -/
def ordScope (ord : Nat) (f : Fields) : Bool := (ord = 0) = (f.rnd = 0)

/-- LD and ST: ORD, HOME, Q of R167. -/
def memOk (f : Fields) (ord : Nat) : Bool :=
  let o := (f.opx.extractLsb' 0 2).toNat
  let q := f.opx.getLsbD 3
  (o = 0 || o = ord) && (f.opx.extractLsb' 4 2).toNat = 0 &&
    (if q then f.ty = .none else tyIn f [.s8, .s16, .s32, .s64, .n8, .n16, .n32, .n64]) && ordScope o f

/-- Width class of LD, ST, LDS, STS data (R167). -/
def memData (f : Fields) (one two four : Use) : Use :=
  if f.opx.getLsbD 3 then four else if f.ty.wide then two else one

/-- OP of an atomic (R176). -/
def atomOp (f : Fields) : Nat := (f.opx.extractLsb' 0 4).toNat
/-- ORD of an atomic (R176). -/
def atomOrd (f : Fields) : Nat := (f.opx.extractLsb' 4 2).toNat

/-- The combinations R176 admits. -/
def atomOk (f : Fields) (red : Bool) : Bool :=
  let op := atomOp f
  let ord := atomOrd f
  (match f.ty with
    | .s32 | .n32 | .s64 | .n64 => op ≤ 9
    | .f32 => op = 0 || op = 1 || op = 2 || op = 6
    | _ => false) && ordScope ord f && (!red || (op ≠ 6 && op ≠ 7 && (ord = 0 || ord = 2)))

/-- DATA of an atomic (R176). -/
def atomData (f : Fields) : Use :=
  let cas := atomOp f = 7
  if f.ty.wide then (if cas then .rwQuad else .rwPair) else if cas then .rwPair else .rw

/-- The format pairs of MMA (R192). -/
def mmaPair (f : Fields) : Bool :=
  let bt := f.opx.toNat
  match f.ty with
  | .bf16 => bt = 11
  | .e4m3 | .e5m2 => bt = 12 || bt = 13
  | .s8 => bt = 1
  | .q16 => bt = 12 || bt = 13
  | _ => false

/-- The shape of an instruction's word (the entries of chapters 04, 06, 07, 10, 11, 12 and 15); an event has none. -/
def Instr.shape : Instr → Option (Shape × Fields)
  | .iaddReg f | .isubReg f => some (.a .dst .src .src .un (tyIn f Shape.packed && opxSat f), f)
  | .iminReg f | .imaxReg f => some (.a .dst .src .src .un (tyIn f Shape.packed && opx0 f), f)
  | .imulReg f => some (.a .dst .src .src .un (tyIn f Shape.int32 && opxSat f), f)
  | .imulh f => some (.a .dst .src .src .un (tyIn f Shape.int32 && opx0 f), f)
  | .imad f => some (.a .dst .src .src .src (tyIn f Shape.int32 && opxSat f), f)
  | .iabs f => some (.a .dst .src .un .un (tyIn f [.s8, .s16, .s32] && opxSat f), f)
  | .iaddImm f | .isubImm f | .imulImm f => some (.b .dst .src (tyIn f Shape.int32 && opxSat f), f)
  | .iminImm f | .imaxImm f => some (.b .dst .src (tyIn f Shape.int32 && opx0 f), f)
  | .addc f | .subb f => some (.a .dst .src .src .pred (tyIn f [.n32] && opx0 f), f)
  | .iaddw f => some (.a .dstPair .pair .pair .un (tyIn f [.s64, .n64] && opxSat f), f)
  | .imadw f => some (.a .dstPair .src .src .pair (tyIn f [.s64, .n64] && opxSat f), f)
  | .idot4 f =>
    some (.a .dst .src .src .src
      ((tyIn f [.s8, .n8] && opxSat f) || (tyIn f [.e4m3, .e5m2] && opxSf f)) f.ty.isFloat, f)
  | .isad f => some (.a .dst .src .src .src (tyIn f [.s8, .n8] && opx0 f), f)
  | .popc f | .clz f | .brev f => some (.a .dst .src .un .un (tyIn f [.none] && opx0 f), f)
  | .andReg f | .orReg f | .xorReg f | .shlReg f | .shrReg f | .sarReg f =>
    some (.a .dst .src .src .un (tyIn f [.none] && opx0 f), f)
  | .andImm f | .orImm f | .xorImm f | .shlImm f | .shrImm f | .sarImm f =>
    some (.b .dst .src (tyIn f [.none] && opx0 f), f)
  | .tern f => some (.a .dst .src .src .src (decide (f.mod.extractLsb' 8 2 = 0)), f)
  | .fshlReg f | .fshrReg f => some (.a .dst .src .src .src (tyIn f [.none] && opx0 f), f)
  | .fshlImm f | .fshrImm f => some (.b .dst .pair (tyIn f [.none] && opx0 f), f)
  | .bfxReg f => some (.a .dst .src .src .un (tyIn f Shape.int32 && opx0 f), f)
  | .bfxImm f => some (.b .dst .src (tyIn f Shape.int32 && opx0 f), f)
  | .bfiReg f => some (.a .dst .src .src .src (tyIn f [.none] && opx0 f), f)
  | .bfiImm f => some (.b .dst .src (tyIn f [.none] && opx0 f), f)
  | .perm f => some (.a .dst .src .src .src (tyIn f [.none] && opx0 f), f)
  | .sel f => some (.a .dst .src .src .pred (tyIn f [.none] && opx0 f), f)
  | .mov f =>
    some (if f.ty = .n64 then .a .dstPair .pair .un .un (opx0 f) else .a .dst .src .un .un (tyIn f [.none] && opx0 f), f)
  | .movi f => some (.b .dst .un (tyIn f [.none, .s32, .n32, .f32] && opx0 f), f)
  | .p2v f => some (.a .dst .pred .un .un (tyIn f [.none] && opx0 f), f)
  | .v2p f => some (.a .pred .src .un .un (tyIn f [.none] && opx0 f), f)
  | .icmp f =>
    let u : Use := if f.ty.wide then .pair else .src
    let comb := (f.opx.extractLsb' 3 2).toNat
    some (.a .pred u u (if comb = 0 then .un else .pred)
      (tyIn f [.s32, .n32, .s64, .n64] && (f.opx.extractLsb' 0 3).toNat ≤ 5 && comb ≤ 2 && !f.opx.getLsbD 5), f)
  | .fcmp f =>
    let comb := (f.opx.extractLsb' 3 2).toNat
    some (.a .pred .src .src (if comb = 0 then .un else .pred)
      (tyIn f [.f32, .f16, .bf16] && comb ≤ 2 && !f.opx.getLsbD 5), f)
  | .plop f => some (.a .pred .pred .pred .pred (decide (f.mod.extractLsb' 8 2 = 0)), f)
  | .pick f => some (.a .dst .src .src .un (tyIn f [.none] && f.opx.toNat ≤ 3), f)
  | .pgath f => some (.a .dst .pred .un .un (tyIn f [.none] && f.opx.toNat ≤ 4), f)
  | .sred f => some (.a .dst .src .un .un (tyIn f [.s32, .n32, .f32] && sredOk f) f.ty.isFloat, f)
  | .redl f =>
    some ({ Shape.a .dst .src .src .src (tyIn f [.s32, .n32, .f32] && sredOk f) f.ty.isFloat with guard := false }, f)
  | .cvt f =>
    let s := cvtSrc f
    some (.a (if f.ty.wide then .dstPair else .dst) (if s.wide then .pair else .src) .un .un
      (!tyIn f [.none, .q16] && s ≠ .none && s ≠ .q16 && s ≠ f.ty && (f.opx.extractLsb' 4 2).toNat ≠ 3)
      (f.ty.isFloat || s.isFloat), f)
  | .qpack f => some (.a .rw .src .src .src (tyIn f [.q16] && opx0 f) true, f)
  | .qunpk f => some (.a .dst .src .src .src (tyIn f [.f32, .f16, .bf16] && opxSf f) true, f)
  | .qscale f => some (.a .dst .src .src .un (tyIn f [.q16] && opx0 f) true, f)
  | .pradd f | .prmul f => some (.a .dst .src .src .un (tyIn f [.f16, .bf16] && opxSf f) true, f)
  | .prfma f => some (.a .dst .src .src .src (tyIn f [.f16, .bf16] && opxSf f) true, f)
  | .faddReg f | .fmulReg f | .fdiv f => some (.a .dst .src .src .un (tyIn f [.f32] && opxSf f) true, f)
  | .ffmaReg f => some (.a .dst .src .src .src (tyIn f [.f32] && opxSf f) true, f)
  | .fminReg f | .fmaxReg f => some (.a .dst .src .src .un (tyIn f [.f32] && opx0 f) true, f)
  | .fsqrt f | .frcp f | .frsq f | .fexp2 f | .flog2 f => some (.a .dst .src .un .un (tyIn f [.f32] && opxSf f) true, f)
  | .faddImm f | .fmulImm f => some (.b .dst .src (tyIn f [.f32] && opxSf f) true, f)
  | .ffmaImm f => some (.b .rw .src (tyIn f [.f32] && opxSf f) true, f)
  | .fminImm f | .fmaxImm f => some (.b .dst .src (tyIn f [.f32] && opx0 f) true, f)
  | .bra f => some (.d (decide (f.mod = 0)) true, f)
  | .brx f => some (.a .un .pair .un .un (tyIn f [.none] && opx0 f), f)
  | .beod f => some (.d (decide (f.mod.extractLsb' 0 2 = 0) && (f.mod.extractLsb' 3 3).toNat ≤ 7) true, f)
  | .call f =>
    let link := f.mod.extractLsb' 2 8
    some (.d (decide (f.mod.extractLsb' 0 2 = 0) && link.toNat < 128 && link.toNat % 2 = 0) true, f)
  | .ret f => some (.g .un .pair .un (decide (f.imm18 = 0)) true, f)
  | .rejoin f => some (.d (decide (f.mod = 0)) false, f)
  | .exit f => some (.g .un .un .un (decide (f.imm18 = 0)) true, f)
  | .nop f => some (.g .un .un .un (decide (f.imm18 = 0)) false, f)
  | .getsr f =>
    some (.g (if srWide f.sel then .dstPair else .dst) .un (.selReserved (srListed f.sel)) (decide (f.imm18 = 0)) true, f)
  | .setsr f => some (.g .un .src (.selReserved (srListed f.sel)) (decide (f.imm18 = 0)) false, f)
  | .grow f => some (.g (if f.sel = 1 then .pred else .un) .un (.sel (f.sel.toNat ≤ 1)) true false, f)
  | .shrink f => some (.g .un .un .un true false, f)
  | .setrestart f => some (.d (decide (f.mod = 0)) false, f)
  | .trap f | .bkpt f => some (.g .un .un .un (f.imm18.toNat < 256) true, f)
  | .ld f => some (.e (memData f .dst .dstPair .dstQuad) (memOk f 1) (.scope true), f)
  | .st f => some (.e (memData f .src .pair .quadZ) (memOk f 2) (.scope true), f)
  | .lds f => some (.e (memData f .dst .dstPair .dstQuad) (memOk f 0 && !f.opx.getLsbD 2) (.scope (f.rnd = 0)), f)
  | .sts f => some (.e (memData f .src .pair .quadZ) (memOk f 0 && !f.opx.getLsbD 2) (.scope (f.rnd = 0)), f)
  | .gather f | .scatter f => some (.e .quad (tyIn f [.n8, .n16, .n32, .n64] && opx0 f) .reserved false, f)
  | .cpin f | .cpout f => some (.e .pair (tyIn f [.none] && opx0 f), f)
  | .atom f | .atomv f => some (.e (atomData f) (atomOk f false) (.scope true), f)
  | .red f => some (.e (if f.ty.wide then .pair else .src) (atomOk f true) (.scope true), f)
  | .prefetch f => some (.e .un (tyIn f [.none] && f.opx.toNat ≤ 1), f)
  | .flush f => some (.e .src (tyIn f [.none] && opx0 f), f)
  | .invl1 f => some (.g .un (if f.sel = 1 then .pair else .un) (.sel (f.sel.toNat ≤ 1)) (f.sel = 1 || decide (f.imm18 = 0)) true, f)
  | .fence f =>
    some (.g .un .un (.sel (1 ≤ f.sel.toNat && f.sel.toNat ≤ 3)) (decide (f.imm18 = 0)) false (.scope (f.rnd ≠ 0)), f)
  | .fencex f =>
    let i := f.imm18.toNat
    some ({ Shape.g .un .un .un (i / 2 ^ 7 % 2 = 0 && i / 2 ^ 15 = 0) false with
      modOk := i % 128 ≠ 0 && i / 2 ^ 8 % 128 ≠ 0 }, f)
  -- R182 names a trap for path code 7; the codes above it are unlisted values of R75 (log 98)
  | .waitc f => some (.g .un .srcV (if f.sel = 7 then .selReserved false else .sel (decide (f.sel.toNat ≤ 6))) (f.imm18.toNat < 128) false, f)
  | .qinit f =>
    some ({ Shape.g .un .src (.selReserved (f.sel.toNat < 32)) (f.imm18.toNat < 2 ^ 16) true with
      modOk := f.imm18.toNat / 2 ^ 8 % 4 ≠ 3 }, f)
  | .qpush f => some (.g .un .src (.selReserved (f.sel.toNat < 32)) (f.imm18.toNat < 128) true, f)
  | .qpop f => some (.g .dst .un (.selReserved (f.sel.toNat < 32)) (f.imm18.toNat < 128) true, f)
  | .tbar f => some (.g .un .un .un (f.imm18.toNat < 16) false (.scope (f.rnd = 2 || f.rnd = 3)), f)
  | .propose f | .docrd f => some (.e (if f.ty = .n64 then .rwQuad else .even) (tyIn f [.n64, .none]) (.scope true) true 1, f)
  | .recycle f => some (.e .src (tyIn f [.none] && opx0 f) (.scope (f.rnd = 0)), f)
  | .resv f =>
    let q := f.ty = .q16
    some (.m .handle .src (if q then .src else .un) (if q then .src else .un)
      (tyIn f [.s8, .f32, .bf16, .e4m3, .e5m2, .q16] && opx0 f) false, f)
  | .rels f => some (.m .handle .un .un .un (tyIn f [.none] && opx0 f) false, f)
  | .cpob f => some (.m .handle .pair .src .src (tyIn f [.none] && f.opx.toNat ≤ 1) true, f)
  | .mma f => some (.m .acc .handle .quarter .src (mmaPair f) false 6, f)
  | .mmaw f => some (.m .acc .handle .quarter .src (tyIn f [.f32] && f.opx.toNat = 9) false 6, f)
  | .accalloc f => some (.m .acc (if f.opx = 1 then .pred else .un) .un .un (tyIn f [.none] && f.opx.toNat ≤ 1) false, f)
  | .accfree f => some (.m .acc .un .un .un (tyIn f [.none] && opx0 f) false, f)
  | .acczero f => some (.m (if f.opx = 1 then .un else .acc) .un .un .un (tyIn f [.none] && f.opx.toNat ≤ 1) false, f)
  | .accrd f =>
    let exc := f.opx.toNat = 2
    some (.m (if exc then .counter else .acc) .dst (if exc then .un else .src) .un (tyIn f [.none] && f.opx.toNat ≤ 2) true 2, f)
  | .accwr f => some (.m .acc .src .src .un (tyIn f [.none] && f.opx.toNat ≤ 1) true 3, f)
  | .drain f =>
    let out := (f.opx.extractLsb' 0 2).toNat
    let sat := f.opx.getLsbD 3
    some (.m .acc .pair .src .src
      (tyIn f [.s32, .f32, .f16, .bf16] && (f.opx.extractLsb' 4 2).toNat = 0 && out ≠ 3 && (out ≠ 2 || f.ty = .f32)
        && (!sat || (f.ty.isFloat && out ≤ 1))) false 0, f)
  | .wbind f => some (.g .un .pair (.sel (f.sel.toNat < 16)) (f.imm18.toNat < 4) false, f)
  | .wreset f => some (.g .un .un (.sel (f.sel.toNat ≤ 16)) (decide (f.imm18 = 0)) false, f)
  | .fgstart f => some (.g .un .quadZ .un (decide (f.imm18 = 0)) false .reserved 0, f)
  | .fgwait f => some (.g (if f.sel = 2 then .pred else .un) .un (.sel (f.sel.toNat ≤ 2)) (decide (f.imm18 = 0)) false, f)
  | .spush f => some ({ Shape.a .stream .src .un .un (tyIn f [.none] && f.opx.toNat < 32) with lr := 1 }, f)
  | .fetch f => some (.g .dstPair .un .un (f.imm18.toNat < 64) false, f)
  | .commit f => some (.g .un .un (.sel (f.sel.toNat ≤ 1)) (decide (f.imm18 = 0)) false, f)
  | .abandon f | .wrapret f => some (.g .un .un (.sel (f.sel = 0)) (decide (f.imm18 = 0)) false, f)
  | .enq f => some (.e .even (tyIn f [.none]) .reserved true 1, f)
  | .rget f | .mcast f => some (.e .quad (tyIn f [.none] && opx0 f) (.scope (f.rnd = 0)) true 1, f)
  | .rput f =>
    some (.e .quad (tyIn f [.none] && f.opx.toNat ≤ 1) (.scope (f.rnd.toNat = if f.opx = 1 then 7 else 0)) true 1, f)
  | .cred f =>
    let op := (f.opx.extractLsb' 0 2).toNat
    some (.e .pair ((f.ty = .f32 || (tyIn f Shape.int32 && (op = 1 || op = 2))) && f.opx.toNat < 16) (.scope (f.rnd = 0)), f)
  | .genfence f | .join f => some (.g .dst .pair (.sel (f.sel = 0)) (decide (f.imm18 = 0)) false, f)
  | .snap f =>
    some (.g .dst (if f.sel = 1 then .un else .pair) (.sel (f.sel.toNat ≤ 1))
      (if f.sel = 1 then f.imm18.toNat < 64 else decide (f.imm18 = 0)) false, f)
  | _ => none

/-- Engine class of an opcode (R69); none for prefixes, NOP and the terminators, which any class admits (R70). -/
def classOf (op : BitVec 8) : Option Nat :=
  let k := op.toNat
  if k = 0x50 || k = 0x51 || k = 0x52 || k = 0x53 || k = 0x54 || k = 0x56 || k = 0x57 || k = 0x5D || k = 0x5E
      || k = 0xA0 || k = 0xA1 || k = 0xA2 || k = 0xA4 || k = 0xE0 || k = 0xE1 then none
  else if k < 0x50 then some 0
  else if k < 0x60 then some 3
  else if k < 0x80 then some 1
  else if k < 0x90 then some 2
  else if k < 0xA0 then some 4
  else if k < 0xB0 then some 3
  else some 5

/-- The terminators of R70. -/
def terminators : List Nat := [0x50, 0x51, 0x52, 0x53, 0x54, 0x56, 0x5D, 0x5E, 0xA0, 0xA1, 0xA2, 0xA4]
/-- The long instructions of R70: GATHER, SCATTER, REDL, DRAIN. -/
def longOps : List Nat := [0x64, 0x65, 0x37, 0x8A]
/-- The irrevocable instructions of R165: ATOM, ATOMV, QPUSH, QPOP. -/
def irrevocable : List Nat := [0x68, 0x69, 0x72, 0x73]
/-- Opcodes of the two prefixes (R80). -/
def isPrefix (op : Nat) : Bool := op = 0xE0 || op = 0xE1

/-- The ISA version that introduced an instruction form, and its FEAT0 gate bit (R84). -/
def introduced (op : Nat) (f : Fields) : Nat × Option Nat :=
  if op = 0x0B || op = 0x84 || op = 0xB2 || op = 0xB3 then (2, none)
  else if op = 0x37 then (if f.opx.getLsbD 3 then (3, some 7) else (2, none))
  else if op = 0x36 && f.opx.getLsbD 3 then (3, some 7)
  else if op = 0x8A && (f.opx.extractLsb' 0 2).toNat = 2 then (3, some 7)
  else if op = 0x39 || op = 0x3A || op = 0x3B then (3, some 0)
  else if (op = 0x80 || op = 0x83) && f.ty = .q16 then (3, some 0)
  else if op = 0x69 || op = 0xA1 || op = 0xA2 then (3, some 1)
  else if op = 0xA4 then (3, some 2)
  else if op = 0x75 || op = 0x76 || op = 0x77 then (3, some 3)
  else if op = 0xB4 || op = 0xB5 || op = 0xB6 then (3, some 4)
  else if op = 0x5A || op = 0x5B then (3, some 5)
  else if op = 0x5C then (3, some 6)
  else (1, none)

/-- Whether an instruction admits IMX before it (R80): Formats B and E, and INVL1.R. -/
def admitsImx (op : Nat) (f : Fields) : Bool :=
  (0x10 ≤ op && op ≤ 0x1F) || (0x4B ≤ op && op ≤ 0x4F) || (0x60 ≤ op && op ≤ 0x6C) || (0x75 ≤ op && op ≤ 0x77)
    || op = 0xA3 || (0xB0 ≤ op && op ≤ 0xB3) || (op = 0x6D && f.sel = 1)

/-- Whether an instruction admits MSK before it (R80): PICK, MMA and MMAW. -/
def admitsMsk (op : Nat) : Bool := op = 0x34 || op = 0x83 || op = 0x84

/-- What bounds a word's operands: the swarm's RMAX, the workgroup's .accs, and how many quarters of B it holds (R32, R193, R200). -/
structure Limits where
  rmax : Nat
  accs : Nat
  /-- quarters the swarm holds in an MMA: 4 alone, 0 to 2 in a team -/
  quarters : Nat
  slice : Bool
  deriving DecidableEq, Repr

/-- The limits any part of the architecture allows. -/
def Limits.widest : Limits := ⟨128, 64, 1, false⟩

/-- How many registers a use covers from a register code. -/
def Use.span (u : Use) (quarters : Nat) : Nat :=
  match u with
  | .pair | .dstPair | .rwPair | .even => 2
  | .quadZ | .quad | .dstQuad | .rwQuad => 4
  | .quarter => 8 * quarters
  | _ => 1

/-- Whether the use is a source field, to which a last-read bit can apply (R34). -/
def Use.reads (u : Use) : Bool :=
  match u with
  | .src | .srcV | .pair | .quadZ | .quad | .even | .rw | .rwPair | .rwQuad | .quarter => true
  | _ => false

/-- Whether the byte names registers at all. -/
def Use.isReg (u : Use) : Bool :=
  match u with
  | .src | .srcV | .pair | .quadZ | .quad | .even | .dst | .dstPair | .dstQuad | .rw | .rwPair | .rwQuad | .quarter | .stream => true
  | _ => false

/-- Check 10 on one operand byte: a non-zero unused field, or a reserved operand code (R75, R77, R97, R193). -/
def Use.reserved (u : Use) (imx : Bool) (c : BitVec 8) (isImm : Bool) : Bool :=
  match u with
  | .un => c ≠ 0
  | .imm => isImm && imx && c ≠ 0
  | .pred => 64 ≤ c.toNat
  | .acc | .handle | .counter => 64 ≤ c.toNat
  | .sel _ | .selReserved _ => false
  | _ => 0x90 ≤ c.toNat && c.toNat < 0xF0

/-- Check 11 on one operand byte: register index, destination, pair, quad, name and SEL rules (R32, R77, R193, R200). -/
def Use.illegal (u : Use) (l : Limits) (c : BitVec 8) : Bool :=
  let k := c.toNat
  let beyond : Bool := decide (l.rmax < k + u.span l.quarters)
  match u with
  | .un | .imm | .pred => false
  | .src => k < 128 && beyond
  | .srcV => (k < 128 && beyond) || (0x80 ≤ k && k < 0x90)
  | .dst | .rw => 128 ≤ k || beyond
  | .pair => k ≠ 0xF0 && (128 ≤ k || k % 2 = 1 || beyond)
  | .dstPair | .rwPair | .even => 128 ≤ k || k % 2 = 1 || beyond
  | .quadZ => k ≠ 0xF0 && (128 ≤ k || k % 4 ≠ 0 || beyond)
  | .quad | .dstQuad | .rwQuad => 128 ≤ k || k % 4 ≠ 0 || beyond
  | .stream => k < 0x80 || 0x90 ≤ k
  | .acc => l.accs ≤ k
  | .handle => 16 ≤ k
  | .counter => 4 ≤ k
  | .quarter => if l.quarters = 0 then k ≠ 0xF0 else 128 ≤ k || k % 8 ≠ 0 || beyond
  | .sel ok => !ok
  | .selReserved _ => false

/-- Whether the use is a destination that a load writes. -/
def Use.loads (u : Use) : Bool :=
  match u with
  | .dst | .dstPair | .dstQuad => true
  | _ => false

/-- A last-read bit on a field that is not used, is not admitted, or does not name a vector register (R34). The bit of DATA is admitted
on a load too (R75; log 10). -/
def lrBad (s : Shape) (f : Fields) (formatE formatG : Bool) : Bool :=
  let bad (k : Nat) (u : Use) (c : BitVec 8) : Bool :=
    f.lr.getLsbD k && (!s.lr.getLsbD k || !(u.reads || (formatE && u.loads)) || 128 ≤ c.toNat)
  bad 0 s.opa f.opa
    || (if formatE then bad 1 s.dst f.dst else if formatG then f.lr.getLsbD 1 else bad 1 s.opb f.opb)
    || (if formatE || formatG then f.lr.getLsbD 2 else bad 2 s.opc f.opc)

/-- Opcodes of Format E, and of Format G (R83). -/
def isFormatE (op : Nat) : Bool :=
  (0x60 ≤ op && op ≤ 0x6C) || (0x75 ≤ op && op ≤ 0x77) || op = 0xA3 || (0xB0 ≤ op && op ≤ 0xB3)
def isFormatG (op : Nat) : Bool :=
  op = 0x54 || (0x56 ≤ op && op ≤ 0x5B) || op = 0x5D || op = 0x5E || (0x6D ≤ op && op ≤ 0x74) || (0x90 ≤ op && op ≤ 0x93)
    || (0xA0 ≤ op && op ≤ 0xA2) || op = 0xA4 || (0xB4 ≤ op && op ≤ 0xB6)

/-- Trap codes of R364 that the checks raise. -/
abbrev codeIllegal : Nat := 0x01
abbrev codePrefix : Nat := 0x02
abbrev codeFeature : Nat := 0x03
abbrev codeReserved : Nat := 0x04

/-- What a slice admits of an instruction's operands and modifiers (R286). -/
def sliceAdmits (op : Nat) (f : Fields) : Bool :=
  let ints := tyIn f [.s32, .s64, .n32, .n64, .none]
  let classes : Bool :=
    if op ∈ [0x00, 0x01, 0x02, 0x03, 0x04, 0x05, 0x06, 0x07, 0x0A, 0x0E, 0x0F, 0x10, 0x11, 0x12, 0x13, 0x14, 0x15, 0x16, 0x17,
        0x18, 0x19, 0x1A, 0x1B, 0x1C, 0x1D, 0x1E, 0x1F, 0x20, 0x21, 0x22, 0x24, 0x25, 0x26, 0x27, 0x28, 0x2A, 0x2B, 0x2D, 0x2E,
        0x30] then ints
    else if op = 0x32 then true
    else if op = 0x60 then (f.opx.extractLsb' 0 2).toNat = 0 && !f.opx.getLsbD 3
    else if op = 0x62 then true
    else if op = 0x58 then f.sel.toNat ∈ [0, 1, 2, 3, 4, 0x0A, 0x13, 0x15, 0x16, 0x18, 0x19]
    else op ∈ [0x50, 0x53, 0x54, 0x56, 0x57, 0x5D, 0x90, 0x91, 0x94]
  classes && (!f.ge || (f.guard.extractLsb' 0 6).toNat < 8)

/-- In a slice: no stream register as a source, no predicate above p7 (R286). -/
def sliceOperand (u : Use) (c : BitVec 8) : Bool :=
  match u with
  | .src | .srcV => !(0x80 ≤ c.toNat && c.toNat < 0x90)
  | .pred => c.toNat < 8
  | _ => true

/-- Checks 9 to 11 of R82 on one instruction word: the trap code, or none when the word passes. -/
def checkFields (l : Limits) (imx : Bool) (i : Instr) : Option Nat :=
  match i.shape, i.opcode with
  | some (s, f), some (op8, _) =>
    let op := op8.toNat
    if s.rnd = .rounds && f.rnd = 7 then some codeIllegal
    else if s.dst.reserved imx f.dst false || s.opa.reserved imx f.opa false || s.opb.reserved imx f.opb true
        || s.opc.reserved imx f.opc true || !s.immOk || (s.rnd = .reserved && f.rnd ≠ 0)
        || (if s.guard then !f.ge && f.guard ≠ 0 else f.ge || f.guard ≠ 0)
        || lrBad s f (isFormatE op) (isFormatG op) || (s.opb = .selReserved false) || (op = 0x6D && imx && f.imm18 ≠ 0)
      then some codeReserved
    else if s.dst.illegal l f.dst || s.opa.illegal l f.opa || s.opb.illegal l f.opb || s.opc.illegal l f.opc || !s.modOk
        || (match s.rnd with | .scope ok => !ok | _ => false)
        || (op = 0x6D && f.sel = 1 && !imx && f.imm18 = 0)
        || (op = 0x53 && decide (l.rmax < (f.mod.extractLsb' 2 8).toNat + 2))
        || (l.slice && !(sliceAdmits op f && sliceOperand s.dst f.dst && sliceOperand s.opa f.opa && sliceOperand s.opb f.opb
          && sliceOperand s.opc f.opc))
      then some codeIllegal
    else none
  | _, some (op8, f) =>
    -- the prefixes of Format H (R80): the low 24 bits are reserved; MSK's payload names one register or constant
    let low := f.tyc = 0 && f.opx = 0 && !f.ge && f.rnd = 0 && f.lr = 0 && f.guard = 0
    let c := f.opc.toNat
    if !low then some codeReserved
    -- no prefix stands in R286's list
    else if l.slice && op8.toNat = 0xE0 then some codeIllegal
    else if op8.toNat = 0xE1 then
      if f.dst ≠ 0 || f.opa ≠ 0 || f.opb ≠ 0 || (0x90 ≤ c && c < 0xF0) then some codeReserved
      else if (0x80 ≤ c && c < 0x90) || (c < 128 && l.rmax ≤ c) || l.slice then some codeIllegal
      else none
    else none
  | _, none => none

end Sys2Proof
end

