-- ==== Sys2Proof/Machine/Number.lean ====
section
/-! DEFINITION. Number formats and exact arithmetic (02): decoding and rounding of the five floating-point formats, the two-term and
multi-term operations, elementary functions, XS320, integers and Q16. Every operation forms its exact result and rounds it once. -/

namespace Sys2Proof.Machine

/-- A floating-point format (R41). -/
structure Fmt where
  width : Nat
  expBits : Nat
  bias : Int
  frac : Nat
  /-- the format has infinities -/
  inf : Bool
  deriving DecidableEq, Repr

abbrev fmtF32 : Fmt := ⟨32, 8, 127, 23, true⟩
abbrev fmtF16 : Fmt := ⟨16, 5, 15, 10, true⟩
abbrev fmtBF16 : Fmt := ⟨16, 8, 127, 7, true⟩
abbrev fmtE5M2 : Fmt := ⟨8, 5, 15, 2, true⟩
abbrev fmtE4M3 : Fmt := ⟨8, 4, 7, 3, false⟩

end Sys2Proof.Machine

namespace Sys2Proof

/-- The format of a TYPE (R76); FP32 for a TYPE that is none. -/
def Ty.fmt : Ty → Machine.Fmt
  | .f16 => Machine.fmtF16
  | .bf16 => Machine.fmtBF16
  | .e4m3 => Machine.fmtE4M3
  | .e5m2 => Machine.fmtE5M2
  | _ => Machine.fmtF32

/-- Width in bits of a TYPE's element (R50). -/
def Ty.bits : Ty → Nat
  | .s8 | .n8 | .e4m3 | .e5m2 => 8
  | .s16 | .n16 | .f16 | .bf16 => 16
  | .s64 | .n64 => 64
  | .s4 => 4
  | _ => 32

end Sys2Proof

namespace Sys2Proof.Machine

/-- A decoded value: a NaN with its fraction and the fraction's width, an infinity, or the exact ± num × 2^exp. -/
inductive Val where
  | nan (neg signalling : Bool) (frac width : Nat)
  | inf (neg : Bool)
  | fin (neg : Bool) (num : Nat) (exp : Int)
  deriving DecidableEq, Repr

namespace Val

def isNan : Val → Bool
  | .nan .. => true
  | _ => false
def isSnan : Val → Bool
  | .nan _ s _ _ => s
  | _ => false
def isInf : Val → Bool
  | .inf _ => true
  | _ => false
def isZero : Val → Bool
  | .fin _ n _ => n = 0
  | _ => false
def neg : Val → Bool
  | .nan n _ _ _ | .inf n | .fin n _ _ => n
/-- The exact value as a signed integer times a power of two; 0 for a NaN or an infinity. -/
def signed : Val → Int × Int
  | .fin n m e => (if n then -(m : Int) else m, e)
  | _ => (0, 0)

end Val

/-- Sticky flags, in the order of MODE bits 21:16 (R20). -/
abbrev finv : BitVec 6 := 1
abbrev fdz : BitVec 6 := 2
abbrev fovf : BitVec 6 := 4
abbrev funf : BitVec 6 := 8
abbrev finx : BitVec 6 := 16
abbrev fsat : BitVec 6 := 32

/-- A result's bits and the flags its formation raises. -/
structure Rounded where
  bits : Nat
  flags : BitVec 6
  deriving DecidableEq, Repr

/-- What governs a rounding: the mode code 1 to 6 of R45, saturation, FTZ, DAZ, NANP and the mixing value of R48. -/
structure FCtx where
  mode : Nat
  sat : Bool
  ftz : Bool
  daz : Bool
  nanp : Bool
  mix : Nat
  deriving DecidableEq, Repr

/-- Nearest-even with no mode bit in force: the matrix engine, atomics and fabric reductions (R43, R60, R177, R407). -/
def FCtx.engine : FCtx := ⟨1, false, false, false, false, 0⟩

/-- Decode the low bits of a value in a format (R41, R42); with daz a subnormal reads as a zero of its sign (R43). -/
def Fmt.decode (F : Fmt) (daz : Bool) (w : Nat) : Val :=
  let s := w / 2 ^ (F.width - 1) % 2 = 1
  let e := w / 2 ^ F.frac % 2 ^ F.expBits
  let f := w % 2 ^ F.frac
  if e = 2 ^ F.expBits - 1 ∧ F.inf then
    if f = 0 then .inf s else .nan s (f < 2 ^ (F.frac - 1)) f F.frac
  else if e = 2 ^ F.expBits - 1 ∧ ¬F.inf ∧ f = 2 ^ F.frac - 1 then .nan s false f F.frac
  else if e = 0 then
    if daz then .fin s 0 0 else .fin s f (1 - F.bias - F.frac)
  else .fin s (2 ^ F.frac + f) ((e : Int) - F.bias - F.frac)

def Fmt.signBit (F : Fmt) (neg : Bool) : Nat := if neg then 2 ^ (F.width - 1) else 0
/-- The canonical NaN (R42). -/
def Fmt.canonical (F : Fmt) : Nat :=
  if F.inf then (2 ^ F.expBits - 1) * 2 ^ F.frac + 2 ^ (F.frac - 1) else 2 ^ (F.width - 1) - 1
/-- An infinity, or in a format without one the NaN of that sign (R46). -/
def Fmt.infinity (F : Fmt) (neg : Bool) : Nat :=
  F.signBit neg + (if F.inf then (2 ^ F.expBits - 1) * 2 ^ F.frac else 2 ^ (F.width - 1) - 1)
/-- The significand of the largest finite value, and the exponent of its last place (R41). -/
def Fmt.maxSig (F : Fmt) : Nat := if F.inf then 2 ^ (F.frac + 1) - 1 else 2 ^ (F.frac + 1) - 2
def Fmt.maxExp (F : Fmt) : Int := (2 ^ F.expBits - (if F.inf then 2 else 1) : Nat) - F.bias - F.frac
/-- The largest finite value. -/
def Fmt.maxFinite (F : Fmt) (neg : Bool) : Nat :=
  F.signBit neg + (if F.inf then (2 ^ F.expBits - 1) * 2 ^ F.frac - 1 else 2 ^ (F.width - 1) - 2)

/-- A NaN result (R44): canonical, or with NANP the first NaN source, quieted and refitted to the format. -/
def Fmt.nanResult (F : Fmt) (nanp : Bool) (sources : List Val) : Nat :=
  match nanp, sources.find? Val.isNan with
  | true, some (.nan neg _ f w) =>
    if F.inf then
      let q := if f < 2 ^ (w - 1) then f + 2 ^ (w - 1) else f
      let g := if F.frac < w then q / 2 ^ (w - F.frac) else q * 2 ^ (F.frac - w)
      F.signBit neg + (2 ^ F.expBits - 1) * 2 ^ F.frac + g
    else F.signBit neg + (2 ^ (F.width - 1) - 1)
  | _, _ => F.canonical

/-- FINV for a signalling source (R44, R47). -/
def snanFlags (sources : List Val) : BitVec 6 := if sources.any Val.isSnan then finv else 0

/-- Whether the larger neighbour is chosen (R45, R48): the lower is t, the discarded part rem / 2^sh of a spacing plus, when sticky,
something less than 2^-sh. -/
def roundsUp (c : FCtx) (neg : Bool) (t rem sh : Nat) (sticky : Bool) : Bool :=
  if rem = 0 && !sticky then false
  else
    match c.mode with
    | 2 => false
    | 3 => neg
    | 4 => !neg
    | 5 => 2 ^ sh ≤ 2 * rem
    | 6 => 2 ^ 32 ≤ rem * 2 ^ 32 / 2 ^ sh + c.mix
    | _ => 2 ^ sh < 2 * rem || (2 * rem = 2 ^ sh && (sticky || t % 2 = 1))

/-- An overflow (R46). -/
def Fmt.overflow (F : Fmt) (c : FCtx) (neg : Bool) : Rounded :=
  if c.sat then ⟨F.maxFinite neg, fsat ||| finx⟩
  else
    let toMax : Bool := match c.mode with | 2 => true | 3 => !neg | 4 => neg | _ => false
    ⟨if toMax then F.maxFinite neg else F.infinity neg, fovf ||| finx⟩

/-- The result of rounding the significand r in units of 2^q (R43, R45, R46). -/
def Fmt.encode (F : Fmt) (c : FCtx) (neg : Bool) (r : Nat) (q : Int) (inexact : Bool) : Rounded :=
  let fx : BitVec 6 := if inexact then finx else 0
  if r = 0 then ⟨F.signBit neg, fx⟩
  else if q > F.maxExp ∨ (q = F.maxExp ∧ r > F.maxSig) then F.overflow c neg
  else if r < 2 ^ F.frac then
    if c.ftz then ⟨F.signBit neg, funf ||| finx⟩
    else ⟨F.signBit neg + r, fx ||| (if inexact then funf else 0)⟩
  else ⟨F.signBit neg + (q + F.frac + F.bias).toNat * 2 ^ F.frac + (r - 2 ^ F.frac), fx⟩

/-- round(x, F, mode) of R45 to R48, for x = ±(num + ε) × 2^exp with ε = 0, or 0 < ε < 1 when sticky. -/
def Fmt.round (F : Fmt) (c : FCtx) (neg : Bool) (num : Nat) (exp : Int) (sticky : Bool := false) : Rounded :=
  if num = 0 && !sticky then ⟨F.signBit neg, 0⟩
  else
    let e := exp + Nat.log2 num
    let q := (if e < 1 - F.bias then 1 - F.bias else e) - F.frac
    if q ≤ exp then F.encode c neg (num * 2 ^ (exp - q).toNat) q sticky
    else
      let sh := (q - exp).toNat
      let t := num / 2 ^ sh
      let rem := num % 2 ^ sh
      F.encode c neg (if roundsUp c neg t rem sh sticky then t + 1 else t) q (rem ≠ 0 || sticky)

/-- The exact sum of signed terms, as an integer times a power of two. -/
def exactSum (terms : List (Int × Int)) : Int × Int :=
  let lo := terms.foldl (fun m t => if t.1 ≠ 0 ∧ t.2 < m then t.2 else m) (terms.foldl (fun m t => if t.2 > m then t.2 else m) 0)
  (terms.foldl (fun acc t => acc + t.1 * 2 ^ (t.2 - lo).toNat) 0, lo)

/-- Round an exact signed value; an exact zero takes the sign given. -/
def Fmt.roundSigned (F : Fmt) (c : FCtx) (zeroNeg : Bool) (x : Int × Int) : Rounded :=
  if x.1 = 0 then ⟨F.signBit zeroNeg, 0⟩ else F.round c (x.1 < 0) x.1.natAbs x.2

/-- The product of two values, as a term of a sum: none when it is a NaN. -/
def Val.mul (x y : Val) : Option Val :=
  match x, y with
  | .nan .., _ | _, .nan .. => none
  | .inf a, .inf b => some (.inf (a != b))
  | .inf a, .fin b n _ => if n = 0 then none else some (.inf (a != b))
  | .fin a n _, .inf b => if n = 0 then none else some (.inf (a != b))
  | .fin a n e, .fin b m f => some (.fin (a != b) (n * m) (e + f))

/-- x + y rounded once (R107, R108): the term lists hold the addends, the sources what a NaN is taken from. -/
def Fmt.addTerms (F : Fmt) (c : FCtx) (sources : List Val) (x y : Option Val) : Rounded :=
  let fs := snanFlags sources
  if sources.any Val.isNan then
    -- 0 × ∞ beside a NaN addend raises FINV as well (R108)
    ⟨F.nanResult c.nanp sources,
      fs ||| (match x, sources with
        | none, a :: b :: _ => if !a.isNan && !b.isNan then finv else 0
        | _, _ => 0)⟩
  else
    match x, y with
    | some (.inf a), some (.inf b) => if a = b then ⟨F.infinity a, 0⟩ else ⟨F.nanResult c.nanp sources, finv⟩
    | some (.inf a), some _ => ⟨F.infinity a, 0⟩
    | some _, some (.inf b) => ⟨F.infinity b, 0⟩
    | some p, some q =>
      let zn := if p.isZero && q.isZero && p.neg = q.neg then p.neg else c.mode = 3
      F.roundSigned c zn (exactSum [p.signed, q.signed])
    | _, _ => ⟨F.nanResult c.nanp sources, finv⟩

/-- FADD and PRADD. -/
def Fmt.add (F : Fmt) (c : FCtx) (a b : Nat) : Rounded :=
  let x := F.decode c.daz a
  let y := F.decode c.daz b
  F.addTerms c [x, y] (some x) (some y)

/-- FMUL and PRMUL. -/
def Fmt.mul (F : Fmt) (c : FCtx) (a b : Nat) : Rounded :=
  let x := F.decode c.daz a
  let y := F.decode c.daz b
  if x.isNan || y.isNan then ⟨F.nanResult c.nanp [x, y], snanFlags [x, y]⟩
  else
    match x.mul y with
    | some (.inf n) => ⟨F.infinity n, 0⟩
    | some (.fin n m e) => F.round c n m e
    | _ => ⟨F.nanResult c.nanp [], finv⟩

/-- FFMA and PRFMA: a × b + d, the NaN order being that of sources. -/
def Fmt.fma (F : Fmt) (c : FCtx) (a b d : Nat) : Rounded :=
  let x := F.decode c.daz a
  let y := F.decode c.daz b
  let z := F.decode c.daz d
  F.addTerms c [x, y, z] (x.mul y) (some z)

/-- FDIV (R108). -/
def Fmt.div (F : Fmt) (c : FCtx) (a b : Nat) : Rounded :=
  let x := F.decode c.daz a
  let y := F.decode c.daz b
  let n := x.neg != y.neg
  match x, y with
  | .nan .., _ | _, .nan .. => ⟨F.nanResult c.nanp [x, y], snanFlags [x, y]⟩
  | .inf _, .inf _ => ⟨F.nanResult c.nanp [], finv⟩
  | .inf _, .fin .. => ⟨F.infinity n, 0⟩
  | .fin .., .inf _ => ⟨F.signBit n, 0⟩
  | .fin _ p e, .fin _ q f =>
    if q = 0 then (if p = 0 then ⟨F.nanResult c.nanp [], finv⟩ else ⟨F.infinity n, fdz⟩)
    else F.round c n (p * 2 ^ 96 / q) (e - f - 96) (p * 2 ^ 96 % q ≠ 0)

/-- The integer square root, by one bit a step from the highest. -/
def isqrtFrom : Nat → Nat → Nat → Nat
  | 0, _, r => r
  | k + 1, n, r =>
    let t := r + 2 ^ k
    isqrtFrom k n (if t * t ≤ n then t else r)

/-- floor(√n). -/
def isqrt (n : Nat) : Nat := isqrtFrom (Nat.log2 n / 2 + 1) n 0

/-- FSQRT (R108). -/
def Fmt.sqrt (F : Fmt) (c : FCtx) (a : Nat) : Rounded :=
  let x := F.decode c.daz a
  match x with
  | .nan .. => ⟨F.nanResult c.nanp [x], snanFlags [x]⟩
  | .inf n => if n then ⟨F.nanResult c.nanp [], finv⟩ else ⟨F.infinity false, 0⟩
  | .fin n m e =>
    if m = 0 then ⟨F.signBit n, 0⟩
    else if n then ⟨F.nanResult c.nanp [], finv⟩
    else
      let odd := e % 2 ≠ 0
      let m' := (if odd then 2 * m else m) * 2 ^ 120
      let r := isqrt m'
      F.round c false r ((if odd then e - 1 else e) / 2 - 60) (r * r ≠ m')

/-- FRSQ (R108). -/
def Fmt.rsqrt (F : Fmt) (c : FCtx) (a : Nat) : Rounded :=
  let x := F.decode c.daz a
  match x with
  | .nan .. => ⟨F.nanResult c.nanp [x], snanFlags [x]⟩
  | .inf n => if n then ⟨F.nanResult c.nanp [], finv⟩ else ⟨F.signBit false, 0⟩
  | .fin n m e =>
    if m = 0 then ⟨F.infinity n, fdz⟩
    else if n then ⟨F.nanResult c.nanp [], finv⟩
    else
      let odd := e % 2 ≠ 0
      let m' := if odd then 2 * m else m
      let r := isqrt (2 ^ 180 / m')
      F.round c false r (-((if odd then e - 1 else e) / 2) - 90) (r * r * m' ≠ 2 ^ 180)

/-- Bits of working precision of the elementary functions, and of the value they hand to the rounding. -/
abbrev fnPrec : Nat := 256
abbrev fnBits : Nat := 100

/-- The product of 2^(2^-i) over the set bits of a fraction f / 2^k, highest first, in units of 2^-fnPrec, from below. -/
def exp2Bits : Nat → Nat → Nat → Nat → Nat
  | 0, _, _, acc => acc
  | k + 1, f, root, acc =>
    let root' := isqrt (root * 2 ^ fnPrec)
    exp2Bits k (f % 2 ^ k) root' (if 2 ^ k ≤ f then acc * root' / 2 ^ fnPrec else acc)

/-- FEXP2 (R108) of a finite non-zero value: the power of two of the integer part, times the enclosure of the fraction's. -/
def Fmt.exp2Fin (F : Fmt) (c : FCtx) (neg : Bool) (m : Nat) (e : Int) : Rounded :=
  if 0 ≤ e ∨ e + Nat.log2 m ≥ 10 then
    -- an integer, or a magnitude of 1,024 and above, whose result overflows or underflows alike
    let n : Int := if e + Nat.log2 m ≥ 10 then 1024 else (m : Int) * 2 ^ e.toNat
    let whole := 0 ≤ e ∨ m % 2 ^ (-e).toNat = 0
    F.round c false (if whole then 1 else 2 ^ fnBits) ((if neg then -n else n) - (if whole then 0 else (fnBits : Int))) (!whole)
  else if e + Nat.log2 m < -90 then
    -- 1 + δ or 1 − δ, with δ far below the last place
    if neg then F.round c false (2 ^ fnBits - 1) (-(fnBits : Int)) true else F.round c false (2 ^ fnBits) (-(fnBits : Int)) true
  else
    let k := (-e).toNat
    let v : Int := if neg then -(m : Int) else m
    let ip := v / 2 ^ k
    let fp := (v % 2 ^ k).toNat
    if fp = 0 then F.round c false 1 ip
    else F.round c false (exp2Bits k fp (2 ^ (fnPrec + 1)) (2 ^ fnPrec) / 2 ^ (fnPrec - fnBits)) (ip - (fnBits : Int)) true

/-- FEXP2 (R108). -/
def Fmt.exp2 (F : Fmt) (c : FCtx) (a : Nat) : Rounded :=
  let x := F.decode c.daz a
  match x with
  | .nan .. => ⟨F.nanResult c.nanp [x], snanFlags [x]⟩
  | .inf n => if n then ⟨F.signBit false, 0⟩ else ⟨F.infinity false, 0⟩
  | .fin n m e => if m = 0 then F.round c false 1 0 else F.exp2Fin c n m e

/-- Binary digits of log2 of y / 2^fnPrec in (1, 2), one a squaring. -/
def log2Bits : Nat → Nat → Nat → Nat
  | 0, _, acc => acc
  | k + 1, y, acc =>
    let z := y * y / 2 ^ fnPrec
    if 2 ^ (fnPrec + 1) ≤ z then log2Bits k (z / 2) (2 * acc + 1) else log2Bits k z (2 * acc)

/-- FLOG2 (R108). -/
def Fmt.log2 (F : Fmt) (c : FCtx) (a : Nat) : Rounded :=
  let x := F.decode c.daz a
  match x with
  | .nan .. => ⟨F.nanResult c.nanp [x], snanFlags [x]⟩
  | .inf n => if n then ⟨F.nanResult c.nanp [], finv⟩ else ⟨F.infinity false, 0⟩
  | .fin n m e =>
    if m = 0 then ⟨F.infinity true, fdz⟩
    else if n then ⟨F.nanResult c.nanp [], finv⟩
    else
      let l := Nat.log2 m
      let i := e + l
      if m = 2 ^ l then
        (if i = 0 then ⟨F.signBit false, 0⟩ else F.round c (i < 0) i.natAbs 0)
      else
        let f := log2Bits fnBits (m * 2 ^ (fnPrec - l)) 0
        if 0 ≤ i then F.round c false (i.toNat * 2 ^ fnBits + f) (-(fnBits : Int)) true
        else F.round c true (i.natAbs * 2 ^ fnBits - f - 1) (-(fnBits : Int)) true

/-- The order of two values that are not NaN. -/
def Val.lt (x y : Val) : Bool :=
  match x, y with
  | .inf a, .inf b => a && !b
  | .inf a, _ => a
  | _, .inf b => !b
  | _, _ => (exactSum [x.signed, (-(y.signed.1), y.signed.2)]).1 < 0

/-- Equality of two values that are not NaN; +0 equals −0. -/
def Val.eq (x y : Val) : Bool :=
  match x, y with
  | .inf a, .inf b => a = b
  | .inf _, _ | _, .inf _ => false
  | _, _ => (exactSum [x.signed, (-(y.signed.1), y.signed.2)]).1 = 0

/-- maximum(x, y) or minimum(x, y) of R65; the operands' bits, subnormals flushed under DAZ. -/
def Fmt.minMax (F : Fmt) (c : FCtx) (max : Bool) (a b : Nat) : Rounded :=
  let x := F.decode c.daz a
  let y := F.decode c.daz b
  let flush (v : Val) (w : Nat) : Nat := if v.isZero then F.signBit v.neg else w % 2 ^ F.width
  if x.isNan || y.isNan then ⟨F.nanResult c.nanp [x, y], snanFlags [x, y]⟩
  else if x.isZero && y.isZero then ⟨F.signBit (if max then x.neg && y.neg else x.neg || y.neg), 0⟩
  else if x.lt y = max then ⟨flush y b, 0⟩ else ⟨flush x a, 0⟩

/-- FCMP (R105): the comparison COND and FINV for a signalling source. -/
def Fmt.compare (F : Fmt) (daz : Bool) (cond : Nat) (a b : Nat) : Bool × BitVec 6 :=
  let x := F.decode daz a
  let y := F.decode daz b
  let un := x.isNan || y.isNan
  let r : Bool :=
    match cond with
    | 0 => !un && x.eq y
    | 1 => un || !x.eq y
    | 2 => !un && x.lt y
    | 3 => !un && !y.lt x
    | 4 => !un && y.lt x
    | 5 => !un && !x.lt y
    | 6 => un
    | _ => !un
  (r, snanFlags [x, y])

/-! Integers (R50, R51). -/

/-- The value of w bits, read signed or unsigned. -/
def readInt (signed : Bool) (w n : Nat) : Int :=
  let v := n % 2 ^ w
  if signed && 2 ^ (w - 1) ≤ v then (v : Int) - 2 ^ w else v

/-- The w-bit pattern of an integer, modulo 2^w. -/
def wrapBits (w : Nat) (x : Int) : Nat := (x % 2 ^ w).toNat

/-- The limits of a TYPE of width w. -/
def intMin (signed : Bool) (w : Nat) : Int := if signed then -(2 ^ (w - 1)) else 0
def intMax (signed : Bool) (w : Nat) : Int := if signed then 2 ^ (w - 1) - 1 else 2 ^ w - 1

/-- sat(x, T) of R51, with FSAT when it changes x. -/
def satInt (signed : Bool) (w : Nat) (x : Int) : Rounded :=
  if x < intMin signed w then ⟨wrapBits w (intMin signed w), fsat⟩
  else if intMax signed w < x then ⟨wrapBits w (intMax signed w), fsat⟩
  else ⟨wrapBits w x, 0⟩

/-- fin(x) of R96. -/
def finInt (sat signed : Bool) (w : Nat) (x : Int) : Rounded :=
  if sat then satInt signed w x else ⟨wrapBits w x, 0⟩

/-- Rounding an exact value ±(num + ε) × 2^exp to an integer (R49): the integer and whether it differs. -/
def roundInt (c : FCtx) (neg : Bool) (num : Nat) (exp : Int) (sticky : Bool := false) : Int × Bool :=
  let sgn (n : Nat) : Int := if neg then -(n : Int) else n
  if 0 ≤ exp then (sgn (num * 2 ^ exp.toNat), false)
  else
    let sh := (-exp).toNat
    let t := num / 2 ^ sh
    let rem := num % 2 ^ sh
    (sgn (if roundsUp c neg t rem sh sticky then t + 1 else t), rem ≠ 0 || sticky)

/-- CVT (R49, R110). -/
def convert (c : FCtx) (dst src : Ty) (w : Nat) : Rounded :=
  if src.isFloat then
    let x := src.fmt.decode c.daz w
    if dst.isFloat then
      let F := dst.fmt
      match x with
      | .nan .. => ⟨F.nanResult c.nanp [x], snanFlags [x]⟩
      | .inf n =>
        if F.inf then ⟨F.infinity n, 0⟩
        else if c.sat then ⟨F.maxFinite n, fsat⟩
        else ⟨F.infinity n, finv⟩
      -- a wider destination takes every value exactly: FTZ is for results that are rounded (R43, R49)
      | .fin n m e => if m = 0 then ⟨F.signBit n, 0⟩ else F.round (if src.bits < dst.bits then { c with ftz := false } else c) n m e
    else
      let lim (n : Bool) : Rounded :=
        ⟨wrapBits dst.bits (if n then intMin dst.signed dst.bits else intMax dst.signed dst.bits), finv⟩
      match x with
      | .nan .. => ⟨0, finv⟩
      | .inf n => lim n
      | .fin n m e =>
        let (i, changed) := roundInt c n m e
        if i < intMin dst.signed dst.bits || intMax dst.signed dst.bits < i then lim n
        else ⟨wrapBits dst.bits i, if changed then finx else 0⟩
  else
    let i := readInt src.signed src.bits w
    if dst.isFloat then
      if i = 0 then ⟨0, 0⟩ else dst.fmt.round c (i < 0) i.natAbs 0
    else finInt c.sat dst.signed dst.bits i

/-! XS320 (R55 to R58). -/

/-- An XS320 state: V in two's complement and the flags. -/
structure Xs320 where
  v : BitVec 320
  nan : Bool
  pinf : Bool
  ninf : Bool
  allnz : Bool
  deriving DecidableEq, Repr

/-- The identity. -/
def Xs320.empty : Xs320 := ⟨0, false, false, false, true⟩

/-- add_term of R56, with FINV for a signalling NaN. -/
def Xs320.addTerm (s : Xs320) (w : Nat) : Xs320 × BitVec 6 :=
  let x := fmtF32.decode false w
  let s := if w % 2 ^ 32 = 2 ^ 31 then s else { s with allnz := false }
  match x with
  | .nan _ sg _ _ => ({ s with nan := true }, if sg then finv else 0)
  | .inf n => (if n then { s with ninf := true } else { s with pinf := true }, 0)
  | .fin n m e => ({ s with v := s.v + BitVec.ofInt 320 ((if n then -(m : Int) else m) * 2 ^ (e + 149).toNat) }, 0)

/-- combine of R56. -/
def Xs320.combine (s q : Xs320) : Xs320 :=
  ⟨s.v + q.v, s.nan || q.nan, s.pinf || q.pinf, s.ninf || q.ninf, s.allnz && q.allnz⟩

/-- Readout to FP32 (R58). -/
def Xs320.read (s : Xs320) : Rounded :=
  if s.nan then ⟨fmtF32.canonical, 0⟩
  else if s.pinf && s.ninf then ⟨fmtF32.canonical, finv⟩
  else if s.pinf then ⟨fmtF32.infinity false, 0⟩
  else if s.ninf then ⟨fmtF32.infinity true, 0⟩
  else fmtF32.roundSigned FCtx.engine s.allnz (s.v.toInt, -149)

/-- The 48-byte image (R55). -/
def Xs320.image (s : Xs320) : List Byte :=
  natToBytes 40 s.v.toNat ++
    [BitVec.ofNat 8 (s.nan.toNat + 2 * s.pinf.toNat + 4 * s.ninf.toNat + 8 * s.allnz.toNat), 0, 0, 0, 0, 0, 0, 0]

/-- The state of a 48-byte image. -/
def Xs320.ofImage (b : List Byte) : Xs320 :=
  let f := b.getD 40 0
  ⟨BitVec.ofNat 320 (bytesToNat (b.take 40)), f.getLsbD 0, f.getLsbD 1, f.getLsbD 2, f.getLsbD 3⟩

/-! Q16 (R52 to R54, R111 to R113). -/

/-- c(k) of R52. -/
def q16c (k : Nat) : Int :=
  [-128, -91, -69, -52, -38, -25, -12, 0, 10, 21, 32, 44, 57, 72, 93, 127].getD k 127

/-- S × (c × b) × 2^-15 as a value (R53, R54): code 7 and scale 0 are exact zeros of sign +. -/
def q16Val (s : Val) (k b : Nat) : Option Val :=
  let p := q16c k * b
  s.mul (.fin (p < 0) p.natAbs (-15)) |>.map fun v => if p = 0 then (match v with | .fin _ _ e => .fin false 0 e | w => w) else v

/-- QUNPK (R111). -/
def qunpk (c : FCtx) (F : Fmt) (codes s scale : Nat) : Rounded :=
  let sv := fmtF32.decode c.daz s
  let k := codes / 2 ^ (4 * (scale / 256 % 8)) % 16
  if sv.isNan then ⟨F.nanResult c.nanp [sv], snanFlags [sv]⟩
  else
    match q16Val sv k (scale % 256) with
    | none => ⟨F.nanResult c.nanp [], finv⟩
    | some (.inf n) => ⟨F.infinity n, 0⟩
    | some (.fin n m e) => F.round c n m e
    | some (.nan ..) => ⟨F.nanResult c.nanp [], finv⟩

/-- The codes in increasing value of c. -/
def q16Codes : List Nat := List.range 16

/-- The neighbour chosen between codes lo and hi around a (R112). -/
def q16Between (c : FCtx) (a : Val) (v : Nat → Val) (lo hi : Nat) : Nat :=
  let sub (x y : Val) : Int × Int := exactSum [x.signed, (-(y.signed.1), y.signed.2)]
  let dl := sub a (v lo)
  let dh := sub (v hi) a
  match c.mode with
  | 3 => lo
  | 4 => hi
  | 2 => if a.neg then hi else lo
  | 6 =>
    let w := sub (v hi) (v lo)
    let m := if dl.2 < w.2 then dl.2 else w.2
    let n := (dl.1 * 2 ^ (dl.2 - m).toNat).natAbs
    let d := (w.1 * 2 ^ (w.2 - m).toNat).natAbs
    if 2 ^ 32 ≤ n * 2 ^ 32 / d + c.mix then hi else lo
  | md =>
    let cmp := (exactSum [dl, (-dh.1, dh.2)]).1
    if cmp < 0 then lo else if 0 < cmp then hi
    else if md = 5 then
      -- the larger magnitude
      (if (v lo).neg then lo else hi)
    else if lo % 2 = 0 then lo else hi

/-- QPACK: the code chosen and its flags (R112). -/
def qpack (c : FCtx) (aw s scale : Nat) : Nat × BitVec 6 :=
  let a := fmtF32.decode c.daz aw
  let sv := fmtF32.decode c.daz s
  let b := scale % 256
  if a.isNan || sv.isNan || sv.isInf then (7, finv)
  else if sv.isZero || b = 0 then (7, if a.isZero then 0 else finx)
  else
    let v (k : Nat) : Val := (q16Val sv k b).getD (.fin false 0 0)
    -- the candidates in increasing value
    let ks := if sv.neg then q16Codes.reverse else q16Codes
    match ks.find? fun k => (v k).eq a with
    | some k => (k, 0)
    | none =>
      if a.lt (v (ks.headD 0)) then (ks.headD 0, fsat)
      else if (v (ks.getLastD 0)).lt a then (ks.getLastD 0, fsat)
      else
        let lo := (ks.filter fun k => (v k).lt a).getLastD 0
        let hi := (ks.find? fun k => a.lt (v k)).getD 0
        (q16Between c a v lo hi, finx)

/-- QSCALE (R113). -/
def qscale (c : FCtx) (aw s : Nat) : Rounded :=
  let a := fmtF32.decode c.daz aw
  let sv := fmtF32.decode c.daz s
  match a, sv with
  | .nan .., _ | _, .nan .. | _, .inf _ => ⟨0, finv⟩
  | .inf _, .fin _ m _ => if m = 0 then ⟨0, finv⟩ else ⟨255, fsat⟩
  | .fin _ p e, .fin _ m f =>
    if m = 0 then ⟨0, finv⟩
    else
      let d := 127 * m
      let sh := e - f + 15
      -- |a| × 2^15 / (127 |S|) = p / d × 2^sh
      let big := 40 ≤ sh + Nat.log2 p - Nat.log2 d
      if p ≠ 0 && big then ⟨255, fsat ||| (if p * 2 ^ 120 % d ≠ 0 then finx else 0)⟩
      else if p = 0 then ⟨0, 0⟩
      else
        let q := p * 2 ^ 120 / d
        let (i, changed) :=
          if sh - 120 < -400 then roundInt c false 0 (-64) true
          else roundInt c false q (sh - 120) (p * 2 ^ 120 % d ≠ 0)
        if 255 < i then ⟨255, fsat ||| (if changed then finx else 0)⟩ else ⟨i.toNat, if changed then finx else 0⟩

/-! Multi-term sums (R61, R99). -/

/-- The five-term sum of IDOT4 and the group sum of R61: products as terms, and a sign for an exact zero. -/
def Fmt.sumTerms (F : Fmt) (c : FCtx) (sources : List Val) (terms : List (Option Val)) (downZero : Bool) : Rounded :=
  let fs := snanFlags sources
  let anyNan := sources.any Val.isNan
  let invalid := terms.any Option.isNone
  let pinf := terms.any fun t => t = some (.inf false)
  let ninf := terms.any fun t => t = some (.inf true)
  if anyNan || invalid || (pinf && ninf) then
    ⟨F.nanResult c.nanp sources, fs ||| (if pinf && ninf then finv else 0)⟩
  else if pinf then ⟨F.infinity false, 0⟩
  else if ninf then ⟨F.infinity true, 0⟩
  else
    let ts := terms.filterMap id
    let allNegZero := ts.all fun t => t.isZero && t.neg
    F.roundSigned c (allNegZero || (downZero && c.mode = 3)) (exactSum (ts.map Val.signed))

/-- Products a_k × b_k as terms, with FINV for each ∞ × 0. -/
def mulTerms (ps : List (Val × Val)) : List (Option Val) × BitVec 6 :=
  (ps.map fun p => if p.1.isNan || p.2.isNan then some (.fin false 0 0) else p.1.mul p.2,
   if ps.any fun p => !p.1.isNan && !p.2.isNan && (p.1.mul p.2).isNone then finv else 0)

/-- IDOT4 on FP8 elements (R99). DESIGN CHOICE: R44 orders a NaN result's sources by operand field and not within one; under NANP = 0b01
the lowest-numbered NaN element of a comes first, then of b, then c (log 83). -/
def dot4 (c : FCtx) (F : Fmt) (a b acc : Nat) : Rounded :=
  let el (w k : Nat) : Val := F.decode c.daz (w / 2 ^ (8 * k))
  let ps := (List.range 4).map fun k => (el a k, el b k)
  let z := fmtF32.decode c.daz acc
  let (ts, fl) := mulTerms ps
  let srcs := (ps.map Prod.fst) ++ (ps.map Prod.snd) ++ [z]
  let r := fmtF32.sumTerms c srcs (ts ++ [if z.isNan then some (.fin false 0 0) else some z]) true
  ⟨r.bits, r.flags ||| fl⟩

/-- group_sum of R61 over products. -/
def groupSum (ps : List (Val × Val)) : Rounded :=
  let (ts, fl) := mulTerms ps
  let srcs := (ps.map Prod.fst) ++ (ps.map Prod.snd)
  let r := fmtF32.sumTerms FCtx.engine srcs ts false
  ⟨r.bits, r.flags ||| fl⟩

/-- The procedure of R60: groups of 16 in increasing K, each rounded and added to the accumulator. -/
def mmaGroups : Nat → Nat → List (Val × Val) → List (BitVec 6) → Nat × List (BitVec 6)
  | 0, acc, _, fl => (acc, fl)
  | _, acc, [], fl => (acc, fl)
  | n + 1, acc, ps, fl =>
    let g := groupSum (ps.take 16)
    let r := fmtF32.add FCtx.engine acc g.bits
    mmaGroups n r.bits (ps.drop 16) (r.flags :: g.flags :: fl)

/-- One slice of an FP32 operand of MMAW (R63): hi, mid or lo, by truncation to BF16. -/
def slices (x : Val) : List Val :=
  let trunc (v : Int × Int) : Val :=
    if v.1 = 0 then .fin false 0 0
    else fmtBF16.decode false (fmtBF16.round { FCtx.engine with mode := 2 } (v.1 < 0) v.1.natAbs v.2).bits
  match x with
  | .fin n m _ =>
    if m = 0 then [.fin n 0 0, .fin false 0 0, .fin false 0 0]
    else
      let hi := trunc x.signed
      let r1 := exactSum [x.signed, (-hi.signed.1, hi.signed.2)]
      let mid := trunc r1
      let lo := trunc (exactSum [r1, (-mid.signed.1, mid.signed.2)])
      [hi, mid, lo]
  | v => [v, .fin false 0 0, .fin false 0 0]

/-- The six passes of MMAW, as pairs of slice numbers (R63, R204). -/
def mmawPasses : List (Nat × Nat) := [(0, 0), (0, 1), (1, 0), (0, 2), (1, 1), (2, 0)]

/-- Whether a value is a NaN or an infinity. -/
def Val.special (v : Val) : Bool := v.isNan || v.isInf

/-- The terms of one pass: a special operand gives its product in the first pass and +0 in the others (R63). -/
def mmawTerms (p : Nat × Nat) (ps : List (Val × Val)) : List (Val × Val) :=
  ps.map fun x =>
    if x.1.special || x.2.special then (if p = (0, 0) then x else (.fin false 0 0, .fin false 0 0))
    else ((slices x.1).getD p.1 (.fin false 0 0), (slices x.2).getD p.2 (.fin false 0 0))

/-- MMAW of one element (R63, R204): the accumulator and the flags of each rounding. -/
def mmawElement (acc : Nat) (ps : List (Val × Val)) : Nat × List (BitVec 6) :=
  mmawPasses.foldl (fun st p => mmaGroups 16 st.1 (mmawTerms p ps) st.2) (acc, [])

/-! Deterministic stochastic rounding (R48). -/

/-- mix of R48 from COORD[31:0], the word offset of the instruction, pos and the launch's seed. -/
def mixValue (coord offset pos : Nat) (seed : DWord) : Nat :=
  let key : DWord := BitVec.ofNat 32 coord ++ BitVec.ofNat 24 offset ++ BitVec.ofNat 8 pos
  let z := key ^^^ seed
  let z := (z ^^^ (z >>> 31)) * 0xB5A13C7D0E694F21
  let z := (z ^^^ (z >>> 29)) * 0xD1C35E972A4B8F63
  (z ^^^ (z >>> 32)).toNat % 2 ^ 32

/-- A reduction of one term returns it as a source operand reads: subnormals under DAZ, NaN by R44 (R43, R44, R65). -/
def Fmt.lone (F : Fmt) (c : FCtx) (w : Nat) : Rounded :=
  let x := F.decode c.daz w
  ⟨if x.isNan then F.nanResult c.nanp [x] else if x.isZero then F.signBit x.neg else w, snanFlags [x]⟩

/-- One level of the index tree (R64): adjacent pairs combined, the index of a pair that of its left term. -/
def treeLevel (op : Nat → Nat → Nat → Rounded) : List (Nat × Nat) → List (Nat × Nat) × BitVec 6
  | x :: y :: rest =>
    let r := op x.1 x.2 y.2
    let t := treeLevel op rest
    ((x.1, r.bits) :: t.1, r.flags ||| t.2)
  | xs => (xs, 0)

/-- The index tree of R64: levels until one term remains. The operation is told the level and the left term's index. -/
def indexTree (op : Nat → Nat → Nat → Nat → Rounded) : Nat → Nat → List (Nat × Nat) → BitVec 6 → Option (Nat × BitVec 6)
  | 0, _, xs, fl => xs.head?.map fun x => (x.2, fl)
  | k + 1, l, xs, fl =>
    match xs with
    | [] => none
    | [x] => some (x.2, fl)
    | _ =>
      let t := treeLevel (op l) xs
      indexTree op k (l + 1) t.1 (fl ||| t.2)

/-- smx of R407: the combination of two softmax partials of words m, s, o_0 …. -/
def smx (l r : List Nat) : List Nat :=
  let F := fmtF32
  let c := FCtx.engine
  let ninf := F.infinity true
  if l.headD 0 = ninf then r
  else if r.headD 0 = ninf then l
  else
    let m := (F.minMax c true (l.headD 0) (r.headD 0)).bits
    let sub (a b : Nat) : Nat := (F.add c a ((b + 2 ^ 31) % 2 ^ 32)).bits
    let f (v : List Nat) : Nat := (F.exp2 c (sub (v.headD 0) m)).bits
    let fl := f l
    let fr := f r
    m :: (l.tail.zip r.tail).map fun p => (F.fma c p.1 fl (F.mul c p.2 fr).bits).bits

/-! Check values and signatures. -/

/-- One bit-serial step of a CRC of width w, most significant bit first. -/
def crcBit (w : Nat) (poly crc : Nat) (bit : Bool) : Nat :=
  let top := crc / 2 ^ (w - 1) % 2 = 1
  let s := crc * 2 % 2 ^ w
  if top != bit then s ^^^ poly else s

/-- A CRC over bytes in increasing order, bit 7 first. -/
def crcMsb (w poly init : Nat) (bytes : List Byte) : Nat :=
  bytes.foldl (fun c b => [7, 6, 5, 4, 3, 2, 1, 0].foldl (fun c k => crcBit w poly c (b.getLsbD k)) c) init

/-- The check value of a sector (R305). -/
def crc16 (bytes : List Byte) : Nat := crcMsb 16 0x1021 0xFFFF bytes
/-- crc64 of R373. -/
def crc64 (bytes : List Byte) : Nat := crcMsb 64 0x42F0E1EBA9EA3693 0 bytes

/-- CRC-32 of IEEE 802.3: reflected, initial value and final XOR of ones (R394). -/
def crc32 (bytes : List Byte) : Nat :=
  (bytes.foldl (fun c b => (List.range 8).foldl (fun c _ => if c % 2 = 1 then (c / 2) ^^^ 0xEDB88320 else c / 2) (c ^^^ b.toNat))
    0xFFFFFFFF) ^^^ 0xFFFFFFFF

end Sys2Proof.Machine
end

