-- ==== Sys2Proof/Machine/State.lean ====
section
/-! DEFINITION. The state of one module as plain data, its reset value, and the reasons a step can stop.
Where a field's reset value is the model's choice, the assumption log names it (log 6, log 8). -/

namespace Sys2Proof.Machine

/-- Reasons the model stops without a next state. -/
inductive Fault where
  /-- Raised by the meaning of an instruction when no clause is in flight: no step of the machine reaches it. Safe. -/
  | noClause
  deriving DecidableEq, Repr

/-- Instructions the model gives no meaning. -/
inductive Refusal where
  /-- Raised by an arm of exec that has no meaning yet. Safe. -/
  | notModelled (mnemonic : String)
  deriving DecidableEq, Repr

/-- Memory: bytes by address, addresses strictly rising, no byte equal to what an unlisted address reads as. -/
abbrev Memory := List Host.Cell

/-- A mapped vector register: the lane's physical register, the 32 threads' values (R33), and the second physical register that a
mirroring lane keeps (R140). -/
structure VReg where
  phys : Nat
  vals : Lanes
  mirror : Option Nat
  deriving DecidableEq, Repr

/-- A program-counter slot (R16). -/
structure Slot where
  valid : Bool
  parked : Bool
  pc : DWord
  mask : Mask
  rpc : DWord
  rjp : DWord
  deriving DecidableEq, Repr

/-- An invalid slot. DESIGN CHOICE: the specification says only that it is invalid; its PC and MASK are 0 and its RPC and RJP are NONE
here (R17, R29; log 6). -/
def Slot.empty : Slot := ⟨false, false, 0, 0, Config.noneAddr, Config.noneAddr⟩

/-- The two slots of a swarm. -/
inductive SlotId where
  | a | b
  deriving DecidableEq, Repr

/-- Scheduling states (R131). -/
inductive Sched where
  | active | ready | waiting | held | halted | done
  deriving DecidableEq, Repr

/-- A walk or push descriptor (R277). -/
structure WalkDesc where
  base : DWord
  tstride : Word
  ndim : Nat
  scratch : Bool
  push : Bool
  depth : Nat
  ring : Nat
  counts : List Nat
  strides : List Word
  deriving DecidableEq, Repr

/-- The flags and fault mark of one stream entry (R276, R278): its words lie in the ring. -/
structure Entry where
  eod : BitVec 4
  /-- trap code and detail of a faulted entry -/
  fault : Option (Nat × Nat)
  deriving DecidableEq, Repr

/-- A stream register (R276). -/
structure Stream where
  bound : Bool
  desc : WalkDesc
  ring : Nat
  depth : Nat
  /-- index of the oldest entry in the ring -/
  head : Nat
  /-- entries generated and not consumed, oldest first; COUNT is the length -/
  entries : List Entry
  ended : Bool
  pos : List Nat
  eodf : BitVec 8
  next : Option WalkDesc
  /-- marked failed by a walk-unit error (R296) -/
  failed : Bool
  deriving DecidableEq, Repr

/-- An all-zero descriptor. -/
def WalkDesc.zero : WalkDesc := ⟨0, 0, 0, false, false, 0, 0, [], []⟩
/-- An unbound stream register. -/
def Stream.unbound : Stream := ⟨false, WalkDesc.zero, 0, 0, 0, [], false, [0, 0, 0, 0], 0, none, false⟩

/-- An operation outstanding on an access path (R154). -/
structure PathOp where
  id : Nat
  done : Bool
  deriving DecidableEq, Repr

/-- A trap to raise at the swarm's next clause issue (R162, R287). -/
structure Deferred where
  code : Nat
  detail : Nat
  pc : DWord
  origin : Nat
  addr : Nat
  deriving DecidableEq, Repr

/-- Kinds of end arrival (R347). -/
inductive EndKind where
  | commit | partialCommit | abandon
  deriving DecidableEq, Repr

/-- What an access slice changes in its owner's stream registers, at the owner's next clause boundary (R293). -/
inductive BindChange where
  | bind (w : Nat) (d : WalkDesc) (app : Bool)
  | reset (w : Nat)
  | resetAll
  deriving DecidableEq, Repr

/-- What the next clause of a swarm was last found to wait for: a tile (R209), a slice context (R291), or anything else. -/
inductive WaitFor where
  | other | tile | context
  deriving DecidableEq, Repr

/-- A swarm, or the slice context of a swarm (R16, R285). -/
structure Swarm where
  ref : SwarmRef
  lane : Nat
  teamPos : Nat
  team : Nat
  inTeam : Bool
  regs : List (Option VReg)
  /-- words of its registers with an error that cannot be corrected, by register and thread (R141, R296) -/
  regErrs : List (Nat × Nat)
  preds : List Mask
  streams : List Stream
  slotA : Slot
  slotB : Slot
  /-- the slot that issued last (R25) -/
  lastSlot : SlotId
  live : Mask
  dsBase : Nat
  dsLim : Nat
  dsDepth : Nat
  rsv : Nat
  rmax : Nat
  mode : Word
  shadow : BitVec 6
  entryMode : Word
  prog : Nat
  /-- flags that the performed elements of a part-way long reduction have raised; they join the flag state with its clause (R23, R24) -/
  progFlags : BitVec 6
  rstPc : DWord
  /-- RPC, RJP and DSDEPTH recorded by SETRESTART (R222) -/
  rstRec : DWord × DWord × Nat
  wrapCause : Word
  /-- outstanding operations of the eight paths, oldest first -/
  inflight : List (List PathOp)
  relAcc : List (BitVec 512)
  received : List (BitVec 512)
  /-- scopes of FENCE.REL not yet carried by a write (R180) -/
  pendRel : List Nat
  /-- operations the next clause waits for (FENCEX, R181) -/
  fenceOps : List Nat
  /-- barrier the next clause waits at: scope, id, phase (R190) -/
  barrier : Option (Nat × Nat × Nat)
  /-- the end arrival that stands for the open task (R347) -/
  endArrived : Option EndKind
  /-- sent to its restart label while its end arrival stood: its clauses go on, up to its next end arrival (R390) -/
  rerun : Bool
  /-- the value and flag a restored FETCH destination still has to receive: pair, predicate, value, flag (R371) -/
  pendFetch : Option (Nat × Nat × DWord × Bool)
  deferred : List Deferred
  sliceBinds : List BindChange
  sched : Sched
  /-- cycle since which the scheduling state holds (R133, R134) -/
  since : Nat
  /-- cycle from which its next clause has found a wait condition unmet (R209, R291) -/
  waitFrom : Option Nat
  waitFor : WaitFor
  /-- cycle at which it last left HELD or HALTED: its team is ready no earlier (R135) -/
  freeFrom : Nat
  /-- cycle at which it last left its lane's active slot (R139) -/
  leftLane : Nat
  /-- the accumulator name of a DRAIN that has begun and not completed (R214, R218) -/
  draining : Option Nat
  /-- scheduling state before a debugger halt (R132) -/
  haltedFrom : Sched
  /-- stopped by a trap, or for the host after R372 (R365) -/
  stopped : Bool
  /-- sent to the wrap-up entry (R358) -/
  diverted : Bool
  /-- scoreboard mismatches in a row on the same clause (R138) -/
  mismatches : Nat
  deriving DecidableEq, Repr

/-- A pending branch of a clause (R27, R121). -/
inductive Branch where
  | none
  /-- threads that branch, and their target -/
  | direct (taken : Mask) (target : DWord)
  /-- the target of every thread of MASK, by thread -/
  | indirect (targets : List (Nat × DWord))
  deriving DecidableEq, Repr

/-- A copy, flush, stripe or fabric transfer that runs after its clause (R175, R184, R197, R403). -/
inductive AsyncKind where
  | cpin (va spad len : Nat)
  | cpout (va spad len : Nat)
  /-- destination within the workgroup's operand buffer -/
  | cpob (record : Nat) (scratch : Bool) (src dst len : Nat)
  | flush (va len : Nat)
  deriving DecidableEq, Repr

/-- An atomic request on its way to its home (R178, R301). -/
structure AtomicReq where
  va : Nat
  ty : Ty
  op : Nat
  operand : Nat
  deriving DecidableEq, Repr

/-- A request to a cell's home (R311). -/
inductive CellReq where
  | propose (inc : Nat) (value : List Byte) (ident : BitVec 128) (sig : Option (BitVec 512)) (scope : Nat)
  | docrd (inc : Nat) (scope : Nat)
  | recycle (inc : Nat) (ident : BitVec 128)
  deriving DecidableEq, Repr

/-- A home's answer to a cell request: status of R312 and the value it carries. -/
structure CellReply where
  status : Nat
  value : Option (List Byte)
  sig : Option (BitVec 512)
  /-- code and detail of a trap the request raises (R311, R321), in place of a reply -/
  trap : Option (Nat × Nat)
  /-- this request is the proposal that decided the name -/
  new : Bool
  deriving DecidableEq, Repr

/-- A fabric transfer as its instruction formed it (R403). -/
structure TransferReq where
  get : Bool
  rel : Bool
  spad : Nat
  len : Nat
  remote : Nat
  targets : List Nat
  deriving DecidableEq, Repr

/-- A contribution as CRED formed it (R412). -/
structure CredReq where
  desc : Nat
  /-- the descriptor's 64 bytes -/
  body : List Byte
  op : Nat
  ty : Ty
  sw : Bool
  ident : Bool
  first : Nat
  count : Nat
  deriving DecidableEq, Repr

/-- A row of a versioned add (R217). -/
structure AddRow where
  dst : Nat
  ty : Ty
  exact : Bool
  sat : Bool
  words : List Word
  /-- rows and pitch of the DRAIN that issued it -/
  rows : Nat
  pitch : Nat
  swarm : Nat
  /-- index of the row among those the swarm has issued in the task -/
  index : Nat
  deriving DecidableEq, Repr

/-- One effect of a clause that takes place when the clause completes (R38). A store's cells are thread, address, bytes. -/
inductive Effect where
  /-- ST: the cells, .HOME, the scopes at which it is a release (R167, R170, R180) -/
  | st (cells : List (Nat × Nat × List Byte)) (home : Bool) (rels : List Nat)
  /-- LDS's partner STS, by scratchpad offset -/
  | sts (cells : List (Nat × Nat × List Byte))
  /-- ATOM, ATOMV: the words written, versioned or not (R177, R178) -/
  | atom (cells : List (Nat × List Byte)) (versioned : Bool) (rels : List Nat)
  | red (reqs : List AtomicReq) (rels : List Nat)
  | async (k : AsyncKind)
  /-- RECYCLE: address, expected incarnation, identity -/
  | recycle (reqs : List (Nat × Nat × BitVec 128))
  /-- cell requests for the task's signature: address, incarnation, value, identity (R319, R373) -/
  | proposed (cells : List (Nat × Nat × List Byte × BitVec 128))
  /-- what the clause has issued before it is performed: its REDs and copies for FENCE.AR (R230), its buffered stores too for a proposal at
  .CLU or wider (R170, R247) -/
  | settle (drain : Bool)
  | fencex (src : BitVec 7)
  | qinit (q base cap width allow : Nat)
  | qpush (q : Nat) (words : List Word)
  | qpop (q : Nat)
  | tbar (scope id : Nat)
  | resv (n base granules : Nat) (ty : Ty) (scoff ssoff : Nat)
  | rels (n : Nat)
  | accMap (n tile : Nat)
  | accFree (n : Nat)
  | accZero (n : Nat)
  | accZeroExc
  /-- ACCWR: row, column, value -/
  | accWrite (n : Nat) (cells : List (Nat × Nat × Word))
  | bind (c : BindChange)
  | fgstart (args : List Word)
  | fgstop
  | spush (w : Nat) (words : List Word) (eod : BitVec 4) (last : Bool)
  | endArrive (k : EndKind)
  | enq (q : Nat) (cmd : List Byte) (ext : Bool)
  | transfer (t : TransferReq)
  | cred (c : CredReq)
  /-- SNAP: view id, range, length, alias; SNAP.END: view id (R416) -/
  | snap (id range len alias_ : Nat)
  | snapEnd (id : Nat)
  /-- JOIN: its descriptor, the bytes of its stripe records -/
  | reel (desc : Nat) (records : List Byte)
  | rsv (n : Nat)
  | mode (v : Word)
  | wrapret
  deriving DecidableEq, Repr

/-- The arrival of a clause at a collective MMA (R201). -/
structure Arrival where
  wide : Bool
  acc : Nat
  record : Nat
  opb : BitVec 8
  tile : Nat
  rows : Mask
  /-- the fields that must agree among the members: opcode, ACC, OPA, OPC, MOD, and the MSK prefix -/
  key : Nat × BitVec 8 × BitVec 8 × BitVec 8 × BitVec 10 × Option (BitVec 8)
  ty : Ty
  tyB : Ty
  /-- the quarters of B this swarm holds: number, and the 256 words of its image (R200) -/
  quarters : List (Nat × List Word)
  deriving DecidableEq, Repr

/-- Why a clause whose words have all executed, or whose instruction needs another agent, is not yet complete. -/
inductive RunPhase where
  | executing
  /-- held in flight at its present word, or at its completion, by a scoreboard dependence: an operation under way on a tile, a record or
  a release path (R196, R210, R212, R214, R230) -/
  | stalled
  /-- arrived at a team MMA (R201) -/
  | arrived
  /-- waiting at the workgroup's fetch: destination and predicate (R351) -/
  | fetching (dst pred : Nat)
  /-- waiting for replies to cell requests (R319, R320): the requests outstanding; none: the clause goes on when it can -/
  | cellWait (ids : List Nat)
  /-- waiting for a membership fence (R402): destination, and the join descriptor of a JOIN with the bytes of its stripe records -/
  | fencing (dst : Nat) (join : Option (Nat × List Byte))
  deriving DecidableEq, Repr

/-- A clause in flight: what it names, and the working copy of its swarm, which no other agent sees (R38). -/
structure Run where
  ref : SwarmRef
  slot : SlotId
  pc : DWord
  header : DWord
  words : List DWord
  idx : Nat
  work : Swarm
  imx : Option Word
  msk : Option (BitVec 8)
  effects : List Effect
  /-- register writes so far: register, threads, and whether the value left is uniform (R37) -/
  writes : List (Nat × Mask × Bool)
  /-- the reservation its GROWs have raised the lane's count to, from its issue on; 0 without one (R36) -/
  grown : Nat
  raised : BitVec 6
  branch : Branch
  exits : Mask
  /-- registers whose last-read bit the clause honours at completion (R34) -/
  frees : List Nat
  arrival : Option Arrival
  phase : RunPhase
  deriving DecidableEq, Repr

/-- Scratchpad bytes of a workgroup (R142 to R144). Offsets of the task region that are not listed read a free byte of the epoch. -/
structure Scratch where
  size : Nat
  persist : Nat
  cells : Memory
  epoch : Nat
  /-- offsets of bytes in words with an error that cannot be corrected (R158) -/
  bad : List Nat
  deriving DecidableEq, Repr

/-- A live reservation record (R194). -/
structure Reservation where
  base : Nat
  granules : Nat
  atype : Ty
  scoff : Nat
  ssoff : Nat
  deriving DecidableEq, Repr

/-- A barrier's phase and the swarms that have arrived in it (R190). -/
structure Barrier where
  scope : Nat
  team : Nat
  id : Nat
  phase : Nat
  arrived : List Nat
  deriving DecidableEq, Repr

/-- The device's copy of what a swarm needs to begin a task again (R369). -/
structure StartRecord where
  idx : Nat
  fetchPc : DWord
  dst : Nat
  pred : Nat
  slotA : Slot
  live : Mask
  dsDepth : Nat
  rsv : Nat
  entryMode : Word
  /-- the saved stack entries, 32 bytes each, when DSDEPTH is at most 4 -/
  stack : List (List Byte)
  deriving DecidableEq, Repr

/-- How an open task is to end by a trap: by a replay, or without one with the tile code given (R364). -/
inductive TrapEnd where
  | replay
  | noReplay (code : Nat)
  deriving DecidableEq, Repr

/-- One run of a redundant task: primary or twin of the pair, of the first run or the tie-breaking run (R374, R375). -/
structure TwinInfo where
  twin : Option WgRef
  isTwin : Bool
  tieBreak : Bool
  /-- the signature and outcome code formed when this run's task ended -/
  signature : Option (BitVec 64 × Nat)
  deriving DecidableEq, Repr

/-- An open task (R345, R347). -/
structure Task where
  tile : Nat
  taskId : DWord
  coord : DWord
  nonReplayable : Bool
  attempt : Nat
  machineTraps : Nat
  records : List StartRecord
  /-- ENQ commands held with the version: queue, swarm, command, into the extension (R354) -/
  enqs : List (Nat × Nat × List Byte × Bool)
  /-- versioned releases: swarm, the addresses and bytes written, scopes, whether of a read-modify-write (R170, R244) -/
  releases : List (Nat × List (Nat × List Byte) × List Nat × Bool)
  /-- cell proposals and recycles for the signature: address, incarnation, value, identity (R373) -/
  cellOps : List (Nat × Nat × List Byte × BitVec 128)
  ending : Option TrapEnd
  deriving DecidableEq, Repr

/-- A workgroup (R130, R343). -/
structure Workgroup where
  ref : WgRef
  ctx : Nat
  index : Nat
  laneBase : Nat
  swarms : Nat
  teamSize : Nat
  teamCount : Nat
  accs : Nat
  scratch : Scratch
  /-- where its scratchpad bytes and its operand-buffer granules begin in the core's (R340) -/
  scratchBase : Nat
  obufBase : Nat
  frozen : Bool
  obufGranules : Nat
  obuf : Memory
  /-- bytes of the operand buffer in words with an error that cannot be corrected (R146) -/
  obufBad : List Nat
  records : List (Option Reservation)
  names : List (Option Nat)
  exc : List Nat
  excShadow : List Nat
  barriers : List Barrier
  /-- its active teams: each holds its members' lanes until it leaves them, whatever its members wait for (R135, R136) -/
  seated : List Nat
  task : Option Task
  /-- k-th fetch of the workgroup has completed (R351) -/
  fetches : Nat
  twin : TwinInfo
  /-- its first clause has issued (R249) -/
  begun : Bool
  ended : Bool
  entry : DWord
  sliceEntry : DWord
  wrapup : DWord
  deriving DecidableEq, Repr

/-- A hive queue (R186). -/
structure Queue where
  owner : Option WgRef
  base : Nat
  cap : Nat
  width : Nat
  allow : Nat
  head : Nat
  tail : Nat
  /-- the swarm that pushed each entry present, oldest first; the count is the length -/
  pushers : List Nat
  pushRes : List SwarmRef
  popRes : List SwarmRef
  deriving DecidableEq, Repr

/-- A queue unit that no workgroup owns. -/
def Queue.unowned : Queue := ⟨none, 0, 1, 0, 0, 0, 0, [], [], []⟩

/-- A physical accumulator tile: owner, 2,048 elements row by row, lost mark, and an error that no access and no refresh has found yet
(R147, R150, R191). -/
structure Tile where
  owner : Option WgRef
  elems : List Word
  lost : Bool
  bad : Bool
  deriving DecidableEq, Repr

/-- A sector of the L1 (R151, R164). The list of a core's sectors stands in order of use, the most recent first. -/
structure L1Sector where
  pa : Nat
  data : List Byte
  task : Option WgRef
  /-- its parity is wrong (R153) -/
  bad : Bool
  deriving DecidableEq, Repr

/-- A write-combining entry: bytes of one sector with their mask (R152). -/
structure WcbEntry where
  pa : Nat
  va : Nat
  ctx : Nat
  data : List Byte
  mask : BitVec 64
  task : Option WgRef
  /-- swarm and operation of the stores it holds -/
  writers : List (SwarmRef × Nat)
  firstWrite : Nat
  /-- on its way to the home: announced and not yet delivered (R299) -/
  sent : Bool
  deriving DecidableEq, Repr

/-- A decided copy of a cell, by name (R317). -/
structure CellCopy where
  pa : Nat
  inc : Nat
  value : List Byte
  sig : Option (BitVec 512)
  deriving DecidableEq, Repr

/-- An event counter and its selector (R384). -/
structure Counter where
  sel : Word
  count : Nat
  deriving DecidableEq, Repr

/-- A core (R130 to R158). -/
structure Core where
  idx : Nat
  /-- drowsy banks of the eight lanes, and the cycle of each bank's last access -/
  drowsy : List (BitVec 8)
  bankUse : List (List Nat)
  queues : List Queue
  tiles : List Tile
  refreshPeriod : Nat
  /-- a period to come and the cycle at which it takes effect, a multiple of 4,096 (R148) -/
  nextPeriod : Option (Nat × Nat)
  hot : Bool
  l1 : List L1Sector
  l1Cells : List CellCopy
  wcb : List WcbEntry
  counters : List Counter
  /-- soft-error counts: scoreboard, register file, operand buffer, accumulators, L1, write-combining buffer, scratchpad (R157) -/
  softErrors : List Nat
  deriving DecidableEq, Repr

/-- An accumulator tile nothing has written (log 8). -/
def Tile.free : Tile := ⟨none, List.replicate 2048 0, false, false⟩

/-- A core after module reset. -/
def Core.reset (n : Nat) : Core :=
  ⟨n, List.replicate 8 0, List.replicate 8 (List.replicate 8 0), List.replicate 32 Queue.unowned,
   List.replicate 64 Tile.free, 4096, none, false, [], [], [], List.replicate 8 ⟨0, 0⟩, List.replicate 7 0⟩

/-- What a held access waits for (R161, R322, R381). -/
inductive HoldWhy where
  | fault | migrate | snapshot | regs
  deriving DecidableEq, Repr

/-- An access in a die's hold queue (R322): a held clause, or a held engine request. -/
structure Hold where
  ref : SwarmRef
  engine : Option Nat
  ctx : Nat
  page : Nat
  addr : Nat
  why : HoldWhy
  /-- it has an entry of the hold queue; without one it retries (R322) -/
  queued : Bool
  /-- cycle of its last try -/
  since : Nat
  /-- it is a write that missed its translation (R381) -/
  write : Bool
  deriving DecidableEq, Repr

/-- A shared copy of a sector on a die that is not its home (R299). -/
structure DieCopy where
  pa : Nat
  data : List Byte
  sig : BitVec 512
  deriving DecidableEq, Repr

/-- A reply on the mesh to a die's fetch of a copy (R300). -/
structure CopyFetch where
  id : Nat
  pa : Nat
  data : List Byte
  sig : BitVec 512
  count : Nat
  deriving DecidableEq, Repr

/-- A compute die. -/
structure Die where
  tlb : List Mapping
  /-- outstanding ATS requests: context, page address, and whether the miss was a write's (R381) -/
  ats : List (Nat × Nat × Bool)
  holds : List Hold
  copies : List DieCopy
  fetches : List CopyFetch
  cells : List CellCopy
  /-- the scrub log's ring in second-tier memory, when firmware has set one up, and the entries written to it (R327) -/
  scrubRing : Option Nat
  scrubNext : Nat
  /-- findings by line and kind since module reset (R327) -/
  scrubCounts : List (Nat × Nat × Nat)
  counters : List Counter
  admits : Bool
  fenced : List Nat
  /-- soft-error counts: L2 tags and metadata, L2 data, notification network (R157, R329) -/
  softErrors : List Nat
  deriving DecidableEq, Repr

/-- A die after module reset. -/
def Die.reset : Die := ⟨[], [], [], [], [], [], none, 0, [], List.replicate 16 ⟨0, 0⟩, true, [], [0, 0, 0]⟩

/-- What the homes keep beside a sector's bytes (R170, R305, R309). -/
structure SectorMeta where
  pa : Nat
  sig : BitVec 512
  /-- announcements the home has made for the sector (R300) -/
  announced : Nat
  /-- trap code and detail a read of the sector raises: a failed check value, ECC or tag (R162, R329) -/
  bad : Option (Nat × Nat)
  /-- its check value, when it is not that of the bytes stored (R305) -/
  check : Option (BitVec 16)
  /-- a single-bit error that each read corrects and a scrubber visit writes back (R326) -/
  soft : Bool
  /-- the winner's identity and the winning proposal's signature -/
  ident : BitVec 128
  cellSig : Option (BitVec 512)
  deriving DecidableEq, Repr

/-- A write announced and not yet delivered (R299). -/
structure Announcement where
  pa : Nat
  data : List Byte
  mask : BitVec 64
  /-- signature the write leaves in the sector: none keeps a plain store's rule, which clears it (R170) -/
  sig : Option (BitVec 512)
  /-- core whose write-combining entry this drains, with its tag -/
  core : Option Nat
  deriving DecidableEq, Repr

/-- An operation running after its clause. -/
structure Async where
  id : Nat
  ref : SwarmRef
  pc : DWord
  path : Nat
  kind : AsyncKind
  deriving DecidableEq, Repr

/-- Atomic requests waiting at the homes (R301). -/
structure AtomicWait where
  id : Nat
  ref : SwarmRef
  pc : DWord
  reqs : List AtomicReq
  sig : Option (BitVec 512)
  deriving DecidableEq, Repr

/-- A cell request waiting at its home; from a swarm of this module, or from another module (R311, R320). -/
structure CellWait where
  id : Nat
  ref : Option SwarmRef
  thread : Nat
  pc : DWord
  ctx : Nat
  va : Nat
  pa : Nat
  /-- the module of the cell's home, when it is another one -/
  home : Option Nat
  req : CellReq
  /-- the request packet of another module, which the reply answers -/
  packet : Option Packet
  deriving DecidableEq, Repr

/-- An MMA the engine has accepted (R203, R205, R207). -/
structure AcceptedMma where
  id : Nat
  wg : WgRef
  members : List SwarmRef
  wide : Bool
  acc : Nat
  tile : Nat
  rows : Mask
  ty : Ty
  tyB : Ty
  /-- the operand bytes of the A tile and its scales, and the four quarter images, as read at acceptance -/
  aBytes : List Byte
  scales : List Byte
  supers : List Word
  quarters : List (List Word)
  discarded : Bool
  inTask : Bool
  deriving DecidableEq, Repr

/-- One entry of a task's version, in the order performed (R217, R303). -/
inductive VersionOp where
  /-- bytes of one sector, with their mask; written by a read-modify-write, whose sector keeps its signature (R170), or not -/
  | store (swarm va : Nat) (data : List Byte) (mask : BitVec 64) (rmw : Bool)
  | add (row : AddRow)
  deriving DecidableEq, Repr

/-- The version of a workgroup's task, kept in the version store of its core's die (R303). -/
structure Version where
  wg : WgRef
  ops : List VersionOp
  /-- parked for a tie-breaking run of the tile (R374): tile, first-run twin or primary, signature, outcome code -/
  parked : Option (Nat × Bool × BitVec 64 × Nat)
  task : Option Task
  /-- its entries with an error that cannot be corrected, by place (R329) -/
  failed : List Nat
  /-- of a parked one: the SWIDs and release accumulators of its workgroup's swarms, which may be gone when it is performed (R242, R244) -/
  swarms : List (Nat × List (BitVec 512))
  deriving DecidableEq, Repr

/-- A launch descriptor (R337). -/
structure LaunchDesc where
  entry : DWord
  slice : DWord
  wrapup : DWord
  deadline : Nat
  budget : Nat
  cost : Nat
  vmap : Nat
  crec : Nat
  seed : DWord
  mode : Word
  ntiles : Nat
  tx : Nat
  ox : Nat
  oy : Nat
  w : Nat
  h : Nat
  redund : Bool
  stopLate : Bool
  swarms : Nat
  tsize : Nat
  tcount : Nat
  rinit : Nat
  rmaxv : Nat
  scratch : Nat
  persist : Nat
  accs : Nat
  obuf : Nat
  dsArea : Nat
  dsLim : Nat
  streams : Nat
  deriving DecidableEq, Repr

/-- Where a launch stands. -/
inductive LaunchState where
  | waiting | resident | saved
  /-- over with a status; its completion record is still to write -/
  | ending
  | completed
  deriving DecidableEq, Repr

/-- The saved state of a pre-empted launch (R378), as records; queue units by core and number. -/
structure Saved where
  layout : Nat
  wgs : List Workgroup
  swarms : List Swarm
  queues : List (Nat × Nat × Queue)
  versions : List Version
  deriving DecidableEq, Repr

/-- A tile queued for a tie-breaking run (R374, R375): tile, TASKID, COORD, the two clusters' cores. -/
structure TieTile where
  tile : Nat
  primary : WgRef
  twin : WgRef
  dispatched : Bool
  since : Nat
  deriving DecidableEq, Repr

/-- A launch of a queue (R337 to R346, R383). -/
structure Launch where
  id : Nat
  queue : Nat
  cmd : Nat
  ctx : Nat
  notify : Bool
  desc : LaunchDesc
  state : LaunchState
  /-- a pre-emption is under way (R377) -/
  stopping : Bool
  seq : Nat
  tag : Nat
  /-- the STREAMS records, w0 first (R294) -/
  binds : List (Option WalkDesc)
  nextTile : Nat
  /-- tile codes written, newest first (R349) -/
  codes : List (Nat × Nat)
  /-- codes whose nibble waits for VMAP's page -/
  unwritten : List (Nat × Nat)
  reclaims : Nat
  replays : Nat
  tstart : Nat
  /-- cause of diversion, 0 when not diverted (R359) -/
  cause : Nat
  /-- CLKNS at which a diverted launch overruns (R360) -/
  overrunAt : Nat
  cancelled : Bool
  flags : Nat
  status : Nat
  resource : Nat
  watchdog : Nat
  /-- its Watchdog record has been written (R383) -/
  expired : Bool
  saved : Option Saved
  ties : List TieTile
  deriving DecidableEq, Repr

/-- A work queue (R330, R332, R355). -/
structure WorkQueue where
  num : Nat
  ring : Nat
  entries : Nat
  ctx : Nat
  gang : Nat
  vector : Nat
  ridxAddr : Nat
  extBase : Nat
  extEntries : Nat
  widx : Nat
  taken : Nat
  ridx : Nat
  /-- commands taken and not yet behind RIDX: index, complete -/
  open_ : List (Nat × Bool)
  /-- the extension's oldest command, by its place at EXTBASE, and how many it holds (R355) -/
  extHead : Nat
  extCount : Nat
  /-- space ENQ has reserved in the ring and in the extension (R354) -/
  ringRes : Nat
  extRes : Nat
  mapped : Bool
  removing : Bool
  /-- write indices the queue has been given, and when: how long its oldest command has waited (R335) -/
  since : List (Nat × Nat)
  deriving DecidableEq, Repr

/-- What the package keeps for a context. -/
structure Context where
  num : Nat
  /-- trap area: base, entries, index address, vector (R367) -/
  trapArea : Option (Nat × Nat × Nat × Nat)
  trapWrite : Nat
  trapRead : Nat
  trapLost : Nat
  watchdog : Nat
  /-- page requests are sent (R382) -/
  pageRequests : Bool
  key : Bool
  killed : Bool
  /-- second-tier frames assigned for shadow copies (R325); none when no pool is assigned -/
  shadowPool : Option Nat
  deriving DecidableEq, Repr

/-- A page request outstanding to the host, an entry of the tag table (R381). -/
structure PageRequest where
  group : Nat
  ctx : Nat
  page : Nat
  /-- the access kind -/
  write : Bool
  /-- the last page of its group: the group has been sent -/
  last : Bool
  deriving DecidableEq, Repr

/-- A page marked migrating: its old frame, and the new one once it is copied (R323). -/
structure Migration where
  ctx : Nat
  va : Nat
  len : Nat
  oldPa : Nat
  newPa : Option Nat
  deriving DecidableEq, Repr

/-- The copy of a page that stays writable: its frames, and the sectors not yet copied as they stand, by offset (R324). -/
structure PreCopy where
  ctx : Nat
  va : Nat
  len : Nat
  oldPa : Nat
  newPa : Nat
  stale : List Nat
  deriving DecidableEq, Repr

/-- States of a granule of a snapshot view (R325). -/
inductive Granule where
  | shared | copying | split (shadow : Nat)
  deriving DecidableEq, Repr

/-- A snapshot view (R325, R416). -/
structure View where
  ctx : Nat
  id : Nat
  range : Nat
  len : Nat
  alias_ : Nat
  granules : List Granule
  since : Nat
  /-- CLKNS since which a write waits for a shadow frame (R325) -/
  starved : Option Nat
  deriving DecidableEq, Repr

/-- A context kill waiting for its fence (R380). -/
structure Kill where
  ctx : Nat
  /-- the context's tag at other modules -/
  tag : Nat
  /-- in the kill lists (step 3) -/
  entered : Bool
  waiting : List Nat
  deriving DecidableEq, Repr

/-- A membership table (R399). -/
structure Membership where
  gen : Nat
  anchor : Nat
  mods : List Nat
  deriving DecidableEq, Repr

/-- A fabric port (R394). -/
structure Port where
  up : Bool
  rxSeq : Nat
  txSeq : Nat
  failures : Nat
  acked : Nat
  credits : Nat
  /-- replays of this module's own flits that have failed in a row (R394) -/
  replays : Nat
  rx : List Byte
  deriving DecidableEq, Repr

/-- A membership fence in progress (R402). -/
structure Fence where
  next : Membership
  started : Nat
  deriving DecidableEq, Repr

/-- A fabric transfer in flight (R403, R404). -/
structure Transfer where
  id : Nat
  ref : SwarmRef
  pc : DWord
  req : TransferReq
  /-- targets that have not acknowledged, or bytes still to come for RGET -/
  waiting : List Nat
  remaining : Nat
  sentAt : Nat
  started : Bool
  failed : Option (Nat × Nat)
  deriving DecidableEq, Repr

/-- A cell request to another module (R320); both twins' compared requests share a packet (R319). -/
structure RemoteCell where
  id : Nat
  /-- CID of the request packet -/
  wire : Nat
  ref : SwarmRef
  thread : Nat
  pc : DWord
  va : Nat
  pa : Nat
  module : Nat
  sentAt : Nat
  recycle : Bool
  deriving DecidableEq, Repr

/-- One chunk of an open collective: contributions by rank, and whether its result is written (R406, R409). -/
structure Chunk where
  parts : List (Nat × List Byte)
  done : Bool
  failed : Bool
  retries : Nat
  deriving DecidableEq, Repr

/-- A collective open at the module (R406 to R412). -/
structure Collective where
  cid : Nat
  ctx : Nat
  descAddr : Nat
  desc : List Byte
  op : Nat
  ty : Ty
  sw : Bool
  chunks : List Chunk
  /-- CREDs waiting on it: operation, swarm, clause, first chunk, count, identity form -/
  creds : List (Nat × SwarmRef × DWord × Nat × Nat × Bool)
  /-- contributions this module has made: first chunk, count, identity form (R411) -/
  sent : List (Nat × Nat × Bool)
  deriving DecidableEq, Repr

/-- A stripe of the reel (R418, R419). -/
structure Stripe where
  rank : Nat
  alt : Nat
  srcv : Nat
  dsta : Nat
  len : Nat
  asked : Option Nat
  got : Nat
  state : Nat
  /-- the module asked last -/
  peer : Nat
  deriving DecidableEq, Repr

/-- The join engine (R419). -/
structure Reel where
  ref : SwarmRef
  pc : DWord
  op : Nat
  ctx : Nat
  desc : Nat
  stripes : List Stripe
  deriving DecidableEq, Repr

/-- Heartbeats heard from a peer (R414). -/
structure Peer where
  num : Nat
  /-- CLKNS of the last heartbeat on any plane -/
  heard : Nat
  /-- planes down for this peer -/
  down : List Nat
  /-- CLKNS since which its heartbeats are awaited, and of the last one by plane -/
  since : Nat
  planes : List (Nat × Nat)
  deriving DecidableEq, Repr

/-- The fabric engine (R393 to R422). -/
structure Fabric where
  modNum : Option Nat
  ports : List Port
  current : Membership
  fence : Option Fence
  /-- fence markers that have arrived: port, module, generation (R426) -/
  markers : List (Nat × Nat × Nat)
  /-- packets held: 0 for a fence, before their admission (R398); else for a page, under the number of their hold -/
  heldPackets : List (Nat × Packet)
  /-- packets that wait for the port of their plane, or with 36 for any port (R408) -/
  planeWaits : List (Nat × Packet)
  owner : Option (Nat × Nat)
  transfers : List Transfer
  remoteCells : List RemoteCell
  collectives : List Collective
  early : List Packet
  /-- the 4,096 most recently closed, the latest first (R409) -/
  closed : List Collective
  /-- contributions to send again to a module that joined, whose SRC is not there yet: CID, identity form, chunk, module (R411) -/
  resends : List (Nat × Bool × Nat × Nat)
  /-- collective area: base and size (R410) -/
  area : Option (Nat × Nat)
  peers : List Peer
  /-- CLKNS of the last heartbeats sent -/
  beatAt : Nat
  suspected : List Nat
  watch : List Nat
  suspectMap : Option Nat
  /-- words of the suspect map still to write, and whether a change is to be told to the host (R415) -/
  mapStale : List (Nat × Bool)
  /-- STATUS words of closed collectives still to write: context, address, status (R411, R412) -/
  statuses : List (Nat × Nat × Nat)
  /-- kill notices that wait for room in the kill list: module, tag (R380) -/
  notices : List (Nat × Nat)
  reel : Option Reel
  /-- lines that another module's fabric writes have written here, by module (R405) -/
  written : List (Nat × BitVec 512)
  /-- packets sent, each with its plane (R395) -/
  outbox : List (Nat × Packet)
  counters : List Counter
  deriving DecidableEq, Repr

/-- The fabric engine after module reset: down until the planes report the module number (R393, R401). -/
def Fabric.reset : Fabric :=
  ⟨none, List.replicate 36 ⟨false, 0, 0, 0, 0, 0, 0, []⟩, ⟨0, 0, []⟩, none, [], [], [], none, [], [], [], [], [], [], none, [], 0, [], [], none, [],
   [], [], none, [], [], List.replicate 16 ⟨0, 0⟩⟩

/-- What happens of itself to stored words: errors, and the L2s' own fills and write-backs (R141, R146, R150, R153, R157, R158, R296,
R305, R326, R328, R329). A corrected error is named as it is found. -/
inductive Upset where
  /-- a single-bit error found and corrected: core, structure by its place in the core's soft-error counts -/
  | corrected (core part : Nat)
  /-- a multi-bit error in the word that a thread holds in a register of a swarm or slice -/
  | register (r : SwarmRef) (n t : Nat)
  /-- an uncorrectable 64-bit word of a workgroup's operand buffer, of a tile of a core, of a workgroup's scratchpad -/
  | operandBuffer (g : WgRef) (off : Nat)
  | tile (core j : Nat)
  | scratchpad (g : WgRef) (off : Nat)
  /-- wrong parity in a sector of a core's L1; an uncorrectable word in an entry of its write-combining buffer -/
  | l1 (core pa : Nat)
  | writeBuffer (core pa : Nat)
  /-- a corrected error in a cluster's slice context registers; an uncorrectable one in the state of its walk units -/
  | sliceCorrected (cluster : Nat)
  | walkUnit (cluster : Nat)
  /-- a corrected error of a die's L2, by its place in the die's soft-error counts -/
  | l2Corrected (die part : Nat)
  /-- a sector at its home: a single-bit error of its data, one that cannot be corrected, bytes other than those its check value was formed
  over, an error of its tag and metadata that cannot be corrected -/
  | sectorSoft (pa : Nat)
  | sectorData (pa : Nat)
  | sectorBytes (pa : Nat) (data : List Byte)
  | sectorTag (pa : Nat)
  /-- a byte of the memory behind the L2s changes, unseen by its ECC; a clean line leaves its L2 and is filled again from memory, or a
  dirty one is written back (R298, R305, R328) -/
  | memoryByte (pa : Nat) (b : Byte)
  | refill (line : Nat)
  | writeBack (line : Nat)
  /-- an error in an entry of a workgroup's version that cannot be corrected; a parity error of the notification network at dies -/
  | versionEntry (g : WgRef) (k : Nat)
  | notification (dies : List Nat)
  /-- flits of this module are replayed on a port, and arrive or not (R394) -/
  | linkReplay (port : Nat) (ok : Bool)
  deriving DecidableEq, Repr

/-- What the debugger, the host and the firmware do beside the events of the table (R73, R297, R306, R325, R327, R384; log 77). -/
inductive Service where
  /-- the debugger writes code of a launch whose every swarm is halted (R73) -/
  | debugCode (seq va : Nat) (bytes : List Byte)
  /-- the debugger reads or writes a word of the on-chip physical map: core, launch tag, offset (R306) -/
  | debugRead (core tag off : Nat)
  | debugWrite (core tag off : Nat) (bytes : List Byte)
  /-- the debugger reads eight bytes of a context's memory, as plaintext (R385) -/
  | debugMemory (ctx va : Nat)
  /-- the host writes bytes of a context's memory through the host link (R249, R260, R305) -/
  | hostStore (ctx va : Nat) (bytes : List Byte)
  /-- the host reads a word of BAR0's counter block (R384) -/
  | hostRead (off : Nat)
  /-- firmware sets the map's base, a range behind which no HBM4E lies, a die's scrub log, a context's shadow frames -/
  | mapBase (pa : Nat)
  | farRange (base len : Nat)
  | scrubRing (die base : Nat)
  | shadowPool (ctx frames : Nat)
  deriving DecidableEq, Repr

/-- Which agent moves next, when the agenda says so (log 2), what nature does to the machine, or a service of the debugger or the firmware
(log 77). -/
inductive Move where
  | event (e : Instr)
  | issue (r : SwarmRef)
  | upset (u : Upset)
  | service (x : Service)
  deriving DecidableEq, Repr

/-- The module. -/
structure State where
  /-- moves still to make, first first; when empty the machine picks an agent itself (log 2) -/
  agenda : List Move
  /-- the clause whose word executes next -/
  run : Option Run
  /-- clauses of other swarms in flight -/
  runs : List Run
  /-- counter the free values are applied to (log 3) -/
  fresh : Nat
  /-- names of operations in flight -/
  nextId : Nat
  swarms : List Swarm
  wgs : List Workgroup
  cores : List Core
  dies : List Die
  /-- bytes at the L2 homes, by physical address -/
  mem : Memory
  /-- bytes behind the L2s, and the lines newer in an L2 (R184) -/
  backing : Memory
  dirty : List Nat
  /-- the integrity tags of encrypted lines: line, context of the key, tag (R328) -/
  lineTags : List (Nat × Nat × BitVec 64)
  /-- physical ranges on encrypted pages, shadow frames and save areas among them: address, length, context of the key (R328, R385) -/
  keyed : List (Nat × Nat × Nat)
  /-- the lines the L2s hold, each with its size, the line used last first (R298) -/
  l2Tags : List (Nat × Nat)
  /-- the host's own memory: rings and trap areas (R330, R367) -/
  host : Memory
  sectors : List SectorMeta
  announcements : List Announcement
  asyncs : List Async
  atomics : List AtomicWait
  cellWaits : List CellWait
  mmas : List AcceptedMma
  versions : List Version
  launches : List Launch
  nextSeq : Nat
  queues : List WorkQueue
  contexts : List Context
  pageRequests : List PageRequest
  prAllocation : Nat
  /-- tags in the kill lists: of this module's kills, and those other modules have given notice of (R380) -/
  killList : List Nat
  kills : List Kill
  /-- pages marked migrating (R323) -/
  migrating : List Migration
  /-- pages that an E1-compatible migration is copying (R324) -/
  precopies : List PreCopy
  views : List View
  ocm : Nat
  /-- physical ranges behind which no HBM4E lies (R297; log 7) -/
  farRanges : List (Nat × Nat)
  clkns : Nat
  cycle : Nat
  mhz : Nat
  synced : Bool
  slew : Int
  powerCap : Nat
  powered : Bool
  fwLayout : Nat
  fwPending : Option Nat
  msix : List Nat
  replies : List Nat
  machineChecks : Nat
  /-- the fetch served last: its cycle, and its launch's slack and sequence and its workgroup's index (R346) -/
  lastFetch : Option (Nat × Int × Nat × Nat)
  /-- the foragers' soft-error counts by cluster: slice context registers, walk units (R296) -/
  foragerErrors : List (Nat × Nat)
  fabric : Fabric
  deriving DecidableEq, Repr

/-- The module right after reset: no queue, launch, swarm, membership or mapping, and no byte of memory listed. -/
def State.reset : State where
  agenda := []
  run := none
  runs := []
  fresh := 0
  nextId := 0
  swarms := []
  wgs := []
  cores := []
  dies := [Die.reset, Die.reset, Die.reset, Die.reset]
  mem := []
  backing := []
  dirty := []
  lineTags := []
  keyed := []
  l2Tags := []
  host := []
  sectors := []
  announcements := []
  asyncs := []
  atomics := []
  cellWaits := []
  mmas := []
  versions := []
  launches := []
  nextSeq := 1
  queues := []
  contexts := []
  pageRequests := []
  prAllocation := 4096
  killList := []
  kills := []
  migrating := []
  precopies := []
  views := []
  ocm := 0
  farRanges := []
  clkns := 0
  cycle := 0
  mhz := 3300
  synced := true
  slew := 0
  powerCap := 3600
  powered := true
  fwLayout := 2
  fwPending := none
  msix := []
  replies := []
  machineChecks := 0
  lastFetch := none
  foragerErrors := List.replicate 48 (0, 0)
  fabric := Fabric.reset

end Sys2Proof.Machine
end

