-- ==== Sys2Proof/Machine/Memory.lean ====
section
/-! DEFINITION. Finding and replacing the records of State, memory by byte, scratchpads, translation, the L1 and the write-combining
buffer, writes at the homes, and a task's version (R142 to R153, R161 to R171, R242, R297 to R304). -/

namespace Sys2Proof.Machine

/-- Why an instruction does not go on: it traps, it reads an uncorrectable word of the scratchpad (which traps, and the words of the
persistent region cannot be repaired, R158), its page has no translation, its access is held, or it waits. -/
inductive Stop where
  | trap (code detail addr : Nat)
  | badScratch (persistent : Bool)
  | miss (va : Nat) (write : Bool)
  | held (va : Nat) (why : HoldWhy)
  | wait
  deriving DecidableEq, Repr

/-! Records. -/

/-- The workgroup of a swarm or slice. -/
def wgOf (r : SwarmRef) : WgRef := ⟨r.seq, r.core⟩
/-- The access slice's name of a swarm. -/
def sliceOf (r : SwarmRef) : SwarmRef := { r with slice := true }
/-- The swarm a slice serves. -/
def ownerOf (r : SwarmRef) : SwarmRef := { r with slice := false }

def swarm? (s : State) (r : SwarmRef) : Option Swarm := s.swarms.find? fun w => w.ref = r
def modSwarm (s : State) (r : SwarmRef) (f : Swarm → Swarm) : State :=
  { s with swarms := s.swarms.map fun w => if w.ref = r then f w else w }
def putSwarm (s : State) (w : Swarm) : State := modSwarm s w.ref fun _ => w
/-- Change every swarm of a workgroup. -/
def modSwarms (s : State) (g : WgRef) (f : Swarm → Swarm) : State :=
  { s with swarms := s.swarms.map fun w => if wgOf w.ref = g then f w else w }
/-- The swarms of a workgroup, slices apart, in increasing index. -/
def swarmsOf (s : State) (g : WgRef) : List Swarm := s.swarms.filter fun w => wgOf w.ref = g && !w.ref.slice

def wg? (s : State) (g : WgRef) : Option Workgroup := s.wgs.find? fun w => w.ref = g
def modWg (s : State) (g : WgRef) (f : Workgroup → Workgroup) : State :=
  { s with wgs := s.wgs.map fun w => if w.ref = g then f w else w }

/-- A core; one that is not listed is as reset left it. -/
def coreAt (s : State) (n : Nat) : Core := (s.cores.find? fun c => c.idx = n).getD (Core.reset n)
def modCore (s : State) (n : Nat) (f : Core → Core) : State :=
  if s.cores.any fun c => c.idx = n then { s with cores := s.cores.map fun c => if c.idx = n then f c else c }
  else { s with cores := s.cores ++ [f (Core.reset n)] }

def launch? (s : State) (seq : Nat) : Option Launch := s.launches.find? fun l => l.seq = seq && seq ≠ 0
def modLaunch (s : State) (seq : Nat) (f : Launch → Launch) : State :=
  { s with launches := s.launches.map fun l => if l.seq = seq then f l else l }
def modLaunchId (s : State) (id : Nat) (f : Launch → Launch) : State :=
  { s with launches := s.launches.map fun l => if l.id = id then f l else l }
def queue? (s : State) (q : Nat) : Option WorkQueue := s.queues.find? fun x => x.num = q
def modQueue (s : State) (q : Nat) (f : WorkQueue → WorkQueue) : State :=
  { s with queues := s.queues.map fun x => if x.num = q then f x else x }
/-- A context; one the host has said nothing about sends page requests and has neither trap area nor limit. -/
def contextAt (s : State) (n : Nat) : Context :=
  (s.contexts.find? fun c => c.num = n).getD ⟨n, none, 0, 0, 0, 0, true, false, false, none⟩
def modContext (s : State) (n : Nat) (f : Context → Context) : State :=
  if s.contexts.any fun c => c.num = n then { s with contexts := s.contexts.map fun c => if c.num = n then f c else c }
  else { s with contexts := s.contexts ++ [f (contextAt s n)] }
def dieAt (s : State) (d : Nat) : Die := s.dies.getD d Die.reset
def modDie (s : State) (d : Nat) (f : Die → Die) : State := { s with dies := s.dies.modify d f }

/-- Package column and row of a core (R368), its die and its cluster (R1). -/
def coreX (n : Nat) : Nat := n % 32
def coreY (n : Nat) : Nat := n / 32
def dieOf (n : Nat) : Nat := 2 * (coreY n / 12) + coreX n / 16
def clusterOf (n : Nat) : Nat := 12 * dieOf n + 4 * (coreY n % 12 / 4) + coreX n % 16 / 4

/-- The context of a workgroup. -/
def ctxOf (s : State) (g : WgRef) : Nat := ((wg? s g).map Workgroup.ctx).getD 0
/-- A task is open in the workgroup (R347). -/
def inTask (s : State) (g : WgRef) : Bool := (wg? s g).any fun w => w.task.isSome

/-! Event counters (R384). -/

/-- Sources valid at each location. -/
def coreSource (n : Nat) : Bool := n ≤ 0x0F
def dieSource (n : Nat) : Bool := 0x40 ≤ n && n ≤ 0x4F
def fabricSource (n : Nat) : Bool := 0x80 ≤ n && n ≤ 0x88
/-- Sources that hold a level instead of a count. -/
def gaugeSource (n : Nat) : Bool := (0x42 ≤ n && n ≤ 0x44) || n = 0x47 || n = 0x48

/-- Sources whose events the specification does not define finely enough to count: L1 and L2 hits and misses, refresh stalls, announcements,
flits sent and FEC corrections. Free numbers of them happen as time passes (log 29). -/
def freeSource (n : Nat) : Bool := [0x08, 0x09, 0x0E, 0x40, 0x41, 0x45, 0x81, 0x83].contains n

/-- Count n events of a source on one counter, modulo 2^48. -/
def countOn (src ctx n : Nat) (c : Counter) : Counter :=
  if (c.sel.extractLsb' 0 8).toNat = src && c.sel.getLsbD 8 && (!c.sel.getLsbD 9 || (c.sel.extractLsb' 16 16).toNat = ctx) then
    { c with count := (c.count + n) % 2 ^ 48 }
  else c
/-- Count events at a core, a die or the fabric engine. -/
def countCore (s : State) (core src ctx : Nat) (n : Nat := 1) : State :=
  if s.cores.any fun c => c.idx = core then modCore s core fun c => { c with counters := c.counters.map (countOn src ctx n) } else s
def countDie (s : State) (die src ctx : Nat) (n : Nat := 1) : State :=
  modDie s die fun d => { d with counters := d.counters.map (countOn src ctx n) }
def countFabric (s : State) (src ctx : Nat) (n : Nat := 1) : State :=
  { s with fabric := { s.fabric with counters := s.fabric.counters.map (countOn src ctx n) } }

/-- Contexts whose events may happen in the package: those resident, the fabric owner, and none. -/
def eventContexts (s : State) : List Nat := (0 :: (s.wgs.map Workgroup.ctx ++ (s.fabric.owner.map Prod.fst).toList)).eraseDups
/-- The events of a free source that happen at a location as time passes: core n is location n, a die 2000 and on, the fabric engine 3000. -/
def countFree (s : State) (loc : Nat) (c : Counter) : Counter :=
  let src := (c.sel.extractLsb' 0 8).toNat
  if freeSource src && c.sel.getLsbD 8 then
    (eventContexts s).foldl (fun c ctx => countOn src ctx (Config.sourceEvents s.fresh loc src ctx) c) c
  else c
/-- The same for every counter of the package. -/
def countPassing (s : State) : State :=
  { s with
    cores := s.cores.map fun c => { c with counters := c.counters.map (countFree s c.idx) }
    dies := s.dies.zipIdx.map fun d => { d.1 with counters := d.1.counters.map (countFree s (2000 + d.2)) }
    fabric := { s.fabric with counters := s.fabric.counters.map (countFree s 3000) } }

/-- Events count in a structure's soft-error count (R157), by its place in the core's counts. -/
def softError (s : State) (core part n : Nat) : State :=
  if n = 0 then s else modCore s core fun c => { c with softErrors := c.softErrors.modify part (· + n) }
/-- A soft error of a structure: it is counted there and by the core's event counters, corrected (0x0B) or not (0x0C) (R157, R384). -/
def noteError (s : State) (core part ctx : Nat) (corrected : Bool) : State :=
  countCore (softError s core part 1) core (if corrected then 0x0B else 0x0C) ctx

/-! Memory by byte. -/

/-- A byte of a memory; an address that is not listed reads 0 (log 1). -/
def memGet : Memory → Nat → Byte
  | [], _ => 0
  | (k, b) :: m, a => if k = a then b else if a < k then 0 else memGet m a

/-- Write one byte. Writing what an unlisted address reads as removes the entry. -/
def memSet : Memory → Nat → Byte → Memory
  | [], a, b => if b = 0 then [] else [(a, b)]
  | (k, c) :: m, a, b =>
    if k = a then (if b = 0 then m else (a, b) :: m)
    else if a < k then (if b = 0 then (k, c) :: m else (a, b) :: (k, c) :: m)
    else (k, c) :: memSet m a b

/-- n bytes from an address on. -/
def memRead (m : Memory) (a : Nat) : Nat → List Byte
  | 0 => []
  | n + 1 => memGet m a :: memRead m (a + 1) n

/-- Write bytes from an address on. -/
def memWrite (m : Memory) (a : Nat) : List Byte → Memory
  | [] => m
  | b :: bs => memWrite (memSet m a b) (a + 1) bs

/-- The canonical form: addresses strictly rising from a bound on, and no byte equal to what an unlisted address reads as. -/
def memWfFrom : Nat → Memory → Bool
  | _, [] => true
  | lo, (k, b) :: m => lo ≤ k && b ≠ 0 && memWfFrom (k + 1) m

/-- A memory in canonical form. -/
def Memory.wf (m : Memory) : Bool := memWfFrom 0 m

/-- A scratchpad's list of written bytes keeps each byte written, zeros too. -/
def cellSet : Memory → Nat → Byte → Memory
  | [], a, b => [(a, b)]
  | (k, c) :: m, a, b =>
    if k = a then (a, b) :: m else if a < k then (a, b) :: (k, c) :: m else (k, c) :: cellSet m a b
def cellGet : Memory → Nat → Option Byte
  | [], _ => none
  | (k, b) :: m, a => if k = a then some b else if a < k then none else cellGet m a
def cellWrite (m : Memory) (a : Nat) : List Byte → Memory
  | [] => m
  | b :: bs => cellWrite (cellSet m a b) (a + 1) bs

/-! Scratchpads (R142 to R144). -/

/-- A scratchpad byte: the last written, else 0, or in the task region of a task a free byte of its epoch (log 8). -/
def scratchByte (c : Scratch) (off : Nat) : Byte :=
  match cellGet c.cells off with
  | some b => b
  | none => if off < c.persist ∨ c.epoch = 0 then 0 else Config.freeByte c.epoch off
def scratchRead (c : Scratch) (off n : Nat) : List Byte := (List.range n).map fun k => scratchByte c (off + k)
/-- Bytes written. DESIGN CHOICE: R158 does not say whether a store of a part of a 64-bit word with an uncorrectable error repairs it; here the
mark goes when the store covers the word's first byte (log 96). -/
def scratchWrite (c : Scratch) (off : Nat) (bytes : List Byte) : Scratch :=
  { c with cells := cellWrite c.cells off bytes, bad := c.bad.filter fun b => b < off || off + bytes.length ≤ b }
/-- Whether a read of n bytes meets a 64-bit word with an uncorrectable error (R158). -/
def eccBad (bad : List Nat) (off n : Nat) : Bool := bad.any fun b => off / 8 ≤ b / 8 && b / 8 * 8 < off + n
/-- The bytes a read of the scratchpad takes, when no word of them is uncorrectable (R157, R158). -/
def scratchData (c : Scratch) (off n : Nat) : Except Stop (List Byte) :=
  if eccBad c.bad off n then .error (.badScratch (eccBad (c.bad.filter (· < c.persist)) off n)) else .ok (scratchRead c off n)
/-- The 32-bit word at an offset. -/
def scratchWord (c : Scratch) (off : Nat) : Nat := bytesToNat (scratchRead c off 4)
/-- R142 and, for a write, R143. -/
def scratchCheck (w : Workgroup) (off n : Nat) (write : Bool) : Except Stop Unit :=
  if w.scratch.size < off + n ∨ (n = 0 ∧ w.scratch.size ≤ off) then .error (.trap 7 0 0)
  else if write && w.frozen && off < w.scratch.persist && n ≠ 0 then .error (.trap 7 0 0)
  else .ok ()
/-- Bytes of the operand buffer are written, with fresh check bits (R146). -/
def obufWrite (g : Workgroup) (off : Nat) (bytes : List Byte) : Workgroup :=
  { g with obuf := memWrite g.obuf off bytes, obufBad := g.obufBad.filter fun b => b < off || off + bytes.length ≤ b }
/-- R142, and R158 for the words read. -/
def scratchReadable (w : Workgroup) (off n : Nat) : Except Stop (List Byte) := do
  scratchCheck w off n false
  scratchData w.scratch off n

/-! Instructions' accesses to the rings of bound stream registers (R284). -/

/-- The rings of a workgroup's bound stream registers: offset and depth. -/
def ringsOf (s : State) (g : WgRef) : List (Nat × Nat) :=
  ((swarmsOf s g).map fun w => (w.streams.filter Stream.bound).map fun x => (x.ring, x.depth)).flatten
/-- The entry of a ring that an offset lies in. -/
def ringEntry (rings : List (Nat × Nat)) (o : Nat) : Option Nat :=
  rings.findSome? fun r => if r.1 ≤ o && o < r.1 + 128 * r.2 then some (r.1 + (o - r.1) / 128 * 128) else none
/-- Bytes of a workgroup's scratchpad as an instruction reads them: those of a ring are unspecified (R284). -/
def scratchSeen (s : State) (w : Workgroup) (off n : Nat) : Except Stop (List Byte) := do
  let b ← scratchData w.scratch off n
  let rings := ringsOf s w.ref
  .ok (if rings.isEmpty then b
    else b.mapIdx fun k x => if (ringEntry rings (off + k)).isSome then Config.freeByte s.fresh (off + k) else x)
/-- An instruction writes bytes of a workgroup's scratchpad: every entry of a ring that they meet becomes unspecified (R284). -/
def scratchPut (s : State) (g : WgRef) (off : Nat) (bytes : List Byte) : State :=
  let rings := ringsOf s g
  let hit := if rings.isEmpty then [] else ((List.range bytes.length).filterMap fun k => ringEntry rings (off + k)).eraseDups
  let spoil (c : Scratch) (o : Nat) : Scratch := scratchWrite c o ((List.range 128).map fun k => Config.freeByte s.fresh (o + k))
  modWg s g fun w => { w with scratch := hit.foldl spoil (scratchWrite w.scratch off bytes) }

/-! Signatures (R170, R242). -/

/-- The two bits a physical line sets. -/
def lineMarks (pa : Nat) : BitVec 512 :=
  (1 <<< (pa / 256 % 512)) ||| (1 <<< (pa / 256 / 512 % 512))
/-- Whether a set marks the line of an address with both its bits. -/
def marks (sig : BitVec 512) (pa : Nat) : Bool :=
  sig.getLsbD (pa / 256 % 512) && sig.getLsbD (pa / 256 / 512 % 512)

/-! Translation (R161, R322, R325). -/

/-- The page of an address, in which requests and holds are counted (log 17). -/
def pageOf (va : Nat) : Nat := va / 4096 * 4096

/-- A granule whose first write is still to come, or whose copy is under way (R325). -/
def Granule.guarded : Granule → Bool
  | .split _ => false
  | _ => true

/-- The view of a context whose alias holds an address. -/
def aliasView (s : State) (ctx va : Nat) : Option View :=
  s.views.find? fun v => v.ctx = ctx && v.alias_ ≤ va && va < v.alias_ + v.len
/-- The live view whose range guards an address against a write. -/
def rangeView (s : State) (ctx va : Nat) : Option View :=
  s.views.find? fun v => v.ctx = ctx && v.range ≤ va && va < v.range + v.len && !v.granules.isEmpty &&
    (v.granules.getD ((va - v.range) / 65536) (.split 0)).guarded

/-- The view that guards a physical address against a write of any agent, and the address in its context (R325). -/
def guardedPa (s : State) (pa : Nat) : Option (View × Nat) :=
  s.views.findSome? fun v => (s.dies.findSome? fun d => d.tlb.find? fun m =>
    m.ctx = v.ctx && m.remote.isNone && m.onChip.isNone && m.pa ≤ pa && pa < m.pa + m.len &&
      v.range ≤ m.va + (pa - m.pa) && m.va + (pa - m.pa) < v.range + v.len &&
      (v.granules[(m.va + (pa - m.pa) - v.range) / 65536]?).any Granule.guarded).map fun m => (v, m.va + (pa - m.pa))

/-- The mapping of a page in a die's translation cache. -/
def tlbFind (s : State) (die ctx va : Nat) : Option Mapping :=
  (dieAt s die).tlb.find? fun m => m.ctx = ctx && m.va ≤ va && va < m.va + m.len

/-- Whether accesses to an address are held by a migration (R323). -/
def migrating (s : State) (ctx va : Nat) : Bool :=
  s.migrating.any fun m => m.ctx = ctx && m.va ≤ va && va < m.va + m.len

/-- Translate an address of a context on a die: its mapping and its physical address. -/
def translate (s : State) (die ctx va : Nat) (write : Bool) : Except Stop (Mapping × Nat) :=
  match aliasView s ctx va with
  | some v =>
    if v.granules.isEmpty then .error (.trap 7 0x0505 va)
    else if write then .error (.trap 7 0 va)
    else
      let o := va - v.alias_
      match v.granules.getD (o / 65536) .shared with
      | .split f => .ok (⟨ctx, va, 1, f + o % 65536, false, false, false, none, none, false⟩, f + o % 65536)
      | _ =>
        let live := v.range + o
        if migrating s ctx live then .error (.held live .migrate)
        else
          match tlbFind s die ctx live with
          | none => .error (.miss live write)
          | some m => .ok ({ m with writable := false }, m.pa + (live - m.va))
  | none =>
    if migrating s ctx va then .error (.held va .migrate)
    else
      match tlbFind s die ctx va with
      | none => .error (.miss va write)
      | some m =>
        if write && m.cell then .error (.trap 7 0x0501 va)
        else if write && (!m.writable || m.code) then .error (.trap 7 0 va)
        else if write && (rangeView s ctx va).isSome then .error (.held va .snapshot)
        else .ok (m, m.pa + (va - m.va))

/-- Translation of a data access of a swarm: a page on the on-chip physical map traps Protection (R161). -/
def translateData (s : State) (die ctx va : Nat) (write : Bool) : Except Stop (Mapping × Nat) := do
  let (m, pa) ← translate s die ctx va write
  if m.onChip.isSome then .error (.trap 7 0 va) else .ok (m, pa)

/-- This module's number, as packets carry it. -/
def ownMod (s : State) : Nat := s.fabric.modNum.getD 0xFFFE
/-- The other module a page is homed on, if any (R320). -/
def elsewhere (s : State) (m : Mapping) : Option Nat := m.remote.filter fun n => n ≠ ownMod s
/-- The name's place among copies: the physical address, apart for each other module. -/
def cellKey (m : Mapping) (pa : Nat) : Nat := pa + (match m.remote with | none => 0 | some n => 2 ^ 64 * (n + 1))

/-- What the homes keep of a sector. -/
def metaOf (s : State) (pa : Nat) : SectorMeta :=
  (s.sectors.find? fun m => m.pa = pa / 64 * 64).getD ⟨pa / 64 * 64, 0, 0, none, none, false, 0, none⟩
def modMeta (s : State) (pa : Nat) (f : SectorMeta → SectorMeta) : State :=
  let b := pa / 64 * 64
  if s.sectors.any fun m => m.pa = b then { s with sectors := s.sectors.map fun m => if m.pa = b then f m else m }
  else { s with sectors := s.sectors ++ [f (metaOf s b)] }

/-- The code and detail of the failure a read of a sector meets: its mark, or a check value that its bytes do not give (R162, R305). -/
def sectorFault (s : State) (pa : Nat) : Option (Nat × Nat) :=
  let m := metaOf s pa
  match m.bad, m.check with
  | some x, _ => some x
  | none, none => none
  | none, some c => if c = BitVec.ofNat 16 (crc16 (memRead s.mem (pa / 64 * 64) 64)) then none else some (0x0B, 0)
/-- The sector of an address, when its data are good (R162). -/
def sectorData (s : State) (pa va : Nat) : Except Stop (List Byte) :=
  match sectorFault s pa with
  | some (c, d) => .error (.trap c d va)
  | none => .ok (memRead s.mem (pa / 64 * 64) 64)

/-- Home die of a physical line (R297); behind the far ranges lies no HBM4E (log 7). -/
def homeDie (s : State) (pa : Nat) : Nat :=
  if s.farRanges.any fun r => r.1 ≤ pa && pa < r.1 + r.2 then pa / 256 % 4 else pa / 256 % 12 / 3

/-- Home slice of a physical line (R297): the exclusive or of its nine 6-bit fields and of its two highest bits. -/
def homeSlice (pa : Nat) : Nat :=
  let l := pa / 256
  (List.range 10).foldl (fun x k => x ^^^ (l / 64 ^ k % (if k = 9 then 4 else 64))) 0

/-- The context of the key under which a line is encrypted: a cached mapping of its page says so, or its range has been noted (R328). -/
def keyContext (s : State) (pa : Nat) : Option Nat :=
  ((s.dies.findSome? fun d => d.tlb.find? fun m => m.encrypted && m.pa ≤ pa && pa < m.pa + m.len).map Mapping.ctx).orElse fun _ =>
    (s.keyed.find? fun k => k.1 ≤ pa && pa < k.1 + k.2.1).map fun k => k.2.2
/-- A physical range comes to lie on an encrypted page of a context, or, with none, on a page that is not (R323, R325, R328). -/
def noteKey (s : State) (pa len : Nat) (ctx : Option Nat) : State :=
  let rest := s.keyed.filter fun k => !(k.1 < pa + len && pa < k.1 + k.2.1)
  { s with keyed := match ctx with | some c => (pa, len, c) :: rest | none => rest }

/-! The lines an L2 holds (R298). -/

/-- The size a line is held in, chosen from its bytes. -/
def lineSize (s : State) (line : Nat) : Nat :=
  Config.lineSizes.getD (Config.lineCoding (memRead s.mem (256 * line) 256) % 3) 256
/-- A line is held by its home slice: in the size chosen at its last write or fill. -/
def holdLine (s : State) (line : Nat) : State := { s with l2Tags := (line, lineSize s line) :: s.l2Tags.filter fun t => t.1 ≠ line }
/-- Two lines of one slice. -/
def sameSlice (s : State) (a b : Nat) : Bool := homeDie s (256 * a) = homeDie s (256 * b) && homeSlice (256 * a) = homeSlice (256 * b)
/-- The lines among which one must leave a slice that holds more than its ways or its bytes; none while every slice has room. -/
def overfull (s : State) : List Nat :=
  if s.l2Tags.length ≤ Config.sliceWays then []
  else
    let mates (t : Nat × Nat) : List (Nat × Nat) := s.l2Tags.filter fun x => sameSlice s x.1 t.1
    let inSet (t : Nat × Nat) : List (Nat × Nat) :=
      (mates t).filter fun x => Config.lineSet x.1 % Config.sliceSets = Config.lineSet t.1 % Config.sliceSets
    match s.l2Tags.find? fun t => Config.sliceWays < (inSet t).length, s.l2Tags.find? fun t => Config.sliceBytes < ((mates t).map Prod.snd).sum with
    | some t, _ => (inSet t).map Prod.fst
    | none, some t => (mates t).map Prod.fst
    | none, none => []
/-- A dirty line is written to the memory behind its L2: an encrypted one as ciphertext, with its integrity tag formed anew (R184, R328). -/
def writeBackLine (s : State) (line : Nat) : State :=
  let plain := memRead s.mem (256 * line) 256
  let rest := s.lineTags.filter fun t => t.1 ≠ line
  let clean := { s with dirty := s.dirty.filter (· ≠ line), lineTags := rest }
  match keyContext s (256 * line) with
  | none => { clean with backing := memWrite s.backing (256 * line) plain }
  | some ctx =>
    let text := Config.cipher ctx line plain
    { clean with backing := memWrite s.backing (256 * line) text, lineTags := (line, ctx, Config.integrityTag ctx line text) :: rest }
/-- A line's integrity tag in memory is not that of its ciphertext. -/
def tagFails (s : State) (line : Nat) : Bool :=
  s.lineTags.any fun t => t.1 = line && Config.integrityTag t.2.1 line (memRead s.backing (256 * line) 256) ≠ t.2.2

/-- A home read made on a die (R233, R299, R300): where the die holds no copy and is not the home, a copy is fetched as well. -/
def homeRead (s : State) (die pa va : Nat) : Except Stop (List Byte × BitVec 512 × State) := do
  let d ← sectorData s pa va
  let m := metaOf s pa
  let b := pa / 64 * 64
  let s := if s.l2Tags.any fun t => t.1 = pa / 256 then s else holdLine s (pa / 256)
  if homeDie s pa = die ∨ (dieAt s die).copies.any (fun c => c.pa = b) ∨ (dieAt s die).fetches.any (fun c => c.pa = b) then
    .ok (d, m.sig, s)
  else
    .ok (d, m.sig, { modDie s die (fun x => { x with fetches := x.fetches ++ [⟨s.nextId, b, d, m.sig, m.announced⟩] }) with
      nextId := s.nextId + 1 })

/-- What a write does to the sector's release signature (R170). -/
inductive SigRule where
  | clear
  | replace (sig : BitVec 512)
  | merge (sig : BitVec 512)
  | keep
  deriving DecidableEq, Repr

/-- The bytes of a mask of a sector, laid over its old bytes. -/
def overlay (old data : List Byte) (mask : BitVec 64) : List Byte :=
  (List.range 64).map fun k => if mask.getLsbD k then data.getD k 0 else old.getD k 0

/-- A sector's failure marks after a write: a write of all its bytes forms them anew, one of fewer leaves a failure standing (R305). -/
def remark (fault : Option (Nat × Nat)) (mask : BitVec 64) (m : SectorMeta) : SectorMeta :=
  if mask = BitVec.allOnes 64 then { m with bad := none, check := none, soft := false } else { m with bad := fault, check := none }

/-- Perform a write of one sector at its home: its bytes, its signature, its failure mark, its line's size, in the same cycle the
invalidation of every die's copy (R170, R298, R299, R305), and the report to a migration that is copying the page (R324). -/
def performWrite (s : State) (pa : Nat) (data : List Byte) (mask : BitVec 64) (rule : SigRule) : State :=
  let b := pa / 64 * 64
  let s1 := { s with
    mem := memWrite s.mem b (overlay (memRead s.mem b 64) data mask)
    dirty := if s.dirty.contains (b / 256) then s.dirty else s.dirty ++ [b / 256]
    dies := s.dies.map fun d => { d with copies := d.copies.filter fun c => c.pa ≠ b }
    precopies := s.precopies.map fun p =>
      if p.oldPa ≤ b && b < p.oldPa + p.len then { p with stale := (b - p.oldPa) :: p.stale.filter (· ≠ b - p.oldPa) } else p }
  modMeta (holdLine s1 (b / 256)) b fun m => { remark (sectorFault s b) mask m with
    announced := m.announced + 1
    sig := match rule with | .clear => 0 | .replace g => g | .merge g => m.sig ||| g | .keep => m.sig }

/-- Bytes at an address cut at sector boundaries: sector address, 64 bytes, mask. -/
def sectorPieces (a : Nat) (bytes : List Byte) : List (Nat × List Byte × BitVec 64) :=
  if bytes.isEmpty then []
  else
    let b0 := a / 64 * 64
    (List.range ((a % 64 + bytes.length + 63) / 64)).map fun k =>
      let b := b0 + 64 * k
      let lead := a - b
      let data := List.replicate lead 0 ++ bytes.drop (b - a) |>.take 64
      (b, data, BitVec.ofNat 64 (2 ^ (min 64 (lead + (bytes.length - (b - a)))) - 2 ^ lead))

/-- Perform a write of bytes within one mapping. -/
def performBytes (s : State) (pa : Nat) (bytes : List Byte) (rule : SigRule) : State :=
  (sectorPieces pa bytes).foldl (fun s p => performWrite s p.1 p.2.1 p.2.2 rule) s

/-- Write bytes of the host's own memory, or of the device's rings and records outside any context. -/
def hostWrite (s : State) (a : Nat) (bytes : List Byte) : State := { s with host := memWrite s.host a bytes }

/-! The L1 and the write-combining buffer. -/

/-- Invalidate the L1 sectors, and the decided copies, that a test names (R171, R183, R317). -/
def l1Drop (s : State) (core : Nat) (p : Nat → Bool) : State :=
  modCore s core fun c => { c with l1 := c.l1.filter (fun x => !p x.pa), l1Cells := c.l1Cells.filter fun x => !p x.pa }

/-- A sector a load may hit: tagged with the load's own task, or with none when the task has not written the sector (R164). -/
def l1Find (c : Core) (pa : Nat) (task : Option WgRef) (touched : Bool) : Option L1Sector :=
  c.l1.find? fun x => x.pa = pa / 64 * 64 && !x.bad && (x.task = task || (x.task = none && !touched))

/-- A lookup that meets a parity error invalidates the sector; the error is counted, and the lookup misses (R153). -/
def l1Parity (s : State) (core pa ctx : Nat) : State :=
  if (coreAt s core).l1.any fun x => x.pa = pa / 64 * 64 && x.bad then
    noteError (modCore s core fun c => { c with l1 := c.l1.filter fun x => !(x.pa = pa / 64 * 64 && x.bad) }) core 4 ctx true
  else s

/-- Set of a sector in the L1. -/
def l1Set (pa : Nat) : Nat := pa / 64 % Config.l1Sets

/-- Put a sector in front, dropping the least recently used of a full set (R151). -/
def l1Insert (c : Core) (x : L1Sector) : Core :=
  let rest := c.l1.filter fun y => y.pa ≠ x.pa
  let same := rest.filter fun y => l1Set y.pa = l1Set x.pa
  let rest := if Config.l1Ways ≤ same.length then rest.filter fun y => some y.pa ≠ (same.getLast?.map L1Sector.pa) else rest
  { c with l1 := x :: rest }

/-- The bytes of the buffer's entries of a task, or of none, laid over a sector's, the older entries first (R164, R234). -/
def wcbOver (c : Core) (pa : Nat) (task : Option WgRef) (d : List Byte) : List Byte :=
  (c.wcb.filter fun e => e.pa = pa / 64 * 64 && e.task = task).foldl (fun d e => overlay d e.data e.mask) d

/-- Whether such entries hold all bytes of an access. -/
def wcbHolds (c : Core) (pa n : Nat) (task : Option WgRef) : Bool :=
  let m := (c.wcb.filter fun e => e.pa = pa / 64 * 64 && e.task = task).foldl (fun m e => m ||| e.mask) 0
  (List.range n).all fun k => m.getLsbD (pa % 64 + k)

/-- A store's bytes reach a sector of the L1 (R152). One that another task's tag keeps apart goes, since its readers are to see neither
these bytes nor, in the storing task, its own (R164). -/
def l1Take (x : L1Sector) (data : List Byte) (mask : BitVec 64) (task : Option WgRef) : Option L1Sector :=
  if x.task.isSome && x.task ≠ task then none else some { x with data := overlay x.data data mask, task }

/-- Mark an operation of a swarm complete; the counter falls by the operations that lead the list (R154). -/
def opDone (s : State) (r : SwarmRef) (path id : Nat) : State :=
  modSwarm s r fun w => { w with inflight := w.inflight.modify path fun l =>
    (l.map fun o => if o.id = id then { o with done := true } else o).dropWhile PathOp.done }

/-- The writers of a drained entry whose every other entry has drained have completed that store (R166). -/
def storeDone (s : State) (core : Nat) (ws : List (SwarmRef × Nat)) : State :=
  ws.foldl (fun s w =>
    if (coreAt s core).wcb.any fun e => e.writers.contains w then s else opDone s w.1 0 w.2) s

/-- The sector a store of a version writes whole: such a store repairs the sector's failed entries (R305). -/
def VersionOp.whole : VersionOp → Option Nat
  | .store _ va _ mask _ => if mask = BitVec.allOnes 64 then some va else none
  | .add _ => none
/-- The sector of a store. -/
def VersionOp.sector : VersionOp → Option Nat
  | .store _ va _ _ _ => some va
  | .add _ => none
/-- A version with an operation more. -/
def Version.push (v : Version) (op : VersionOp) : Version :=
  { v with
    ops := v.ops ++ [op]
    failed := v.failed.filter fun k => op.whole.isNone || (v.ops[k]?.bind VersionOp.sector) ≠ op.whole }
/-- Add a store to a task's version (R303). -/
def versionPush (s : State) (g : WgRef) (op : VersionOp) : State :=
  if s.versions.any fun v => v.wg = g && v.parked.isNone then
    { s with versions := s.versions.map fun v => if v.wg = g && v.parked.isNone then v.push op else v }
  else { s with versions := s.versions ++ [⟨g, [op], none, none, [], []⟩] }

/-- Deliver one announced write (R299): it is performed, and its buffer entry is gone. -/
def deliver (s : State) (a : Announcement) : State :=
  let s1 := performWrite { s with announcements := s.announcements.filter (· ≠ a) } a.pa a.data a.mask
    (match a.sig with | none => .clear | some g => .replace g)
  match a.core with
  | none => s1
  | some n =>
    match (coreAt s1 n).wcb.find? fun e => e.sent && e.pa = a.pa with
    | none => s1
    | some e => storeDone (modCore s1 n fun c => { c with wcb := c.wcb.erase e }) n e.writers
def deliverAll (s : State) : State := s.announcements.foldl deliver s

/-- Drain one entry at once: into the task's version, or to its home. -/
def drainEntry (s : State) (n : Nat) (e : WcbEntry) : State :=
  let s1 := modCore s n fun c => { c with wcb := c.wcb.erase e }
  let s2 :=
    match e.task with
    | some g => versionPush s1 g (.store ((e.writers.head?.map fun w => w.1.idx).getD 0) e.va e.data e.mask false)
    | none => performWrite s1 e.pa e.data e.mask .clear
  storeDone s2 n e.writers

/-- Drain the entries of a core that a test names, oldest first; what is already announced is delivered first. -/
def drainWhere (s : State) (n : Nat) (p : WcbEntry → Bool) : State :=
  ((coreAt (deliverAll s) n).wcb.filter p).foldl (fun s e => drainEntry s n e) (deliverAll s)
/-- Drain what a swarm wrote (R152, R170). -/
def drainSwarm (s : State) (r : SwarmRef) : State :=
  drainWhere s r.core fun e => e.writers.any fun w => w.1 = r

/-- A store enters the buffer and meets the L1 (R152, R169). -/
def wcbStore (s : State) (n ctx va pa : Nat) (bytes : List Byte) (home : Bool) (task : Option WgRef) (w : SwarmRef × Nat) : State :=
  let b := pa / 64 * 64
  let o := pa % 64
  let data := (List.replicate o 0 ++ bytes ++ List.replicate 64 0).take 64
  let mask : BitVec 64 := BitVec.ofNat 64 (2 ^ (o + bytes.length) - 2 ^ o)
  let fits (e : WcbEntry) : Bool := e.pa = b && e.task = task && !e.sent
  let c := coreAt s n
  let s1 :=
    if c.wcb.any fits then s
    else if Config.wcbEntries ≤ c.wcb.length then
      (match (coreAt (deliverAll s) n).wcb with
        | e :: _ => if Config.wcbEntries ≤ (coreAt (deliverAll s) n).wcb.length then drainEntry (deliverAll s) n e else deliverAll s
        | [] => deliverAll s)
    else s
  modCore s1 n fun c =>
    let wcb :=
      if c.wcb.any fits then
        c.wcb.map fun e => if fits e then
          { e with data := overlay e.data data mask, mask := e.mask ||| mask,
                   writers := if e.writers.contains w then e.writers else e.writers ++ [w] } else e
      else c.wcb ++ [⟨b, va / 64 * 64, ctx, data, mask, task, [w], s.cycle, false⟩]
    let l1 :=
      if home then c.l1.filter fun x => x.pa ≠ b
      else c.l1.filterMap fun x => if x.pa = b then l1Take x data mask task else some x
    { c with wcb, l1 }

/-! A task's view of memory (R164, R178, R217). -/

/-- The element a pending add leaves (R216). -/
def addElement (ty : Ty) (exact sat : Bool) (old : List Byte) (x : Word) : List Byte × BitVec 6 :=
  if exact then
    let r := (Xs320.ofImage old).addTerm x.toNat
    (r.1.image, r.2)
  else
    match ty with
    | .s32 => (natToBytes 4 (wrapBits 32 (bytesToNat old + x.toNat)), 0)
    | t =>
      -- the element is FP32 and the destination the format of TYPE: the exact sum is rounded once
      let F := t.fmt
      let c := { FCtx.engine with sat := sat }
      let y := F.decode false (bytesToNat old)
      let r := F.addTerms c [y, fmtF32.decode false x.toNat] (some y) (some (fmtF32.decode false x.toNat))
      (natToBytes (F.width / 8) r.bits, r.flags)

/-- Bytes of a destination element (R215). -/
def addSize (ty : Ty) (exact : Bool) : Nat := if exact then 48 else ty.bits / 8

/-- A view of memory by virtual address. -/
abbrev ByteView := Nat → Byte

/-- The bytes a pending row leaves, element by element, with the flags of each rounding. -/
def rowBytes (view : ByteView) (r : AddRow) : List (Nat × List Byte × BitVec 6) :=
  (r.words.zipIdx).map fun p =>
    let e := addSize r.ty r.exact
    let a := r.dst + p.2 * e
    let x := addElement r.ty r.exact r.sat ((List.range e).map fun k => view (a + k)) p.1
    (a, x.1, x.2)

/-- A view after one operation of a version. -/
def viewAfter (view : ByteView) : VersionOp → ByteView
  | .store _ va data mask _ => fun a => if va ≤ a ∧ a < va + 64 ∧ mask.getLsbD (a - va) then data.getD (a - va) 0 else view a
  | .add r => fun a =>
    let e := addSize r.ty r.exact
    if r.dst ≤ a ∧ a < r.dst + r.words.length * e then
      let k := (a - r.dst) / e
      (addElement r.ty r.exact r.sat ((List.range e).map fun j => view (r.dst + k * e + j)) (r.words.getD k 0)).1.getD ((a - r.dst) % e) 0
    else view a

/-- The committed byte of an address as a die reads it; 0 where it has no translation. -/
def committedByte (s : State) (die ctx : Nat) : ByteView := fun va =>
  match translate s die ctx va false with
  | .ok (_, pa) => memGet s.mem pa
  | .error _ => 0

/-- The operations of a workgroup's open version. -/
def versionOps (s : State) (g : WgRef) : List VersionOp :=
  ((s.versions.find? fun v => v.wg = g && v.parked.isNone).map Version.ops).getD []

/-- The bytes of a sector with a task's stores and pending adds applied in order. -/
def versionOver (s : State) (g : WgRef) (die ctx va : Nat) (d : List Byte) : List Byte :=
  let ops := versionOps s g
  if ops.isEmpty then d
  else
    let b := va / 64 * 64
    let base : ByteView := fun a => if b ≤ a ∧ a < b + 64 then d.getD (a - b) 0 else committedByte s die ctx a
    let v := ops.foldl viewAfter base
    (List.range 64).map fun k => v (b + k)

/-- Whether an operation of a version touches a sector. -/
def VersionOp.touches (va : Nat) : VersionOp → Bool
  | .store _ a .. => a = va / 64 * 64
  | .add r => r.dst < va / 64 * 64 + 64 && va / 64 * 64 < r.dst + r.words.length * addSize r.ty r.exact
/-- Whether a version touches a sector. -/
def versionTouches (s : State) (g : WgRef) (va : Nat) : Bool := (versionOps s g).any (VersionOp.touches va)

/-- A failed entry of a version touches a sector: an access to it traps (R329). -/
def versionFailed (s : State) (g : WgRef) (va : Nat) : Bool :=
  s.versions.any fun v => v.wg = g && v.parked.isNone && v.failed.any fun k => (v.ops[k]?).any (VersionOp.touches va)
/-- The bytes that a version holds by itself, without the home's, after one operation more. -/
def heldAfter (held : Nat → Bool) : VersionOp → Nat → Bool
  | .store _ va _ mask _ => fun a => (va ≤ a && a < va + 64 && mask.getLsbD (a - va)) || held a
  | .add r => fun a =>
    let e := addSize r.ty r.exact
    if r.dst ≤ a ∧ a < r.dst + r.words.length * e then (List.range e).all fun j => held (r.dst + (a - r.dst) / e * e + j) else held a
/-- Whether a version holds all of an access's bytes, so that its read needs no home (R303). -/
def versionHolds (s : State) (g : WgRef) (va n : Nat) : Bool :=
  let ops := versionOps s g
  !ops.isEmpty && (List.range n).all fun k => ops.foldl heldAfter (fun _ => false) (va + k)

/-- Sectors that bytes touch. -/
def sectorsTouched (a n : Nat) : List Nat := (List.range ((a % 64 + n + 63) / 64)).map fun k => a / 64 * 64 + 64 * k

/-- The sectors that a workgroup's copies out will put into its version, those of the on-chip map apart (R175, R304). -/
def copySectors (s : State) (g : WgRef) : List Nat :=
  ((s.asyncs.filter fun x => wgOf x.ref = g).map fun x =>
    match x.kind with
    | .cpout va _ len => ((List.range (len / 64)).map fun k => va + 64 * k).filter fun a =>
        match translate s (dieOf g.core) (ctxOf s g) a true with
        | .ok (m, _) => m.onChip.isNone
        | .error _ => true
    | _ => []).flatten

/-- Entries of the version budget that a version, the buffered stores and the copies out of a task use (R304). -/
def versionCount (s : State) (g : WgRef) : Nat :=
  let ops := versionOps s g
  let stores := ops.filterMap fun
    | .store _ a .. => some a
    | _ => none
  let buffered := ((coreAt s g.core).wcb.filter fun e => e.task = some g).map WcbEntry.va
  let rows := ops.map fun
    | .add r => (sectorsTouched r.dst (r.words.length * addSize r.ty r.exact)).length
    | _ => 0
  (stores ++ buffered ++ if inTask s g then copySectors s g else []).eraseDups.length + rows.sum

/-- Entries a core's versions use, parked ones included. -/
def coreVersionCount (s : State) (core : Nat) : Nat :=
  ((s.versions.filter fun v => v.wg.core = core).map fun v =>
    if v.parked.isNone then versionCount s v.wg
    else
      (v.ops.filterMap fun | .store _ a .. => some a | _ => none).eraseDups.length +
      (v.ops.map fun | .add r => (sectorsTouched r.dst (r.words.length * addSize r.ty r.exact)).length | _ => 0).sum).sum +
  -- a task with buffered stores and no version yet
  ((s.wgs.filter fun w => w.ref.core = core && !(s.versions.any fun v => v.wg = w.ref && v.parked.isNone)).map fun w =>
    versionCount s w.ref).sum

/-- Count a swarm's received signature (R242): an ordered read at .CLU or wider in its own set, any other in all four. -/
def receive (w : Swarm) (sig : BitVec 512) (ordered : Bool) (scope : Nat) : Swarm :=
  { w with received := w.received.mapIdx fun k x => if !(ordered && 4 ≤ scope) || k + 4 = scope then x ||| sig else x }

/-- What an access asks for. -/
structure Access where
  ref : SwarmRef
  die : Nat
  ctx : Nat
  task : Option WgRef

/-- How a swarm, or its slice, reaches memory. -/
def accessOf (s : State) (r : SwarmRef) : Access :=
  ⟨r, dieOf r.core, ctxOf s (wgOf r), if inTask s (wgOf r) then some (wgOf r) else none⟩

/-- The task's version over a sector. -/
def taskOver (s : State) (a : Access) (va : Nat) (d : List Byte) : List Byte :=
  match a.task with
  | none => d
  | some g => versionOver s g a.die a.ctx va d

/-- What the core's own writes lay over a sector's committed bytes for a load: the buffer's, and in a task its version and its buffered
bytes over those (R164, R234). -/
def coreOver (s : State) (a : Access) (pa va : Nat) (d : List Byte) : List Byte :=
  let c := coreAt s a.ref.core
  let d1 := taskOver s a va (wcbOver c pa none d)
  if a.task.isSome then wcbOver c pa a.task d1 else d1

/-- Whether a task has written a sector. -/
def taskTouches (s : State) (a : Access) (pa va : Nat) : Bool :=
  match a.task with
  | none => false
  | some g => versionTouches s g va || (coreAt s a.ref.core).wcb.any fun e => e.pa = pa / 64 * 64 && e.task = some g

/-- The home's sector for a read of n bytes by an agent of a task, which looks up the task's version first: a failed entry of it traps, and
one that holds all the bytes needs no home read (R303, R329). -/
def homeUnder (s : State) (a : Access) (pa va n : Nat) : Except Stop (List Byte × Option (BitVec 512) × State) :=
  if a.task.any fun g => versionFailed s g va then .error (.trap 0x0C 0x0101 va)
  else if a.task.any fun g => versionHolds s g va n then .ok (List.replicate 64 0, none, s)
  else (homeRead s a.die pa va).map fun x => (x.1, some x.2.1, x.2.2)

/-- A load of n bytes within one sector (R151, R164, R169): its bytes, those of a cell as they stand at its home (R309), the signature of
a home read, and the machine after it. A sector in the L1 holds what the core has written: each of its writes updates the sector or drops
it. -/
def loadBytes (s : State) (a : Access) (home : Bool) (va n : Nat) : Except Stop (List Byte × Option (BitVec 512) × State) := do
  let (m, pa) ← translateData s a.die a.ctx va false
  let home := home || m.cell
  if (elsewhere s m).isSome then
    .ok ((List.range n).map (fun k => Config.freeByte s.fresh (va + k)), none, { s with fresh := s.fresh + 1 })
  else
    let c := coreAt s a.ref.core
    let cut (d : List Byte) : List Byte := (d.drop (pa % 64)).take n
    let touched := taskTouches s a pa va
    if home then
      if wcbHolds c pa n a.task then
        .ok (cut (wcbOver c pa a.task (List.replicate 64 0)), none, s)
      else do
        let (d, sig, s1) ← homeUnder s a pa va n
        .ok (cut (coreOver s a pa va d), sig, s1)
    else
      match l1Find c pa a.task touched with
      | some x => .ok (cut x.data, none, modCore s a.ref.core fun c => l1Insert c x)
      | none => do
        let (d, sig, s1) ← homeUnder (l1Parity s a.ref.core pa a.ctx) a pa va n
        let d := coreOver s a pa va d
        -- a sector the home gave fills the L1
        .ok (cut d, sig, if sig.isNone then s1
          else modCore s1 a.ref.core fun c => l1Insert c ⟨pa / 64 * 64, d, if touched then a.task else none, false⟩)

/-- A read by an engine (R175, R248): the home or the task's version, no buffer. -/
def engineRead (s : State) (a : Access) (va n : Nat) : Except Stop (List Byte × BitVec 512 × State) := do
  let (m, pa) ← translateData s a.die a.ctx va false
  if (elsewhere s m).isSome then
    .ok ((List.range n).map (fun k => Config.freeByte s.fresh (va + k)), 0, { s with fresh := s.fresh + 1 })
  else do
    let (d, sig, s1) ← homeUnder s a pa va n
    .ok (((taskOver s a va d).drop (pa % 64)).take n, sig.getD 0, s1)

/-- Bytes that may cross sectors, read by an engine piece by piece. -/
def engineReadMany (s : State) (a : Access) (va n : Nat) : Except Stop (List Byte × State) :=
  (sectorsTouched va n).foldlM (fun (st : List Byte × State) b => do
    let lo := if b < va then va else b
    let hi := if va + n < b + 64 then va + n else b + 64
    let (d, _, s1) ← engineRead st.2 a lo (hi - lo)
    .ok (st.1 ++ d, s1)) ([], s)

/-- A versioned write that passes the buffer by (SCATTER, CPOUT, ATOMV, DRAIN): to the version inside a task, else at the home
(R163, R172, R175). What the core's buffer holds of the sector drains before it, and its L1 loses the sector (R234). -/
def directWrite (s : State) (a : Access) (va : Nat) (bytes : List Byte) (rule : SigRule) : Except Stop State :=
  (sectorPieces va bytes).foldlM (fun s p => do
    let (_, pa) ← translateData s a.die a.ctx (if p.1 < va then va else p.1) true
    let b := pa / 64 * 64
    let s1 := l1Drop s a.ref.core fun x => x = b
    let s2 := drainWhere s1 a.ref.core fun e => e.pa = b
    match a.task with
    | some g => .ok (versionPush s2 g (.store a.ref.idx p.1 p.2.1 p.2.2 (rule ≠ .clear)))
    | none => .ok (performWrite s2 b p.2.1 p.2.2 rule)) s

/-! The scrub log (R327). -/

/-- A die's soft-error count rises. -/
def dieError (s : State) (die part : Nat) : State := modDie s die fun d => { d with softErrors := d.softErrors.modify part (· + 1) }
/-- What a visit finds of a kind in a line: the sectors affected. -/
def findings (s : State) (line kind : Nat) : List Nat :=
  let at_ (k : Nat) : SectorMeta := metaOf s (256 * line + 64 * k)
  let ecc (k : Nat) : Bool := (at_ k).bad.any fun x => x.1 = 0x0C
  let tagged := tagFails s line
  let dirty := (List.range 4).any ecc
  (List.range 4).filter fun k =>
    match kind with
    | 1 => (at_ k).soft && !ecc k
    | 2 => ecc k
    | 3 => !ecc k && (sectorFault s (256 * line + 64 * k)).any fun x => x.1 = 0x0B
    | 4 => tagged && !dirty
    | _ => tagged && dirty
/-- An entry of the scrub log. -/
def scrubEntry (s : State) (line kind count : Nat) (secs : List Nat) : List Byte :=
  natToBytes 16 (line % 2 ^ 56 + 2 ^ 56 * (secs.map fun k => 2 ^ k).sum + 2 ^ 60 * kind +
    2 ^ 64 * ((keyContext s (256 * line)).getD 0 % 2 ^ 16) + 2 ^ 80 * count + 2 ^ 96 * (s.clkns / 2 ^ 10 % 2 ^ 32))
/-- One kind of finding at a line: it is counted, and written to the die's log. A corrected error is written back, no write coming between
(R326); a failed tag is left to the next consumer. -/
def logFinding (die line : Nat) (s : State) (kind : Nat) : State :=
  let secs := findings s line kind
  if secs.isEmpty then s
  else
    let before := (((dieAt s die).scrubCounts.find? fun c => c.1 = line && c.2.1 = kind).map fun c => c.2.2).getD 0
    let n := min 0xFFFF (before + 1)
    let note (d : Die) : Die := { d with
      scrubNext := if d.scrubRing.isSome then d.scrubNext + 1 else d.scrubNext
      scrubCounts := (line, kind, n) :: d.scrubCounts.filter fun c => c.1 ≠ line || c.2.1 ≠ kind }
    let s1 := countDie (modDie s die note) die 0x4A 0
    let s2 := match (dieAt s die).scrubRing with
      | some base => performBytes s1 (base + 16 * ((dieAt s die).scrubNext % 256)) (scrubEntry s line kind n secs) .clear
      | none => s1
    match kind with
    | 1 => secs.foldl (fun s k => modMeta s (256 * line + 64 * k) fun m => { m with soft := false }) s2
    | 2 | 3 => s2
    | _ => if s.dirty.contains line then s2
      else secs.foldl (fun s k => modMeta s (256 * line + 64 * k) fun m => { m with bad := some (m.bad.getD (0x0D, 0)) }) s2

end Sys2Proof.Machine
end

