-- ==== Sys2Proof/Machine/Operands.lean ====
section
/-! DEFINITION. Operand forms: the issuing slot's threads, register, pair and quad reads, constants, stream registers, immediates,
predicates, addresses, last-read bits, and register writes with their allocation (R25, R31 to R35, R75 to R80, R92, R159, R279). -/

namespace Sys2Proof.Machine

def slotOf (w : Swarm) : SlotId → Slot
  | .a => w.slotA
  | .b => w.slotB
def setSlot (w : Swarm) (k : SlotId) (x : Slot) : Swarm :=
  match k with
  | .a => { w with slotA := x }
  | .b => { w with slotB := x }
def SlotId.other : SlotId → SlotId
  | .a => .b
  | .b => .a

/-- MASK of the slot that issues the clause. -/
def runMask (r : Run) : Mask := (slotOf r.work r.slot).mask
/-- Threads whose guard is true (R31, R74). -/
def guardMask (w : Swarm) (f : Fields) : Mask :=
  if f.ge then
    let p := w.preds.getD (f.guard.extractLsb' 0 6).toNat 0
    if f.guard.getLsbD 6 then ~~~p else p
  else BitVec.allOnes 32
/-- The active threads of an instruction (R92). -/
def active (r : Run) (f : Fields) : Mask := runMask r &&& guardMask r.work f
/-- The lowest-numbered thread of a mask. -/
def firstThread (m : Mask) : Option Nat := (List.range threads).find? fun t => m.getLsbD t

/-- A lane of 32 equal values. -/
def splat (v : Word) : Lanes := List.replicate threads v
/-- The values of a register; an unmapped one reads zero (R33). -/
def regLanes (w : Swarm) (n : Nat) : Lanes :=
  match w.regs.getD n none with
  | some x => x.vals
  | none => splat 0
/-- Thread t's value of a list of lanes. -/
def laneAt (v : Lanes) (t : Nat) : Word := v.getD t 0
/-- The number a thread holds. -/
def natAt (v : Lanes) (t : Nat) : Nat := (laneAt v t).toNat

/-- The constants of R77; in a slice tid, tid4 and tid8 read 0 (R286). -/
def constLanes (w : Swarm) (c : Nat) : Lanes :=
  let tids (k : Nat) : Lanes := (List.range threads).map fun t => if w.ref.slice then 0 else BitVec.ofNat 32 (k * t)
  match c with
  | 0xF1 => splat 1
  | 0xF2 => tids 1
  | 0xF3 => splat (BitVec.ofNat 32 w.ref.idx)
  | 0xF4 => splat (BitVec.ofNat 32 w.teamPos)
  | 0xF5 => splat (BitVec.ofNat 32 (coreX w.ref.core))
  | 0xF6 => splat (BitVec.ofNat 32 (coreY w.ref.core))
  | 0xF7 => splat 0xFFFFFFFF
  | 0xF8 => splat 0x3F800000
  | 0xF9 => splat 0xBF800000
  | 0xFA => splat 0x3F000000
  | 0xFB => splat 0x40000000
  | 0xFC => splat 0x3F803F80
  | 0xFD => splat 0x7F800000
  | 0xFE => tids 4
  | 0xFF => tids 8
  | _ => splat 0

/-- The words of the oldest entry of a stream register (R276, R279). -/
def entryLanes (s : State) (w : Swarm) (k : Nat) : Lanes :=
  let x := w.streams.getD k Stream.unbound
  match wg? s (wgOf w.ref) with
  | none => splat 0
  | some g => (List.range threads).map fun t => BitVec.ofNat 32 (scratchWord g.scratch (x.ring + 128 * (x.head % x.depth) + 4 * t))

/-- The values of an operand code (R77). -/
def srcLanes (s : State) (r : Run) (c : BitVec 8) : Lanes :=
  let k := c.toNat
  if k < 128 then regLanes r.work k
  else if k < 0x90 then entryLanes s r.work (k - 128)
  else constLanes r.work k

/-- The k-th register of a pair or quad; the constant zero reads 0 throughout. -/
def partLanes (s : State) (r : Run) (c : BitVec 8) (k : Nat) : Lanes :=
  if c.toNat < 128 then regLanes r.work (c.toNat + k) else srcLanes s r c
/-- The 64-bit value a thread holds in a pair (R7). -/
def pairAt (s : State) (r : Run) (c : BitVec 8) (t : Nat) : Nat :=
  natAt (partLanes s r c 0) t + 2 ^ 32 * natAt (partLanes s r c 1) t

/-- A predicate's bits. -/
def predBits (w : Swarm) (n : Nat) : Mask := w.preds.getD (n % 64) 0

/-- The immediate of Formats B and G (R79). -/
def immWord (r : Run) (f : Fields) : Word :=
  match r.imx with
  | some x => x
  | none =>
    if f.ty = .f32 then f.imm16 ++ (0 : BitVec 16)
    else if f.ty.signed then f.imm16.signExtend 32
    else f.imm16.setWidth 32

/-- OFF16, or the IMX payload, sign-extended (R159). -/
def offset64 (r : Run) (f : Fields) : DWord :=
  match r.imx with
  | some x => x.signExtend 64
  | none => f.imm16.signExtend 64
/-- The address a thread forms (R159). -/
def addrAt (s : State) (r : Run) (f : Fields) (t : Nat) : Nat :=
  (BitVec.ofNat 64 (pairAt s r f.opa t) + offset64 r f).toNat

/-- A Format D target: the header's address + 8 × OFF32 (R75). -/
def targetOf (r : Run) (f : Fields) : DWord := r.pc + (f.off32.signExtend 64 <<< 3)
/-- Address of the clause after this one (R67). -/
def nextPc (r : Run) : DWord := r.pc + BitVec.ofNat 64 (8 * (r.words.length + 1))

/-! Last-read bits and stream reads. -/

/-- The registers an operand byte names, of so many from its code on. -/
def namedCodes (n : Nat) (c : BitVec 8) : List Nat := if c.toNat < 128 then (List.range n).map fun k => c.toNat + k else []
/-- The register codes an operand byte reads, from its use. -/
def readCodes (u : Use) (quarters : Nat) (c : BitVec 8) : List Nat := if u.reads then namedCodes (u.span quarters) c else []

/-- How many quarters of B a swarm holds in an MMA: 4 alone (R202), else its share by position (R200). -/
def quartersOf (s : State) (w : Swarm) : Nat :=
  if w.inTeam then
    let n := ((wg? s (wgOf w.ref)).map Workgroup.teamSize).getD 1
    ((List.range 4).filter fun q => q % n = w.teamPos).length
  else 4

/-- The registers whose last-read bit an instruction sets (R34, R75); wide is the number of registers of a queue's entry, for the source
of a QPUSH (R188). -/
def lastReads (i : Instr) (quarters wide : Nat) : List Nat :=
  match i.shape, i.opcode with
  | some (sh, f), some (op, _) =>
    (if f.lr.getLsbD 0 then (if op.toNat = 0x72 then namedCodes wide f.opa else readCodes sh.opa quarters f.opa) else []) ++
    (if f.lr.getLsbD 1 then
      (if isFormatE op.toNat then namedCodes (sh.dst.span quarters) f.dst else readCodes sh.opb quarters f.opb) else []) ++
    (if f.lr.getLsbD 2 then readCodes sh.opc quarters f.opc else [])
  | _, _ => []

/-- Registers of an entry of the hive queue a word names: 1, 2 or 4 by its width (R188). -/
def queueSpan (s : State) (core : Nat) (i : Instr) : Nat :=
  match i.shape with
  | some (_, f) => 2 ^ ((coreAt s core).queues.getD f.sel.toNat Queue.unowned).width
  | none => 1

/-- The vector registers an instruction reads: those of its source fields, and of its MSK prefix. -/
def regReads (s : State) (r : Run) (i : Instr) : List Nat :=
  match i.shape, i.opcode with
  | some (sh, f), some (op, _) =>
    let q := quartersOf s r.work
    readCodes sh.dst q f.dst ++ (if op.toNat = 0x72 then namedCodes (queueSpan s r.ref.core i) f.opa else readCodes sh.opa q f.opa) ++
      readCodes sh.opb q f.opb ++ readCodes sh.opc q f.opc ++ (match r.msk with | some c => namedCodes 1 c | none => [])
  | _, _ => []
/-- Whether a word reads a register word with an error that cannot be corrected (R141): one its clause has not itself written. -/
def readsBad (s : State) (r : Run) (i : Instr) : Bool :=
  let rs := regReads s r i
  r.work.regErrs.any fun e => rs.contains e.1 && !(r.writes.any fun w => w.1 = e.1 && w.2.1.getLsbD e.2)

/-- The stream registers an instruction names in its source fields, each once (R77). -/
def streamReads (i : Instr) : List Nat :=
  match i.shape with
  | some (sh, f) =>
    (([(sh.dst, f.dst), (sh.opa, f.opa), (sh.opb, f.opb), (sh.opc, f.opc)].filter fun p =>
      p.1.reads && 0x80 ≤ p.2.toNat && p.2.toNat < 0x90).map fun p => p.2.toNat - 0x80).eraseDups
  | none => []

/-- The oldest entry of a stream register leaves; its flags become EODF (R279). -/
def popEntry (x : Stream) : Stream :=
  match x.entries with
  | [] => x
  | e :: es => { x with entries := es, head := x.head + 1, eodf := e.eod.setWidth 8 }

/-- The run after an instruction's reads: its stream entries are taken and its last-read registers noted, when the slot's MASK is LIVE
(R34). A slice's last-read bits have no effect (R285). -/
def noteReads (s : State) (i : Instr) (r : Run) : Run :=
  let ws := streamReads i
  let free := if runMask r = r.work.live && !r.ref.slice then lastReads i (quartersOf s r.work) (queueSpan s r.ref.core i) else []
  { r with
    frees := r.frees ++ free
    work := { r.work with streams := ws.foldl (fun l k => l.modify k popEntry) r.work.streams } }

/-! Register writes (R33, R35). -/

/-- The swarms bound to a lane, slices apart. -/
def laneSwarms (s : State) (core lane : Nat) : List Swarm :=
  s.swarms.filter fun w => w.ref.core = core && w.lane = lane && !w.ref.slice
/-- Physical registers a register file maps. -/
def physOf (regs : List (Option VReg)) : List Nat := regs.filterMap fun x => x.map VReg.phys
/-- The second physical registers of those that are mirrored (R140). -/
def mirrorsOf (regs : List (Option VReg)) : List Nat := regs.filterMap fun x => x.bind VReg.mirror
/-- A lane mirrors while the RMAX values of its swarms sum to at most 256 (R140). -/
def mirrored (s : State) (core lane : Nat) : Bool := ((laneSwarms s core lane).map Swarm.rmax).sum ≤ 256
/-- The register file a clause in flight works on, else the swarm's own. -/
def liveRegs (s : State) (w : Swarm) : List (Option VReg) :=
  match s.runs.find? fun r => r.ref = w.ref with
  | some r => r.work.regs
  | none => w.regs

/-- The physical registers of a lane that are in use as a clause in flight finds them: those its swarms map, those its own swarm maps
still, and, while the lane mirrors, their mirrors. -/
def lanePhys (s : State) (r : Run) : List Nat :=
  let others := (laneSwarms s r.ref.core r.work.lane).filter fun w => w.ref ≠ r.ref
  let files := r.work.regs :: ((swarm? s r.ref).map Swarm.regs).getD [] :: others.map (liveRegs s)
  (files.map physOf).flatten ++ (if mirrored s r.ref.core r.work.lane then (files.map mirrorsOf).flatten else [])

/-- The physical register a first write takes: the lowest free one, when R35 grants any. -/
def allocPhys (s : State) (r : Run) : Option Nat :=
  let others := (laneSwarms s r.ref.core r.work.lane).filter fun w => w.ref ≠ r.ref
  let own := physOf r.work.regs
  let held := ((swarm? s r.ref).map fun w => physOf w.regs).getD []
  let mapped := ((own ++ held).eraseDups ++ (others.map fun w => physOf (liveRegs s w)).flatten).length
  let pool := if mirrored s r.ref.core r.work.lane then Config.laneRegs / 2 else Config.laneRegs
  let withheld := (others.map fun w => w.rsv - (physOf (liveRegs s w)).length).sum
  if own.length < r.work.rsv ∨ mapped + withheld < pool then
    (List.range Config.laneRegs).find? fun p => !(lanePhys s r).contains p
  else none

/-- The mirror of a register that is written: the one it has, else the lowest free one in another bank; none while the lane does not
mirror (R140). Which free register it is, the specification leaves open (log 79). -/
def mirrorFor (s : State) (r : Run) (p : Nat) (old : Option Nat) : Option Nat :=
  if r.ref.slice || !mirrored s r.ref.core r.work.lane then none
  else
    match old with
    | some q => some q
    | none => (List.range Config.laneRegs).find? fun q => q / 64 ≠ p / 64 && q ≠ p && !(lanePhys s r).contains q

/-- Values of a mask's threads over the rest. -/
def mergeLanes (m : Mask) (new old : Lanes) : Lanes :=
  (List.range threads).map fun t => if m.getLsbD t then laneAt new t else laneAt old t

/-- Whether all 32 threads hold one value (R37). -/
def uniform (v : Lanes) : Bool := (List.range threads).all fun t => laneAt v t = laneAt v 0

/-- Give a register a value, in the threads of a mask; a written register is not freed (R34), and the write is noted with its uniform tag
(R37). -/
def setReg (r : Run) (n : Nat) (m : Mask) (x : VReg) : Run :=
  { r with
    frees := r.frees.filter (· ≠ n)
    writes := r.writes ++ [(n, m, uniform x.vals)]
    work := { r.work with regs := r.work.regs.set n (some x) } }

/-- Write a register in the threads of a mask: the other threads keep their value, and a first write allocates (R33, R35). -/
def writeReg (s : State) (r : Run) (n : Nat) (m : Mask) (v : Lanes) : Except Stop Run :=
  if m = 0 then .ok r
  else
    match r.work.regs.getD n none with
    | some x => .ok (setReg r n m ⟨x.phys, mergeLanes m v x.vals, mirrorFor s r x.phys x.mirror⟩)
    | none =>
      match allocPhys s r with
      | none => .error (.held 0 .regs)
      | some p => .ok (setReg r n (BitVec.allOnes 32) ⟨p, mergeLanes m v (splat 0), mirrorFor s r p none⟩)

/-- A run that stands for no clause: a swarm's registers are written through it from outside one (R307, R371). -/
def bareRun (w : Swarm) : Run := ⟨w.ref, .a, 0, 0, [], 0, w, none, none, [], [], 0, 0, .none, 0, [], none, .executing⟩

/-- Write a pair from 64-bit values (R7, R92). -/
def writePair (s : State) (r : Run) (n : Nat) (m : Mask) (v : List Nat) : Except Stop Run := do
  let r1 ← writeReg s r n m (v.map fun x => BitVec.ofNat 32 x)
  writeReg s r1 (n + 1) m (v.map fun x => BitVec.ofNat 32 (x / 2 ^ 32))

/-- Write a predicate in the threads of a mask (R31). -/
def writePred (r : Run) (n : Nat) (m v : Mask) : Run :=
  let n := n % 64
  { r with work := { r.work with preds := r.work.preds.set n ((predBits r.work n &&& ~~~m) ||| (v &&& m)) } }

/-- The mask of the threads where a test holds. -/
def maskOf (p : Nat → Bool) : Mask :=
  (List.range threads).foldl (fun m t => if p t then m ||| (1 <<< t) else m) 0

end Sys2Proof.Machine
end

