-- ==== Sys2Proof/Machine/Flags.lean ====
section
/-! DEFINITION. MODE, the sticky flags and the task shadow (R20 to R23), rounding and saturation selection (R45, R78, R94), the mixing
value's inputs (R48), and results written in the active threads with the flags they raise. -/

namespace Sys2Proof.Machine

/-- MODE.RND, FTZ, DAZ, SAT, NANP and the trap enables (R20). -/
def modeRnd (m : Word) : Nat := (m.extractLsb' 0 3).toNat
def modeFtz (m : Word) : Bool := m.getLsbD 3
def modeDaz (m : Word) : Bool := m.getLsbD 4
def modeSat (m : Word) : Bool := m.getLsbD 5
def modeNanp (m : Word) : Bool := m.getLsbD 6
def modeEnables (m : Word) : BitVec 6 := m.extractLsb' 8 6
/-- A MODE value that SETSR and admission refuse (R20, R21). -/
def modeReserved (m : Word) : Bool :=
  modeRnd m = 0 || modeRnd m = 7 || m.getLsbD 7 || m.extractLsb' 14 2 ≠ 0 || m.extractLsb' 22 10 ≠ 0
/-- Flags at MODE bits 21:16. -/
def flagBits (f : BitVec 6) : Word := f.setWidth 32 <<< 16

/-- The detail of an enabled exception: 0x100 + the lowest flag raised whose enable is 1 (R22). -/
def enabledTrap (mode : Word) (raised : BitVec 6) : Option Nat :=
  ((List.range 6).find? fun k => raised.getLsbD k && (modeEnables mode).getLsbD k).map fun k => 0x100 + k

/-- The flag merge at a clause's completion (R23): into the task shadow inside a task, else into MODE. -/
def mergeFlags (inTask : Bool) (w : Swarm) (raised : BitVec 6) : Swarm :=
  if w.ref.slice then w
  else if inTask then { w with shadow := w.shadow ||| raised }
  else { w with mode := w.mode ||| flagBits raised }

/-- MODE as GETSR reads it (R23). -/
def modeRead (w : Swarm) : Word := w.mode ||| flagBits w.shadow
/-- MODE absorbs the shadow: COMMIT, COMMIT.PARTIAL, the implicit commit at FETCH and EXIT (R23). -/
def absorbShadow (w : Swarm) : Swarm := { w with mode := w.mode ||| flagBits w.shadow, shadow := 0 }
/-- MODE returns to the entry mode: ABANDON and a replay (R23). -/
def dropShadow (w : Swarm) : Swarm := { w with mode := w.entryMode, shadow := 0 }

/-- COORD and TASKID of a swarm (R345). -/
def coordOf (s : State) (g : WgRef) : DWord := ((wg? s g).bind Workgroup.task |>.map Task.coord).getD 0
def taskIdOf (s : State) (g : WgRef) : DWord := ((wg? s g).bind Workgroup.task |>.map Task.taskId).getD 0

/-- Word offset of the word in execution from the kernel entry (R48, R310). -/
def wordOffset (s : State) (r : Run) : Nat :=
  let entry := ((wg? s (wgOf r.ref)).map Workgroup.entry).getD 0
  (r.pc + BitVec.ofNat 64 (8 * (r.idx + 1)) - entry).toNat / 8

/-- What governs an instruction's rounding (R78, R94); SF is 0 for MODE.SAT, 1 .SAT, 2 .NOSAT; pos is that of R48. -/
def fctx (s : State) (r : Run) (f : Fields) (sf pos : Nat) : FCtx where
  mode := if f.rnd = 0 then modeRnd r.work.mode else f.rnd.toNat
  sat := match sf with | 1 => true | 2 => false | _ => modeSat r.work.mode
  ftz := modeFtz r.work.mode
  daz := modeDaz r.work.mode
  nanp := modeNanp r.work.mode
  mix := mixValue (coordOf s (wgOf r.ref)).toNat (wordOffset s r) pos (((launch? s r.ref.seq).map fun l => l.desc.seed).getD 0)

/-- pos of a thread instruction: {e, t} (R48). -/
def posOf (e t : Nat) : Nat := 32 * (e % 8) + t

/-- Raise flags in the clause; a slice raises none (R285). -/
def raise (r : Run) (f : BitVec 6) : Run := if r.ref.slice then r else { r with raised := r.raised ||| f }

/-- The results of the active threads: values, and the flags raised by them. -/
def results (m : Mask) (g : Nat → Rounded) : List Rounded :=
  (List.range threads).map fun t => if m.getLsbD t then g t else ⟨0, 0⟩
/-- The flags of a list of results. -/
def flagsOf (l : List Rounded) : BitVec 6 := l.foldl (fun f x => f ||| x.flags) 0

/-- Write one 32-bit result per active thread, with its flags. -/
def writeResult (s : State) (r : Run) (d : BitVec 8) (m : Mask) (g : Nat → Rounded) : Except Stop Run := do
  let l := results m g
  let r1 ← writeReg s r d.toNat m (l.map fun x => BitVec.ofNat 32 x.bits)
  .ok (raise r1 (flagsOf l))

/-- Write one 64-bit result per active thread into a pair, with its flags. -/
def writeWide (s : State) (r : Run) (d : BitVec 8) (m : Mask) (g : Nat → Rounded) : Except Stop Run := do
  let l := results m g
  let r1 ← writePair s r d.toNat m (l.map Rounded.bits)
  .ok (raise r1 (flagsOf l))

end Sys2Proof.Machine
end

