-- ==== Sys2Proof/Machine/Ops.lean ====
section
/-! DEFINITION. The operations every instruction shares: squashing a clause, taking a trap and returning from one, holding a swarm,
deferring a trap, event counters, and the divergence stack's branch and reconvergence procedures (R22 to R30, R121, R162, R364 to
R368, R384). -/

namespace Sys2Proof.Machine

/-! Scheduling state. -/

/-- Put a swarm into a scheduling state, from this cycle on (R131). -/
def setSched (s : State) (r : SwarmRef) (x : Sched) : State := 
  modSwarm s r fun w => { w with sched := x, since := s.cycle, leftLane := if w.sched = .active then s.cycle else w.leftLane }

/-- An immediate-class write inside a task marks it non-replayable (R163). -/
def markNonReplayable (s : State) (r : SwarmRef) : State :=
  modWg s (wgOf r) fun g => { g with task := g.task.map fun t => { t with nonReplayable := true } }

/-- An uncorrectable word of the scratchpad has been read: it is counted, and in the persistent region, which no replay repairs, the task
becomes non-replayable before the trap is delivered (R157, R158). -/
def noteScratch (s : State) (r : SwarmRef) (persistent : Bool) : State :=
  noteError (if persistent then markNonReplayable s r else s) r.core 6 (ctxOf s (wgOf r)) false

/-- Release the reservation of a command that is not enqueued after all. -/
def enqRelease (s : State) (q : Nat) (ext : Bool) : State :=
  modQueue s q fun x => if ext then { x with extRes := x.extRes - 1 } else { x with ringRes := x.ringRes - 1 }

/-- Whether a request is a RECYCLE. -/
def CellReq.isRecycle : CellReq → Bool
  | .recycle .. => true
  | _ => false
/-- Whether a clause waits for a request's reply. -/
def awaits (x : Run) (id : Nat) : Bool :=
  match x.phase with
  | .cellWait ids => ids.contains id
  | _ => false

/-- The clause of a swarm is squashed: nothing of it takes effect (R38), and what it reserved is free again (R189, R354). -/
def squash (s : State) (r : SwarmRef) : State :=
  let mine := (s.run.toList ++ s.runs).filter fun x => x.ref = r
  let flying := !mine.isEmpty
  let s0 := (mine.map Run.effects).flatten.foldl (fun s e => match e with | .enq q _ ext => enqRelease s q ext | _ => s) s
  let s1 := { s0 with
    run := if s.run.any fun x => x.ref = r then none else s.run
    runs := s.runs.filter fun x => x.ref ≠ r
    cellWaits := s.cellWaits.filter fun x => x.ref ≠ some r || (x.req.isRecycle && !mine.any fun y => awaits y x.id)
    cores := if flying then
        s.cores.map fun c => if c.idx = r.core then
          { c with queues := c.queues.map fun q => { q with pushRes := q.pushRes.filter (· ≠ r), popRes := q.popRes.filter (· ≠ r) } }
        else c
      else s.cores
    fabric := { s.fabric with remoteCells := s.fabric.remoteCells.filter fun x => x.ref ≠ r || (x.recycle && !mine.any fun y => awaits y x.id) } }
  if flying then countCore s1 r.core 0x02 (ctxOf s (wgOf r)) else s1

/-- An incomplete arrival of a swarm's team dissolves: its arrived clauses are squashed (R137). -/
def dissolve (s : State) (r : SwarmRef) : State :=
  match swarm? s r with
  | none => s
  | some w =>
    if w.inTeam then
      let mates := (swarmsOf s (wgOf r)).filter fun x => x.inTeam && x.team = w.team
      (s.runs.filter fun x => x.phase = .arrived && mates.any fun m => m.ref = x.ref).foldl (fun s x => squash s x.ref) s
    else s

/-! Trap records (R367, R368). -/

/-- SWID (R19). -/
def swidOf (w : Swarm) : Nat :=
  w.ref.idx + 2 ^ 5 * w.lane + 2 ^ 8 * w.teamPos + 2 ^ 11 * w.team + (if w.inTeam then 2 ^ 15 else 0)

/-- The fields of a trap record that its trap supplies. -/
structure TrapInfo where
  code : Nat
  detail : Nat
  origin : Nat
  pc : DWord
  addr : Nat
  prog : Nat
  extra : Nat
  deriving DecidableEq, Repr

/-- FLAGS of a record: of the task, if one is open, and of the run of its tile that a workgroup makes. -/
def runFlags (t : Option Task) (isTwin tieBreak : Bool) : Nat :=
  (match t with
    | none => 0
    | some t => 1 + 2 * t.attempt + (if t.nonReplayable then 8 else 0) + (if tieBreak then 32 else 0)) +
  (if isTwin then 16 else 0)
/-- FLAGS of a record of a swarm of a workgroup. -/
def trapFlags : Option Workgroup → Nat
  | none => 0
  | some g => runFlags g.task g.twin.isTwin g.twin.tieBreak

/-- Whom a record names: core, SWID, FLAGS, launch sequence and TASKID. -/
structure RecordOf where
  core : Nat
  swid : Nat
  flags : Nat
  seq : Nat
  taskId : Nat

/-- The 64 bytes of a record. -/
def recordImage (s : State) (x : RecordOf) (ctx : Nat) (i : TrapInfo) : List Byte :=
  natToBytes 1 i.code ++ natToBytes 1 i.origin ++ natToBytes 2 i.detail ++ natToBytes 2 ctx ++
  natToBytes 2 (if i.origin = 3 then 0xFFFF else x.core) ++ natToBytes 2 x.swid ++ natToBytes 1 0 ++ natToBytes 1 x.flags ++
  natToBytes 4 x.seq ++ natToBytes 8 x.taskId ++ natToBytes 8 i.pc.toNat ++ natToBytes 8 i.addr ++ natToBytes 8 i.prog ++
  natToBytes 8 s.clkns ++ natToBytes 8 i.extra
/-- The record of a trap of a swarm, or of a launch alone. -/
def trapBytes (s : State) (w : Option Swarm) (ctx seq : Nat) (i : TrapInfo) : List Byte :=
  let g := w.bind fun w => wg? s (wgOf w.ref)
  recordImage s ⟨(w.map fun w => w.ref.core).getD 0xFFFF, (w.map swidOf).getD 0, trapFlags g, seq,
    ((g.bind Workgroup.task).map fun t => t.taskId.toNat).getD 0⟩ ctx i

/-- Write a record into the context's ring: when the ring has room the record, the index word and the vector, else the lost count. -/
def putRecord (s : State) (ctx : Nat) (bytes : List Byte) : State :=
  let c := contextAt s ctx
  match c.trapArea with
  | none => s
  | some (base, entries, idx, vec) =>
    if (c.trapWrite + 2 ^ 32 - c.trapRead) % 2 ^ 32 < entries then
      let s1 := hostWrite s (base + 64 * (c.trapWrite % entries)) bytes
      let s2 := hostWrite s1 idx (natToBytes 4 ((c.trapWrite + 1) % 2 ^ 32) ++ natToBytes 4 c.trapLost)
      modContext { s2 with msix := s2.msix ++ [vec] } ctx fun c => { c with trapWrite := (c.trapWrite + 1) % 2 ^ 32 }
    else
      let lost := min (2 ^ 32 - 1) (c.trapLost + 1)
      modContext (hostWrite s idx (natToBytes 4 c.trapWrite ++ natToBytes 4 lost)) ctx fun c => { c with trapLost := lost }

/-! Taking a trap and returning (R364, R365). -/

/-- Trap classes of R364. -/
inductive TrapClass where
  | program | machine | unresolved | debug
  deriving DecidableEq, Repr

def trapClass (code : Nat) : TrapClass :=
  if code = 0x14 then .debug
  else if code = 0x0E then .unresolved
  else if code = 0x08 ∨ code = 0x0A ∨ code = 0x0B ∨ code = 0x0C ∨ code = 0x0D then .machine
  else .program

/-- A launch that has been diverted (R358). -/
def divertedLaunch (s : State) (seq : Nat) : Bool := (launch? s seq).any fun l => l.cause ≠ 0

/-- Stop a swarm (R365). -/
def stopSwarm (s : State) (r : SwarmRef) : State :=
  modSwarm (dissolve s r) r fun w => { w with
    stopped := true
    haltedFrom := if w.sched = .active ∨ w.sched = .halted then .ready else w.sched
    sched := .halted
    since := s.cycle
    leftLane := if w.sched = .active then s.cycle else w.leftLane }

/-- How an open task is to end by a trap of its class (R364 and the cases that override it), and its machine traps so far, each of which
counts. A trap that ends the task without replay prevails over a replay that is still to begin; the first such trap stands. -/
def taskEndBy (s : State) (t : Task) (seq code : Nat) : TrapEnd × Nat :=
  let e : TrapEnd × Nat :=
    match trapClass code with
    | .machine =>
      (if t.nonReplayable || divertedLaunch s seq || 2 ≤ t.machineTraps || 2 ≤ t.attempt then .noReplay 5 else .replay, t.machineTraps + 1)
    | .unresolved => (.noReplay 4, t.machineTraps)
    | _ => (.noReplay 5, t.machineTraps)
  match t.ending with
  | some (.noReplay code) => (.noReplay code, e.2)
  | _ => e

/-- TAKE A TRAP: the clause is squashed, the record written, and the trap handled by its class (R39, R364, R367). Inside a task the
swarm's task is marked to end, in the way TASK_REPLAY or TRAP_WITHOUT_REPLAY then carries out; outside one, and for a debug trap, the
swarm is stopped. A trap of an access slice stops the slice and waits for its owner (R287). -/
def takeTrap (s : State) (r : SwarmRef) (i : TrapInfo) : State :=
  let s1 := squash s r
  if r.slice then
    modSwarm { s1 with swarms := s1.swarms.filter fun w => w.ref ≠ r } (ownerOf r) fun w =>
      { w with deferred := w.deferred ++ [⟨i.code, i.detail, i.pc, 1, i.addr⟩] }
  else
    let ctx := ctxOf s (wgOf r)
    let s2 := putRecord s1 ctx (trapBytes s1 (swarm? s1 r) ctx r.seq i)
    match trapClass i.code, (wg? s2 (wgOf r)).bind Workgroup.task with
    | .debug, _ => stopSwarm s2 r
    | _, none => stopSwarm s2 r
    | _, some t =>
      let e := taskEndBy s2 t r.seq i.code
      modWg (dissolve s2 r) (wgOf r) fun g => { g with task := g.task.map fun t => { t with ending := some e.1, machineTraps := e.2 } }

/-- RETURN FROM A STOP: the host resumes a stopped swarm from its present state (R365). -/
def resumeStopped (s : State) (r : SwarmRef) : State :=
  modSwarm s r fun w => if w.stopped then { w with stopped := false, sched := .ready, since := s.cycle, freeFrom := s.cycle } else w

/-- An asynchronous operation's trap (R162): raised at the swarm's next clause; for a swarm that issues no more, taken at once inside
a task, and outside one recorded with the launch. -/
def deferTrap (s : State) (r : SwarmRef) (d : Deferred) : State :=
  match swarm? s r with
  | none => s
  | some w =>
    let i : TrapInfo := ⟨d.code, d.detail, d.origin, d.pc, d.addr, w.prog, 0⟩
    let ended := w.sched = .done
    if inTask s (wgOf r) && (ended || (w.endArrived.isSome && !w.rerun)) then takeTrap s r i
    else if ended then
      modLaunch (putRecord s (ctxOf s (wgOf r)) (trapBytes s (some w) (ctxOf s (wgOf r)) r.seq { i with origin := 2 })) r.seq fun l =>
        { l with flags := l.flags ||| 4 }
    else modSwarm s r fun w => { w with deferred := w.deferred ++ [d] }

/-! Holding (R161, R322, R366, R381). -/

/-- A translation request for a page is outstanding: misses from any number of agents, of any die, coalesce into it (R381). -/
def atsPending (s : State) (ctx page : Nat) : Bool := s.dies.any fun d => d.ats.any fun a => a.1 = ctx && a.2.1 = page
/-- Ask for a translation: a miss joins a request for its page, or takes a free request (R381). -/
def requestPage (s : State) (die ctx page : Nat) (write : Bool) : State :=
  if atsPending s ctx page || s.pageRequests.any (fun p => p.ctx = ctx && p.page = page) then s
  else if (s.dies.map fun d => d.ats.length).sum < Config.atsLimit then modDie s die fun d => { d with ats := d.ats ++ [(ctx, page, write)] }
  else s

/-- The first write to a shared granule of a view starts its copy, into a frame of the pool; without a frame it waits (R325). -/
def startCopy (ctx va : Nat) (s : State) (v : View) : State :=
  let k := (va - v.range) / 65536
  let put (f : View → View) : State := { s with views := s.views.map fun x => if x.ctx = v.ctx && x.id = v.id then f x else x }
  if v.granules.getD k (.split 0) ≠ .shared then s
  else if ((contextAt s ctx).shadowPool.getD 0) = 0 then put fun x => { x with starved := some (x.starved.getD s.clkns) }
  else
    modContext (put fun x => { x with granules := x.granules.set k .copying, starved := none }) ctx fun c =>
      { c with shadowPool := c.shadowPool.map (· - 1) }
/-- The same for every view of a context that covers an address. -/
def startGranule (s : State) (ctx va : Nat) : State :=
  (s.views.filter fun v => v.ctx = ctx && v.range ≤ va && va < v.range + v.len).foldl (startCopy ctx va) s

/-- Enter an access in a die's hold queue (R322). -/
def holdEntry (s : State) (die : Nat) (h : Hold) : State :=
  let n := ((dieAt s die).holds.filter Hold.queued).length
  modDie s die fun d => { d with holds := d.holds ++ [{ h with queued := n < Config.holdEntries }] }

/-- Names of accesses that no engine operation names: a task's commit, a launch's record and map, a queue's commands. -/
def commitName : Nat := 2 ^ 64 + 100
def recordName (id : Nat) : Nat := 2 ^ 65 + id
def queueName (q : Nat) : Nat := 2 ^ 66 + q
/-- The reel's record, and a held packet. -/
def reelName : Nat := 2 ^ 67
def packetName (k : Nat) : Nat := 2 ^ 68 + k
/-- Those the hub die makes stand for no swarm. -/
def hubRef : SwarmRef := ⟨0, 0, 0, false⟩

/-- An engine request is held. -/
def engineHeld (s : State) (r : SwarmRef) (name : Nat) : Bool :=
  s.dies.any fun d => d.holds.any fun h => h.ref = r && h.engine = some name
/-- An access of a context, made on a die, is held: it asks for its page, or starts a granule's copy, and waits in the queue (R322). -/
def holdAccess (s : State) (r : SwarmRef) (die ctx name : Nat) (e : Stop) : State :=
  if engineHeld s r name then s
  else
    match e with
    | .miss va write => holdEntry (requestPage s die ctx (pageOf va) write) die ⟨r, some name, ctx, pageOf va, va, .fault, true, s.cycle, write⟩
    | .held va .snapshot => holdEntry (startGranule s ctx va) die ⟨r, some name, ctx, pageOf va, va, .snapshot, true, s.cycle, true⟩
    | .held va .migrate => holdEntry s die ⟨r, some name, ctx, pageOf va, va, .migrate, true, s.cycle, false⟩
    | _ => s
/-- An engine's access for a swarm is held. -/
def holdEngine (s : State) (r : SwarmRef) (name : Nat) (e : Stop) : State :=
  holdAccess s r (dieOf r.core) (ctxOf s (wgOf r)) name e

/-- A recoverable fault: the clause is squashed and the swarm HELD (R366). RegisterWait takes no hold-queue entry. -/
def holdSwarm (s : State) (r : SwarmRef) (va : Nat) (why : HoldWhy) (write : Bool := false) : State :=
  let die := dieOf r.core
  let ctx := ctxOf s (wgOf r)
  let s1 := dissolve (squash s r) r
  -- one that the debugger has halted stays so, and is held again when it resumes (R132, R366)
  let s2 := if (swarm? s1 r).any fun w => w.sched = .halted then modSwarm s1 r fun w => { w with haltedFrom := .held } else setSched s1 r .held
  match why with
  | .regs => countCore (modDie s2 die fun d => { d with holds := d.holds ++ [⟨r, none, ctx, 0, 0, .regs, false, s.cycle, false⟩] }) r.core 0x06 ctx
  | .fault => holdEntry (requestPage s2 die ctx (pageOf va) write) die ⟨r, none, ctx, pageOf va, va, .fault, true, s.cycle, write⟩
  | .snapshot => holdEntry (startGranule s2 ctx va) die ⟨r, none, ctx, pageOf va, va, .snapshot, true, s.cycle, true⟩
  | .migrate => holdEntry s2 die ⟨r, none, ctx, pageOf va, va, .migrate, true, s.cycle, false⟩

/-- A swarm whose hold is released is READY again and executes its clause anew (R132, R322). A stopped or halted swarm stays so. -/
def releaseHold (s : State) (h : Hold) : State :=
  let s1 := { s with dies := s.dies.map fun d => { d with holds := d.holds.filter (· ≠ h) } }
  match h.engine with
  | some _ => s1
  | none =>
    modSwarm s1 h.ref fun w =>
      if w.sched = .held then { w with sched := .ready, since := s.cycle, freeFrom := s.cycle }
      else if w.sched = .halted && w.haltedFrom = .held then { w with haltedFrom := .ready }
      else w
/-- Release every hold that a test names, in arrival order. -/
def releaseWhere (s : State) (p : Hold → Bool) : State :=
  ((s.dies.map Die.holds).flatten.filter p).foldl releaseHold s
/-- Swarms in RegisterWait try again when a register of their lane may be free (R35). -/
def wakeRegs (s : State) (core lane : Nat) : State :=
  releaseWhere s fun h => h.why = .regs && h.ref.core = core && (swarm? s h.ref).any fun w => w.lane = lane

/-- Whether every other swarm of the lane that is not DONE waits for registers or in a GROW, so that this wait is never met (R35). -/
def lastToWait (s : State) (r : SwarmRef) (blockedGrow : SwarmRef → Bool) : Bool :=
  match swarm? s r with
  | none => false
  | some w =>
    (laneSwarms s r.core w.lane).all fun x =>
      x.ref = r || x.sched = .done || (s.dies.any fun d => d.holds.any fun h => h.ref = x.ref && h.why = .regs)
        || (x.sched = .waiting && blockedGrow x.ref)

/-! The divergence stack (R26 to R30, R121). -/

/-- A 32-byte entry. -/
def stackEntry (kind : Nat) (x : Slot) : List Byte :=
  natToBytes 8 x.pc.toNat ++ natToBytes 8 x.rpc.toNat ++ natToBytes 8 x.rjp.toNat ++ natToBytes 4 x.mask.toNat ++
  natToBytes 4 kind
/-- An entry as a slot, with its KIND. -/
def stackSlot (b : List Byte) : Nat × Slot :=
  let w (o n : Nat) : Nat := bytesToNat ((b.drop o).take n)
  (w 28 1, ⟨true, false, BitVec.ofNat 64 (w 0 8), BitVec.ofNat 32 (w 24 4), BitVec.ofNat 64 (w 8 8), BitVec.ofNat 64 (w 16 8)⟩)

/-- Both slots and what a branch pushes, the first entry first. -/
structure Paths where
  x : Slot
  y : Slot
  pushes : List (List Byte)
  deriving DecidableEq, Repr

/-- Split slot X: threads t go to a target in Y, the rest to next (R27). -/
def splitPaths (p : Paths) (t : Mask) (target next rjp : DWord) : Paths where
  x := ⟨true, false, next, p.x.mask &&& ~~~t, p.x.rjp, rjp⟩
  y := ⟨true, false, target, t, p.x.rjp, Config.noneAddr⟩
  pushes := p.pushes ++ (if p.y.valid then [stackEntry 0 p.y] else []) ++
    [stackEntry 1 ⟨true, false, p.x.rjp, 0, p.x.rpc, Config.noneAddr⟩]

/-- The distinct targets of a thread list in increasing order. -/
def sortedTargets (ts : List (Nat × DWord)) : List DWord :=
  let ins (x : DWord) (l : List DWord) : List DWord := (l.filter fun y => y.toNat < x.toNat) ++ [x] ++ l.filter fun y => x.toNat < y.toNat
  ts.foldl (fun l t => ins t.2 l) []
/-- The threads that name a target. -/
def groupOf (ts : List (Nat × DWord)) (g : DWord) : Mask :=
  ts.foldl (fun m t => if t.2 = g then m ||| (1 <<< t.1) else m) 0

/-- BRX's splits, lowest target first (R121). -/
def splitAll (ts : List (Nat × DWord)) (p : Paths) : List DWord → Paths
  | [] => p
  | [g] => { p with x := { p.x with pc := g, mask := groupOf ts g, rjp := Config.noneAddr } }
  | g :: gs => splitAll ts (splitPaths p (groupOf ts g) g 0 p.x.rjp) gs

/-- The paths after a clause: its branch, or the next clause (R27, R120, R121); DivergenceStack when the pushes exceed DSLIM. -/
def branchPaths (r : Run) : Except Stop Paths :=
  let x := slotOf r.work r.slot
  let y := slotOf r.work r.slot.other
  let p : Paths := ⟨x, y, []⟩
  let check (need : Nat) (q : Paths) : Except Stop Paths :=
    if r.work.dsLim < r.work.dsDepth + need then .error (.trap 9 0 0) else .ok q
  match r.branch with
  | .none => .ok { p with x := { x with pc := nextPc r } }
  | .direct t target =>
    if t = x.mask then .ok { p with x := { x with pc := target } }
    else if t = 0 then .ok { p with x := { x with pc := nextPc r } }
    else check (if y.valid then 2 else 1) (splitPaths p t target (nextPc r) Config.noneAddr)
  | .indirect ts =>
    match sortedTargets ts with
    | [] => .ok { p with x := { x with pc := nextPc r } }
    | [g] => .ok { p with x := { x with pc := g } }
    | gs => check (1 + 2 * (gs.length - 2) + (if y.valid then 1 else 0)) (splitAll ts p gs)

/-- The entries of the stack that a swarm pops, read at their physical addresses. -/
def stackTop (s : State) (w : Swarm) : Except Stop (Nat × Slot) := do
  let va := w.dsBase + 32 * (w.dsDepth - 1)
  let (_, pa) ← translate s (dieOf w.ref.core) (ctxOf s (wgOf w.ref)) va false
  .ok (stackSlot (memRead s.mem pa 32))

/-- Running slots (R25). -/
def Slot.running (x : Slot) : Bool := x.valid && !x.parked

/-- One pop of R29, or none when the loop exits. -/
def popOnce (s : State) (w : Swarm) : Except Stop (Option Swarm) := do
  if w.dsDepth = 0 || (w.slotA.running && w.slotB.valid) || (w.slotA.valid && w.slotB.running) then .ok none
  else
    let (kind, e) ← stackTop s w
    if kind = 0 && !w.slotA.valid then .ok (some { w with slotA := e, dsDepth := w.dsDepth - 1 })
    else if kind = 0 && !w.slotB.valid then .ok (some { w with slotB := e, dsDepth := w.dsDepth - 1 })
    else if kind = 1 && !w.slotA.running && !w.slotB.running then
      let m := (if w.slotA.valid then w.slotA.mask else 0) ||| (if w.slotB.valid then w.slotB.mask else 0)
      let a := if m ≠ 0 then ⟨true, false, e.pc, m, e.rpc, Config.noneAddr⟩ else Slot.empty
      .ok (some { w with slotA := a, slotB := Slot.empty, dsDepth := w.dsDepth - 1 })
    else .ok none

/-- The loop of R29. -/
def popLoop (s : State) : Nat → Swarm → Except Stop Swarm
  | 0, w => .ok w
  | n + 1, w => do
    match ← popOnce s w with
    | none => .ok w
    | some w1 => popLoop s n w1

/-- R29 after a change of VALID or PARKED. -/
def reconverge (s : State) (w : Swarm) : Except Stop Swarm := popLoop s (w.dsDepth + 1) w

end Sys2Proof.Machine
end

