-- ==== Sys2Proof/Machine/Matrix.lean ====
section
/-! DEFINITION. The matrix engine: its exception counters, operand tiles and quarters, the result of an accepted operation, its writing,
the order of operations on a tile, and the restart after a discard (R150, R192, R194, R200, R203, R204, R206, R207, R212, R214, R221, R222). -/

namespace Sys2Proof.Machine

/-! Exception counters (R206). -/

/-- Add one to each counter whose flag a rounding raises, saturating. -/
def countExc (cs : List Nat) (fl : BitVec 6) : List Nat :=
  cs.mapIdx fun k c =>
    let bit := match k with | 0 => fl.getLsbD 0 | 1 => fl.getLsbD 2 | 2 => fl.getLsbD 3 | _ => fl.getLsbD 4
    if bit then min (2 ^ 32 - 1) (c + 1) else c
/-- Count roundings of a workgroup: into the shadow inside a task, else into the counters. -/
def countRoundings (shadow : Bool) (g : Workgroup) (fl : List (BitVec 6)) : Workgroup :=
  if shadow then { g with excShadow := fl.foldl countExc g.excShadow } else { g with exc := fl.foldl countExc g.exc }
/-- The counters absorb the shadow, saturating (R206). -/
def absorbExc (g : Workgroup) : Workgroup :=
  { g with exc := g.exc.mapIdx (fun k c => min (2 ^ 32 - 1) (c + g.excShadow.getD k 0)), excShadow := [0, 0, 0, 0] }
/-- The shadow is dropped. -/
def dropExc (g : Workgroup) : Workgroup := { g with excShadow := [0, 0, 0, 0] }

/-! Operands and results. -/

/-- Contraction length K of a format (R192). -/
def mmaK (ty : Ty) : Nat :=
  match ty with
  | .bf16 => 32
  | .f32 => 16
  | _ => 64

/-- Bytes of one A tile in the operand buffer (R192). -/
def mmaTileBytes (ty : Ty) : Nat := if ty = .q16 then 1024 else 2048

/-- Bytes n of a list, as a number. -/
def bytesAt (b : List Byte) (o n : Nat) : Nat := bytesToNat ((b.drop o).take n)

/-- Element (i, k) of the A tile as bits (R194). -/
def aBits (m : AcceptedMma) (i k : Nat) : Nat :=
  if m.ty = .q16 then ((bytesAt m.aBytes ((i * 64 + k) / 2) 1) / (if k % 2 = 0 then 1 else 16)) % 16
  else
    let e := m.ty.bits / 8
    bytesAt m.aBytes ((i * mmaK m.ty + k) * e) e

/-- Element (k, n) of B as bits (R200): byte o of a quarter lies in word o div 4. -/
def bBits (m : AcceptedMma) (k n : Nat) : Nat :=
  let e := m.tyB.bits / 8
  let o := (16 * k + n % 16) * e
  let w := (m.quarters.getD (n / 16) []).getD (o / 4) 0
  w.toNat / 2 ^ (8 * (o % 4)) % 2 ^ (8 * e)

/-- The factors of one product: for Q16 the element S × (c × b) × 2^-15 against B (R53, R54); ∞ × 0 stays the invalid product. -/
def mmaPairAt (m : AcceptedMma) (i n k : Nat) : Val × Val :=
  let y := m.tyB.fmt.decode false (bBits m k n)
  if m.ty = .q16 then
    let s := fmtF32.decode false (m.supers.getD i 0).toNat
    if s.isNan then (s, y)
    else
      match q16Val s (aBits m i k) (bytesAt m.scales i 1) with
      | some v => (v, y)
      | none => (.inf false, .fin false 0 0)
  else (m.ty.fmt.decode false (aBits m i k), y)

/-- The accumulator element an operation leaves, with the flags of its roundings (R62, R203, R204). -/
def mmaNew (m : AcceptedMma) (i n : Nat) (old : Word) : Word × List (BitVec 6) :=
  if m.ty = .s8 then
    let sum := ((List.range 64).map fun k => readInt true 8 (aBits m i k) * readInt true 8 (bBits m k n)).sum
    (BitVec.ofNat 32 (wrapBits 32 ((old.toNat : Int) + sum)), [])
  else
    let ps := (List.range (mmaK m.ty)).map fun k => mmaPairAt m i n k
    let r := if m.wide then mmawElement old.toNat ps else mmaGroups 4 old.toNat ps []
    (BitVec.ofNat 32 r.1, r.2)

/-- A tile after an operation: rows outside the mask keep every element. -/
def mmaTile (m : AcceptedMma) (elems : List Word) : List (Word × List (BitVec 6)) :=
  elems.mapIdx fun x old => if m.rows.getLsbD (x / 64) then mmaNew m (x / 64) (x % 64) old else (old, [])

/-- Write an accepted operation's result and lower its members' MATRIX counters (R206, R207, R219). A discarded one has no effect. -/
def finishMma (s : State) (m : AcceptedMma) : State :=
  let s1 := { s with mmas := s.mmas.filter fun x => x.id ≠ m.id }
  let s2 :=
    if m.discarded then s1
    else
      let out := mmaTile m ((coreAt s1 m.wg.core).tiles.getD m.tile Tile.free).elems
      modWg (modCore s1 m.wg.core fun c => { c with tiles := c.tiles.modify m.tile fun t => { t with elems := out.map Prod.fst } })
        m.wg fun g => countRoundings m.inTask g (out.map Prod.snd).flatten
  m.members.foldl (fun s r => opDone s r 3 m.id) s2

/-- Operations accepted on a tile are performed before a later one sees it (R214). -/
def finishOn (s : State) (core tile : Nat) : State :=
  (s.mmas.filter fun m => m.wg.core = core && m.tile = tile && !m.discarded).foldl finishMma s

/-- Tile of an accumulator name, when it is mapped. -/
def tileOf (s : State) (g : WgRef) (n : Nat) : Option Nat := (wg? s g).bind fun w => w.names.getD n none
def tileAt (s : State) (core tile : Nat) : Tile := (coreAt s core).tiles.getD tile Tile.free
def modTile (s : State) (core tile : Nat) (f : Tile → Tile) : State :=
  modCore s core fun c => { c with tiles := c.tiles.modify tile f }

/-- Resolve a name for an access (R212): Protection when unmapped, Uncorrectable when the tile is lost, or when this access is the one
that finds its error (R150; log 80); earlier operations are performed first. -/
def useTile (s : State) (g : WgRef) (n : Nat) : Except Stop (Nat × State) :=
  match tileOf s g n with
  | none => .error (.trap 7 0x0311 0)
  | some t =>
    if (tileAt s g.core t).lost || (tileAt s g.core t).bad then .error (.trap 0x0C 0x0004 n) else .ok (t, finishOn s g.core t)

/-! The order of operations on a tile (R212, R214, R218). -/

/-- A DRAIN of another swarm of the workgroup that has performed a row, and not all, holds its tile. -/
def drainHolds (s : State) (g : WgRef) (tile : Nat) (except : List SwarmRef) : Bool :=
  (swarmsOf s g).any fun w => !except.contains w.ref && w.prog ≠ 0 && w.draining.any fun n => tileOf s g n = some tile
/-- From its first ACCRD or ACCWR of a tile to its completion, a clause in flight keeps the others' operations off the tile: an ACCWR
all of them, an ACCRD those that change the tile. -/
def tileLocked (s : State) (g : WgRef) (tile : Nat) (except : List SwarmRef) (write : Bool) : Bool :=
  (s.run.toList ++ s.runs).any fun x => wgOf x.ref = g && !except.contains x.ref && (x.words.take x.idx).any fun w =>
    let f := Fields.ofWord w
    (opcodeOf w = 0x89 || (write && opcodeOf w = 0x88 && f.opx ≠ 2)) && tileOf s g f.dst.toNat = some tile
/-- Whether an operation on a tile, by clauses of the swarms named, waits for such a DRAIN or clause. -/
def tileBusy (s : State) (g : WgRef) (tile : Nat) (own : List SwarmRef) (write : Bool) : Bool :=
  drainHolds s g tile own || tileLocked s g tile own write
/-- The same for a name, in a clause of a swarm. -/
def tileReady (s : State) (r : SwarmRef) (n : Nat) (write : Bool) : Except Stop Unit :=
  if (tileOf s (wgOf r) n).any fun t => tileBusy s (wgOf r) t [r] write then .error .wait else .ok ()

/-- An uncorrectable error has met a read of a swarm's structures: they count it (R157, R296), and a tile that held it is lost (R150). -/
def noteUncorrectable (s : State) (r : SwarmRef) (detail addr : Nat) : State :=
  let ctx := ctxOf s (wgOf r)
  match detail with
  | 0x0002 => noteError s r.core 1 ctx false
  | 0x0003 => noteError s r.core 2 ctx false
  | 0x0004 =>
    match tileOf s (wgOf r) addr with
    | some t =>
      if (tileAt s r.core t).bad then
        noteError (modTile s r.core t fun x => { x with lost := true, bad := false }) r.core 3 ctx false
      else s
    | none => s
  | 0x0007 => { s with foragerErrors := s.foragerErrors.modify (clusterOf r.core) fun n => (n.1 + 1, n.2) }
  | _ => s

/-! Elements and names. -/

/-- Element of a tile, row by row. -/
def tileIndex (row col : Nat) : Nat := 64 * row + col
/-- Write elements of a tile. -/
def setElems (cells : List (Nat × Nat × Word)) (t : Tile) : Tile :=
  { t with elems := cells.foldl (fun l c => l.set (tileIndex c.1 c.2.1) c.2.2) t.elems }
/-- A tile of zeros. -/
def zeroElems (t : Tile) : Tile := { t with elems := List.replicate 2048 0 }

/-- The tiles that clauses in flight on a core have taken for their names and not yet mapped (R209). -/
def tilesTaken (s : State) (core : Nat) : List Nat :=
  ((s.run.toList ++ s.runs).filter fun x => x.ref.core = core).map (fun x =>
    x.effects.filterMap fun e => match e with | .accMap _ t => some t | _ => none) |>.flatten
/-- The free tiles of a core, the lowest first (R209). -/
def freeTiles (s : State) (core : Nat) : List Nat :=
  (List.range 64).filter fun k => (tileAt s core k).owner.isNone && !(tilesTaken s core).contains k

/-- Map a name to a tile of zeros (R209). -/
def mapTile (s : State) (g : WgRef) (n tile : Nat) : State :=
  modWg (modTile s g.core tile fun _ => { Tile.free with owner := some g }) g fun w => { w with names := w.names.set n (some tile) }
/-- Unmap a name: what was accepted on its tile is performed first, and the tile returns to the pool (R210). -/
def unmapName (s : State) (g : WgRef) (n : Nat) : State :=
  match tileOf s g n with
  | none => s
  | some t => modWg (modTile (finishOn s g.core t) g.core t fun x => { x with owner := none, lost := false, bad := false }) g fun w =>
      { w with names := w.names.set n none }

/-- Resume a swarm at its restart label (R222): one whose end arrival stands goes on up to its next end arrival (R390). DESIGN CHOICE: a
swarm that is DONE stays so, whatever label it registered: R221 sends
"every swarm whose RSTPC is not NONE", and R131 lets no DONE swarm leave its state (log 81). -/
def restartSwarm (s : State) (w : Swarm) : State :=
  if w.rstPc = Config.noneAddr ∨ w.sched = .done then s
  else
    let s1 := releaseWhere (squash s w.ref) fun h => h.ref = w.ref && h.engine.isNone
    modSwarm s1 w.ref fun w =>
      { w with
        slotA := ⟨true, false, w.rstPc, w.live, w.rstRec.1, w.rstRec.2.1⟩
        slotB := Slot.empty
        dsDepth := w.rstRec.2.2
        prog := 0
        progFlags := 0
        draining := none
        rerun := w.endArrived.isSome
        waitFrom := none
        sched := if w.sched = .halted then .halted else .ready
        haltedFrom := if w.sched = .halted then .ready else w.haltedFrom }

end Sys2Proof.Machine
end

