-- ==== Sys2Proof/Machine/Engines.lean ====
section
/-! DEFINITION. What runs after its clause, and the releases that wait for it: atomics at their homes, copies in and out, the on-chip
physical map, operand-buffer copies, FLUSH, acquires and releases (R170, R171, R175 to R179, R184, R197, R242, R301, R306 to R308). -/

namespace Sys2Proof.Machine

/-! Acquire and release (R171, R242). -/

/-- An acquire at a scope: at .CLU or wider the marked L1 sectors go, and the received set is folded into the release accumulator. -/
def acquireAt (s : State) (r : SwarmRef) (scope : Nat) : State :=
  if scope < 4 then s
  else
    let k := scope - 4
    let got := ((swarm? s r).map fun w => w.received.getD k 0).getD 0
    modSwarm (l1Drop s r.core (marks got)) r fun w =>
      { w with relAcc := w.relAcc.modify k (· ||| got), received := w.received.set k 0 }

/-- A global write marks its line in all four release accumulators (R242). -/
def markRel (s : State) (r : SwarmRef) (pa : Nat) : State :=
  modSwarm s r fun w => { w with relAcc := w.relAcc.map (· ||| lineMarks pa) }

/-- The same for every line of a range that its swarm's die can translate. -/
def markRange (s : State) (r : SwarmRef) (va n : Nat) : State :=
  (sectorsTouched va n).foldl (fun s b =>
    match translate s (dieOf r.core) (ctxOf s (wgOf r)) b false with
    | .ok (_, pa) => markRel s r pa
    | .error _ => s) s

/-- The signature releases at the scopes carry, and the accumulators cleared; scopes inside the core carry none (R170, R242). -/
def takeRel (s : State) (r : SwarmRef) (scopes : List Nat) : BitVec 512 × State :=
  scopes.foldl (fun st sc =>
    if sc < 4 then st
    else
      let k := sc - 4
      let sig := ((swarm? st.2 r).map fun w => w.relAcc.getD k 0).getD 0
      (st.1 ||| sig, modSwarm st.2 r fun w => { w with relAcc := w.relAcc.set k 0 })) (0, s)

/-- Whether a release at these scopes leaves the core. -/
def outer (scopes : List Nat) : Bool := scopes.any fun x => 4 ≤ x

/-! Atomics (R176 to R178). -/

/-- The word a read-modify-write leaves (R177). v is the operand; for .CAS its low part is the compare value, its high part the new. -/
def atomicNew (ty : Ty) (op old v : Nat) : Nat :=
  let w := ty.bits
  if ty = .f32 then
    match op with
    | 0 => (fmtF32.add FCtx.engine old v).bits
    | 1 => (fmtF32.minMax FCtx.engine false old v).bits
    | 2 => (fmtF32.minMax FCtx.engine true old v).bits
    | _ => v % 2 ^ 32
  else
    let lt (a b : Nat) : Bool := readInt ty.signed w a < readInt ty.signed w b
    let u := v % 2 ^ w
    match op with
    | 0 => (old + u) % 2 ^ w
    | 1 => if lt u old then u else old
    | 2 => if lt old u then u else old
    | 3 => old &&& u
    | 4 => old ||| u
    | 5 => old ^^^ u
    | 6 => u
    | 7 => if old = u then v / 2 ^ w % 2 ^ w else old
    | 8 => if u ≤ old then 0 else old + 1
    | _ => if old = 0 ∨ u < old then u else old - 1

/-- Perform one request at its home (R301): what the requester's core holds of the sector drains first (R234). -/
def atomicAtHome (s : State) (r : SwarmRef) (q : AtomicReq) (sig : Option (BitVec 512)) : Except Stop (Nat × State) := do
  let a := accessOf s r
  let (_, pa) ← translateData s a.die a.ctx q.va true
  let s1 := drainWhere s r.core fun e => e.pa = pa / 64 * 64
  let _ ← sectorData s1 pa q.va
  let n := q.ty.bits / 8
  let old := bytesToNat (memRead s1.mem pa n)
  let s2 := performBytes s1 pa (natToBytes n (atomicNew q.ty q.op old q.operand))
    (match sig with | some g => .merge g | none => .keep)
  .ok (old, countDie (l1Drop s2 r.core fun x => x = pa / 64 * 64) (homeDie s2 pa) 0x4B a.ctx)

/-- Remove an asynchronous operation and lower its counter. -/
def finishOp (s : State) (r : SwarmRef) (path id : Nat) : State :=
  opDone { s with asyncs := s.asyncs.filter fun x => x.id ≠ id, atomics := s.atomics.filter fun x => x.id ≠ id } r path id

/-- A list in an order drawn from the free values (R66, R168, R177). -/
def freeOrder {α : Type} (seed : Nat) : Nat → List α → List α
  | 0, l => l
  | n + 1, l =>
    match l with
    | [] => []
    | _ =>
      let k := Config.freeNat (seed + n) % l.length
      match l[k]? with
      | some x => x :: freeOrder seed n (l.eraseIdx k)
      | none => l
/-- Whether two threads name one address. -/
def collides {α : Type} (addr : α → Nat) (l : List α) : Bool := (l.map addr).eraseDups.length < l.length
/-- The requests of one instruction, in an order that is free when two threads name one word. -/
def anyOrder {α : Type} (s : State) (addr : α → Nat) (l : List α) : List α × State :=
  if collides addr l then (freeOrder s.fresh l.length l, { s with fresh := s.fresh + l.length }) else (l, s)

/-- Perform a RED's requests at their homes (R178, R301), in the order drawn when it executed. A data error leaves its word unchanged
and is deferred (R162). -/
def performRed (s : State) (x : AtomicWait) : Except Stop State := do
  let s1 ← x.reqs.foldlM (fun s q =>
    match atomicAtHome s x.ref q x.sig with
    | .ok (_, s1) => .ok s1
    | .error (.trap c d a) => .ok (deferTrap s x.ref ⟨c, d, x.pc, 2, a⟩)
    | .error e => .error e) s
  .ok (finishOp s1 x.ref 0 x.id)

/-! The on-chip physical map (R306 to R308). -/

/-- The workgroup of a launch tag on a core. -/
def mapTarget (s : State) (core tag : Nat) : Option Workgroup :=
  s.wgs.find? fun g => g.ref.core = core && !g.ended && (launch? s g.ref.seq).any fun l => l.tag = tag && l.state = .resident

/-- The element of a tile as a word of its row-major list. -/
def tileBytes (t : Tile) (o n : Nat) : List Byte := ((t.elems.drop (o / 4)).take (n / 4)).map (fun w => natToBytes 4 w.toNat) |>.flatten

/-- Offset of a physical address in a core's window of the map: past its end when the address lies in no such window (R306). -/
def windowOffset (s : State) (core pa : Nat) : Nat :=
  let base := s.ocm + 2 ^ 22 * core
  if base ≤ pa ∧ pa < base + 2 ^ 22 then pa - base else 2 ^ 22

/-- A core whose register banks are accessed: they wake, and their 512 cycles count anew (R139). -/
def Core.touch (lane ctx now : Nat) (banks : BitVec 8) (c : Core) : Core :=
  let asleep := c.drowsy.getD lane 0 &&& banks
  { c with
    drowsy := c.drowsy.modify lane fun m => m &&& ~~~banks
    bankUse := c.bankUse.modify lane fun l => l.mapIdx fun b t => if banks.getLsbD b then now else t
    counters := c.counters.map (countOn 0x05 ctx ((List.range 8).filter fun b => asleep.getLsbD b).length) }
/-- An access to register banks of a lane. -/
def touchBanks (s : State) (core lane ctx : Nat) (banks : BitVec 8) : State :=
  { s with cores :=
    if banks = 0 then s.cores
    else if s.cores.any fun c => c.idx = core then s.cores.map fun c => if c.idx = core then c.touch lane ctx s.cycle banks else c
    else s.cores ++ [(Core.reset core).touch lane ctx s.cycle banks] }
/-- The bank of a physical register. -/
def bankOf (p : Nat) : BitVec 8 := 1 <<< (p / 64)

/-- Banks of the physical registers, mirrors among them, that registers of a file are mapped to. -/
def regBanks (regs : List (Option VReg)) (ns : List Nat) : BitVec 8 :=
  ns.foldl (fun m n =>
    match regs.getD n none with
    | some x => m ||| bankOf x.phys ||| ((x.mirror.map bankOf).getD 0)
    | none => m) 0
/-- Register writes of a swarm: the banks they access, and those that leave 32 equal values, which carry the uniform tag (R37, R139, R384). -/
def noteWrites (s : State) (r : SwarmRef) (regs : List (Option VReg)) (lane : Nat) (writes : List (Nat × Mask × Bool)) : State :=
  let ctx := ctxOf s (wgOf r)
  let count (c : Core) : Core := { c with counters := c.counters.map (countOn 0x07 ctx (writes.filter fun x => x.2.2).length) }
  { s with cores := (touchBanks s r.core lane ctx (regBanks regs (writes.map Prod.fst))).cores.map fun c =>
      if c.idx = r.core then count c else c }

/-- A word of the map as it answers a read: its eight bytes, and the not-mapped bit (R139). -/
structure MapWord where
  bytes : List Byte
  notMapped : Bool
  deriving DecidableEq, Repr

/-- Read eight bytes through the map; none when the word is refused. A word whose data cannot be corrected is an error, a tile under
another operation waits (R139, R141, R150, R157, R308). -/
def mapRead (s : State) (core tag off : Nat) : Except Stop (Option MapWord × State) :=
  match mapTarget s core tag with
  | none => .ok (none, s)
  | some g =>
    if off < 0x100000 then
      if off + 8 ≤ g.scratch.size then do
        let b ← scratchSeen s g off 8
        .ok (some ⟨b, false⟩, s)
      else .ok (none, s)
    else if off < 0x180000 then
      match g.names.getD ((off - 0x100000) / 8192) none with
      | none => .ok (none, s)
      | some t =>
        if tileLocked s g.ref t [] false then .error .wait
        else if (tileAt s core t).lost || (tileAt s core t).bad then .error (.trap 0x0C 0x0004 ((off - 0x100000) / 8192))
        else
          let s1 := finishOn s core t
          .ok (some ⟨tileBytes (tileAt s1 core t) (off % 8192) 8, false⟩, s1)
    else if off < 0x1C0000 then
      let o := off - 0x180000
      if 1024 * g.obufGranules < o + 8 then .ok (none, s)
      else if eccBad g.obufBad o 8 then .error (.trap 0x0C 0x0003 0)
      else .ok (some ⟨memRead g.obuf o 8, false⟩, s)
    else if 0x200000 ≤ off ∧ off < 0x280000 then
      let o := off - 0x200000
      let k := o % 16384 / 128
      let t := o % 128 / 4
      match swarm? s ⟨g.ref.seq, g.ref.core, o / 16384, false⟩ with
      | none => .ok (none, s)
      | some w =>
        if w.rmax ≤ k then .ok (none, s)
        else
          match w.regs.getD k none with
          | none => .ok (some ⟨List.replicate 8 0, true⟩, s)
          | some x =>
            if w.regErrs.any fun e => e.1 = k && (e.2 = t || e.2 = t + 1) then .error (.trap 0x0C 0x0002 0)
            else .ok (some ⟨natToBytes 4 (natAt x.vals t) ++ natToBytes 4 (natAt x.vals (t + 1)), false⟩,
              touchBanks s core w.lane g.ctx (bankOf x.phys))
    else .ok (none, s)

/-- Write eight bytes through the map; none when the word is refused. A tile that is lost, or whose error this access finds, is an error
(R150). -/
def mapWrite (s : State) (core tag off : Nat) (b : List Byte) : Except Stop (Option State) :=
  let lo := BitVec.ofNat 32 (bytesToNat (b.take 4))
  let hi := BitVec.ofNat 32 (bytesToNat (b.drop 4))
  match mapTarget s core tag with
  | none => .ok none
  | some g =>
    if off < 0x100000 then
      if g.scratch.size < off + 8 ∨ (g.frozen && off < g.scratch.persist) then .ok none
      else .ok (some (scratchPut s g.ref off b))
    else if off < 0x180000 then
      match g.names.getD ((off - 0x100000) / 8192) none with
      | none => .ok none
      | some t =>
        if tileBusy s g.ref t [] true then .error .wait
        else if (tileAt s core t).lost || (tileAt s core t).bad then .error (.trap 0x0C 0x0004 ((off - 0x100000) / 8192))
        else
          let i := off % 8192 / 4
          .ok (some (modTile (finishOn s core t) core t fun x => { x with elems := (x.elems.set i lo).set (i + 1) hi }))
    else if off < 0x1C0000 then
      if 1024 * g.obufGranules < off - 0x180000 + 8 then .ok none
      else .ok (some (modWg s g.ref fun g => obufWrite g (off - 0x180000) b))
    else if 0x200000 ≤ off ∧ off < 0x280000 then
      let o := off - 0x200000
      let r : SwarmRef := ⟨g.ref.seq, g.ref.core, o / 16384, false⟩
      let k := o % 16384 / 128
      let t := o % 128 / 4
      match swarm? s r with
      | none => .ok none
      | some w =>
        if w.rmax ≤ k then .ok none
        else
          -- a clause that waits at a fetch has not begun as far as the window goes: it executes anew over the words written
          let s := if s.runs.any fun x => x.ref = r then squash s r else s
          match writeReg s (bareRun w) k ((1 <<< t) ||| (1 <<< (t + 1))) ((splat 0).set t lo |>.set (t + 1) hi) with
          | .error _ => .ok none
          | .ok x =>
            let p := ((x.work.regs.getD k none).map VReg.phys).getD 0
            .ok (some (touchBanks (modSwarm s r fun w => { w with
              regs := x.work.regs
              regErrs := w.regErrs.filter fun e => e.1 ≠ k || (e.2 ≠ t && e.2 ≠ t + 1 && (w.regs.getD k none).isSome) })
              core w.lane g.ctx (bankOf p)))
    else .ok none

/-- Read or write bytes of the map word by word; a refused word changes nothing and marks the transfer refused (R307). -/
def mapReadMany (s : State) (core tag off n : Nat) : Except Stop (List Byte × Bool × State) :=
  (List.range (n / 8)).foldlM (fun (st : List Byte × Bool × State) k => do
    let (w, s1) ← mapRead st.2.2 core tag (off + 8 * k)
    match w with
    | some x => .ok (st.1 ++ x.bytes, st.2.1, s1)
    | none => .ok (st.1 ++ List.replicate 8 0, true, s1)) ([], false, s)
def mapWriteMany (s : State) (core tag off : Nat) (bytes : List Byte) : Except Stop (State × Bool) :=
  (List.range (bytes.length / 8)).foldlM (fun (st : State × Bool) k => do
    match ← mapWrite st.1 core tag (off + 8 * k) ((bytes.drop (8 * k)).take 8) with
    | some s1 => .ok (s1, st.2)
    | none => .ok (st.1, true)) (s, false)

/-! Copies (R174, R175, R197). -/

/-- Write bytes of a copy into a scratchpad; bytes of the frozen persistent region are refused (R143). -/
def scratchCopy (s : State) (g : WgRef) (off : Nat) (bytes : List Byte) : State × Bool :=
  match wg? s g with
  | none => (s, false)
  | some w =>
    let cut := if w.frozen && off < w.scratch.persist then min bytes.length (w.scratch.persist - off) else 0
    (scratchPut s g (off + cut) (bytes.drop cut), cut ≠ 0)

/-- One 64-byte sector of a copy's source by global address: its bytes, none when a read is refused, or its data error. -/
def copySource (s : State) (a : Access) (va : Nat) : Except Stop (Option (List Byte) × State) := do
  let (m, pa) ← translate s a.die a.ctx va false
  match m.onChip with
  | some (core, tag) => do
    let (b, refused, s1) ← mapReadMany s core tag (windowOffset s core pa) 64
    .ok (if refused then none else some b, s1)
  | none => do
    let (b, sig, s1) ← engineRead s a va 64
    .ok (some b, modSwarm s1 a.ref fun w => receive w sig false 0)

/-- Bytes that may cross sectors, as a copy engine reads them; a refused word of the map is Protection (R175, R307). -/
def copyRead (s : State) (a : Access) (va n : Nat) : Except Stop (List Byte × State) :=
  (sectorsTouched va n).foldlM (fun (st : List Byte × State) b => do
    let lo := if b < va then va else b
    let hi := if va + n < b + 64 then va + n else b + 64
    match ← copySource st.2 a b with
    | (some d, s1) => .ok (st.1 ++ (d.drop (lo - b)).take (hi - lo), s1)
    | (none, _) => .error (.trap 7 0 lo)) ([], s)

/-- Sectors of a transfer of len bytes. -/
def sectorsOf (len : Nat) : List Nat := (List.range (len / 64)).map fun k => 64 * k

/-- Whose structures an address of a copy lies in: the workgroup of a window of the map, named by a swarm of it, else the copier's own. -/
def siteOf (s : State) (a : Access) (va : Nat) (write : Bool) : SwarmRef :=
  match translate s a.die a.ctx va write with
  | .ok (m, _) => ((m.onChip.bind fun x => mapTarget s x.1 x.2).map fun g => (⟨g.ref.seq, g.ref.core, 0, false⟩ : SwarmRef)).getD a.ref
  | .error _ => a.ref
/-- An uncorrectable word met at a site has been read for a swarm: it is counted where it lies, and one of a persistent region marks the
reader's task (R157, R158). -/
def noteSite (s : State) (r site : SwarmRef) (e : Stop) : State :=
  match e with
  | .trap 0x0C d a => noteUncorrectable s site d a
  | .badScratch p => noteError (if p then markNonReplayable s r else s) site.core 6 (ctxOf s (wgOf site)) false
  | _ => s
/-- A copy's sector by sector work: a sector whose data fail, or that is refused, is left out and its trap deferred. The global side of a
copy may lie in another core's window, where an error counts. -/
def perSector (s : State) (r : SwarmRef) (pc : DWord) (len : Nat) (site : Nat → SwarmRef) (f : State → Nat → Except Stop (State × Bool)) :
    Except Stop State :=
  (sectorsOf len).foldlM (fun s o =>
    match f s o with
    | .ok (s1, refused) => .ok (if refused then deferTrap s1 r ⟨7, 0, pc, 2, 0⟩ else s1)
    | .error (.trap c d a) => .ok (deferTrap (noteSite s r (site o) (.trap c d a)) r ⟨c, d, pc, 2, a⟩)
    | .error (.badScratch p) => .ok (deferTrap (noteSite s r (site o) (.badScratch p)) r ⟨0x0C, 0x0006, pc, 2, 0⟩)
    | .error e => .error e) s

/-- No clause of a swarm is in flight: its registers stand between two clauses (R308). -/
def betweenClauses (s : State) (r : SwarmRef) : Bool :=
  !(s.run.any fun x => x.ref = r) && !(s.runs.any fun x => x.ref = r && match x.phase with | .fetching .. => false | _ => true)
/-- A map address whose register window must wait for its swarm's clause boundary (R308). -/
def windowBusy (s : State) (core tag off : Nat) : Bool :=
  0x200000 ≤ off && off < 0x280000 && (mapTarget s core tag).any fun g =>
    !betweenClauses s ⟨g.ref.seq, g.ref.core, (off - 0x200000) / 16384, false⟩
/-- Whether a copy meets such a window. -/
def copyBusy (s : State) (a : Access) (k : AsyncKind) : Bool :=
  let at_ (va len : Nat) (write : Bool) : Bool := (sectorsOf len).any fun o =>
    match translate s a.die a.ctx (va + o) write with
    | .ok (m, pa) => m.onChip.any fun x => windowBusy s x.1 x.2 (windowOffset s x.1 pa)
    | .error _ => false
  match k with
  | .cpin va _ len => at_ va len false
  | .cpout va _ len => at_ va len true
  | .cpob .. | .flush .. => false

/-- Bytes of a workgroup's scratchpad as a copy engine reads them. -/
def scratchOf (s : State) (g : WgRef) (off n : Nat) : Except Stop (List Byte) :=
  match wg? s g with
  | some w => scratchSeen s w off n
  | none => .ok (List.replicate n 0)

/-- One 64-byte sector of a CPOB's source: of the scratchpad, or a global one, which may not lie on a page of the on-chip kind (R197,
R306). -/
def obufSource (s : State) (a : Access) (g : WgRef) (scratch : Bool) (src : Nat) : Except Stop (List Byte × State) :=
  if scratch then (scratchOf s g src 64).map fun b => (b, s)
  else do
    let (b, sig, s1) ← engineRead s a src 64
    .ok (b, modSwarm s1 a.ref fun w => receive w sig false 0)

/-- Where a sector of a CPOUT meets an error: in its own scratchpad, which is read first, else at its destination. -/
def outSite (s : State) (a : Access) (g : WgRef) (va spad o : Nat) : SwarmRef :=
  match scratchOf s g (spad + o) 64 with
  | .ok _ => siteOf s a (va + o) true
  | .error _ => a.ref

/-- Perform an asynchronous operation to its end and lower its counter (R175, R184, R197). A held or missing page stops it whole. DESIGN
CHOICE: R228 makes a copy single-copy atomic per word only and R175 gives its bytes no order; here it is performed whole, in rising
address order, in one step (log 82). -/
def performAsync (s : State) (x : Async) : Except Stop State := do
  let a := accessOf s x.ref
  let g := wgOf x.ref
  (if copyBusy s a x.kind then Except.error Stop.wait else .ok ())
  let s1 ← match x.kind with
    | .cpin va spad len => perSector s x.ref x.pc len (fun o => siteOf s a (va + o) false) fun s o => do
        let (b, s1) ← copySource s a (va + o)
        match b with
        | none => .ok (s1, true)
        | some b => .ok (scratchCopy s1 g (spad + o) b)
    | .cpout va spad len => perSector s x.ref x.pc len (outSite s a g va spad) fun s o => do
        let b ← scratchOf s g (spad + o) 64
        let (m, pa) ← translate s a.die a.ctx (va + o) true
        match m.onChip with
        | some (core, tag) => mapWriteMany s core tag (windowOffset s core pa) b
        | none => do
          let s1 ← directWrite s a (va + o) b .clear
          .ok (s1, false)
    | .cpob _ scratch src dst len => perSector s x.ref x.pc len (fun _ => x.ref) fun s o => do
        let (b, s1) ← obufSource s a g scratch (src + o)
        .ok (modWg s1 g fun w => obufWrite w (dst + o) b, false)
    | .flush va len =>
        (List.range (len / 256)).foldlM (fun s k =>
          match translate s a.die a.ctx (va + 256 * k) false with
          | .ok (m, pa) =>
            if m.onChip.isSome || !s.dirty.contains (pa / 256) then .ok s
            else .ok (writeBackLine s (pa / 256))
          | .error (.held p w) => .error (.held p w)
          | .error _ => .ok s)
          -- what the core holds of the range's sectors, under any name, drains first (R234)
          (drainWhere s x.ref.core fun e => (List.range (len / 256)).any fun k =>
            match translate s a.die a.ctx (va + 256 * k) false with
            | .ok (_, pa) => e.pa / 256 = pa / 256
            | .error _ => false)
  .ok (finishOp s1 x.ref x.path x.id)

/-- The REDs of swarms that a test names are performed, each swarm's in issue order (R301). -/
def performReds (s : State) (p : SwarmRef → Bool) : Except Stop State := (s.atomics.filter fun x => p x.ref).foldlM performRed s

/-- The physical address an atomic request names, as its swarm's die translates it. -/
def requestPa (s : State) (x : AtomicWait) (q : AtomicReq) : Option Nat :=
  match translate s (dieOf x.ref.core) (ctxOf s (wgOf x.ref)) q.va true with
  | .ok (_, pa) => some pa
  | .error _ => none
/-- Before a swarm of a core accesses a sector on its LDST path, the REDs that swarms of the core have sent to it are performed: none of
their swarms sees an older value, and no later access of a thread overtakes its RED (R233, R234). -/
def settleReds (s : State) (core pa : Nat) : Except Stop State :=
  let senders := (s.atomics.filter fun x => x.ref.core = core && x.reqs.any fun q => (requestPa s x q).any fun a => a / 64 = pa / 64).map
    AtomicWait.ref
  if senders.isEmpty then .ok s else performReds s senders.contains

/-- Whether a request of an atomic's names a word of the home slice of an address. -/
def sameHome (s : State) (x : AtomicWait) (pa : Nat) : Bool :=
  x.reqs.any fun q => (requestPa s x q).any fun a => homeDie s a = homeDie s pa && homeSlice a = homeSlice pa
/-- The REDs of a swarm that name a word of one home are performed in issue order, with those between them (R301). -/
def performHomeReds (s : State) (r : SwarmRef) (pa : Nat) : Except Stop State :=
  let mine := s.atomics.filter fun x => x.ref = r
  (mine.reverse.dropWhile fun x => !sameHome s x pa).reverse.foldlM performRed s

/-- Copies of a swarm on its path, in issue order. -/
def performCopies (s : State) (r : SwarmRef) : Except Stop State :=
  (s.asyncs.filter fun x => x.ref = r && match x.kind with | .cpin .. | .cpout .. => true | _ => false).foldlM performAsync s

/-- CPOBs of a swarm that have still to read bytes of a range, of memory or of the scratchpad, are performed, in issue order: a later write
of the swarm on the MATRIX path does not reach them (R230, R233). -/
def settleCpobs (s : State) (r : SwarmRef) (scratch : Bool) (at_ n : Nat) : Except Stop State :=
  (s.asyncs.filter fun x => x.ref = r && match x.kind with
    | .cpob _ sc src _ len => sc = scratch && src < at_ + n && at_ < src + len
    | _ => false).foldlM performAsync s

/-- Everything of a swarm on the release paths that a release orders before itself is performed: REDs and copies at every scope, and its
buffered stores where the release leaves the core (R170, R230, R236). -/
def settleSwarm (s : State) (r : SwarmRef) (drain : Bool) : Except Stop State := do
  let s1 ← performReds (if drain then drainSwarm s r else s) (· = r)
  performCopies s1 r

/-- Steps 1 and 2 of R170 at the scopes given: everything earlier performed, and the signature formed. A held page makes the release
wait. -/
def releaseAt (s : State) (r : SwarmRef) (scopes : List Nat) : Except Stop (BitVec 512 × State) :=
  if scopes.isEmpty then .ok (0, s)
  else
    match settleSwarm s r (outer scopes) with
    | .ok s1 => .ok (takeRel s1 r scopes)
    | .error _ => .error .wait

end Sys2Proof.Machine
end

