-- ==== Sys2Proof/Machine/Fabric.lean ====
section
/-! DEFINITION. The fabric engine's shared operations: packets and their sending, accesses made for another module, transfers,
collectives and their combination, remote cell requests, and the reel (R396 to R412, R417 to R419). -/

namespace Sys2Proof.Machine

/-- Bytes padded to whole sectors. -/
def padSectors (b : List Byte) : List Byte := b ++ List.replicate ((64 - b.length % 64) % 64) 0

/-- A little-endian field of bytes. -/
def descWord (d : List Byte) (o n : Nat) : Nat := bytesToNat ((d.drop o).take n)

/-- The rank this module holds in a membership (R18, R398). -/
def rankIn (m : Membership) (own : Option Nat) : Option Nat := own.bind fun n => m.mods.findIdx? fun x => x = n
def ownRank (s : State) : Option Nat := rankIn s.fabric.current s.fabric.modNum
/-- RANK as GETSR reads it. -/
def rankReg (s : State) : Nat := (ownRank s).getD 0xFFFF

def modFabric (s : State) (f : Fabric → Fabric) : State := { s with fabric := f s.fabric }

/-- The event of a packet's arrival, by OP (R397). -/
def packetEvent (p : Packet) (port : Nat) : Option Instr :=
  match p.op with
  | 0x01 => some (.rgetRequest p)
  | 0x02 => some (.rgetData p)
  | 0x03 => some (.rputData p)
  | 0x04 => some (.acknowledgement p)
  | 0x06 => some (.contribution p)
  | 0x07 => some (.switchResult p)
  | 0x08 => some (.cellRequest p)
  | 0x09 => some (.cellReply p)
  | 0x0A => some (.heartbeat port p.src)
  | 0x0B => some (.fenceMarker port p.src p.gen)
  | 0x0C => some (.killNotice p.src p.jobtag)
  | 0x0D => some (.killAck p.src p.jobtag)
  | 0x0E => some (.stripeRequest p)
  | 0x0F => some (.stripeData p)
  | _ => none

/-- Ports that are up. -/
def upPorts (s : State) : List Nat := (s.fabric.ports.zipIdx.filter fun p => p.1.up).map Prod.snd
/-- The planes a packet to a module may take: those whose port is up, but for those down for that peer (R395, R414). -/
def planesTo (s : State) (dst : Nat) : List Nat :=
  (upPorts s).filter fun k => !(s.fabric.peers.any fun p => p.num = dst && p.down.contains k)
/-- The plane the engine chooses for a packet, freely among those (R395); 36 when there is none. -/
def choosePlane (s : State) (dst : Nat) : Nat :=
  let l := planesTo s dst
  l.getD (Config.freeNat s.fresh % l.length) 36
/-- Send a packet on a plane, where it waits while the plane's port is down (R408); one to this module arrives next. -/
def sendOn (s : State) (plane : Nat) (p : Packet) : State :=
  if p.dst = ownMod s then
    (match packetEvent p 0 with
      | some e => { s with agenda := s.agenda ++ [.event e] }
      | none => s)
  else if (s.fabric.ports[plane]?).any Port.up then modFabric s fun f => { f with outbox := f.outbox ++ [(plane, p)] }
  else modFabric s fun f => { f with planeWaits := f.planeWaits ++ [(plane, p)] }
/-- Send a packet on a plane of the engine's choice. -/
def send (s : State) (p : Packet) : State := sendOn s (choosePlane s p.dst) p

/-- A packet of this module in the current generation. -/
def newPacket (s : State) (op dst jobtag cid addr : Nat) : Packet :=
  ⟨s.fabric.current.gen, ownMod s, rankReg s, dst, op, false, false, jobtag, 0, cid, addr, [], []⟩

/-- JOBTAG of the fabric owner. -/
def jobTag (s : State) : Nat := (s.fabric.owner.map Prod.snd).getD 0

/-! Accesses of the fabric engine, the dispenser and firmware: any die's translation serves them. -/

/-- Translate for an engine that stands on no core. -/
def translateAny (s : State) (ctx va : Nat) (write : Bool) : Except Stop (Mapping × Nat) :=
  match [1, 2, 3].find? fun d => (tlbFind s d ctx va).isSome with
  | some d => if (tlbFind s 0 ctx va).isSome then translate s 0 ctx va write else translate s d ctx va write
  | none => translate s 0 ctx va write

/-- Read bytes at their homes for a context. -/
def readAny (s : State) (ctx va n : Nat) : Except Stop (List Byte) :=
  (sectorsTouched va n).foldlM (fun acc b => do
    let lo := if b < va then va else b
    let hi := if va + n < b + 64 then va + n else b + 64
    let (m, pa) ← translateAny s ctx lo false
    if m.onChip.isSome then .error (.trap 7 0 lo)
    else do
      let d ← sectorData s pa lo
      .ok (acc ++ (d.drop (pa % 64)).take (hi - lo))) []

/-- The workgroup of a window of the map, as a swarm of it. -/
def mapSite (s : State) (core tag : Nat) : SwarmRef :=
  ((mapTarget s core tag).map fun g => (⟨g.ref.seq, g.ref.core, 0, false⟩ : SwarmRef)).getD hubRef
/-- Read bytes for the fabric engine: at their homes, or through the on-chip physical map (R306). None when the map refuses a word or one
cannot be corrected, which is counted (R157). -/
def fabricRead (s : State) (ctx va n : Nat) : Except Stop (Option (List Byte) × State) :=
  (sectorsTouched va n).foldlM (fun (st : Option (List Byte) × State) b => do
    let lo := if b < va then va else b
    let hi := if va + n < b + 64 then va + n else b + 64
    let (m, pa) ← translateAny st.2 ctx lo false
    let cut (d : List Byte) : Option (List Byte) := st.1.map fun x => x ++ (d.drop (pa % 64)).take (hi - lo)
    match m.onChip with
    | some (core, tag) =>
      match mapReadMany st.2 core tag (windowOffset st.2 core (pa / 64 * 64)) 64 with
      | .ok (d, refused, s1) => .ok (if refused then none else cut d, s1)
      | .error .wait => .error .wait
      | .error e => .ok (none, noteSite st.2 hubRef (mapSite st.2 core tag) e)
    | none => do
      let d ← sectorData st.2 pa lo
      .ok (cut d, st.2)) (some [], s)

/-- Write bytes at their homes for a context. -/
def writeAny (s : State) (ctx va : Nat) (bytes : List Byte) (rule : SigRule) : Except Stop State :=
  (sectorPieces va bytes).foldlM (fun s p => do
    let (m, pa) ← translateAny s ctx (if p.1 < va then va else p.1) true
    if m.onChip.isSome then .error (.trap 7 0 va)
    else .ok (performWrite s (pa / 64 * 64) p.2.1 p.2.2 rule)) s

/-- A word of a window with the bytes of a mask laid over it. -/
def windowWord (s : State) (core tag off : Nat) (data : List Byte) (mask : BitVec 8) : Except Stop State := do
  let (old, s1) ← if mask = BitVec.allOnes 8 then Except.ok (some ⟨data, false⟩, s) else mapRead s core tag off
  match old with
  | none => .error (.trap 7 0 off)
  | some w =>
    let bytes := (List.range 8).map fun k => if mask.getLsbD k then data.getD k 0 else w.bytes.getD k 0
    match ← mapWrite s1 core tag off bytes with
    | some s2 => .ok s2
    | none => .error (.trap 7 0 off)
/-- Write bytes for the fabric engine's own ends: at their homes, or through the on-chip physical map word by word (R306, R307). -/
def fabricWrite (s : State) (ctx va : Nat) (bytes : List Byte) : Except Stop State :=
  (sectorPieces va bytes).foldlM (fun s p => do
    let (m, pa) ← translateAny s ctx (if p.1 < va then va else p.1) true
    match m.onChip with
    | none => .ok (performWrite s (pa / 64 * 64) p.2.1 p.2.2 .clear)
    | some (core, tag) =>
      (List.range 8).foldlM (fun s k =>
        let mask := p.2.2.extractLsb' (8 * k) 8
        if mask = 0 then .ok s
        else windowWord s core tag (windowOffset s core (pa / 64 * 64) + 8 * k) ((p.2.1.drop (8 * k)).take 8) mask) s) s

/-! Transfers (R403 to R405). -/

/-- A transfer's packets: offsets of at most 64 sectors each. -/
def packetOffsets (len : Nat) : List Nat := (List.range ((len + 4095) / 4096)).map fun k => 4096 * k

/-- Send a transfer's requests or data. Every packet of one transfer to one target takes one plane, so that they arrive in order (R395); the
last one of a release says so, by IDENT (R403, R405; log 20). -/
def sendPackets (s : State) (x : Transfer) (data : List Byte) : State :=
  let t := x.req
  let s1 := modFabric s fun f => { f with transfers := f.transfers.map fun y =>
    if y.id = x.id then { y with started := true, sentAt := s.clkns } else y }
  t.targets.foldl (fun s m =>
    let plane := choosePlane s m
    (packetOffsets t.len).foldl (fun s o =>
      let n := min 4096 (t.len - o)
      let p := newPacket s (if t.get then 1 else 3) m (jobTag s) x.id (t.remote + o)
      sendOn s plane { p with
        last := t.len ≤ o + 4096
        ident := t.rel && decide (t.len ≤ o + 4096)
        -- a request says how many bytes it asks for, and their offset within the transfer
        payload := if t.get then padSectors (natToBytes 4 n ++ natToBytes 8 o) else (data.drop o).take n }) s) s1

/-- A transfer is over: the counter falls, and a failure is deferred (R404). -/
def closeTransfer (s : State) (t : Transfer) (fail : Option (Nat × Nat)) : State :=
  let s1 := opDone (modFabric s fun f => { f with transfers := f.transfers.filter fun x => x.id ≠ t.id }) t.ref 4 t.id
  match fail with
  | none => s1
  | some (c, d) => deferTrap s1 t.ref ⟨c, d, t.pc, 2, 0⟩
/-- Start a transfer's packets; RPUT and MCAST read the scratchpad now, and a word that cannot be corrected ends the transfer (R158). -/
def sendTransfer (s : State) (x : Transfer) : State :=
  match if x.req.get then .ok [] else scratchOf s (wgOf x.ref) x.req.spad x.req.len with
  | .ok data => sendPackets s x data
  | .error (.badScratch p) => closeTransfer (noteScratch s x.ref p) x (some (0x0C, 0x0006))
  | .error _ => s

/-- Two stretches of n and m bytes overlap. -/
def overlaps (a n b m : Nat) : Bool := a < b + m && b < a + n
/-- A transfer is to follow an earlier one of its swarm: they meet in bytes of the scratchpad, of which one is written and which an RPUT has
read when it has started, or in bytes of a common target, of which one is written (R230, R233). -/
def follows (x y : Transfer) : Bool :=
  ((y.req.get || (x.req.get && !y.started)) && overlaps x.req.spad x.req.len y.req.spad y.req.len) ||
  (!(x.req.get && y.req.get) && overlaps x.req.remote x.req.len y.req.remote y.req.len && x.req.targets.any fun m => y.req.targets.contains m)
/-- Whether a transfer waits for an earlier one of its swarm: in the same bytes, or, a release, for an RPUT or MCAST to its module (R405). -/
def mustWait (x : Transfer) (earlier : List Transfer) : Bool :=
  earlier.any fun y => y.ref = x.ref && y.id < x.id &&
    (follows x y || (x.req.rel && !y.req.get && x.req.targets.any fun m => y.req.targets.contains m))

/-- Send what waited for nothing any more. -/
def startPending (s : State) : State :=
  s.fabric.transfers.foldl (fun s x => if x.started || mustWait x s.fabric.transfers then s else sendTransfer s x) s

/-- Start a transfer (R403). -/
def startTransfer (s : State) (r : SwarmRef) (pc : DWord) (id : Nat) (t : TransferReq) : State :=
  startPending (modFabric s fun f =>
    { f with transfers := f.transfers ++ [⟨id, r, pc, t, t.targets, t.len, s.clkns, false, none⟩] })

/-- A transfer ends, and a release that waited for it goes out (R405). -/
def endTransfer (s : State) (id : Nat) (fail : Option (Nat × Nat)) : State :=
  match s.fabric.transfers.find? fun t => t.id = id with
  | none => s
  | some t => startPending (closeTransfer s t fail)

/-! Cell requests to other modules (R319, R320). -/

/-- The payload by which a request travels to another module: kind, scope, incarnation, value, identity, signature (log 20). -/
def cellPayload : CellReq → List Byte
  | .propose inc value ident sig scope =>
    natToBytes 1 0 ++ natToBytes 1 scope ++ natToBytes 2 inc ++ natToBytes 4 sig.isSome.toNat ++ (value ++ List.replicate 56 0).take 56 ++
      natToBytes 16 ident.toNat ++ List.replicate 48 0 ++ natToBytes 64 (sig.getD 0).toNat
  | .docrd inc scope => padSectors (natToBytes 1 1 ++ natToBytes 1 scope ++ natToBytes 2 inc)
  | .recycle inc ident =>
    padSectors (natToBytes 1 2 ++ natToBytes 1 0 ++ natToBytes 2 inc ++ List.replicate 60 0 ++ natToBytes 16 ident.toNat)
/-- The request a payload carries. -/
def cellOfPayload (b : List Byte) : CellReq :=
  let inc := descWord b 2 2
  match descWord b 0 1 with
  | 0 => .propose inc ((b.drop 8).take 56) (BitVec.ofNat 128 (descWord b 64 16))
      (if descWord b 4 4 = 0 then none else some (BitVec.ofNat 512 (descWord b 128 64))) (descWord b 1 1)
  | 1 => .docrd inc (descWord b 1 1)
  | _ => .recycle inc (BitVec.ofNat 128 (descWord b 64 16))

/-- Whether the dispenser compares a request with the twin's before it is sent (R319). -/
def comparedRequest (s : State) (r : SwarmRef) : Bool :=
  inTask s (wgOf r) && (launch? s r.seq).any fun l => l.desc.redund

/-- Send a request to another module, one packet for those who wait for its reply: operation, swarm, thread, clause, address. -/
def sendCell (s : State) (home pa : Nat) (q : CellReq) (who : List (Nat × SwarmRef × Nat × DWord × Nat)) : State :=
  let wire := s.nextId
  let recycle := match q with | .recycle .. => true | _ => false
  let s1 := modFabric { s with nextId := wire + 1 } fun f => { f with
    remoteCells := f.remoteCells ++ who.map fun w => ⟨w.1, wire, w.2.1, w.2.2.1, w.2.2.2.1, w.2.2.2.2, pa, home, s.clkns, recycle⟩ }
  send s1 { newPacket s1 0x08 home (jobTag s1) wire pa with payload := cellPayload q }

/-- A request of a swarm to a cell is still to be performed: its later ones to the cell wait for it (R318). -/
def cellBusy (s : State) (r : SwarmRef) (pa : Nat) (home : Option Nat) : Bool :=
  (s.cellWaits.any fun c => c.ref = some r && c.pa = pa && c.home = home) ||
    s.fabric.remoteCells.any fun c => c.ref = r && c.pa = pa && some c.module = home

/-- Some request of a RECYCLE is still to be performed. -/
def recyclePending (s : State) (id : Nat) : Bool :=
  s.cellWaits.any (fun c => c.id = id) || s.fabric.remoteCells.any fun c => c.id = id

/-! Collectives (R406 to R412). -/

/-! Fields of a collective descriptor (R406). -/

def descSrc (d : List Byte) : Nat := descWord d 0 8
def descDst (d : List Byte) : Nat := descWord d 8 8
def descCid (d : List Byte) : Nat := descWord d 16 4
def descElems (d : List Byte) : Nat := descWord d 20 4
def descChel (d : List Byte) : Nat := descWord d 24 2
def descDim (d : List Byte) : Nat := descWord d 26 2
/-- Bytes of an element, and chunks of the collective. -/
def elemBytes (op : Nat) (d : List Byte) : Nat := if op = 3 then 4 * (descDim d + 2) else 4
def chunkCount (d : List Byte) : Nat := (descElems d + descChel d - 1) / descChel d
/-- The limits of R406. -/
def descOk (op : Nat) (d : List Byte) : Bool :=
  descSrc d % 64 = 0 && descDst d % 64 = 0 && descCid d ≠ 0 && descElems d ≠ 0 && descChel d ≠ 0 &&
  descChel d * elemBytes op d ≤ 4096 && (if op = 3 then 1 ≤ descDim d && descDim d ≤ 1022 else descDim d = 0) &&
  chunkCount d ≤ 65536 && (d.drop 32).all (· = 0)
/-- Byte offset and length of a chunk. -/
def chunkAt (op : Nat) (d : List Byte) (k : Nat) : Nat × Nat :=
  let e := elemBytes op d
  (k * descChel d * e, (min ((k + 1) * descChel d) (descElems d) - k * descChel d) * e)
/-- Bytes of the collective area an open collective needs (R410). -/
def areaNeed (op : Nat) (sw : Bool) (d : List Byte) (nr : Nat) : Nat :=
  let w := if sw then 0 else if op = 0 then 48 else if op = 3 then nr * elemBytes op d else 4
  chunkCount d * (32 + descChel d * w)

/-- 32-bit words of bytes. -/
def wordsOf (b : List Byte) : List Nat := (List.range (b.length / 4)).map fun k => bytesToNat ((b.drop (4 * k)).take 4)
def bytesOf (ws : List Nat) : List Byte := (ws.map (natToBytes 4)).flatten

/-- The identity element (R407). -/
def identityElem (op : Nat) (ty : Ty) (dim : Nat) : List Nat :=
  match op with
  | 0 => [0x80000000]
  | 1 => [if ty = .f32 then 0xFF800000 else wrapBits 32 (intMin ty.signed 32)]
  | 2 => [if ty = .f32 then 0x7F800000 else wrapBits 32 (intMax ty.signed 32)]
  | _ => 0xFF800000 :: List.replicate (dim + 1) 0

/-- Adjacent pairs combined, one level (R64). -/
def pairLevel {α : Type} (f : α → α → α) : List α → List α
  | x :: y :: rest => f x y :: pairLevel f rest
  | xs => xs
/-- The index tree over ranks. -/
def pairTree {α : Type} (f : α → α → α) : Nat → List α → Option α
  | 0, xs => xs.head?
  | n + 1, xs => match xs with | [] => none | [x] => some x | _ => pairTree f n (pairLevel f xs)

/-- One element's result from the contributions in rank order (R407). -/
def combineElem (op : Nat) (ty : Ty) (es : List (List Nat)) : List Nat :=
  match op with
  | 0 => [((es.foldl (fun x e => (x.addTerm (e.headD 0)).1) Xs320.empty).read).bits]
  | 3 => ((pairTree smx es.length es).getD []).map fun w => if (fmtF32.decode false w).isNan then fmtF32.canonical else w
  | _ =>
    let mx := op = 1
    let f (a b : Nat) : Nat :=
      if ty = .f32 then (fmtF32.minMax FCtx.engine mx a b).bits
      else if decide (readInt ty.signed 32 a < readInt ty.signed 32 b) = mx then b else a
    match es.map fun e => e.headD 0 with
    | [] => []
    -- the first term meets itself, so that a lone NaN is canonical too (R44)
    | x :: xs => [(x :: xs).foldl f x]

/-- A chunk's result bytes from its contributions in rank order. -/
def combineChunk (op : Nat) (ty : Ty) (e len : Nat) (parts : List (List Byte)) : List Byte :=
  ((List.range (len / e)).map fun k => bytesOf (combineElem op ty (parts.map fun b => wordsOf ((b.drop (k * e)).take e)))).flatten

/-- The open collective of a CID. -/
def collective? (s : State) (cid : Nat) : Option Collective := s.fabric.collectives.find? fun c => c.cid = cid
def modCollective (s : State) (cid : Nat) (f : Collective → Collective) : State :=
  modFabric s fun x => { x with collectives := x.collectives.map fun c => if c.cid = cid then f c else c }

/-- The STATUS words that wait are written where they can be; one whose page is missing asks for it (R411, R412). -/
def writeStatuses (s : State) : State :=
  s.fabric.statuses.foldl (fun s x =>
    let gone (s : State) : State := modFabric s fun f => { f with statuses := f.statuses.erase x }
    match fabricWrite s x.1 x.2.1 (natToBytes 4 x.2.2) with
    | .ok s1 => gone s1
    | .error (.trap ..) => gone s
    | .error (.miss va write) => requestPage s 0 x.1 (pageOf va) write
    | .error _ => s) s
/-- Close a collective with a status: STATUS is written where it can be, and its CID remembered among the last 4,096 (R409, R412). -/
def closeCollective (s : State) (c : Collective) (status : Nat) : Except Stop State := do
  let s1 ← (match fabricWrite s c.ctx (c.descAddr + 28) (natToBytes 4 status) with
    | .error (.trap ..) => .ok s
    | x => x)
  .ok (modFabric s1 fun f => { f with
    collectives := f.collectives.filter fun x => x.cid ≠ c.cid
    closed := ({ c with chunks := [], creds := [] } :: f.closed).take 4096 })

/-- CREDs whose chunks all have their results complete; a full collective closes (R412). -/
def settleCollective (s : State) (cid : Nat) : Except Stop State :=
  match collective? s cid with
  | none => .ok s
  | some c =>
    let ready (k : Nat) : Bool := (c.chunks.getD k ⟨[], false, false, 0⟩).done || (c.chunks.getD k ⟨[], false, false, 0⟩).failed
    let finished := c.creds.filter fun x => (List.range x.2.2.2.2.1).all fun j => ready (x.2.2.2.1 + j)
    let s1 := finished.foldl (fun s x =>
      let s1 := opDone s x.2.1 4 x.1
      if (List.range x.2.2.2.2.1).any fun j => (c.chunks.getD (x.2.2.2.1 + j) ⟨[], false, false, 0⟩).failed then
        deferTrap s1 x.2.1 ⟨0x0B, 0, x.2.2.1, 2, 0⟩ else s1) s
    let c1 := { c with creds := c.creds.filter fun x => !finished.contains x }
    let s2 := modCollective s1 cid fun _ => c1
    if (List.range c.chunks.length).all ready then
      let failed := c.chunks.any Chunk.failed
      (closeCollective s2 c1 (if failed then 3 else 1)).map fun s3 => countFabric s3 0x86 c.ctx
    else .ok s2

/-- Write a chunk's result at DST (R408, R412). -/
def writeChunk (s : State) (c : Collective) (k : Nat) (bytes : List Byte) : Except Stop State := do
  let (o, len) := chunkAt c.op c.desc k
  let s1 ← fabricWrite s c.ctx (descDst c.desc + o) (bytes.take len)
  let mine := c.creds.filter fun x => x.2.2.2.1 ≤ k && k < x.2.2.2.1 + x.2.2.2.2.1
  let s1 := mine.foldl (fun s x => markRange s x.2.1 (descDst c.desc + o) len) s1
  settleCollective (modCollective s1 c.cid fun c =>
    { c with chunks := c.chunks.modify k fun x => { x with parts := [], done := true } }) c.cid

/-- Accept a contribution by its key, of a rank of CURRENT (R409); the last one of a chunk completes it. -/
def acceptPart (s : State) (cid rank k : Nat) (bytes : List Byte) : Except Stop State :=
  match collective? s cid with
  | none => .ok s
  | some c =>
    let ch := c.chunks.getD k ⟨[], true, false, 0⟩
    let nr := s.fabric.current.mods.length
    if ch.done || ch.failed || c.sw || nr ≤ rank || ch.parts.any fun p => p.1 = rank then .ok s
    else
      let parts := ch.parts ++ [(rank, bytes)]
      if parts.length < nr then
        .ok (modCollective s cid fun c => { c with chunks := c.chunks.modify k fun x => { x with parts } })
      else
        let inOrder := (List.range nr).filterMap fun q => (parts.find? fun p => p.1 = q).map Prod.snd
        writeChunk s c k (combineChunk c.op c.ty (elemBytes c.op c.desc) (chunkAt c.op c.desc k).2 inOrder)

/-- This rank's data of a chunk: the identity, or SRC, read as a copy engine reads for the swarm that contributes (R175, R412). -/
def contribution (s : State) (r : Option SwarmRef) (c : Collective) (ident : Bool) (k : Nat) : Except Stop (List Byte × State) := do
  let (o, len) := chunkAt c.op c.desc k
  let e := elemBytes c.op c.desc
  if ident then .ok ((List.replicate (len / e) (bytesOf (identityElem c.op c.ty (descDim c.desc)))).flatten, s)
  else
    match r with
    | some r => copyRead s (accessOf s r) (descSrc c.desc + o) len
    | none => do
      let (b, s1) ← fabricRead s c.ctx (descSrc c.desc + o) len
      match b with
      | some b => .ok (b, s1)
      | none => .error (.trap 7 0 (descSrc c.desc + o))

/-- Send the contribution of one chunk to modules, or to the switch (R408). -/
def sendPart (r : Option SwarmRef) (c : Collective) (ident : Bool) (dsts : List Nat) (s : State) (k : Nat) : Except Stop State := do
  let (b, s1) ← contribution s r c ident k
  .ok (dsts.foldl (fun s d =>
    sendOn s (if d = 0xFFFF then (c.cid + k) % 36 else choosePlane s d)
      { newPacket s 0x06 d (jobTag s) c.cid 0 with ident, chunk := k, payload := padSectors b }) s1)

/-- Bytes of the collective area in use: by the open collectives, and by contributions kept early (R409, R410). -/
def areaUsed (s : State) : Nat :=
  (s.fabric.collectives.map fun c => areaNeed c.op c.sw c.desc s.fabric.current.mods.length).sum +
    (s.fabric.early.map fun p => 32 + p.payload.length).sum
/-- Whether the area has room for the collectives that a clause's CREDs would open (R410). -/
def areaFits (s : State) (qs : List CredReq) : Bool :=
  areaUsed s + (qs.map fun q => areaNeed q.op q.sw q.body s.fabric.current.mods.length).sum ≤ (s.fabric.area.map Prod.snd).getD 0

/-- The lines that a CRED's results and STATUS will be written to are marked for its swarm's releases (R242). -/
def markCred (s : State) (r : SwarmRef) (q : CredReq) : State :=
  let s1 := (List.range q.count).foldl (fun s j =>
    let (o, len) := chunkAt q.op q.body (q.first + j)
    markRange s r (descDst q.body + o) len) s
  markRange s1 r (q.desc + 28) 4

/-- Start a CRED (R412): open the collective, admit its early contributions, contribute chunks first to first + count − 1. -/
def startCred (s : State) (r : SwarmRef) (pc : DWord) (id : Nat) (q : CredReq) : Except Stop State := do
  let cid := descCid q.body
  let s := markCred s r q
  let s1 :=
    if (collective? s cid).isSome then s
    else
      let early := s.fabric.early.filter fun p => p.cid = cid
      let s0 := modFabric s fun f => { f with
        early := f.early.filter fun p => p.cid ≠ cid
        collectives := f.collectives ++ [⟨cid, ctxOf s (wgOf r), q.desc, q.body, q.op, q.ty, q.sw,
          List.replicate (chunkCount q.body) ⟨[], false, false, 0⟩, [], []⟩] }
      -- they were admitted when they came: each is taken up anew, as a packet that waited
      modFabric { s0 with nextId := s0.nextId + early.length } fun f =>
        { f with heldPackets := f.heldPackets ++ early.zipIdx.map fun p => (s0.nextId + 1 + p.2, p.1) }
  let s2 := modCollective s1 cid fun c => { c with
    creds := c.creds ++ [(id, r, pc, q.first, q.count, q.ident)]
    sent := c.sent ++ [(q.first, q.count, q.ident)] }
  match collective? s2 cid with
  | none => .ok s2
  | some c => do
    let dsts := if q.sw then [0xFFFF] else s2.fabric.current.mods
    let s3 ← (List.range q.count).foldlM (fun s j => sendPart (some r) c q.ident dsts s (q.first + j)) s2
    settleCollective s3 cid

/-! The reel (R418, R419). -/

/-- A stripe record (R418). -/
def stripeOf (b : List Byte) : Stripe :=
  ⟨descWord b 0 2, descWord b 2 2, descWord b 8 8, descWord b 16 8, descWord b 24 4, none, 0, 0, 0⟩

/-- Ask for a stripe: its request goes to the peer that holds the rank; a peer that is not there fails it. -/
def askStripe (s : State) (x : Stripe) (k : Nat) (rank : Nat) : Stripe × State :=
  match s.fabric.current.mods[rank]? with
  | none => ({ x with state := 2 }, s)
  | some m =>
    let p := newPacket s 0x0E m (jobTag s) k x.srcv
    ({ x with asked := some s.clkns, got := 0, state := 1, peer := m },
     send s { p with payload := padSectors (natToBytes 4 x.len) })

/-- Ask for the stripe k: of RANK when it has not been asked yet, else, or when no peer holds that rank, of ALTRANK; without one it has failed.
Stripe states: 0 not asked, 1 in flight at RANK, 2 failed, 3 written, 4 in flight at ALTRANK, 5 to be asked of ALTRANK (R419). -/
def requestStripe (s : State) (x : Stripe) (k : Nat) : Stripe × State :=
  let (y, s1) := if x.state = 0 then askStripe s x k x.rank else ({ x with state := 2 }, s)
  if y.state = 2 && x.alt ≠ 0xFFFF then
    (let (z, s2) := askStripe s1 x k x.alt
     ({ z with state := if z.state = 2 then 2 else 4 }, s2))
  else (y, s1)
/-- Stripes are requested in record order; at most 64 are in flight (R419). -/
def pumpReel (s : State) : State :=
  (List.range ((s.fabric.reel.map fun r => r.stripes.length).getD 0)).foldl (fun s k =>
    match s.fabric.reel, s.fabric.reel.bind fun r => r.stripes[k]? with
    | some r, some x =>
      if (x.state = 0 || x.state = 5) && (r.stripes.filter fun y => y.state = 1 || y.state = 4).length < 64 then
        let (y, s1) := requestStripe s x k
        modFabric s1 fun f => { f with reel := f.reel.map fun r => { r with stripes := r.stripes.set k y } }
      else s
    | _, _ => s) s

/-- A stripe that its first peer does not serve is to be asked of ALTRANK, or has failed (R419). -/
def retryStripe (s : State) (k : Nat) : State :=
  modFabric s fun f => { f with reel := f.reel.map fun r => { r with
    stripes := r.stripes.modify k fun x => { x with state := if x.state = 1 then 5 else 2 } } }

/-- The reel goes on: further stripes are asked for, and at the end DONE and FAILED are written and the FABRIC
counter falls (R418, R419). -/
def settleReel (s : State) : State :=
  let s2 := pumpReel s
  match s2.fabric.reel with
  | none => s2
  | some r =>
    if r.stripes.all fun x => x.state = 2 || x.state = 3 then
      let done := (r.stripes.filter fun x => x.state = 3).length
      let finished (s : State) : State := modFabric (opDone s r.ref 4 r.op) fun f => { f with reel := none }
      if engineHeld s2 hubRef reelName then s2
      else
        match fabricWrite s2 r.ctx (r.desc + 20) (natToBytes 4 done ++ natToBytes 4 (r.stripes.length - done)) with
        | .ok s3 => finished (markRange s3 r.ref (r.desc + 20) 8)
        | .error (.trap ..) => finished s2
        | .error e => holdAccess s2 hubRef 0 r.ctx reelName e
    else s2

/-- Start the reel of a JOIN over the stripe records it has read (R418, R419). -/
def startReel (s : State) (r : SwarmRef) (pc : DWord) (id desc : Nat) (records : List Byte) : State :=
  let xs := (List.range (records.length / 32)).map fun k => stripeOf ((records.drop (32 * k)).take 32)
  settleReel (modFabric s fun f => { f with reel := some ⟨r, pc, id, ctxOf s (wgOf r), desc, xs⟩ })

end Sys2Proof.Machine
end

