-- ==== Sys2Proof/Machine/Tasks.lean ====
section
/-! DEFINITION. Workgroups and tasks: barriers, the dispenser, opening a task, its signature, commit, discard, validity codes, replay and
the end without replay, DONE swarms and ended workgroups (R190, R206, R243, R244, R281, R345 to R349, R354, R369 to R376). -/

namespace Sys2Proof.Machine

/-! Streams and slices of a swarm (R281, R289, R290, R293). -/

/-- A stream register bound to a descriptor. -/
def boundStream (d : WalkDesc) : Stream := ⟨true, d, d.ring, d.depth, 0, [], false, [0, 0, 0, 0], 0, none, false⟩
/-- One change of a stream register at the binding point. -/
def bindOne (x : Stream) (d : WalkDesc) (app : Bool) : Stream :=
  if app && x.bound then
    (if x.ended then { x with desc := { d with ring := x.ring, depth := x.depth }, pos := [0, 0, 0, 0], ended := false }
     else { x with next := some d })
  else boundStream d
/-- ENDED becomes 1: a NEXT descriptor becomes the binding, in the same ring (R289). -/
def endStream (x : Stream) : Stream :=
  match x.next with
  | none => { x with ended := true }
  | some d => { x with desc := { d with ring := x.ring, depth := x.depth }, pos := [0, 0, 0, 0], ended := false, next := none }
/-- Apply a change of binding to a swarm. -/
def applyBind (w : Swarm) : BindChange → Swarm
  | .bind k d app => { w with streams := w.streams.modify k fun x => bindOne x d app }
  | .reset k => { w with streams := w.streams.set k Stream.unbound }
  | .resetAll => { w with streams := List.replicate 16 Stream.unbound }
/-- Every stream register unbound (R281). -/
def unbindAll (w : Swarm) : Swarm := applyBind { w with sliceBinds := [] } .resetAll
/-- Name of a walk among engine requests. -/
def walkName (k : Nat) : Nat := 2 ^ 64 + k
/-- Address of a thread's element at a position, modulo 2^64. -/
def walkAddr (d : WalkDesc) (pos : List Nat) (t : Nat) : Nat :=
  let step (k : Nat) : Int := (pos.getD k 0 : Int) * ((d.strides.getD k 0).toInt)
  ((d.base.toNat + step 0 + step 1 + step 2 + step 3 + (t : Int) * d.tstride.toInt) % 2 ^ 64).toNat
/-- A held element read is still the stream register's next one: bound, and walking where the read was to be. -/
def walkStands (x : Stream) (page : Nat) : Bool :=
  x.bound && !x.ended && !x.desc.push && x.entries.length < x.depth && (List.range threads).any fun t => pageOf (walkAddr x.desc x.pos t) = page
/-- Held element reads of stream registers that have been unbound or bound anew complete without effect (R290). -/
def dropWalks (s : State) (r : SwarmRef) : State :=
  let x (name : Nat) : Stream := ((swarm? s r).map fun w => w.streams.getD (name - walkName 0) Stream.unbound).getD Stream.unbound
  let stale (h : Hold) : Bool :=
    h.ref = r && h.engine.any fun name => walkName 0 ≤ name && name < walkName 16 && !walkStands (x name) h.page
  if s.dies.any fun d => d.holds.any stale then { s with dies := s.dies.map fun d => { d with holds := d.holds.filter fun h => !stale h } } else s

/-- Stop a swarm's slice. -/
def stopSlice (s : State) (r : SwarmRef) : State :=
  let s1 := squash s (sliceOf r)
  { s1 with swarms := s1.swarms.filter fun w => w.ref ≠ sliceOf r
            dies := s1.dies.map fun d => { d with holds := d.holds.filter fun h => h.ref ≠ sliceOf r || h.engine.isSome } }
/-- The slice's changes of binding apply at the swarm's clause boundary (R293). -/
def applySliceBinds (s : State) (r : SwarmRef) : State :=
  dropWalks (modSwarm s r fun w => { w.sliceBinds.foldl applyBind w with sliceBinds := [] }) r

/-! Barriers (R190). -/

/-- Whether a swarm takes part in a barrier. -/
def participates (b : Barrier) (w : Swarm) : Bool := b.scope = 3 || (w.inTeam && w.team = b.team)
/-- Complete every barrier at which all participants that are not DONE have arrived: a new phase begins. -/
def settleBarriers (s : State) (g : WgRef) : State :=
  let ws := swarmsOf s g
  modWg s g fun x => { x with barriers := x.barriers.map fun b =>
    if !b.arrived.isEmpty && (ws.filter fun w => w.sched ≠ .done && participates b w).all fun w => b.arrived.contains w.ref.idx then
      { b with phase := b.phase + 1, arrived := [] } else b }
/-- Whether the barrier a swarm waits at is still incomplete. -/
def barrierOpen (s : State) (w : Swarm) : Bool :=
  match w.barrier with
  | none => false
  | some (scope, id, phase) =>
    ((wg? s (wgOf w.ref)).map fun g => g.barriers.any fun b =>
      b.scope = scope && b.id = id && (scope = 3 || b.team = w.team) && b.phase = phase).getD false

/-! The device's commands (R330, R354, R355). -/

/-- A queue's write index, as given at a time. -/
def WorkQueue.publish (x : WorkQueue) (widx now : Nat) : WorkQueue :=
  if x.widx = widx then x else { x with widx, since := x.since ++ [(widx, now)] }

/-- Bytes of a ring, in the host's memory or the device's own (R330; log 31). -/
def ringRead (s : State) (a n : Nat) : List Byte := memRead (if Config.deviceAddress a then s.mem else s.host) a n
def ringWrite (s : State) (a : Nat) (b : List Byte) : State :=
  if Config.deviceAddress a then performBytes s a b .clear else hostWrite s a b
/-- Where the k-th command of a queue's extension stands in the second tier, from its oldest on (R330, R355). -/
def WorkQueue.extAt (x : WorkQueue) (k : Nat) : Nat := x.extBase + 64 * ((x.extHead + k) % x.extEntries)

/-- Write an enqueued command where its reservation lies. -/
def enqWrite (s : State) (q : Nat) (cmd : List Byte) (ext : Bool) : State :=
  match queue? s q with
  | none => s
  | some x =>
    if ext then
      modQueue (performBytes s (x.extAt x.extCount) cmd .clear) q fun x => { x with extCount := x.extCount + 1, extRes := x.extRes - 1 }
    else
      modQueue (ringWrite s (x.ring + 64 * (x.widx % x.entries)) cmd) q fun x =>
        { x.publish ((x.widx + 1) % 2 ^ 32) s.clkns with ringRes := x.ringRes - 1 }

/-! Validity codes (R349). -/

/-- Write the nibble of a tile's code when the home admits the byte update; what is not there yet waits. -/
def writeNibble (s : State) (seq tile code : Nat) : State :=
  match launch? s seq with
  | none => s
  | some l =>
    let a := l.desc.vmap + tile / 2
    let out : Except Stop State := do
      let b ← readAny s l.ctx a 1
      let old := (b.getD 0 0).toNat
      writeAny s l.ctx a (natToBytes 1 (if tile % 2 = 0 then old / 16 * 16 + code else old % 16 + 16 * code)) .clear
    match out with
    | .ok s1 => s1
    | .error (.trap ..) => modLaunch s seq fun l => { l with flags := l.flags ||| 8 }
    | .error e =>
      modLaunch (holdAccess s hubRef 0 l.ctx (recordName l.id) e) seq fun l => { l with unwritten := l.unwritten ++ [(tile, code)] }
/-- Write a tile's code: counted in the launch, and in its nibble of the map. -/
def writeCode (s : State) (seq tile code : Nat) : State :=
  let s1 := modLaunch s seq fun l => { l with codes := (tile, code) :: l.codes.filter fun c => c.1 ≠ tile }
  if (launch? s seq).any fun l => l.desc.vmap ≠ 0 then writeNibble s1 seq tile code else s1
/-- Nibbles that waited are written. -/
def flushCodes (s : State) (seq : Nat) : State :=
  match launch? s seq with
  | none => s
  | some l =>
    if l.unwritten.isEmpty || engineHeld s hubRef (recordName l.id) then s
    else l.unwritten.foldl (fun s c => writeNibble s seq c.1 c.2) (modLaunch s seq fun l => { l with unwritten := [] })

/-- TASKID of a tile (R345). -/
def taskId (seq n : Nat) : DWord := BitVec.ofNat 32 seq ++ BitVec.ofNat 32 n

/-- A tile marked 4 raises an Unresolved record and counts a machine check (R375). The record is the tile's: its TASKID, and the first
swarm and the flags of the run of it that primaries made (R368). -/
def markUnresolved (s : State) (seq swid : Nat) (t : Option Task) (tie : Bool) (tile prim pair twin : Nat) : State :=
  match launch? s seq with
  | none => s
  | some l =>
    let s1 := writeCode { s with machineChecks := s.machineChecks + 1 } seq tile 4
    putRecord s1 l.ctx (recordImage s1 ⟨0xFFFF, swid, runFlags t false tie, seq, (taskId seq tile).toNat⟩ l.ctx
      ⟨0x0E, 0, 3, 0, prim, pair, twin⟩)
/-- SWID of a workgroup's first swarm. -/
def firstSwid (s : State) (g : WgRef) : Nat := ((swarmsOf s g).head?.map swidOf).getD 0

/-! Versions (R243, R244, R303). -/

/-- Discard a workgroup's open version: nothing of it is ever performed. -/
def discardVersion (s : State) (g : WgRef) : State :=
  let gone := (coreAt s g.core).wcb.filter fun e => e.task = some g
  let s1 := if (coreAt s g.core).wcb.isEmpty && (coreAt s g.core).l1.isEmpty then s
    else modCore s g.core fun c => { c with
      wcb := c.wcb.filter fun e => e.task ≠ some g
      l1 := c.l1.filter fun x => x.task ≠ some g }
  let s2 := gone.foldl (fun s e => storeDone s g.core e.writers) s1
  let enqs := (((wg? s2 g).bind Workgroup.task).map Task.enqs).getD []
  let s3 := enqs.foldl (fun s e => enqRelease s e.1 e.2.2.2) s2
  { s3 with versions := s3.versions.filter fun v => v.wg ≠ g || v.parked.isSome }

/-- The sectors of a version's stores, merged: address, bytes, mask. -/
def mergedSectors (ops : List VersionOp) : List (Nat × List Byte × BitVec 64) :=
  ops.foldl (fun l o =>
    match o with
    | .store _ va d m _ =>
      if l.any fun x => x.1 = va then l.map fun x => if x.1 = va then (va, overlay x.2.1 d m, x.2.2 ||| m) else x
      else l ++ [(va, overlay (List.replicate 64 0) d m, m)]
    | .add _ => l) []

/-- Outcome of a task from its arrivals (R347). -/
def outcomeOf (s : State) (g : WgRef) : EndKind :=
  let ks := (swarmsOf s g).filterMap Swarm.endArrived
  if ks.contains .abandon then .abandon else if ks.contains .partialCommit then .partialCommit else .commit
/-- The code of an outcome (R349, R373). -/
def EndKind.code : EndKind → Nat
  | .commit => 1
  | .partialCommit => 2
  | .abandon => 3

/-- The store-stream signature of a task (R373; field widths log 19). -/
def taskSignature (s : State) (g : WgRef) (k : EndKind) : BitVec 64 :=
  let ops := versionOps s g
  let img1 := (mergedSectors ops).map fun x =>
    natToBytes 1 1 ++ natToBytes 8 (x.1 / 256) ++ natToBytes 1 (x.1 / 64 % 4) ++ natToBytes 8 x.2.2.toNat ++ x.2.1
  let img2 := ops.filterMap fun
    | .add r => some (natToBytes 1 2 ++ natToBytes 8 r.dst ++ natToBytes 1 r.ty.code.toNat ++ natToBytes 1 (if r.exact then 2 else 1) ++
        natToBytes 1 r.rows ++ natToBytes 1 r.words.length ++ natToBytes 4 r.pitch ++ natToBytes 1 r.swarm ++ natToBytes 4 r.index ++
        (r.words.map fun w => natToBytes 4 w.toNat).flatten)
    | _ => none
  let t := (wg? s g).bind Workgroup.task
  let img3 := ((t.map Task.cellOps).getD []).map fun c =>
    natToBytes 1 3 ++ natToBytes 8 c.1 ++ natToBytes 2 c.2.1 ++ c.2.2.1 ++ natToBytes 16 c.2.2.2.toNat
  let enqs := (t.map Task.enqs).getD []
  let img4 := enqs.zipIdx.map fun e =>
    natToBytes 1 4 ++ natToBytes 2 e.1.1 ++ natToBytes 1 e.1.2.1 ++
      natToBytes 4 ((enqs.take e.2).filter fun x => x.2.1 = e.1.2.1).length ++ e.1.2.2.1
  let flags := (swarmsOf s g).map fun w => natToBytes 1 w.shadow.toNat
  let exc := (((wg? s g).map Workgroup.excShadow).getD []).map (natToBytes 4)
  let img5 := [natToBytes 1 5 ++ natToBytes 1 k.code ++ flags.flatten ++ exc.flatten]
  BitVec.ofNat 64 (((img1 ++ img2 ++ img3 ++ img4 ++ img5).map crc64).sum)

/-- The bytes pending rows will read, checked before anything is performed (R244): the failing row's swarm, code and detail. -/
def rowsFail (s : State) (die ctx : Nat) (ops : List VersionOp) : Option (Nat × Nat × Nat) :=
  ops.findSome? fun
    | .store .. => none
    | .add r =>
      (sectorsTouched r.dst (r.words.length * addSize r.ty r.exact)).findSome? fun b =>
        match translate s die ctx b false with
        | .ok (_, pa) => (sectorFault s pa).map fun x => (r.swarm, x.1, x.2)
        | .error _ => none

/-- Perform one operation of a version at its homes; the flags of a pending add's roundings come with it. -/
def performOp (die ctx : Nat) (s : State) : VersionOp → Except Stop (State × List (BitVec 6))
  | .store _ va d m rmw => do
    let (_, pa) ← translate s die ctx va true
    .ok (performWrite s (pa / 64 * 64) d m (if rmw then .keep else .clear), [])
  | .add r => do
    let cells := rowBytes (committedByte s die ctx) r
    let s1 ← (sectorPieces r.dst (cells.map fun c => c.2.1).flatten).foldlM (fun s p => do
      let (_, pa) ← translate s die ctx (if p.1 < r.dst then r.dst else p.1) true
      .ok (performWrite s (pa / 64 * 64) p.2.1 p.2.2 .clear)) s
    .ok (s1, cells.map fun c => c.2.2)

/-- Perform a version in order, counting roundings of its rows directly (R206, R217, R244). -/
def performOps (g : WgRef) (die ctx : Nat) (s : State) (ops : List VersionOp) : Except Stop State :=
  ops.foldlM (fun s o => do
    let (s1, fl) ← performOp die ctx s o
    .ok (if fl.isEmpty then s1 else modWg s1 g fun x => countRoundings false x fl)) s

/-- Perform the versioned releases (step 3 of R244): each takes its scopes' accumulators once, and every location it writes keeps its
present bytes and receives the signature, which a store puts in place of the sector's and a read-modify-write adds to it (R170, R242). The
lines of the version, and what a swarm's accumulators held when it was parked, go with it. -/
def performReleases (g : WgRef) (die ctx : Nat) (lines : BitVec 512) (kept : List (List (BitVec 512))) (s : State)
    (rels : List (Nat × List (Nat × List Byte) × List Nat × Bool)) : Except Stop State :=
  rels.foldlM (fun s x =>
    let (sig, s1) := takeRel s ⟨g.seq, g.core, x.1, false⟩ x.2.2.1
    let acc := kept.getD x.1 []
    let m := x.2.2.1.foldl (fun m sc => if 4 ≤ sc then m ||| acc.getD (sc - 4) 0 else m) (sig ||| lines)
    x.2.1.foldlM (fun s c => do
      let (_, pa) ← translate s die ctx c.1 true
      .ok (performBytes s pa (memRead s.mem pa c.2.length) (if x.2.2.2 then .merge m else .replace m))) s1) s

/-- The lines of bytes that a die can translate. -/
def rangeMarks (s : State) (die ctx va n : Nat) : BitVec 512 :=
  (sectorsTouched va n).foldl (fun m b => match translate s die ctx b false with | .ok (_, pa) => m ||| lineMarks pa | .error _ => m) 0

/-- The commit of R244 after its comparison: writes and adds, releases, enqueues. DESIGN CHOICE: R244 lets other agents observe a
commit's writes in any order among themselves; here it is performed whole, in the version's order, in one step (log 82). -/
def commitVersion (s : State) (g : WgRef) (ctx : Nat) (ops : List VersionOp) (t : Task) (kept : List (List (BitVec 512))) :
    Except Stop State := do
  let die := dieOf g.core
  let s1 ← performOps g die ctx s ops
  let lines := ops.foldl (fun m o => m ||| match o with
    | .store _ va .. => rangeMarks s die ctx va 1
    | .add r => rangeMarks s die ctx r.dst (r.words.length * addSize r.ty r.exact)) 0
  let rels := (List.range 32).map (fun k => t.releases.filter fun x => x.1 = k) |>.flatten
  let s2 ← performReleases g die ctx lines kept s1 rels
  let enqs := (List.range 32).map (fun k => t.enqs.filter fun e => e.2.1 = k) |>.flatten
  .ok (enqs.foldl (fun s e => enqWrite s e.1 e.2.2.1 e.2.2.2) s2)

/-! Opening a task (R345, R346, R351, R369). -/

/-- The next tile of a launch's dispenser (R346): none after diversion, past the last tile, or withheld by STOPLATE. -/
def dispense (s : State) (seq : Nat) : Option Nat × State :=
  match launch? s seq with
  | none => (none, s)
  | some l =>
    let late := l.desc.stopLate && l.desc.deadline ≠ 0 &&
      decide (l.desc.deadline < s.clkns + l.desc.cost + 1000 * l.desc.budget)
    if l.cause ≠ 0 ∨ l.desc.ntiles ≤ l.nextTile ∨ late then (none, s)
    else (some l.nextTile, modLaunch s seq fun l => { l with nextTile := l.nextTile + 1 })

/-- COORD of a tile (R345). -/
def coord (l : Launch) (n : Nat) : DWord :=
  let tx := if l.desc.tx = 0 then 65536 else l.desc.tx
  BitVec.ofNat 16 (n / tx) ++ BitVec.ofNat 16 (n % tx) ++ BitVec.ofNat 32 n

/-- What keeps the entries 0 to DSDEPTH − 1 of a swarm's stack, when there are at most four, from being read or written now (R369). -/
def stackStop (s : State) (w : Swarm) (depth : Nat) (write : Bool) : Option Stop :=
  if 4 < depth then none
  else (List.range depth).findSome? fun k =>
    match translate s (dieOf w.ref.core) (ctxOf s (wgOf w.ref)) (w.dsBase + 32 * k) write with
    | .ok _ => none
    | .error e => some e
/-- The saved stack of a start record: entries 0 to DSDEPTH − 1 when there are at most four (R369). A fetch completes when all can be
read. -/
def savedStack (s : State) (w : Swarm) : List (List Byte) :=
  if 4 < w.dsDepth then []
  else (List.range w.dsDepth).map fun k =>
    match translate s (dieOf w.ref.core) (ctxOf s (wgOf w.ref)) (w.dsBase + 32 * k) false with
    | .ok (_, pa) => memRead s.mem pa 32
    | .error _ => List.replicate 32 0

/-- A swarm's start record, its FETCH just completed in a slot, the only valid one. -/
def startRecord (s : State) (w : Swarm) (k : SlotId) (pc : DWord) (dst pred : Nat) : StartRecord :=
  ⟨w.ref.idx, pc, dst, pred, slotOf w k, w.live, w.dsDepth, w.rsv, w.mode, savedStack s w⟩

/-- Give a swarm its FETCH result (R351): the pair in every thread of MASK, the predicate likewise. -/
def fetchResult (w : Swarm) (m : Mask) (dst pred : Nat) (value : DWord) (flag : Bool) : Swarm :=
  let put (regs : List (Option VReg)) (n : Nat) (v : Word) : List (Option VReg) :=
    regs.modify n fun x => x.map fun y => { y with vals := mergeLanes m (splat v) y.vals }
  { w with
    regs := put (put w.regs dst (value.setWidth 32)) (dst + 1) (value.extractLsb' 32 32)
    regErrs := w.regErrs.filter fun e => (e.1 ≠ dst && e.1 ≠ dst + 1) || !m.getLsbD e.2
    preds := w.preds.modify pred fun p => if flag then p ||| m else p &&& ~~~m }

/-- The write-back of that result (R37). -/
def noteFetch (s : State) (r : SwarmRef) (m : Mask) (dst : Nat) : State :=
  match swarm? s r with
  | none => s
  | some w => noteWrites s r w.regs w.lane ([dst, dst + 1].map fun n => (n, m, uniform (regLanes w n)))

/-- The queues a workgroup owns become empty (R186). -/
def emptyQueues (s : State) (g : WgRef) : State :=
  if (coreAt s g.core).queues.any (fun q => q.owner = some g) then
    modCore s g.core fun c =>
      let clear (q : Queue) : Queue :=
        if q.owner = some g then { q with head := 0, tail := 0, pushers := [], pushRes := [], popRes := [] } else q
      { c with queues := c.queues.map clear }
  else s

/-- Whether a run waits at a workgroup's fetch. -/
def fetchRuns (s : State) (g : WgRef) : List Run :=
  s.runs.filter fun r => wgOf r.ref = g && !r.ref.slice && match r.phase with | .fetching .. => true | _ => false
/-- Every swarm that is not DONE has arrived at the fetch. -/
def allFetching (s : State) (g : WgRef) : Bool :=
  let live := (swarmsOf s g).filter fun w => w.sched ≠ .done
  !live.isEmpty && live.all fun w => (fetchRuns s g).any fun r => r.ref = w.ref

/-- Every tile that a workgroup maps holds unspecified values: at the start of a replayed or redundant run (R220). -/
def scrambleTiles (s : State) (g : WgRef) : State :=
  let names := ((wg? s g).map fun w => w.names.filterMap id).getD []
  let epoch := s.fresh + 1
  let byte (i : Nat) : Byte := Config.freeByte epoch i
  let word (i : Nat) : Word := byte (4 * i) ++ byte (4 * i + 1) ++ byte (4 * i + 2) ++ byte (4 * i + 3)
  let lose (k : Nat) (x : Tile) : Tile :=
    if names.contains k then { x with elems := (List.range 2048).map fun i => word (2048 * k + i) } else x
  if names.isEmpty then s
  else modCore { s with fresh := s.fresh + 1 } g.core fun c => { c with tiles := c.tiles.mapIdx lose }

/-- A swarm's FETCH completes: the result is written, its streams are unbound and its slice is stopped (R281, R351). -/
def deliverFetch (value : DWord) (flag : Bool) (s : State) (r : Run) : State :=
  match r.phase with
  | .fetching dst pred =>
    let m := (swarm? s r.ref).map (fun w => (slotOf w r.slot).mask) |>.getD 0
    let s1 := modSwarm (stopSlice s r.ref) r.ref fun w =>
      let w := setSlot (fetchResult w m dst pred value flag) r.slot { slotOf w r.slot with pc := nextPc r }
      unbindAll { w with endArrived := none, rerun := false, entryMode := w.mode, shadow := 0 }
    noteFetch (dropWalks s1 r.ref) r.ref m dst
  | _ => s

/-- Complete a workgroup's fetch, its swarms' FETCH clauses given, with a tile or none (R351). -/
def finishFetch (s : State) (g : WgRef) (runs : List Run) (l : Launch) (tile : Option Nat) (attempt : Nat) (tie : Bool) : State :=
  let value := match tile with | some n => coord l n | none => BitVec.allOnes 64
  let s1 := runs.foldl (deliverFetch value tile.isSome) s
  let recs := runs.filterMap fun r =>
    match r.phase, swarm? s1 r.ref with
    | .fetching dst pred, some w => some (startRecord s1 w r.slot r.pc dst pred)
    | _, _ => none
  let redundant := (wg? s1 g).any fun w => w.twin.twin.isSome
  let s1 := if redundant && tile.isSome then scrambleTiles s1 g else s1
  let epoch := s1.fresh + 1
  modWg { emptyQueues s1 g with fresh := s1.fresh + 1 } g fun w => { w with
    frozen := true
    fetches := w.fetches + 1
    excShadow := [0, 0, 0, 0]
    scratch := if tile.isSome then
        { w.scratch with epoch, cells := w.scratch.cells.filter fun c => c.1 < w.scratch.persist } else w.scratch
    twin := { w.twin with signature := none, tieBreak := tie }
    task := tile.map fun n =>
      ⟨n, taskId l.seq n, coord l n, recs.any (fun x => 4 < x.dsDepth), attempt, 0, recs, [], [], [], none⟩ }

/-- The tie-breaking tile a primary may take: one whose twins both lie in other clusters, of a launch that is not diverted (R375). -/
def eligibleTie (l : Launch) (g : WgRef) : Option TieTile :=
  l.ties.find? fun t => l.cause = 0 && !t.dispatched && clusterOf t.primary.core ≠ clusterOf g.core && clusterOf t.twin.core ≠ clusterOf g.core

/-! Slack (R334). -/

/-- Slack of a launch without a deadline. -/
def noDeadline : Int := 2 ^ 63 - 1
/-- Slack from a descriptor and the tiles not yet ended. -/
def slackFrom (s : State) (d : LaunchDesc) (tiles : Nat) : Int :=
  let g := max 1 (if d.redund then d.w * d.h / 2 else d.w * d.h)
  if d.deadline = 0 then noDeadline else (d.deadline : Int) - (s.clkns : Int) - (((tiles + g - 1) / g * d.cost : Nat) : Int)
/-- Tiles of a launch not yet ended: undispensed, or with the task open. -/
def tilesLeft (s : State) (l : Launch) : Nat :=
  let wgs := (s.wgs.filter fun g => g.ref.seq = l.seq && l.seq ≠ 0) ++ (l.saved.map Saved.wgs).getD []
  (l.desc.ntiles - l.nextTile) + ((wgs.filterMap fun g => g.task.map Task.tile).eraseDups).length
/-- Slack of a launch. -/
def slackOf (s : State) (l : Launch) : Int := slackFrom s l.desc (tilesLeft s l)
/-! Serving fetches (R346, R351). -/

/-- Name of a fetch's reading of a stack. -/
def stackName : Nat := 2 ^ 69
/-- A fetch of a workgroup can complete: every swarm has arrived, in redundant mode the twin's too, and no task is open (R275, R351). -/
def fetchReady (s : State) (g : WgRef) : Bool :=
  match wg? s g, launch? s g.seq with
  | some w, some l =>
    !w.task.isSome && !w.ended && l.cause = 0 && !l.stopping && !w.twin.isTwin && allFetching s g &&
      (match w.twin.twin with
        | none => true
        | some t => !((wg? s t).any fun x => x.task.isSome) && allFetching s t) &&
      !(fetchRuns s g).any fun r => engineHeld s r.ref stackName
  | _, _ => false
/-- What orders the fetches that complete in one cycle: slack, launch sequence, workgroup index. -/
def fetchKey (s : State) (g : WgRef) : Int × Nat × Nat :=
  (((launch? s g.seq).map (slackOf s)).getD noDeadline, g.seq, ((wg? s g).map Workgroup.index).getD 0)
def keyBefore (x y : Int × Nat × Nat) : Bool :=
  x.1 < y.1 || (x.1 = y.1 && (x.2.1 < y.2.1 || (x.2.1 = y.2.1 && x.2.2 < y.2.2)))
/-- It is a ready fetch's turn: no ready one comes before it, and none that comes after it has completed in this cycle. -/
def fetchTurn (s : State) (g : WgRef) : Bool :=
  let k := fetchKey s g
  !(s.wgs.any fun h => h.ref ≠ g && fetchReady s h.ref && keyBefore (fetchKey s h.ref) k) &&
    !(s.lastFetch.any fun x => x.1 = s.cycle && keyBefore k x.2)

/-- A twin's fetch is completed by its primary's. -/
def primaryOf (s : State) (g : WgRef) : WgRef :=
  match wg? s g with
  | some w => if w.twin.isTwin then w.twin.twin.getD g else g
  | none => g

/-! Ended workgroups. -/

/-- No operation of a workgroup's swarms is outstanding. -/
def countersZero (s : State) (g : WgRef) : Bool :=
  (s.swarms.filter fun w => wgOf w.ref = g).all fun w => w.inflight.all List.isEmpty

/-- Release a workgroup's residency: its swarms, queue units, tiles and registers, for which others of its lanes try again (R35, R131, R186,
R208). -/
def releaseResidency (s : State) (g : WgRef) : State :=
  let s1 := { s with swarms := s.swarms.filter fun w => wgOf w.ref ≠ g
                     runs := s.runs.filter fun r => wgOf r.ref ≠ g
                     run := if s.run.any fun r => wgOf r.ref = g then none else s.run
                     dies := s.dies.map fun d => { d with holds := d.holds.filter fun h => wgOf h.ref ≠ g || h.engine.isSome } }
  let c := coreAt s1 g.core
  let s2 := if c.queues.any (fun q => q.owner = some g) || c.tiles.any (fun t => t.owner = some g) then
      modCore s1 g.core fun c => { c with
        queues := c.queues.map fun q => if q.owner = some g then Queue.unowned else q
        tiles := c.tiles.map fun t => if t.owner = some g then { t with owner := none, lost := false, bad := false } else t }
    else s1
  ((swarmsOf s g).map Swarm.lane).eraseDups.foldl (fun s k => wakeRegs s g.core k) s2

/-- A workgroup ends when all its swarms are DONE, its task, if any, has ended, and nothing of it is outstanding. -/
def tryEnd (s : State) (g : WgRef) : State :=
  match wg? s g with
  | none => s
  | some w =>
    let ws := swarmsOf s g
    if w.ended || w.task.isSome || ws.any (fun x => x.sched ≠ .done) || !countersZero s g then s
    else
      releaseResidency (modWg s g fun w => { w with ended := true }) g

/-- What follows a change in a workgroup: its barriers, its end. -/
def settleWg (s : State) (g : WgRef) : State := tryEnd (settleBarriers s g) g

/-- Deferred traps of a swarm that issues no more, or has made its end arrival, are taken or recorded (R162). -/
def takeDeferred (s : State) (r : SwarmRef) : State :=
  match swarm? s r with
  | none => s
  | some w =>
    if w.deferred.isEmpty then s else w.deferred.foldl (fun s d => deferTrap s r d) (modSwarm s r fun w => { w with deferred := [] })

/-- A swarm becomes DONE (R29, R132): its streams are unbound and its slice stopped (R281); an EXIT that does so arrives as a commit
(R347). -/
def markDone (s : State) (r : SwarmRef) : State :=
  let open_ := inTask s (wgOf r)
  let s1 := modSwarm (stopSlice s r) r fun w =>
    unbindAll { w with
      sched := .done, since := s.cycle, stopped := false
      leftLane := if w.sched = .active then s.cycle else w.leftLane
      endArrived := if open_ then some (w.endArrived.getD .commit) else w.endArrived
      rerun := false }
  settleWg (takeDeferred (dropWalks s1 r) r) (wgOf r)

/-! Ends of a task. -/

/-- The task is over: its waiting clauses are released (step 5 of R348). -/
def closeTask (s : State) (g : WgRef) : State :=
  let s1 := modWg (modSwarms s g fun w => { w with endArrived := none, rerun := false }) g fun w => { w with task := none }
  settleWg s1 g

/-- A task's L1 tags are cleared at commit (R164). -/
def clearTags (s : State) (g : WgRef) : State :=
  if (coreAt s g.core).l1.any fun x => x.task = some g then
    modCore s g.core fun c => { c with l1 := c.l1.map fun x => if x.task = some g then { x with task := none } else x }
  else s

/-- A task's tagged L1 sectors go, its version not being committed (R164). -/
def dropTags (s : State) (g : WgRef) : State :=
  if (coreAt s g.core).l1.any fun x => x.task = some g then
    modCore s g.core fun c => { c with l1 := c.l1.filter fun x => x.task ≠ some g }
  else s

/-- A commit's page that is held or missing makes the task's end wait (R322). -/
def waitForPage (s : State) (g : WgRef) (e : Stop) : State := holdEngine s ⟨g.seq, g.core, 0, false⟩ commitName e
/-- The commit waits so. -/
def commitHeld (s : State) (g : WgRef) : Bool := engineHeld s ⟨g.seq, g.core, 0, false⟩ commitName

/-- The commit itself fails by a trap: the version is discarded and the task handled as that trap requires (R244, R329). -/
def commitFails (s : State) (g : WgRef) (idx code detail : Nat) : State :=
  let r : SwarmRef := ⟨g.seq, g.core, idx, false⟩
  let pc := ((swarm? s r).map fun w => w.slotA.pc).getD 0
  takeTrap s r ⟨code, detail, 2, pc, 0, 0, 0⟩

/-- How the performance of a version ends. -/
inductive CommitEnd where
  | done (s : State)
  /-- nothing is performed: a trap of a swarm, with its code and detail -/
  | fails (idx code detail : Nat)
  /-- a page is held or missing -/
  | waits (e : Stop)

/-- PERFORM A VERSION, checked first: none of it when an entry or a byte that a pending row will read has failed (R244, R329). -/
def performVersion (s : State) (g : WgRef) (ctx : Nat) (ops : List VersionOp) (t : Task) (failed : Bool)
    (kept : List (List (BitVec 512))) : CommitEnd :=
  if failed then .fails 0 0x0C 0x0101
  else
    match rowsFail s (dieOf g.core) ctx ops with
    | some (i, c, d) => .fails i c d
    | none =>
      match commitVersion s g ctx ops t kept with
      | .ok s1 => .done s1
      | .error (.trap c d _) => .fails 0 c d
      | .error e => .waits e

/-- Commit a task's open version and mark the tile (steps 2 and 4 of R348). -/
def commitTask (s : State) (g : WgRef) (t : Task) (code : Nat) : State :=
  match performVersion s g (ctxOf s g) (versionOps s g) t (s.versions.any fun v => v.wg = g && v.parked.isNone && !v.failed.isEmpty) [] with
  | .fails i c d => commitFails s g i c d
  | .waits e => waitForPage s g e
  | .done s1 =>
    let s2 := { clearTags s1 g with versions := s1.versions.filter fun v => v.wg ≠ g || v.parked.isSome }
    let s3 := modWg (modSwarms s2 g absorbShadow) g absorbExc
    closeTask (writeCode s3 g.seq t.tile code) g

/-- Discard an abandoned task (step 3 of R348). -/
def abandonTask (s : State) (g : WgRef) : State :=
  modWg (modSwarms (discardVersion s g) g dropShadow) g dropExc

/-- Park a task's version for a tie-breaking run (R374). -/
def parkVersion (s : State) (g : WgRef) (t : Task) (isTwin : Bool) (sig : BitVec 64) (code : Nat) : State :=
  let s1 := if s.versions.any fun v => v.wg = g && v.parked.isNone then s
    else { s with versions := s.versions ++ [⟨g, [], none, none, [], []⟩] }
  { s1 with versions := s1.versions.map fun v =>
      if v.wg = g && v.parked.isNone then
        { v with parked := some (t.tile, isTwin, sig, code), task := some t, swarms := (swarmsOf s g).map fun w => (swidOf w, w.relAcc) }
      else v }

/-- A version parked for a tile of a launch. -/
def parkedFor (v : Version) (seq tile : Nat) : Bool := v.wg.seq = seq && v.parked.any fun p => p.1 = tile
/-- Drop the parked versions of a tile; the space their tasks reserved for commands is free again (R354). -/
def dropParked (s : State) (seq tile : Nat) : State :=
  let enqs := ((s.versions.filter fun v => parkedFor v seq tile).map fun v => (v.task.map Task.enqs).getD []).flatten
  let s1 := enqs.foldl (fun s e => enqRelease s e.1 e.2.2.2) s
  { s1 with versions := s1.versions.filter fun v => !parkedFor v seq tile }

/-- Both twins' tasks of a tile end without agreement or a run: their swarms go on, modes and counters as their own runs left them, and no
other agent hits an L1 sector that holds what neither has committed (R164). -/
def releasePair (s : State) (p q : WgRef) : State :=
  let absorb (s : State) (g : WgRef) : State := modWg (modSwarms (dropTags s g) g absorbShadow) g absorbExc
  closeTask (closeTask (absorb (absorb s p) q) p) q

/-- A tile needs no tie-breaking run any more. -/
def dropTie (s : State) (seq tile : Nat) : State := modLaunch s seq fun l => { l with ties := l.ties.filter fun t => t.tile ≠ tile }

/-- A primary of the launch lies outside both twins' clusters, so that a tie-breaking run can come (R375). -/
def otherPrimary (s : State) (p q : WgRef) : Bool :=
  s.wgs.any fun g => g.ref.seq = p.seq && !g.twin.isTwin && clusterOf g.ref.core ≠ clusterOf p.core && clusterOf g.ref.core ≠ clusterOf q.core

/-- The end of a tie-breaking run: a twin's version commits when the run agrees with itself and with it; else the tile is marked 4 (R375).
A version whose commit fails by a trap marks the tile 5. -/
def compareTie (s : State) (p q : WgRef) (tp : Task) (sp sq : BitVec 64 × Nat) : State :=
  let tile := tp.tile
  let ctx := ctxOf s p
  let parked := s.versions.filter fun v => parkedFor v p.seq tile
  let sigOfTwin (b : Bool) : Nat :=
    ((parked.find? fun v => v.parked.any fun x => x.2.1 = b).bind fun v => v.parked.map fun x => x.2.2.1.toNat).getD 0
  let s2 := dropTie (discardVersion (discardVersion s p) q) p.seq tile
  let close (s : State) (code : Nat) : State := releasePair (writeCode (dropParked s p.seq tile) p.seq tile code) p q
  match decide (sp.1 = sq.1), parked.find? fun v => v.parked.any fun x => x.2.2.1 = sp.1 with
  | true, some v =>
    let code := (v.parked.map fun x => x.2.2.2).getD 1
    (match code, v.task with
      | 3, _ => close s2 3
      | _, none => close s2 code
      | _, some t =>
        match performVersion s2 v.wg ctx v.ops t (!v.failed.isEmpty) (v.swarms.map Prod.snd) with
        -- what it enqueues, it enqueues here: its reservations are used up
        | .done s3 => close { s3 with versions := s3.versions.filter fun x => x ≠ v } code
        | .waits e => waitForPage s p e
        | .fails i c d =>
          let x : RecordOf := ⟨v.wg.core, (v.swarms.map Prod.fst).getD i 0, runFlags (some t) (v.parked.any fun x => x.2.1) false, p.seq, t.taskId.toNat⟩
          close (putRecord s2 ctx (recordImage s2 x ctx ⟨c, d, 2, 0, 0, 0, 0⟩)) 5)
  | _, _ =>
    releasePair (markUnresolved (dropParked s2 p.seq tile) p.seq (firstSwid s p) (some tp) true tile (sigOfTwin false) sp.1.toNat
      (sigOfTwin true)) p q

/-- The dispenser's comparison when both twins' tasks have ended (R374, R375). -/
def compareTwins (s : State) (p q : WgRef) (tp : Task) (tq : Task) (sp sq : BitVec 64 × Nat) (tie : Bool) : State :=
  let tie0 := (launch? s p.seq).bind fun l => l.ties.find? fun t => t.tile = tp.tile
  if tie then
    match tie0 with
    | none => releasePair (discardVersion (discardVersion s p) q) p q
    | some t =>
      -- the run compares with the first run's signatures, which stand once its tasks have ended
      if [t.primary, t.twin].any fun g => ((wg? s g).bind Workgroup.task).any fun x => x.tile = tp.tile then s
      else compareTie s p q tp sp sq
  else if sp.2 = 3 && sq.2 = 3 then
    closeTask (closeTask (writeCode (abandonTask (abandonTask s p) q) p.seq tp.tile 3) p) q
  else if sp.1 = sq.1 then
    let s1 := dropTie (commitTask s p tp sp.2) p.seq tp.tile
    if inTask s1 p then s1
    else closeTask (modWg (modSwarms (discardVersion s1 q) q absorbShadow) q absorbExc) q
  else
    let diverted := (launch? s p.seq).any fun l => l.cause ≠ 0
    let s1 := parkVersion (parkVersion s p tp false sp.1 sp.2) q tq true sq.1 sq.2
    if tie0.isSome then releasePair s1 p q
    -- after diversion no run is dispensed, and the parked tile waits for its deadline
    else if diverted || otherPrimary s p q then
      releasePair (modLaunch s1 p.seq fun l => { l with ties := l.ties ++ [⟨tp.tile, p, q, diverted, s.clkns⟩] }) p q
    else
      releasePair (markUnresolved (dropParked s1 p.seq tp.tile) p.seq (firstSwid s p) (some tp) false tp.tile sp.1.toNat 0 sq.1.toNat) p q

/-- Every swarm that counts has made its end arrival: the task has ended, though its commit may still be to come (R347). -/
def taskEnded (s : State) (g : WgRef) : Bool :=
  ((wg? s g).bind Workgroup.task).any fun t =>
    t.ending.isNone && (swarmsOf s g).all fun w => w.sched = .done || w.endArrived.isSome
/-- It has ended, its counters are zero, and no trap stands against it (R347, R348). -/
def taskIsOver (s : State) (g : WgRef) : Bool :=
  taskEnded s g && countersZero s g && (swarmsOf s g).all fun w => w.deferred.isEmpty

/-- TASK_END (R348). Only a task that is over ends; in redundant mode it then waits for its twin's (R374). -/
def endTask (s : State) (g : WgRef) : State :=
  if !taskIsOver s g || commitHeld s (primaryOf s g) then s
  else
    let s := drainWhere s g.core fun e => e.task = some g
    match wg? s g with
    | none => s
    | some w =>
      match w.task with
      | none => s
      | some t =>
        let k := outcomeOf s g
        match w.twin.twin with
        | none =>
          if k = .abandon then closeTask (writeCode (abandonTask s g) g.seq t.tile 3) g else commitTask s g t k.code
        | some q =>
          let mine := w.twin.signature.getD (taskSignature s g k, k.code)
          let s1 := modWg s g fun x => { x with twin := { x.twin with signature := some mine } }
          match wg? s1 q with
          | none => s1
          | some v =>
            match v.twin.signature, v.task with
            | some theirs, some tq =>
              if w.twin.isTwin then compareTwins s1 q g tq t theirs mine w.twin.tieBreak
              else compareTwins s1 g q t tq mine theirs w.twin.tieBreak
            | _, _ => s1

/-! Replay (R371, R372). -/

/-- A clause of a workgroup is executing: what halts its swarms waits for the clause's boundary; a long instruction stops between two of its
elements (R371, stepWord). -/
def clauseUnderWay (s : State) (g : WgRef) : Bool := (s.run.toList ++ s.runs).any fun r => wgOf r.ref = g && r.phase = .executing
/-- Steps 1 and 2 of R371 are done: no clause is under way, and no operation outstanding. -/
def quiet (s : State) (g : WgRef) : Bool := countersZero s g && !clauseUnderWay s g
/-- What keeps a swarm's saved stack entries from being written back now. -/
def restoreStop (s : State) (g : WgRef) (t : Task) : Option (SwarmRef × Stop) :=
  t.records.findSome? fun x =>
    let r : SwarmRef := ⟨g.seq, g.core, x.idx, false⟩
    match (swarm? s r).bind fun w => stackStop s w x.dsDepth true with
    | none | some (.trap ..) => none
    | some e => some (r, e)

/-- Steps 1 to 3 of R371: a clause that waits stands at its boundary and is squashed, and the version is discarded. -/
def haltAndDiscard (s : State) (g : WgRef) : State :=
  let s1 := (s.swarms.filter fun w => wgOf w.ref = g).foldl (fun s w => squash s w.ref) s
  modWg (discardVersion s1 g) g fun w => { w with task := w.task.map fun t => { t with enqs := [], releases := [], cellOps := [] } }

/-- Write the saved stack entries back (R371). -/
def restoreStack (s : State) (w : Swarm) (r : StartRecord) : State :=
  (r.stack.zipIdx).foldl (fun s e =>
    match translate s (dieOf w.ref.core) (ctxOf s (wgOf w.ref)) (w.dsBase + 32 * e.2) true with
    | .ok (_, pa) => performBytes s pa e.1 .clear
    | .error _ => s) s

/-- Give a restored swarm its FETCH result, allocating the pair; without a register it is HELD until the write can be made. -/
def refetch (s : State) (r : SwarmRef) (dst pred : Nat) (value : DWord) (flag : Bool) : State :=
  match swarm? s r with
  | none => s
  | some w =>
    match writePair s (bareRun w) dst w.slotA.mask (List.replicate threads value.toNat) with
    | .ok r1 =>
      noteFetch (modSwarm s r fun w =>
        { fetchResult { w with regs := r1.work.regs } w.slotA.mask dst pred value flag with pendFetch := none }) r w.slotA.mask dst
    | .error _ =>
      holdSwarm (modSwarm s r fun w => { w with pendFetch := some (dst, pred, value, flag) }) r 0 .regs

/-- Step 4 of R371 for one swarm, its slot A as given. -/
def restoreSwarm (s : State) (g : WgRef) (record : StartRecord) (slotA : Slot) (value : Option DWord) : State :=
  let r : SwarmRef := ⟨g.seq, g.core, record.idx, false⟩
  match swarm? s r with
  | none => s
  | some w =>
    let keep := w.sched = .halted
    let s1 := restoreStack (stopSlice s r) w record
    let s2 := releaseWhere s1 fun h => h.ref = r && h.engine.isNone
    let s3 := dropWalks (modSwarm s2 r fun w => unbindAll { w with
      slotA, slotB := Slot.empty, live := record.live, dsDepth := record.dsDepth, rsv := record.rsv
      mode := record.entryMode, shadow := 0, prog := 0, progFlags := 0, draining := none
      endArrived := none, rerun := false, barrier := none, fenceOps := [], pendRel := [], waitFrom := none
      sched := if keep then .halted else .ready
      haltedFrom := if keep then .ready else w.haltedFrom
      since := s.cycle }) r
    match value with
    | some v => refetch s3 r record.dst record.pred v true
    | none => s3

/-- Workgroup state that a replay resets: queues emptied, barrier phases cleared, counter shadow cleared (R371). -/
def resetShared (s : State) (g : WgRef) : State :=
  modWg (emptyQueues s g) g fun w => { w with barriers := [], excShadow := [0, 0, 0, 0] }

/-- R371: replay a task of one workgroup. -/
def replayOne (s : State) (g : WgRef) : State :=
  match wg? s g with
  | none => s
  | some w =>
    match w.task with
    | none => s
    | some t =>
      let s1 := resetShared (haltAndDiscard s g) g
      let epoch := s1.fresh + 1
      let s2 := modWg { s1 with fresh := s1.fresh + 1 } g fun w => { w with
        scratch := { w.scratch with epoch, cells := w.scratch.cells.filter fun c => c.1 < w.scratch.persist }
        twin := { w.twin with signature := none }
        task := w.task.map fun t => { t with ending := none, attempt := t.attempt + 1 } }
      t.records.foldl (fun s r => restoreSwarm s g r r.slotA (some t.coord)) (scrambleTiles s2 g)

/-- Runs of a tile that end together: a workgroup's, and in redundant mode its twin's. -/
def runsOf (w : Workgroup) : List WgRef := w.ref :: w.twin.twin.toList
/-- The stack entry that a restart of these workgroups still waits to write back, if any. -/
def restartWaits (s : State) (gs : List WgRef) : Option (SwarmRef × Stop) :=
  gs.findSome? fun g => ((wg? s g).bind Workgroup.task).bind fun t => restoreStop s g t

/-- R371: a task marked for replay starts again, its twin's with it, once both stand still. A stopped swarm is left stopped. -/
def replay (s : State) (g : WgRef) : State :=
  match wg? s g, (wg? s g).bind Workgroup.task with
  | some w, some t =>
    if t.ending ≠ some .replay || !(runsOf w).all (quiet s) then s
    else
      match restartWaits s (runsOf w) with
      | some (r, e) => holdEngine s r stackName e
      | none =>
        (runsOf w).foldl replayOne (modLaunch (countCore s g.core 0x0F w.ctx) g.seq fun l => { l with replays := l.replays + 1 })
  | _, _ => s

/-- R372 for one workgroup: step 3, with the two cases that change it. -/
def endNoReplayOne (s : State) (g : WgRef) (t : Task) : State :=
  let diverted := divertedLaunch s g.seq
  let deep := t.records.any fun r => 4 < r.dsDepth
  let s1 := haltAndDiscard s g
  let s1 := if deep then s1 else resetShared s1 g
  let wrap := ((wg? s1 g).map Workgroup.wrapup).getD Config.noneAddr
  let s2 := modWg s1 g fun w => { w with task := none, twin := { w.twin with signature := none } }
  let s3 := t.records.foldl (fun s record =>
    let r : SwarmRef := ⟨g.seq, g.core, record.idx, false⟩
    let a : Slot :=
      if diverted then { record.slotA with pc := wrap, mask := record.live, rpc := Config.noneAddr, rjp := Config.noneAddr, parked := false }
      else { record.slotA with pc := record.fetchPc }
    let s4 :=
      if deep then
        stopSwarm (modSwarm s r fun w => { w with
          slotA := a, slotB := Slot.empty, live := record.live, dsDepth := record.dsDepth, rsv := record.rsv, mode := record.entryMode, shadow := 0
          endArrived := none, rerun := false, barrier := none, prog := 0, progFlags := 0, draining := none }) r
      else restoreSwarm s g record a (some t.coord)
    if diverted then modSwarm s4 r fun w => { w with wrapCause := w.wrapCause &&& ~~~(8 : Word) } else s4) s2
  settleWg s3 g

/-- The tile of a task that ends so is marked; one marked 4 counts a machine check (R375). -/
def markEnded (s : State) (seq tile code : Nat) : State :=
  writeCode (if code = 4 then { s with machineChecks := s.machineChecks + 1 } else s) seq tile code

/-- R372: the task ends by a trap without replay, its twin's with it, once both stand still; its tile is marked with the code given. A
stopped swarm keeps the task open. -/
def endNoReplay (s : State) (g : WgRef) : State :=
  match wg? s g, (wg? s g).bind Workgroup.task with
  | some w, some t =>
    match t.ending with
    | some (.noReplay code) =>
      if !(runsOf w).all (quiet s) || (runsOf w).any (fun q => (swarmsOf s q).any fun x => x.stopped) then s
      else
        match restartWaits s (runsOf w) with
        | some (r, e) => holdEngine s r stackName e
        | none =>
          let s1 := (runsOf w).foldl (fun s q =>
            match (wg? s q).bind Workgroup.task with | some tq => endNoReplayOne s q tq | none => s) s
          let tie := (launch? s g.seq).bind fun l => l.ties.find? fun z => z.tile = t.tile
          let first := tie.any fun z => [z.primary, z.twin].any fun q => ((wg? s q).bind Workgroup.task).any fun x => x.tile = t.tile
          -- a tie-breaking run that ends so leaves its tile to the first run while that is open
          if w.twin.tieBreak then
            (if first then s1 else markEnded (dropTie (dropParked s1 g.seq t.tile) g.seq t.tile) g.seq t.tile code)
          else markEnded s1 g.seq t.tile code
    | _ => s
  | _, _ => s

end Sys2Proof.Machine
end

