-- ==== Sys2Proof/Machine/Clause.lean ====
section
/-! DEFINITION. Clause headers, the fetch of a clause's words, and the checks at a clause's start (R67 to R73, R80 to R84, R165, R182, R193,
R280). -/

namespace Sys2Proof.Machine

/-! The header (R68). -/

def hdrMark (h : DWord) : Bool := h.extractLsb' 60 4 = 0xF
def hdrEngine (h : DWord) : Nat := (h.extractLsb' 56 4).toNat
/-- Number of words after the header. -/
def hdrCount (h : DWord) : Nat := (h.extractLsb' 52 4).toNat + 1
/-- The two wait conditions: path and threshold. -/
def hdrWaits (h : DWord) : List (Nat × Nat) :=
  [((h.extractLsb' 49 3).toNat, (h.extractLsb' 43 6).toNat), ((h.extractLsb' 40 3).toNat, (h.extractLsb' 34 6).toNat)]
/-- The reconvergence-point flag. -/
def hdrRcp (h : DWord) : Bool := h.getLsbD 33
def hdrMinIsa (h : DWord) : Nat := (h.extractLsb' 29 4).toNat

/-- Checks 1 to 4 of R82. -/
def headerFault (h : DWord) : Option Nat :=
  if !hdrMark h || 6 ≤ hdrEngine h then some codeIllegal
  else if h.extractLsb' 0 29 ≠ 0 || (hdrWaits h).any fun x => x.1 = 7 then some codeReserved
  else if Config.isa < hdrMinIsa h then some codeFeature
  else none

/-! Fetch (R67, R82). -/

/-- One word of code at a program counter. DESIGN CHOICE: R161 lists the accesses that trap on a page of the on-chip kind without code
among them, and no rule fetches from another module; both trap Protection here (log 84). -/
def fetchWord (s : State) (die ctx : Nat) (pc : DWord) : Except Stop DWord := do
  if pc.toNat % 8 ≠ 0 then .error (.trap 5 0 pc.toNat)
  else
    let (m, pa) ← translate s die ctx pc.toNat false
    if m.onChip.isSome || m.remote.isSome then .error (.trap 7 0 pc.toNat)
    else
      let d ← sectorData s pa pc.toNat
      .ok (BitVec.ofNat 64 (bytesToNat ((d.drop (pa % 64)).take 8)))

/-- The words after a header. -/
def fetchWords (s : State) (die ctx : Nat) (pc : DWord) : Nat → Except Stop (List DWord)
  | 0 => .ok []
  | n + 1 => do
    let w ← fetchWord s die ctx (pc + 8)
    let ws ← fetchWords s die ctx (pc + 8) n
    .ok (w :: ws)

/-! The checks of a clause's words (R82). -/

/-- The opcode of a word as a number. -/
def opAt (ws : List DWord) (k : Nat) : Option Nat := ws[k]?.map fun w => (opcodeOf w).toNat
def opNat (w : DWord) : Nat := (opcodeOf w).toNat
/-- The instruction a word holds, if any. -/
def instrOf (w : DWord) : Option Instr :=
  match decodeWord w with
  | .ok i => some i
  | .error _ => none
/-- A decoded opcode. -/
def assigned (w : DWord) : Bool := (instrOf w).isSome

/-- The word a prefix at index k applies to, past further prefixes. -/
def prefixTarget (ws : List DWord) : Nat → Nat → Option DWord
  | 0, _ => none
  | n + 1, k =>
    match ws[k]? with
    | none => none
    | some w => if isPrefix (opNat w) then prefixTarget ws n (k + 1) else some w

/-- Check 7 on the prefix at index k (R81). -/
def prefixFault (ws : List DWord) (k : Nat) : Bool :=
  match ws[k]?, prefixTarget ws ws.length (k + 1) with
  | some p, some w =>
    let run := (ws.drop (k + 1)).takeWhile fun x => isPrefix (opNat x)
    let f := Fields.ofWord w
    !assigned w || run.any (fun x => opNat x = opNat p) ||
      (if opNat p = 0xE0 then !admitsImx (opNat w) f else !admitsMsk (opNat w))
  | _, _ => true

/-- Stream registers that a word's source fields name. -/
def wordReads (w : DWord) : List Nat := ((instrOf w).map streamReads).getD []
/-- The stream register an SPUSH names. -/
def wordPush (w : DWord) : Option Nat := if opNat w = 0x94 then some ((Fields.ofWord w).dst.toNat - 0x80) else none

/-- Check 8 on the word at index k (R70, R165, R182, R193, R280). -/
def placementFault (engine : Nat) (ws : List DWord) (k : Nat) : Bool :=
  match ws[k]? with
  | none => false
  | some w =>
    let op := opNat w
    let upTo := ws.take (k + 1)
    let classBad := match classOf (opcodeOf w) with | some c => c ≠ engine | none => false
    let termBad := terminators.contains op && k + 1 ≠ ws.length
    let others := (ws.filter fun x => !isPrefix (opNat x) && opNat x ≠ 0x57).length
    let longBad := longOps.contains op && others ≠ 1
    let irrevBad := irrevocable.contains op &&
      (1 < (upTo.filter fun x => irrevocable.contains (opNat x)).length ||
        !(k + 1 = ws.length || (k + 2 = ws.length && match opAt ws (k + 1) with
          | some t => terminators.contains t && t ≠ 0x5D && t ≠ 0x5E
          | none => false)))
    let mmaBad := (op = 0x83 || op = 0x84) && 1 < (upTo.filter fun x => opNat x = 0x83 || opNat x = 0x84).length
    let waitBad := op = 0x70 && k ≠ 0
    let pushed := upTo.filterMap wordPush
    let read := (upTo.map wordReads).flatten
    classBad || termBad || longBad || irrevBad || mmaBad || waitBad || pushed.any fun p => read.contains p

/-- Checks 5 to 11 on the word at index k. -/
def wordFault (l : Limits) (engine : Nat) (ws : List DWord) (k : Nat) : Option Nat :=
  match ws[k]? with
  | none => none
  | some w =>
    match instrOf w with
    | none => some codeIllegal
    | some i =>
      let f := Fields.ofWord w
      let gate := introduced (opNat w) f
      let imx := (ws.take k).reverse.takeWhile (fun x => isPrefix (opNat x)) |>.any fun x => opNat x = 0xE0
      if Config.isa < gate.1 || (match gate.2 with | some b => !Config.feat0.getLsbD b | none => false) then some codeFeature
      else if isPrefix (opNat w) && prefixFault ws k then some codePrefix
      else if placementFault engine ws k then some codeIllegal
      else checkFields l imx i

/-- The first fault of a clause: its code and the index of its word. -/
def clauseFault (l : Limits) (h : DWord) (ws : List DWord) : Option (Nat × Nat) :=
  match headerFault h with
  | some c => some (c, 0)
  | none => (List.range ws.length).findSome? fun k => (wordFault l (hdrEngine h) ws k).map fun c => (c, k + 1)

/-- What bounds a swarm's words. -/
def limitsOf (s : State) (w : Swarm) : Limits :=
  ⟨w.rmax, ((wg? s (wgOf w.ref)).map Workgroup.accs).getD 0, quartersOf s w, w.ref.slice⟩

/-! What other swarms wait for. -/

/-- The counter of a path (R154). -/
def counterOf (w : Swarm) (p : Nat) : Nat := (w.inflight.getD p []).length

/-- The words of a slot's next clause, when they can be fetched and its header's waits are met. -/
def peekClause (s : State) (w : Swarm) (k : SlotId) : List DWord :=
  let pc := (slotOf w k).pc
  match fetchWord s (dieOf w.ref.core) (ctxOf s (wgOf w.ref)) pc with
  | .error _ => []
  | .ok h =>
    if (hdrWaits h).any fun x => x.2 < counterOf w x.1 then []
    else
      match fetchWords s (dieOf w.ref.core) (ctxOf s (wgOf w.ref)) pc (hdrCount h) with
      | .error _ => []
      | .ok ws => ws

/-- A swarm that has begun to wait, one of whose running slots stands before a word of the test. -/
def waitsWith (s : State) (w : Swarm) (p : Swarm → DWord → Bool) : Bool :=
  w.waitFrom.isSome && (w.sched = .waiting || w.sched = .ready || w.sched = .active) && [SlotId.a, SlotId.b].any fun k =>
    (slotOf w k).running && (peekClause s w k).any (p w)

/-- RSV values of a lane's swarms, with the raises that clauses in flight have been counted for since their issue (R36). -/
def laneRsv (s : State) (core lane : Nat) (except : SwarmRef) : Nat :=
  ((laneSwarms s core lane).filter fun w => w.ref ≠ except).map (fun w =>
    ((s.run.toList ++ s.runs).filter fun r => r.ref = w.ref).foldl (fun m r => max m r.grown) w.rsv) |>.sum
/-- Whether a GROW to n fits its lane (R36). -/
def growFits (s : State) (w : Swarm) (n : Nat) : Bool := laneRsv s w.ref.core w.lane w.ref + n ≤ 512

/-- The greatest raise that the GROWs of a clause obtain at its issue; 0 without one (R36). -/
def grownAt (s : State) (w : Swarm) (ws : List DWord) : Nat :=
  ws.foldl (fun m x =>
    let n := (Fields.ofWord x).imm18.toNat
    if opNat x = 0x5A && w.rsv < n && n ≤ w.rmax && growFits s w n then max m n else m) 0

/-- Whether a swarm is blocked in GROW (R35, R36). -/
def waitsToGrow (s : State) (r : SwarmRef) : Bool :=
  (swarm? s r).any fun w => waitsWith s w fun w x =>
    opNat x = 0x5A && (Fields.ofWord x).sel = 0 && w.rsv < (Fields.ofWord x).imm18.toNat && !growFits s w (Fields.ofWord x).imm18.toNat
/-- The unmapped names that blocking ACCALLOCs of a clause are to map (R209). -/
def tileNames (s : State) (w : Swarm) (ws : List DWord) : List Nat :=
  (ws.filterMap fun x =>
    let f := Fields.ofWord x
    if opNat x = 0x85 && f.opx = 0 && (tileOf s (wgOf w.ref) f.dst.toNat).isNone then some f.dst.toNat else none).eraseDups
/-- Tiles that a swarm waiting in ACCALLOC is to receive before those that have waited less long. -/
def tilesOwed (s : State) (w : Swarm) : Nat :=
  max 1 (([SlotId.a, SlotId.b].filter fun k => (slotOf w k).running).map fun k => tileNames s w (peekClause s w k)).flatten.eraseDups.length
/-- Whether a swarm's next clause waits for a tile alone (R209), or for a slice context (R291). -/
def waitsForTile (w : Swarm) : Bool := w.waitFrom.isSome && w.waitFor = .tile && w.sched ≠ .done && !w.stopped
def waitsForSlice (w : Swarm) : Bool := w.waitFrom.isSome && w.waitFor = .context && w.sched ≠ .done && !w.stopped
/-- Running slice contexts of a cluster (R273). -/
def slicesIn (s : State) (cluster : Nat) : Nat :=
  (s.swarms.filter fun w => w.ref.slice && clusterOf w.ref.core = cluster).length

/-- Older waiters first; ties go to the older launch, then to the lower swarm (R209, R291). A swarm that does not wait yet comes last. -/
def waitedLonger (x y : Swarm) : Bool :=
  let before (a b : Option Nat) : Bool := match a, b with | some m, some n => m < n | some _, none => true | none, _ => false
  before x.waitFrom y.waitFrom || (x.waitFrom = y.waitFrom && (x.ref.seq < y.ref.seq || (x.ref.seq = y.ref.seq && x.ref.idx < y.ref.idx)))

end Sys2Proof.Machine
end

