-- ==== Sys2Proof/Machine/Commit.lean ====
section
/-! DEFINITION. The completion of a clause: its effects in program order, its paths, its flags, and what becomes of it when one of its
instructions stops (R22, R23, R27 to R30, R34, R38, R39, R154, R163 to R182, R189, R190, R293, R304). -/

namespace Sys2Proof.Machine

/-- An operation is issued on an access path: the counter rises (R154). -/
def newOp (s : State) (r : SwarmRef) (path : Nat) : Nat × State :=
  (s.nextId, modSwarm { s with nextId := s.nextId + 1 } r fun w =>
    { w with inflight := w.inflight.modify path (· ++ [⟨s.nextId, false⟩]) })

/-- A long instruction has performed its element: PROG advances, and the clause stays at its word (R24). The flags that its elements have
raised stay with PROG (R23). -/
def advance (s : State) (rd : Run) (prog : Nat) : State :=
  { modSwarm s rd.ref (fun w => { w with prog, progFlags := rd.raised }) with
    run := some { rd with work := { rd.work with prog, progFlags := rd.raised } } }

/-- Change the workgroup's open task. -/
def modTask (s : State) (g : WgRef) (f : Task → Task) : State := modWg s g fun w => { w with task := w.task.map f }

/-! Stores (R152, R167 to R170, R179, R180). -/

/-- One thread's store enters the buffer and marks its line. -/
def storeCell (r : SwarmRef) (home : Bool) (id : Nat) (s : State) (c : Nat × Nat × List Byte) : Except Stop State := do
  let a := accessOf s r
  let (_, pa) ← translateData s a.die a.ctx c.2.1 true
  let s ← settleReds s r.core pa
  .ok (wcbStore (markRel s r pa) r.core a.ctx c.2.1 pa c.2.2 home a.task (r, id))

/-- A sector of the own core's L1 takes a store's bytes, or goes under .HOME. -/
def l1Write (s : State) (core pa : Nat) (bytes : List Byte) (home : Bool) : State :=
  if home then l1Drop s core fun x => x = pa / 64 * 64
  else
    let mask : BitVec 64 := BitVec.ofNat 64 (2 ^ (pa % 64 + bytes.length) - 2 ^ (pa % 64))
    let data := List.replicate (pa % 64) 0 ++ bytes
    modCore s core fun c => { c with
      l1 := c.l1.filterMap fun x => if x.pa = pa / 64 * 64 then l1Take x data mask none else some x }

/-- Mark the lines of addresses in the release accumulators. -/
def markAll (r : SwarmRef) (s : State) (vas : List Nat) : Except Stop State :=
  vas.foldlM (fun s va => do
    let a := accessOf s r
    let (_, pa) ← translateData s a.die a.ctx va true
    .ok (markRel s r pa)) s

/-- A release store outside a task, at a scope that leaves the core (R170): what came before is performed, then the bytes with the
signature. -/
def releaseStore (r : SwarmRef) (home : Bool) (rels : List Nat) (s : State) (cells : List (Nat × Nat × List Byte)) :
    Except Stop State := do
  let s1 ← markAll r s (cells.map fun c => c.2.1)
  let (sig, s2) ← releaseAt s1 r rels
  cells.foldlM (fun s c => do
    let a := accessOf s r
    let (_, pa) ← translateData s a.die a.ctx c.2.1 true
    let s3 := drainWhere s r.core fun e => e.pa = pa / 64 * 64
    .ok (l1Write (performBytes s3 pa c.2.2 (.replace sig)) r.core pa c.2.2 home)) s2

/-- ST at completion. With no active thread nothing is issued. -/
def commitStore (s : State) (r : SwarmRef) (cells : List (Nat × Nat × List Byte)) (home : Bool) (rels : List Nat) :
    Except Stop State :=
  if cells.isEmpty then .ok s
  else if outer rels && !inTask s (wgOf r) then releaseStore r home rels s cells
  else do
    -- a release inside the core orders what came before it, and carries no signature (R170, R230)
    let (_, s0) ← releaseAt s r (rels.filter (· < 4))
    let (id, s1) := newOp s0 r 0
    let s2 ← cells.foldlM (storeCell r home id) s1
    .ok (if outer rels then
        modTask s2 (wgOf r) fun t => { t with releases := t.releases ++ [(r.idx, cells.map Prod.snd, rels, false)] }
      else s2)

/-! Atomics at completion (R177 to R179). -/

/-- The words an ATOM, or an ATOMV outside a task, leaves, performed at their homes. -/
def writeAtoms (r : SwarmRef) (rels : List Nat) (s : State) (cells : List (Nat × List Byte)) : Except Stop State := do
  let s1 ← markAll r s (cells.map Prod.fst)
  let (sig, s2) ← releaseAt s1 r rels
  let s3 ← cells.foldlM (fun s c => do
    let a := accessOf s r
    let (_, pa) ← translateData s a.die a.ctx c.1 true
    let s4 := drainWhere s r.core fun e => e.pa = pa / 64 * 64
    let s5 := performBytes s4 pa c.2 (if outer rels then .merge sig else .keep)
    .ok (countDie (l1Drop s5 r.core fun x => x = pa / 64 * 64) (homeDie s5 pa) 0x4B a.ctx)) s2
  .ok s3

/-- ATOM and ATOMV at completion. -/
def commitAtom (s : State) (r : SwarmRef) (cells : List (Nat × List Byte)) (versioned : Bool) (rels : List Nat) :
    Except Stop State :=
  if cells.isEmpty then .ok s
  else if versioned && inTask s (wgOf r) then do
    let (_, s0) ← releaseAt s r (rels.filter (· < 4))
    let s1 ← markAll r s0 (cells.map Prod.fst)
    let s2 ← cells.foldlM (fun s c => directWrite s (accessOf s r) c.1 c.2 .keep) s1
    .ok (if outer rels then modTask s2 (wgOf r) fun t => { t with releases := t.releases ++ [(r.idx, cells, rels, true)] } else s2)
  else do
    let s1 ← writeAtoms r rels s cells
    .ok (markNonReplayable s1 r)

/-- The L1 sectors that requests touch go when they are sent (R234). -/
def dropSent (s : State) (r : SwarmRef) (reqs : List AtomicReq) : State :=
  let a := accessOf s r
  let pas := reqs.filterMap fun q => match translate s a.die a.ctx q.va true with | .ok (_, pa) => some (pa / 64 * 64) | .error _ => none
  l1Drop s r.core pas.contains

/-- RED at completion: its requests wait at the homes (R178). -/
def commitRed (s : State) (r : SwarmRef) (pc : DWord) (reqs : List AtomicReq) (rels : List Nat) : Except Stop State :=
  if reqs.isEmpty then .ok s
  else do
    let s1 ← markAll r s (reqs.map AtomicReq.va)
    let (sig, s2) ← releaseAt s1 r rels
    let (id, s3) := newOp (dropSent s2 r reqs) r 0
    .ok (markNonReplayable { s3 with atomics := s3.atomics ++ [⟨id, r, pc, reqs, if outer rels then some sig else none⟩] } r)

/-! Copies (R174, R175, R184, R197). -/

/-- Path of an operation that runs after its clause (R166, R197). -/
def AsyncKind.path : AsyncKind → Nat
  | .cpin .. | .cpout .. => 2
  | .cpob .. => 3
  | .flush .. => 0

/-- Whether a copy out has a page of the on-chip physical map in its destination, which makes it immediate-class (R175). -/
def copyImmediate (s : State) (a : Access) : AsyncKind → Bool
  | .cpout va _ len => (sectorsOf len).any fun o =>
      match translate s a.die a.ctx (va + o) true with
      | .ok (m, _) => m.onChip.isSome
      | .error _ => false
  | _ => false

/-- The lines a copy out writes, for the release accumulators (R242). -/
def copyMarks (s : State) (r : SwarmRef) : AsyncKind → State
  | .cpout va _ len => (sectorsOf len).foldl (fun s o =>
      let a := accessOf s r
      match translate s a.die a.ctx (va + o) true with
      | .ok (m, pa) => if m.onChip.isSome then s else markRel s r pa
      | .error _ => s) s
  | _ => s

/-- A copy, CPOB or FLUSH passes to its engine. -/
def commitAsync (s : State) (r : SwarmRef) (pc : DWord) (k : AsyncKind) : State :=
  let (id, s1) := newOp (copyMarks s r k) r k.path
  let s2 := { s1 with asyncs := s1.asyncs ++ [⟨id, r, pc, k.path, k⟩] }
  if copyImmediate s (accessOf s r) k then markNonReplayable s2 r else s2

/-! Cells (R316, R318, R320). -/

/-- RECYCLE's requests go to their homes; one operation stands for all. A request for another module travels by the fabric, after the
swarm's earlier ones to its cell (R318). -/
def commitRecycle (s : State) (r : SwarmRef) (pc : DWord) (reqs : List (Nat × Nat × BitVec 128)) : Except Stop State :=
  if reqs.isEmpty then .ok s
  else do
    let (id, s1) := newOp s r 5
    let a := accessOf s r
    let s2 ← reqs.foldlM (fun s q => do
      let (m, pa) ← translate s a.die a.ctx q.1 false
      let s2 := markRel s r pa
      let home := elsewhere s m
      let wait : State := { s2 with cellWaits := s2.cellWaits ++ [⟨id, some r, 0, pc, a.ctx, q.1, pa, home, .recycle q.2.1 q.2.2, none⟩] }
      match home with
      | some n =>
        if !s2.fabric.current.mods.contains n then .ok s2
        else if cellBusy s r pa home then .ok wait
        else .ok (sendCell s2 n pa (.recycle q.2.1 q.2.2) [(id, r, 0, pc, q.1)])
      | none => .ok wait) s1
    .ok (if recyclePending s2 id then s2 else opDone s2 r 5 id)

/-! Order on the paths (R181, R182). -/

/-- Operations outstanding on the paths of a mask. -/
def outstanding (w : Swarm) (mask : BitVec 7) : List Nat :=
  ((List.range 7).map fun p =>
    if mask.getLsbD p then ((w.inflight.getD p []).filter fun o => !o.done).map PathOp.id else []).flatten

/-- FENCEX at completion: the next clause waits for the operations; the LDST source drains the buffer. -/
def commitFencex (s : State) (r : SwarmRef) (src : BitVec 7) : State :=
  let s1 := if src.getLsbD 0 then drainSwarm s r else s
  modSwarm s1 r fun w => { w with fenceOps := w.fenceOps ++ outstanding w src }

/-! Hive queues (R186 to R189). -/

/-- Bytes of an entry of a width: 0 W1, 1 W2, 2 W4. -/
def entryBytes (width : Nat) : Nat := 128 * 2 ^ width

def modHive (s : State) (core q : Nat) (f : Queue → Queue) : State := modCore s core fun c => { c with queues := c.queues.modify q f }
def hiveAt (s : State) (core q : Nat) : Queue := (coreAt s core).queues.getD q Queue.unowned

/-- QPUSH writes its entry at the tail. -/
def commitPush (s : State) (r : SwarmRef) (q : Nat) (words : List Word) : State :=
  let x := hiveAt s r.core q
  let off := x.base + x.tail % x.cap * entryBytes x.width
  let s1 := scratchPut s (wgOf r) off (words.map fun w => natToBytes 4 w.toNat).flatten
  modHive s1 r.core q fun x => { x with
    tail := (x.tail + 1) % x.cap, pushers := x.pushers ++ [r.idx], pushRes := x.pushRes.erase r }
/-- QPOP takes the head entry away; its storage stays. -/
def commitPop (s : State) (r : SwarmRef) (q : Nat) : State :=
  modHive s r.core q fun x => { x with
    head := (x.head + 1) % x.cap, pushers := x.pushers.drop 1, popRes := x.popRes.erase r }

/-! The barrier (R190). -/

/-- A swarm arrives. -/
def commitTbar (s : State) (r : SwarmRef) (scope id : Nat) : State :=
  match swarm? s r with
  | none => s
  | some w =>
    let team := if scope = 3 then 0 else w.team
    let here (b : Barrier) : Bool := b.scope = scope && b.id = id && b.team = team
    let s1 := modWg s (wgOf r) fun g =>
      if g.barriers.any here then { g with barriers := g.barriers.map fun b => if here b then { b with arrived := b.arrived ++ [r.idx] } else b }
      else { g with barriers := g.barriers ++ [⟨scope, team, id, 0, [r.idx]⟩] }
    let phase := (((wg? s1 (wgOf r)).bind fun g => g.barriers.find? here).map Barrier.phase).getD 0
    settleBarriers (modSwarm s1 r fun w => { w with barrier := some (scope, id, phase) }) (wgOf r)

/-! Streams and slices (R276, R291, R293). -/

/-- A swarm as it is created, or a slice, over the fields that differ (R17, R285). -/
def Swarm.fresh (r : SwarmRef) (lane teamPos team : Nat) (inTeam : Bool) (entry : DWord) (mode : Word) : Swarm where
  ref := r
  lane := lane
  teamPos := teamPos
  team := team
  inTeam := inTeam
  regs := List.replicate 128 none
  regErrs := []
  preds := List.replicate 64 0
  streams := List.replicate 16 Stream.unbound
  slotA := ⟨true, false, entry, 0xFFFFFFFF, Config.noneAddr, Config.noneAddr⟩
  slotB := Slot.empty
  lastSlot := .b
  live := 0xFFFFFFFF
  dsBase := 0
  dsLim := 0
  dsDepth := 0
  rsv := 0
  rmax := 0
  -- the sticky flags and the reserved bits are 0 whatever the descriptor holds (R20)
  mode := mode &&& 0x3FFF
  shadow := 0
  entryMode := mode &&& 0x3FFF
  prog := 0
  progFlags := 0
  rstPc := Config.noneAddr
  rstRec := (Config.noneAddr, Config.noneAddr, 0)
  wrapCause := 0
  inflight := List.replicate 8 []
  relAcc := List.replicate 4 0
  received := List.replicate 4 0
  pendRel := []
  fenceOps := []
  barrier := none
  endArrived := none
  rerun := false
  pendFetch := none
  deferred := []
  sliceBinds := []
  sched := .ready
  since := 0
  waitFrom := none
  waitFor := .other
  freeFrom := 0
  leftLane := 0
  draining := none
  haltedFrom := .ready
  stopped := false
  diverted := false
  mismatches := 0

/-- The register file of a slice: v0 to v31 of one thread (R285). -/
def sliceRegs (args : List Word) : List (Option VReg) :=
  ((List.range 32).map fun k => some ⟨0, args.getD k 0 :: List.replicate 31 0, none⟩) ++ List.replicate 96 none

/-- FGSTART at completion: the slice runs. -/
def startSlice (s : State) (r : SwarmRef) (args : List Word) : State :=
  match swarm? s r with
  | none => s
  | some w =>
    let entry := ((wg? s (wgOf r)).map Workgroup.sliceEntry).getD Config.noneAddr
    let x := Swarm.fresh (sliceOf r) w.lane w.teamPos w.team w.inTeam entry w.mode
    { s with swarms := s.swarms ++ [{ x with
        regs := sliceRegs args, live := 1, rsv := 32, rmax := 32, since := s.cycle
        slotA := { x.slotA with mask := 1 } }] }

/-- SPUSH at completion: the entry is written into the ring. -/
def commitSpush (s : State) (r : SwarmRef) (k : Nat) (words : List Word) (eod : BitVec 4) (last : Bool) : State :=
  let o := ownerOf r
  match swarm? s o with
  | none => s
  | some w =>
    let x := w.streams.getD k Stream.unbound
    let off := x.ring + 128 * ((x.head + x.entries.length) % x.depth)
    let s1 := modWg s (wgOf r) fun g => { g with scratch := scratchWrite g.scratch off (words.map fun v => natToBytes 4 v.toNat).flatten }
    modSwarm s1 o fun w => { w with streams := w.streams.modify k fun x =>
      let y := { x with entries := x.entries ++ [⟨eod, none⟩] }
      (if last then endStream y else y) }

/-- A change of binding at completion: the swarm's own at once, a slice's at its owner's next clause boundary, at which the owner already
stands when no clause of its is in flight (R293). -/
def commitBind (s : State) (r : SwarmRef) (c : BindChange) : State :=
  if r.slice then
    let s1 := modSwarm s (ownerOf r) fun w => { w with sliceBinds := w.sliceBinds ++ [c] }
    (if (s1.run.toList ++ s1.runs).any fun x => x.ref = ownerOf r then s1 else applySliceBinds s1 (ownerOf r))
  else dropWalks (modSwarm s r fun w => applyBind w c) r

/-! Snapshot views (R325, R416). -/

/-- SNAP at completion: every write translated before it is performed, REDs and copies out among them, and the alias stands over shared
granules. A held one makes the SNAP wait (R325). -/
def makeView (s : State) (ctx id range len alias_ : Nat) : Except Stop State := do
  let mine (r : SwarmRef) : Bool := ctxOf s (wgOf r) = ctx
  let s1 := (s.cores.map Core.idx).foldl (fun s n => drainWhere s n fun e => e.ctx = ctx && e.task.isNone) (deliverAll s)
  let settled : Except Stop State := do
    let s2 ← performReds s1 mine
    (s2.asyncs.filter fun x => mine x.ref && match x.kind with | .cpout .. => true | _ => false).foldlM performAsync s2
  match settled with
  | .ok s3 => .ok { s3 with views := s3.views ++ [⟨ctx, id, range, len, alias_, List.replicate (len / 65536) .shared, s.clkns, none⟩] }
  | .error _ => .error .wait
/-- Frames a view holds in the shadow pool. -/
def View.frames (v : View) : Nat := (v.granules.filter fun g => g ≠ .shared).length
/-- SNAP.END at completion: the view's frames return, its alias is unmapped, and held writes try again. -/
def endView (s : State) (ctx id : Nat) : State :=
  let ended := s.views.filter fun v => v.ctx = ctx && v.id = id
  let s1 := { s with views := s.views.filter fun v => v.ctx ≠ ctx || v.id ≠ id }
  let s2 := ended.foldl (fun s v => modContext s ctx fun c => { c with shadowPool := c.shadowPool.map (· + v.frames) }) s1
  releaseWhere s2 fun h => h.queued && h.why = .snapshot && h.ctx = ctx

/-! One effect (R38). -/

/-- RELS waits for the CPOBs the swarm issued into the record (R196): they are performed first, or the clause waits. -/
def commitRels (s : State) (r : SwarmRef) (n : Nat) : Except Stop State :=
  match (s.asyncs.filter fun x => x.ref = r && match x.kind with | .cpob m .. => m = n | _ => false).foldlM performAsync s with
  | .error _ => .error .wait
  | .ok s1 => .ok (modWg s1 (wgOf r) fun g => { g with records := g.records.set n none })

/-- WRAPRET at completion (R353): the arrival, if one is still to make, and no thread lives on. -/
def commitWrapret (s : State) (r : SwarmRef) : State :=
  let open_ := inTask s (wgOf r)
  modSwarm s r fun w => { w with
    endArrived := if open_ && w.endArrived.isNone then some .abandon else w.endArrived
    rerun := false
    live := 0, slotA := Slot.empty, slotB := Slot.empty, dsDepth := 0 }

/-- What keeps a record from becoming live: it is live, its granules lie outside the buffer, or they overlap a live record's (R195). -/
def resvCheck (granules : Nat) (recs : List (Option Reservation)) (n base count : Nat) : Except Stop Unit :=
  if (recs.getD n none).isSome then .error (.trap 7 0x0302 0)
  else if granules < base + count then .error (.trap 7 0x0304 0)
  else if recs.any fun x => x.any fun y => base < y.base + y.granules && y.base < base + count then .error (.trap 7 0x0303 0)
  else .ok ()
/-- RESV at completion: another swarm may have made a record live since it executed. -/
def commitResv (s : State) (g : WgRef) (n : Nat) (x : Reservation) : Except Stop State :=
  match wg? s g with
  | none => .ok s
  | some w => do
    resvCheck w.obufGranules w.records n x.base x.granules
    .ok (modWg s g fun w => { w with records := w.records.set n (some x) })

/-- An effect of a clause takes place. -/
def applyEffect (r : SwarmRef) (pc : DWord) (s : State) (e : Effect) : Except Stop State :=
  let g := wgOf r
  match e with
  | .st cells home rels => commitStore s r cells home rels
  | .sts cells => .ok (cells.foldl (fun s x => scratchPut s g x.2.1 x.2.2) s)
  | .atom cells versioned rels => commitAtom s r cells versioned rels
  | .red reqs rels => commitRed s r pc reqs rels
  | .async k => .ok (commitAsync s r pc k)
  | .recycle reqs => commitRecycle s r pc reqs
  | .proposed cells => .ok (modTask s g fun t => { t with cellOps := t.cellOps ++ cells })
  | .settle drain =>
    (match settleSwarm s r drain with
      | .ok s1 => .ok s1
      | .error _ => .error .wait)
  | .fencex src => .ok (commitFencex s r src)
  -- another workgroup may have initialised the queue since
  | .qinit q base cap width allow =>
    if (hiveAt s r.core q).owner.any (· ≠ g) then .error (.trap 0x11 0 0)
    else .ok (modHive s r.core q fun _ => ⟨some g, base, cap, width, allow, 0, 0, [], [], []⟩)
  | .qpush q words => .ok (commitPush s r q words)
  | .qpop q => .ok (commitPop s r q)
  | .tbar scope id => .ok (commitTbar s r scope id)
  | .resv n base granules ty scoff ssoff => commitResv s g n ⟨base, granules, ty, scoff, ssoff⟩
  | .rels n => commitRels s r n
  -- another swarm may have mapped the name since: then the tile taken stays free
  | .accMap n tile => .ok (if (tileOf s g n).isSome then s else mapTile s g n tile)
  | .accFree n => do
    tileReady s r n true
    .ok (unmapName s g n)
  | .accZero n => do
    tileReady s r n true
    let (t, s1) ← useTile s g n
    .ok (modTile s1 r.core t zeroElems)
  | .accZeroExc => .ok (modWg s g fun w => { w with exc := [0, 0, 0, 0], excShadow := [0, 0, 0, 0] })
  | .accWrite n cells => do
    tileReady s r n true
    let (t, s1) ← useTile s g n
    .ok (modTile s1 r.core t (setElems cells))
  | .bind c => .ok (commitBind s r c)
  | .fgstart args => .ok (startSlice s r args)
  | .fgstop => .ok (stopSlice s r)
  | .spush k words eod last =>
    let x := ((swarm? s (ownerOf r)).map fun w => w.streams.getD k Stream.unbound).getD Stream.unbound
    if !x.bound || !x.desc.push || x.ended then .error (.trap 0x11 0x0404 0)
    else if x.depth ≤ x.entries.length then .error .wait
    else .ok (commitSpush s r k words eod last)
  | .endArrive k => .ok (modSwarm s r fun w => { w with endArrived := some (w.endArrived.getD k), rerun := false })
  | .enq q cmd ext =>
    .ok (if inTask s g then modTask s g fun t => { t with enqs := t.enqs ++ [(q, r.idx, cmd, ext)] } else enqWrite s q cmd ext)
  | .transfer t =>
    let (id, s1) := newOp s r 4
    .ok (startTransfer (if t.get then s1 else markNonReplayable s1 r) r pc id t)
  | .cred c => let (id, s1) := newOp s r 4; startCred s1 r pc id c
  | .snap id range len alias_ => (makeView s (ctxOf s g) id range len alias_)
  | .snapEnd id => .ok (endView s (ctxOf s g) id)
  | .reel desc records => let (id, s1) := newOp s r 4; .ok (startReel s1 r pc id desc records)
  | .rsv n => .ok (modSwarm s r fun w => { w with rsv := n })
  | .mode v => .ok (modSwarm s r fun w => { w with mode := v, shadow := 0 })
  | .wrapret => .ok (commitWrapret s r)

/-- The effects of a clause in program order. -/
def applyEffects (s : State) (r : Run) : Except Stop State := r.effects.foldlM (applyEffect r.ref r.pc) s

/-! Completion. -/

/-- n entries leave a stream. -/
def popMany : Nat → Stream → Stream
  | 0, x => x
  | n + 1, x => popMany n (popEntry x)

/-- What the clause owns of its swarm takes the place of the swarm's own: registers with the honoured last reads freed (R34),
predicates, stream positions, the restart label, pending releases and PROG. A register's error stays until its word is written or the
register unmapped (R141). -/
def mergeRun (r : Run) (w : Swarm) : Swarm :=
  { w with
    regErrs := w.regErrs.filter fun e => (r.work.regs.getD e.1 none).isSome && !r.frees.contains e.1 &&
      !(r.writes.any fun x => x.1 = e.1 && x.2.1.getLsbD e.2)
    progFlags := r.work.progFlags
    draining := none
    regs := r.work.regs.mapIdx fun k x => if r.frees.contains k then none else x
    preds := r.work.preds
    streams := w.streams.mapIdx fun k x => popMany ((r.work.streams.getD k x).head - x.head) x
    rstPc := r.work.rstPc
    rstRec := r.work.rstRec
    pendRel := r.work.pendRel
    prog := r.work.prog }

/-- The slots after the clause: its branch, then the exit of its exiting threads (R27, R29, R123). -/
def pathsAfter (r : Run) : Except Stop Paths := do
  let p ← branchPaths r
  let m := p.x.mask &&& ~~~r.exits
  .ok (if r.exits = 0 then p else if m = 0 then { p with x := Slot.empty } else { p with x := { p.x with mask := m } })

/-- Write the entries a branch pushes (R30). -/
def pushEntries (r : SwarmRef) (s : State) (es : List (List Byte)) : Except Stop State :=
  es.foldlM (fun s e =>
    match swarm? s r with
    | none => .ok s
    | some w => do
      let (_, pa) ← translate s (dieOf r.core) (ctxOf s (wgOf r)) (w.dsBase + 32 * w.dsDepth) true
      .ok (modSwarm (performBytes s pa e .clear) r fun w => { w with dsDepth := w.dsDepth + 1 })) s

/-- Both slots' VALID and PARKED. -/
def slotMarks (w : Swarm) : Bool × Bool × Bool × Bool := (w.slotA.valid, w.slotA.parked, w.slotB.valid, w.slotB.parked)

/-- The step of R29 when a slot's VALID or PARKED has changed. -/
def reconvergeFrom (s : State) (r : SwarmRef) (before : Bool × Bool × Bool × Bool) : Except Stop State :=
  match swarm? s r with
  | none => .ok s
  | some w =>
    if slotMarks w = before then .ok s
    else do
      let w1 ← reconverge s w
      .ok (putSwarm s w1)

/-- Both slots are invalid and nothing is stacked: the swarm ends (R29). -/
def Swarm.over (w : Swarm) : Bool := !w.slotA.valid && !w.slotB.valid && w.dsDepth = 0

/-- Drop the clause in flight from the machine. -/
def dropRun (s : State) (r : SwarmRef) : State :=
  { s with run := if s.run.any fun x => x.ref = r then none else s.run
           runs := s.runs.filter fun x => x.ref ≠ r }

/-- Whether an effect is a versioned write (R304). -/
def Effect.versioned : Effect → Bool
  | .st .. => true
  | .atom _ v _ => v
  | .async (.cpout ..) => true
  | _ => false

/-- Complete a clause of a slice: it goes on, or ends at its EXIT (R285). -/
def commitSlice (s : State) (r : Run) (p : Paths) : Except Stop State := do
  let s1 ← applyEffects (modSwarm (dropRun s r.ref) r.ref fun w => { mergeRun r w with slotA := p.x, sched := .ready }) r
  .ok (if p.x.valid then s1 else stopSlice s1 (ownerOf r.ref))

/-- Whether a clause freed a register or lowered a reservation, for which swarms in RegisterWait try again (R35). -/
def freesRegs (r : Run) (w : Swarm) : Bool :=
  r.effects.any (fun e => match e with | .rsv _ => true | _ => false) ||
    (List.range 128).any fun k => (w.regs.getD k none).isSome && (r.frees.contains k || (r.work.regs.getD k none).isNone)

/-- When every swarm of a lane that is not DONE waits for registers or in a GROW, the one that entered its wait last traps (R35). -/
def exhaustLane (s : State) (core lane : Nat) : State :=
  let inRegs (w : Swarm) : Bool := s.dies.any fun d => d.holds.any fun h => h.ref = w.ref && h.why = .regs
  let ws := (laneSwarms s core lane).filter fun w => w.sched ≠ .done
  if ws.isEmpty || !(ws.all fun w => inRegs w || waitsToGrow s w.ref) then s
  else
    let later (m : Option Swarm) (w : Swarm) : Option Swarm :=
      if m.any fun x => w.waitFrom.getD w.since < x.waitFrom.getD x.since then m else some w
    match ws.foldl later none with
    | none => s
    | some w =>
      let k : SlotId := if w.slotA.running then .a else .b
      takeTrap (releaseWhere s fun h => h.ref = w.ref && h.engine.isNone) w.ref ⟨8, 0, 0, (slotOf w k).pc, 0, w.prog, 0⟩

/-- A clause's register accesses: the banks it read and wrote, and its writes (R37, R139, R384). -/
def noteAccesses (s : State) (r : Run) (w : Swarm) : State :=
  let reads := (r.words.map fun x => ((instrOf x).map (regReads s r)).getD []).flatten
  noteWrites (touchBanks s r.ref.core w.lane (ctxOf s (wgOf r.ref)) (regBanks r.work.regs reads)) r.ref r.work.regs w.lane r.writes

/-- A swarm becomes DONE, which may leave its lane to waiters alone. -/
def endSwarm (s : State) (r : SwarmRef) : State :=
  match swarm? s r with
  | none => s
  | some w => exhaustLane (markDone s r) r.core w.lane

/-- Complete a clause of a swarm. -/
def commitSwarm (s : State) (r : Run) (w : Swarm) (p : Paths) : Except Stop State := do
  let g := wgOf r.ref
  let s1 := modSwarm (dropRun s r.ref) r.ref fun w =>
    let w1 := setSlot (setSlot (mergeRun r w) r.slot p.x) r.slot.other p.y
    { w1 with mismatches := 0, live := w1.live &&& ~~~r.exits, lastSlot := if p.pushes.isEmpty then r.slot else r.slot.other }
  let s2 ← applyEffects s1 r
  let s3 ← (if inTask s g && r.effects.any Effect.versioned && decide (Config.versionBudget < coreVersionCount s2 r.ref.core) then
      Except.error (Stop.trap 0x0A 0 0) else .ok s2)
  let s4 ← pushEntries r.ref s3 p.pushes
  let s5 ← reconvergeFrom s4 r.ref (slotMarks w)
  let s6 := modSwarm s5 r.ref fun w =>
    let w1 := mergeFlags (inTask s g) w r.raised
    if r.exits = 0 then w1 else absorbShadow w1
  let s6 := if freesRegs r w then wakeRegs s6 r.ref.core w.lane else s6
  let s7 := takeDeferred (noteAccesses (applySliceBinds s6 r.ref) r w) r.ref
  .ok (if (swarm? s7 r.ref).any Swarm.over then endSwarm s7 r.ref
    else if r.effects.any fun e => match e with | .endArrive _ => true | _ => false then settleWg s7 g else s7)

/-- What stands before a FETCH in its clause takes effect as the fetch completes, between the tasks (R38, R351; log 13). -/
def commitFetch (s : State) (r : Run) : Except Stop State :=
  match swarm? s r.ref with
  | none => .ok s
  | some w => do
    let s1 ← applyEffects (modSwarm s r.ref fun w => { mergeRun r w with mismatches := 0, lastSlot := r.slot }) r
    let s2 := modSwarm s1 r.ref fun w => mergeFlags (inTask s (wgOf r.ref)) w r.raised
    .ok (noteAccesses (if freesRegs r w then wakeRegs s2 r.ref.core w.lane else s2) r w)

/-- COMPLETE A CLAUSE: an enabled exception traps (R22), else everything it did takes effect together (R38). -/
def commitRun (s : State) (r : Run) : Except Stop State :=
  match enabledTrap r.work.mode r.raised, swarm? s r.ref with
  | some d, _ => .error (.trap 0x13 d 0)
  | none, none => .ok (dropRun s r.ref)
  | none, some w => do
    let p ← pathsAfter r
    if r.ref.slice then commitSlice s r p else commitSwarm s r w p

/-! What becomes of a clause that does not go on. -/

/-- The accumulator that the present word of a clause drains. -/
def drainName (r : Run) : Option Nat :=
  r.words[r.idx]?.bind fun w => if opNat w = 0x8A then some (Fields.ofWord w).dst.toNat else none

/-- STOP A CLAUSE: it is squashed, and the swarm traps or is held; or it stays in flight where it is, until the operation it depends on has
gone on (R35, R38, R39, R161, R196, R212, R230). A DRAIN that is held counts as begun (R218). -/
def stopRun (s : State) (r : Run) (e : Stop) : State :=
  let trap (s : State) (code detail addr : Nat) : State :=
    let prog := ((swarm? s r.ref).map Swarm.prog).getD 0
    modSwarm (takeTrap s r.ref ⟨code, detail, if r.ref.slice then 1 else 0, r.pc, addr, prog, 0⟩) r.ref fun w => { w with draining := none }
  let s := match drainName r with
    | some n => modSwarm s r.ref fun w => { w with draining := some n }
    | none => s
  match e with
  | .trap code detail addr =>
    let s1 := trap (if code = 0x0C then noteUncorrectable s r.ref detail addr else s) code detail addr
    if code = 0x0A then countDie s1 (dieOf r.ref.core) 0x49 (ctxOf s (wgOf r.ref)) else s1
  | .badScratch persistent => trap (noteScratch s r.ref persistent) 0x0C 0x0006 0
  | .miss va write => holdSwarm s r.ref va .fault write
  | .held _ .regs => if lastToWait s r.ref (waitsToGrow s) then trap s 8 0 0 else holdSwarm s r.ref 0 .regs
  | .held va why => holdSwarm s r.ref va why
  | .wait => { s with run := s.run.filter fun x => x.ref ≠ r.ref, runs := (s.runs.filter fun x => x.ref ≠ r.ref) ++ [{ r with phase := .stalled }] }

/-- The clause completes, or stops at its completion. -/
def completeRun (s : State) (r : Run) : State :=
  match commitRun s r with
  | .ok s1 => s1
  | .error e => stopRun s r e

/-- A clause between two of its words: the next one, the arrival at an MMA (R201), or completion. -/
def continueRun (s : State) (r : Run) : State :=
  if r.idx < r.words.length then { s with run := some r }
  else if r.arrival.isSome then { s with run := none, runs := s.runs ++ [{ r with phase := .arrived }] }
  else completeRun s r

/-- The clause after its present word; a prefix's value does not outlive the word. -/
def pastWord (r : Run) : Run := { r with idx := r.idx + 1, imx := none, msk := none }
/-- After a word, the clause continues. -/
def nextWord (s : State) (r : Run) : State := continueRun s (pastWord r)
/-- After a word whose result another agent gives, the clause waits; its prefixes' values stand until the result is there. -/
def parkRun (s : State) (r : Run) (phase : RunPhase) : State :=
  { s with run := none, runs := s.runs ++ [{ r with idx := r.idx + 1, phase }] }
/-- A long instruction is done: PROG is 0 (R24). -/
def finishLong (s : State) (wr : Run) : State := nextWord s { wr with work := { wr.work with prog := 0, progFlags := 0 } }
/-- Change a waiting clause. -/
def modRun (s : State) (r : SwarmRef) (f : Run → Run) : State :=
  { s with runs := s.runs.map fun x => if x.ref = r then f x else x }

/-- An instruction executes in the clause in flight: its stream entries and last reads are noted, its meaning runs on the clause before
(rd, whose operands it reads) and after them (wr, which it changes), and the clause goes on or stops. -/
def withRun (i : Instr) (s : State) (k : Run → Run → Except Stop (State × Run)) : Host.Outcome State Fault Refusal :=
  match s.run with
  | none => .fault .noClause
  | some r =>
    match k r (noteReads s i r) with
    | .ok (s1, r1) => .next (nextWord s1 r1)
    | .error e => .next (stopRun s r e)

/-- The workgroup of a clause in flight. -/
def runWg (s : State) (rd : Run) : Except Stop Workgroup :=
  match wg? s (wgOf rd.ref) with
  | some g => .ok g
  | none => .error (.trap 7 0 0)

/-- A vector instruction: it changes the clause alone. -/
def vector (i : Instr) (f : Fields) (s : State) (k : Run → Run → Mask → Except Stop Run) : Host.Outcome State Fault Refusal :=
  withRun i s fun rd wr => do
    let r ← k rd wr (active rd f)
    .ok (s, r)

/-- An instruction whose effect waits for its clause's completion. -/
def withEffect (i : Instr) (s : State) (k : Run → Run → Except Stop Effect) : Host.Outcome State Fault Refusal :=
  withRun i s fun rd wr => do
    let e ← k rd wr
    .ok (s, { wr with effects := wr.effects ++ [e] })

end Sys2Proof.Machine
end

