-- ==== Sys2Proof/Machine/Control.lean ====
section
/-! DEFINITION. Control flow and swarm state, and the two prefixes (R18 to R23, R36, R80, R119 to R129). -/

namespace Sys2Proof.Machine

/-- Detail of a trap 0x01 or 0x04 raised by the word in execution (R368). -/
def wordIndex (r : Run) : Nat := r.idx + 1

/-! Branches (R120, R121). -/

/-- A direct branch by the threads given. -/
def branchTo (r : Run) (f : Fields) (t : Mask) : Run := { r with branch := .direct t (targetOf r f) }

def execBra (f : Fields) (s : State) : Host.Outcome State Fault Refusal :=
  vector (.bra f) f s fun _ wr m => .ok (branchTo wr f m)

/-- BEOD's stream register, dimension and complement. -/
def beodReg (f : Fields) : Nat := (f.mod.extractLsb' 6 4).toNat
def beodDim (f : Fields) : Nat := (f.mod.extractLsb' 3 3).toNat
def beodNot (f : Fields) : Bool := f.mod.getLsbD 2

/-- The end-of-dimension flag as the latest read left it (R279); 0 when unbound. An entry has no flag for a dimension its walk lacks. -/
def eodFlag (x : Stream) (dim : Nat) : Bool := x.bound && x.eodf.getLsbD dim

def execBeod (f : Fields) (s : State) : Host.Outcome State Fault Refusal :=
  vector (.beod f) f s fun _ wr m =>
    let flag := eodFlag (wr.work.streams.getD (beodReg f) Stream.unbound) (beodDim f)
    .ok (branchTo wr f (if flag ≠ beodNot f then m else 0))

def execCall (f : Fields) (s : State) : Host.Outcome State Fault Refusal :=
  vector (.call f) f s fun _ wr m => do
    let r ← writePair s wr (f.mod.extractLsb' 2 8).toNat m (List.replicate threads (nextPc wr).toNat)
    .ok (branchTo r f m)

/-- An indirect branch: each active thread to its pair's address, the other threads of MASK to next. -/
def branchPairs (i : Instr) (f : Fields) (s : State) : Host.Outcome State Fault Refusal :=
  vector i f s fun rd wr m =>
    let ts := ((List.range threads).filter fun t => (runMask rd).getLsbD t).map fun t =>
      (t, if m.getLsbD t then BitVec.ofNat 64 (pairAt s rd f.opa t) else nextPc rd)
    match ts.find? fun t => t.2.toNat % 8 ≠ 0 with
    | some t => .error (.trap 5 0 t.2.toNat)
    | none => .ok { wr with branch := .indirect ts }

def execBrx (f : Fields) (s : State) : Host.Outcome State Fault Refusal := branchPairs (.brx f) f s
def execRet (f : Fields) (s : State) : Host.Outcome State Fault Refusal := branchPairs (.ret f) f s

def execRejoin (f : Fields) (s : State) : Host.Outcome State Fault Refusal :=
  vector (.rejoin f) f s fun _ wr _ =>
    let x := slotOf wr.work wr.slot
    .ok { wr with work := setSlot wr.work wr.slot { x with rjp := targetOf wr f } }

def execExit (f : Fields) (s : State) : Host.Outcome State Fault Refusal :=
  vector (.exit f) f s fun _ wr m => .ok { wr with exits := wr.exits ||| m }

def execNop (f : Fields) (s : State) : Host.Outcome State Fault Refusal :=
  vector (.nop f) f s fun _ wr _ => .ok wr

/-! Special registers (R18, R125, R126). -/

/-- VER and FEAT1 of this part (R85). -/
def verWord : Word := BitVec.ofNat 32 (Config.isa + Config.impl * 2 ^ 8 + Config.stepping.toNat * 2 ^ 16)
def feat1Word : Word := BitVec.ofNat 32 (7 + (if Config.cxlTier then 8 else 0) + 16)

/-- A special register as GETSR reads it. -/
def specialReg (s : State) (r : Run) (n : Nat) : Nat :=
  let w := r.work
  let g := wgOf r.ref
  let now := (swarm? s r.ref).getD w
  match n with
  | 0x00 => verWord.toNat
  | 0x01 => Config.feat0.toNat
  | 0x02 => feat1Word.toNat
  | 0x03 => Config.feat2.toNat
  | 0x08 => (modeRead now).toNat
  | 0x09 => now.prog
  | 0x0A => swidOf w
  | 0x0B => w.live.toNat
  | 0x0C => (runMask r).toNat
  | 0x0D => now.rsv
  | 0x0E => w.rmax
  | 0x0F => w.dsBase
  | 0x10 => w.dsLim
  | 0x11 => w.dsDepth
  | 0x12 => now.rstPc.toNat
  | 0x13 => s.clkns
  | 0x14 => now.wrapCause.toNat
  | 0x15 => (taskIdOf s g).toNat
  | 0x16 => (coordOf s g).toNat
  | 0x18 => s.fabric.current.gen
  | 0x19 => rankReg s
  | _ => if 0x20 ≤ n ∧ n < 0x28 then ((coreAt s r.ref.core).counters.getD (n - 0x20) ⟨0, 0⟩).count else 0

def execGetsr (f : Fields) (s : State) : Host.Outcome State Fault Refusal :=
  vector (.getsr f) f s fun rd wr m =>
    let v := specialReg s rd f.sel.toNat
    if srWide f.sel then writePair s wr f.dst.toNat m (List.replicate threads v)
    else writeReg s wr f.dst.toNat m (splat (BitVec.ofNat 32 v))

/-- A 32-bit source in the lowest thread of MASK. -/
def firstWord (s : State) (rd : Run) (c : BitVec 8) : Word := laneAt (srcLanes s rd c) ((firstThread (runMask rd)).getD 0)

def execSetsr (f : Fields) (s : State) : Host.Outcome State Fault Refusal :=
  withEffect (.setsr f) s fun rd _ =>
    let v := firstWord s rd f.opa
    if f.sel ≠ 8 then .error (.trap 7 0 0)
    else if modeReserved v then .error (.trap 4 (wordIndex rd) 0)
    else .ok (.mode v)

/-! The reservation (R36, R127). -/

/-- RSV as the clause's earlier instructions leave it. -/
def rsvNow (r : Run) : Nat := r.effects.foldl (fun m e => match e with | .rsv n => n | _ => m) r.work.rsv

/-- GROW. Whether n fits the lane was found at the clause's issue, since when the lane counts it (R36). -/
def execGrow (f : Fields) (s : State) : Host.Outcome State Fault Refusal :=
  withRun (.grow f) s fun rd wr =>
    let n := f.imm18.toNat
    let nb := f.sel = 1
    let told (r : Run) (ok : Bool) : Run :=
      if nb then writePred r f.dst.toNat (runMask rd) (if ok then BitVec.allOnes 32 else 0) else r
    if n ≤ rsvNow rd then .ok (s, told wr true)
    else if rd.work.rmax < n then .error (.trap 7 0 0)
    else if n ≤ max rd.grown rd.work.rsv then .ok (s, told { wr with effects := wr.effects ++ [.rsv n] } true)
    else if nb then .ok (s, told wr false)
    else .error .wait

def execShrink (f : Fields) (s : State) : Host.Outcome State Fault Refusal :=
  withRun (.shrink f) s fun rd wr =>
    let n := f.imm18.toNat
    if runMask rd ≠ rd.work.live then .error (.trap codeIllegal (wordIndex rd) 0)
    else if rsvNow rd ≤ n then .ok (s, wr)
    else .ok (s, { wr with
      effects := wr.effects ++ [.rsv n]
      work := { wr.work with regs := wr.work.regs.mapIdx fun k x => if n ≤ k then none else x } })

def execSetrestart (f : Fields) (s : State) : Host.Outcome State Fault Refusal :=
  withRun (.setrestart f) s fun rd wr =>
    let x := slotOf rd.work rd.slot
    if runMask rd ≠ rd.work.live then .error (.trap codeIllegal (wordIndex rd) 0)
    else .ok (s, { wr with work := { wr.work with rstPc := targetOf rd f, rstRec := (x.rpc, x.rjp, rd.work.dsDepth) } })

/-! Traps by instruction (R129). -/

/-- Raise a trap when a thread is active. -/
def trapIfActive (i : Instr) (f : Fields) (s : State) (code : Nat) : Host.Outcome State Fault Refusal :=
  vector i f s fun _ wr m => if m = 0 then .ok wr else .error (.trap code (f.imm18.toNat % 256) 0)

def execTrap (f : Fields) (s : State) : Host.Outcome State Fault Refusal := trapIfActive (.trap f) f s 0x13
def execBkpt (f : Fields) (s : State) : Host.Outcome State Fault Refusal := trapIfActive (.bkpt f) f s 0x14

/-! Prefixes (R80, R81): what they supply stands until the next instruction that is no prefix. -/

/-- The clause goes on to its next word and keeps its prefixes. A clause that ends on a prefix was refused at its start. -/
def keepPrefix (s : State) (k : Run → Run) : Host.Outcome State Fault Refusal :=
  match s.run with
  | none => .fault .noClause
  | some r =>
    if r.idx + 1 < r.words.length then .next { s with run := some { k r with idx := r.idx + 1 } }
    else .next (stopRun s r (.trap codePrefix (wordIndex r) 0))

def execImx (f : Fields) (s : State) : Host.Outcome State Fault Refusal :=
  keepPrefix s fun r => { r with imx := some f.off32 }
def execMsk (f : Fields) (s : State) : Host.Outcome State Fault Refusal :=
  keepPrefix s fun r => { r with msk := some f.opc }

end Sys2Proof.Machine
end

