-- ==== Sys2Proof/Machine/Access.lean ====
section
/-! DEFINITION. Loads, stores, GATHER and SCATTER, copies, atomics, PREFETCH, FLUSH and INVL1 (R159 to R185). -/

namespace Sys2Proof.Machine

/-- The threads of a mask, lowest first. -/
def threadsOf (m : Mask) : List Nat := (List.range threads).filter fun t => m.getLsbD t

/-- Bytes of an LD, ST, LDS or STS access, and its data registers (R167). -/
def accessSize (f : Fields) : Nat := if f.opx.getLsbD 3 then 16 else f.ty.bits / 8
def accessParts (f : Fields) : Nat := (accessSize f + 3) / 4
/-- ORD and .HOME of OPX (R167). -/
def ordOf (f : Fields) : Nat := (f.opx.extractLsb' 0 2).toNat
def homeOf (f : Fields) : Bool := f.opx.getLsbD 2

/-- The address of a thread, aligned to the access (R160). -/
def alignedAt (s : State) (rd : Run) (f : Fields) (n t : Nat) : Except Stop Nat :=
  let a := addrAt s rd f t
  if a % n ≠ 0 then .error (.trap 5 0 a) else .ok a

/-- Bytes that earlier instructions of the clause store in the same thread, laid over bytes read at an address (R168). -/
def overCells (cells : List (Nat × Nat × List Byte)) (t a : Nat) (d : List Byte) : List Byte :=
  cells.foldl (fun d c =>
    if c.1 = t then d.mapIdx fun k b => if c.2.1 ≤ a + k ∧ a + k < c.2.1 + c.2.2.length then c.2.2.getD (a + k - c.2.1) b else b
    else d) d
/-- The clause's stores to memory, and to the scratchpad, so far. -/
def clauseStores (r : Run) : List (Nat × Nat × List Byte) :=
  (r.effects.map fun e => match e with | .st cells _ _ => cells | _ => []).flatten
def clauseScratch (r : Run) : List (Nat × Nat × List Byte) :=
  (r.effects.map fun e => match e with | .sts cells => cells | _ => []).flatten

/-- The value a load gives: extended from 1, 2 or 4 bytes by TYPE, else as read (R167). -/
def loadValue (f : Fields) (d : List Byte) : Nat :=
  let n := d.length
  if n ≤ 4 then wrapBits 32 (readInt f.ty.signed (8 * n) (bytesToNat d)) else bytesToNat d

/-- Write a load's values into its destination registers. -/
def writeLoaded (s : State) (r : Run) (d : BitVec 8) (parts : Nat) (m : Mask) (vals : List (Nat × Nat)) : Except Stop Run :=
  (List.range parts).foldlM (fun r k =>
    writeReg s r (d.toNat + k) m ((List.range threads).map fun t =>
      BitVec.ofNat 32 (((vals.find? fun x => x.1 = t).map Prod.snd).getD 0 / 2 ^ (32 * k)))) r

/-- One thread's read of global memory: a swarm's by way of its core's L1 and buffer, a slice's by the forager (R169, R283). The
signature a home read returns is received (R242). The REDs of the core to the sector come first (R233, R234). -/
def threadLoad (s : State) (r : SwarmRef) (home ordered : Bool) (scope a n : Nat) : Except Stop (List Byte × State) :=
  if r.slice then do
    let (d, sig, s1) ← engineRead s (accessOf s r) a n
    .ok (d, modSwarm s1 (ownerOf r) fun w => receive w sig false 0)
  else do
    let (_, pa) ← translateData s (dieOf r.core) (ctxOf s (wgOf r)) a false
    let s ← settleReds s r.core pa
    let (d, sig, s1) ← loadBytes s (accessOf s r) (home || (ordered && 4 ≤ scope)) a n
    .ok (d, match sig with | some g => modSwarm s1 r fun w => receive w g ordered scope | none => s1)

def execLd (f : Fields) (s : State) : Host.Outcome State Fault Refusal :=
  withRun (.ld f) s fun rd wr => do
    let m := active rd f
    let n := accessSize f
    let ordered := ordOf f = 1
    let own := clauseStores rd
    let (vals, s1) ← (threadsOf m).foldlM (fun (st : List (Nat × Nat) × State) t => do
      let a ← alignedAt s rd f n t
      let (d, s1) ← threadLoad st.2 rd.ref (homeOf f) ordered f.rnd.toNat a n
      Except.ok (st.1 ++ [(t, loadValue f (overCells own t a d))], s1)) ([], s)
    let r ← writeLoaded s1 wr f.dst (accessParts f) m vals
    .ok (if ordered && m ≠ 0 then acquireAt s1 rd.ref f.rnd.toNat else s1, r)

/-- The data of a store or atomic: the registers of DATA from the first on, as one number. -/
def dataAt (s : State) (rd : Run) (c : BitVec 8) (parts t : Nat) : Nat :=
  (List.range parts).foldl (fun v k => v + natAt (partLanes s rd c k) t * 2 ^ (32 * k)) 0

/-- The scopes at which the next write is a release: its own, and those of earlier FENCE.RELs (R180). -/
def releaseScopes (rd : Run) (rel : Bool) (f : Fields) : List Nat := (if rel then [f.rnd.toNat] else []) ++ rd.work.pendRel
/-- A write with an active thread carries the pending releases away. -/
def dropPending (r : Run) (m : Mask) : Run := if m = 0 then r else { r with work := { r.work with pendRel := [] } }

def execSt (f : Fields) (s : State) : Host.Outcome State Fault Refusal :=
  withRun (.st f) s fun rd wr => do
    let m := active rd f
    let n := accessSize f
    let a := accessOf s rd.ref
    let cells ← (threadsOf m).mapM fun t => do
      let va ← alignedAt s rd f n t
      let _ ← translateData s a.die a.ctx va true
      Except.ok (t, va, natToBytes n (dataAt s rd f.dst (accessParts f) t))
    let (cells, s1) := anyOrder s (fun c => c.2.1) cells
    .ok (s1, dropPending { wr with effects := wr.effects ++ [.st cells (homeOf f) (releaseScopes rd (ordOf f = 2) f)] } m)

/-! Scratchpad accesses (R142, R143, R167, R169). -/

def execLds (f : Fields) (s : State) : Host.Outcome State Fault Refusal :=
  withRun (.lds f) s fun rd wr => do
    let m := active rd f
    let n := accessSize f
    let g ← runWg s rd
    let vals ← (threadsOf m).mapM fun t => do
      let o ← alignedAt s rd f n t
      scratchCheck g o n false
      let d ← scratchSeen s g o n
      Except.ok (t, loadValue f (overCells (clauseScratch rd) t o d))
    let r ← writeLoaded s wr f.dst (accessParts f) m vals
    .ok (s, r)

def execSts (f : Fields) (s : State) : Host.Outcome State Fault Refusal :=
  withRun (.sts f) s fun rd wr => do
    let n := accessSize f
    let g ← runWg s rd
    let cells ← (threadsOf (active rd f)).mapM fun t => do
      let o ← alignedAt s rd f n t
      scratchCheck g o n true
      Except.ok (t, o, natToBytes n (dataAt s rd f.dst (accessParts f) t))
    let (cells, s1) := anyOrder s (fun c => c.2.1) cells
    .ok (s1, { wr with effects := wr.effects ++ [.sts cells] })

/-! GATHER and SCATTER (R172, R173): a step performs one element. -/


/-- What a write of an open version's task adds must fit the core's version budget (R304). -/
def budgetCheck (s : State) (r : SwarmRef) : Except Stop Unit :=
  if inTask s (wgOf r) && decide (Config.versionBudget < coreVersionCount s r.core) then .error (.trap 0x0A 0 0) else .ok ()

/-- The operands of a GATHER or SCATTER, checked: index array, element array, count, scale. -/
def indexedArgs (s : State) (rd : Run) (f : Fields) (g : Workgroup) (write : Bool) : Except Stop (Nat × Nat × Nat × Nat) :=
  let t := (firstThread (runMask rd)).getD 0
  let arg (k : Nat) : Nat := natAt (partLanes s rd f.dst k) t
  let e := f.ty.bits / 8
  let c := arg 2
  if arg 0 % 4 ≠ 0 ∨ arg 1 % e ≠ 0 then .error (.trap 5 0 0)
  else if 65536 < c then .error (.trap 7 0 0)
  else if c = 0 then .ok (arg 0, arg 1, 0, 0)
  else do
    scratchCheck g (arg 0) (4 * c) false
    scratchCheck g (arg 1) (e * c) write
    .ok (arg 0, arg 1, c, arg 3 % 2 ^ 16)

/-- Address of element i, aligned (R172). -/
def elementAddr (s : State) (rd : Run) (f : Fields) (g : Workgroup) (x k i : Nat) : Except Stop Nat := do
  let base := addrAt s rd f ((firstThread (runMask rd)).getD 0)
  let idx ← scratchSeen s g (x + 4 * i) 4
  let a := (base + bytesToNat idx * k) % 2 ^ 64
  if a % (f.ty.bits / 8) ≠ 0 then .error (.trap 5 0 a) else .ok a

/-- One element of GATHER. -/
def gatherElement (s : State) (rd : Run) (f : Fields) (g : Workgroup) (x y k : Nat) : Except Stop State := do
  let i := rd.work.prog
  let e := f.ty.bits / 8
  let a ← elementAddr s rd f g x k i
  let (d, sig, s1) ← engineRead s (accessOf s rd.ref) a e
  let s2 := modSwarm s1 rd.ref fun w => receive w sig false 0
  .ok (scratchPut s2 g.ref (y + i * e) d)

/-- One element of SCATTER: written past the buffer, in increasing i. -/
def scatterElement (s : State) (rd : Run) (f : Fields) (g : Workgroup) (x y k : Nat) : Except Stop State := do
  let i := rd.work.prog
  let e := f.ty.bits / 8
  let a ← elementAddr s rd f g x k i
  let acc := accessOf s rd.ref
  let (_, pa) ← translateData s acc.die acc.ctx a true
  let d ← scratchSeen s g (y + i * e) e
  let s1 ← directWrite (markRel s rd.ref pa) acc a d .clear
  budgetCheck s1 rd.ref
  .ok s1

/-- A step of GATHER or SCATTER: one element, or the end. -/
def indexed (i : Instr) (f : Fields) (s : State) (write : Bool)
    (element : State → Run → Fields → Workgroup → Nat → Nat → Nat → Except Stop State) : Host.Outcome State Fault Refusal :=
  match s.run with
  | none => .fault .noClause
  | some rd =>
    let out : Except Stop State := do
      let g ← runWg s rd
      let (x, y, c, k) ← indexedArgs s rd f g write
      if c ≤ rd.work.prog then .ok (finishLong s (noteReads s i rd))
      else do
        let s1 ← element s rd f g x y k
        .ok (advance s1 rd (rd.work.prog + 1))
    match out with
    | .ok s1 => .next s1
    | .error e => .next (stopRun s rd e)

def execGather (f : Fields) (s : State) : Host.Outcome State Fault Refusal := indexed (.gather f) f s true gatherElement
def execScatter (f : Fields) (s : State) : Host.Outcome State Fault Refusal := indexed (.scatter f) f s false scatterElement

/-! Copies (R174, R175). -/

/-- An immediate-class write inside a task of a redundant launch (R163). -/
def redundantCheck (s : State) (r : SwarmRef) : Except Stop Unit :=
  if inTask s (wgOf r) && (launch? s r.seq).any fun l => l.desc.redund then .error (.trap 7 0x0101 0) else .ok ()

/-- A copy between global memory and the scratchpad: its checks, and every page translated before the clause completes (R161). -/
def copyInstr (i : Instr) (f : Fields) (s : State) (out : Bool) : Host.Outcome State Fault Refusal :=
  withRun i s fun rd wr =>
    match firstThread (active rd f) with
    | none => .ok (s, wr)
    | some t => do
      let spad := natAt (partLanes s rd f.dst 0) t
      let len := natAt (partLanes s rd f.dst 1) t
      let va := addrAt s rd f t
      let g ← runWg s rd
      if len = 0 then .ok (s, wr)
      else if spad % 64 ≠ 0 ∨ len % 64 ≠ 0 ∨ va % 64 ≠ 0 then .error (.trap 5 0 va)
      else if 2 ^ 20 < len ∨ g.scratch.size < spad + len then .error (.trap 7 0 0)
      else do
        let a := accessOf s rd.ref
        let k : AsyncKind := if out then .cpout va spad len else .cpin va spad len
        let _ ← (sectorsOf len).mapM fun o => translate s a.die a.ctx ((va + o) % 2 ^ 64) out
        (if copyImmediate s a k then redundantCheck s rd.ref else .ok ())
        .ok (s, { wr with effects := wr.effects ++ [.async k] })

def execCpin (f : Fields) (s : State) : Host.Outcome State Fault Refusal := copyInstr (.cpin f) f s false
def execCpout (f : Fields) (s : State) : Host.Outcome State Fault Refusal := copyInstr (.cpout f) f s true

/-! Atomics (R176 to R179). -/

/-- Registers that hold the operand, and those that receive the old value. -/
def atomParts (f : Fields) : Nat := f.ty.bits / 32
def atomOperandParts (f : Fields) : Nat := if atomOp f = 7 then 2 * atomParts f else atomParts f

/-- The words the active threads name, with their operands, in an order that is free where they collide. -/
def atomicReqs (s : State) (rd : Run) (f : Fields) (m : Mask) : Except Stop (List (Nat × AtomicReq) × State) := do
  let a := accessOf s rd.ref
  let reqs ← (threadsOf m).mapM fun t => do
    let va ← alignedAt s rd f (f.ty.bits / 8) t
    let _ ← translateData s a.die a.ctx va true
    Except.ok (t, AtomicReq.mk va f.ty (atomOp f) (dataAt s rd f.dst (atomOperandParts f) t))
  .ok (anyOrder s (fun x => x.2.va) reqs)

/-- Before a read-modify-write is performed at a word's home: the REDs of the core to its sector (R234), and those the swarm has sent to the
same home before it (R301). -/
def settleHome (s : State) (r : SwarmRef) (va : Nat) : Except Stop State := do
  let (_, pa) ← translateData s (dieOf r.core) (ctxOf s (wgOf r)) va true
  let s1 ← settleReds s r.core pa
  performHomeReds s1 r pa
/-- The word as this read-modify-write finds it: the home's with the core's bytes drained, or the task's version (R164, R178). -/
def atomicOld (s : State) (r : SwarmRef) (versioned : Bool) (va n : Nat) : Except Stop (Nat × State) := do
  let a := accessOf s r
  let (_, pa) ← translateData s a.die a.ctx va true
  if versioned then do
    let (d, _, s1) ← loadBytes s a true va n
    .ok (bytesToNat d, s1)
  else do
    let s1 := drainWhere s r.core fun e => e.pa = pa / 64 * 64
    let d ← sectorData s1 pa va
    .ok (bytesToNat ((d.drop (pa % 64)).take n), s1)

/-- The read-modify-writes of one instruction, in their order, on a machine that holds the clause's earlier effects: the old values by
thread, and the words left. -/
def runAtomics (s : State) (r : SwarmRef) (versioned : Bool) (reqs : List (Nat × AtomicReq)) :
    Except Stop (List (Nat × Nat) × List (Nat × List Byte)) := do
  let out ← reqs.foldlM (fun (st : State × List (Nat × Nat) × List (Nat × List Byte)) x => do
    let n := x.2.ty.bits / 8
    let (old, s1) ← atomicOld st.1 r versioned x.2.va n
    let b := natToBytes n (atomicNew x.2.ty x.2.op old x.2.operand)
    let (_, pa) ← translateData s1 (dieOf r.core) (ctxOf s1 (wgOf r)) x.2.va true
    let s2 ← (if versioned then directWrite s1 (accessOf s1 r) x.2.va b .keep else .ok (performBytes s1 pa b .keep))
    Except.ok (s2, st.2.1 ++ [(x.1, old)], st.2.2 ++ [(x.2.va, b)])) (s, [], [])
  .ok out.2

/-- The signatures the read parts return (R171, R242). -/
def atomicSigs (s : State) (r : SwarmRef) (reqs : List (Nat × AtomicReq)) (ordered : Bool) (scope : Nat) : State :=
  reqs.foldl (fun s x =>
    match translate s (dieOf r.core) (ctxOf s (wgOf r)) x.2.va false with
    | .ok (_, pa) => modSwarm s r fun w => receive w (metaOf s pa).sig ordered scope
    | .error _ => s) s

/-- ATOM and ATOMV. The release part precedes, the acquire part follows (R179). -/
def atomic (i : Instr) (f : Fields) (s : State) (versioned : Bool) : Host.Outcome State Fault Refusal :=
  withRun i s fun rd wr => do
    let m := active rd f
    let inside := versioned && inTask s (wgOf rd.ref)
    let rels := releaseScopes rd (2 ≤ atomOrd f) f
    let acq := atomOrd f = 1 || atomOrd f = 3
    (if m ≠ 0 && !versioned then redundantCheck s rd.ref else .ok ())
    let (reqs, s0) ← atomicReqs s rd f m
    let s1 ← reqs.foldlM (fun s x => settleHome s rd.ref x.2.va) s0
    let trial ← applyEffects s1 rd
    -- what the release part orders before the word is read (R170, R179)
    let trial ← (if (rels.filter fun x => !inside || x < 4).isEmpty || m = 0 then .ok trial
      else match settleSwarm trial rd.ref (outer rels && !inside) with
        | .ok t => .ok t
        | .error _ => Except.error Stop.wait)
    let (olds, cells) ← runAtomics trial rd.ref inside reqs
    let r ← writeLoaded s1 wr f.dst (atomParts f) m olds
    let s2 := atomicSigs s1 rd.ref reqs acq f.rnd.toNat
    .ok (if acq && m ≠ 0 then acquireAt s2 rd.ref f.rnd.toNat else s2,
      dropPending { r with effects := r.effects ++ [.atom cells versioned rels] } m)

def execAtom (f : Fields) (s : State) : Host.Outcome State Fault Refusal := atomic (.atom f) f s false
def execAtomv (f : Fields) (s : State) : Host.Outcome State Fault Refusal := atomic (.atomv f) f s true

def execRed (f : Fields) (s : State) : Host.Outcome State Fault Refusal :=
  withRun (.red f) s fun rd wr => do
    let m := active rd f
    (if m ≠ 0 then redundantCheck s rd.ref else .ok ())
    let (reqs, s1) ← atomicReqs s rd f m
    .ok (s1, dropPending { wr with
      effects := wr.effects ++ [.red (reqs.map Prod.snd) (releaseScopes rd (atomOrd f = 2) f)] } m)

/-! PREFETCH, FLUSH and INVL1 (R183 to R185). -/

/-- A check value's mismatch on a fill that no consumer requested is logged (R305). -/
def logFill (s : State) (pa : Nat) (e : Stop) : State :=
  match e with
  | .trap 0x0B _ _ => logFinding (homeDie s pa) (pa / 256) s 3
  | _ => s
/-- PREFETCH of one sector; what does not translate is dropped, and what does not name a sector by its first byte (R185; log 87). -/
def prefetchOne (r : SwarmRef) (l1 : Bool) (s : State) (va : Nat) : State :=
  let a := accessOf s r
  match translateData s a.die a.ctx va false with
  | .error _ => s
  | .ok (m, pa) =>
    if (elsewhere s m).isSome || va % 64 ≠ 0 then s
    else if l1 then (match threadLoad s r false false 0 va 1 with | .ok (_, s1) => s1 | .error e => logFill s pa e)
    else (match homeRead s a.die pa va with | .ok (_, _, s1) => s1 | .error e => logFill s pa e)

def execPrefetch (f : Fields) (s : State) : Host.Outcome State Fault Refusal :=
  withRun (.prefetch f) s fun rd wr =>
    .ok ((threadsOf (active rd f)).foldl (fun s1 t => prefetchOne rd.ref (f.opx.getLsbD 0) s1 (addrAt s rd f t)) s, wr)

def execFlush (f : Fields) (s : State) : Host.Outcome State Fault Refusal :=
  withRun (.flush f) s fun rd wr =>
    match firstThread (active rd f) with
    | none => .ok (s, wr)
    | some t =>
      let va := addrAt s rd f t
      let len := natAt (srcLanes s rd f.dst) t
      if va % 256 ≠ 0 ∨ len % 256 ≠ 0 then .error (.trap 5 0 va)
      else .ok (s, { wr with effects := wr.effects ++ [.async (.flush va len)] })

/-- Physical sectors of n virtual sectors from an address on, with the places of the decided copies of another module's cells (R317); none
for a page of the on-chip kind. -/
def physicalSectors (s : State) (a : Access) (va n : Nat) : Except Stop (List Nat) :=
  (List.range n).foldlM (fun l k => do
    let (m, pa) ← translate s a.die a.ctx ((va / 64 * 64 + 64 * k) % 2 ^ 64) false
    let b := pa / 64 * 64
    Except.ok (if m.onChip.isSome then l else l ++ (if m.remote.isSome then [b, cellKey m b] else [b]))) []

def execInvl1 (f : Fields) (s : State) : Host.Outcome State Fault Refusal :=
  withRun (.invl1 f) s fun rd wr =>
    match firstThread (active rd f) with
    | none => .ok (s, wr)
    | some t =>
      if f.sel = 0 then .ok (l1Drop s rd.ref.core fun _ => true, wr)
      else do
        let n := match rd.imx with | some x => x.toNat | none => f.imm18.toNat
        if n = 0 then .error (.trap codeIllegal (wordIndex rd) 0)
        else do
          let ps ← physicalSectors s (accessOf s rd.ref) (pairAt s rd f.opa t) n
          .ok (l1Drop s rd.ref.core fun x => ps.contains x, wr)

end Sys2Proof.Machine
end

