-- ==== Sys2Proof/Machine/Integer.lean ====
section
/-! DEFINITION. Integer arithmetic, logic, shifts, bit fields and moves (R94 to R104). -/

namespace Sys2Proof.Machine

/-! Shapes: results of one, two or three 32-bit sources per active thread. -/

/-- d ← g(a), by thread. -/
def unary (i : Instr) (f : Fields) (s : State) (g : Nat → Rounded) : Host.Outcome State Fault Refusal :=
  vector i f s fun rd wr m =>
    let a := srcLanes s rd f.opa
    writeResult s wr f.dst m fun t => g (natAt a t)
/-- d ← g(a, b). -/
def binary (i : Instr) (f : Fields) (s : State) (g : Nat → Nat → Rounded) : Host.Outcome State Fault Refusal :=
  vector i f s fun rd wr m =>
    let a := srcLanes s rd f.opa
    let b := srcLanes s rd f.opb
    writeResult s wr f.dst m fun t => g (natAt a t) (natAt b t)
/-- d ← g(a, b, c). -/
def ternary (i : Instr) (f : Fields) (s : State) (g : Nat → Nat → Nat → Rounded) : Host.Outcome State Fault Refusal :=
  vector i f s fun rd wr m =>
    let a := srcLanes s rd f.opa
    let b := srcLanes s rd f.opb
    let c := srcLanes s rd f.opc
    writeResult s wr f.dst m fun t => g (natAt a t) (natAt b t) (natAt c t)
/-- d ← g(a, imm). -/
def immediate (i : Instr) (f : Fields) (s : State) (g : Nat → Nat → Rounded) : Host.Outcome State Fault Refusal :=
  vector i f s fun rd wr m =>
    let a := srcLanes s rd f.opa
    writeResult s wr f.dst m fun t => g (natAt a t) (immWord rd f).toNat

/-- A result that raises no flag. -/
def plain (n : Nat) : Rounded := ⟨n, 0⟩

/-! Element arithmetic (R95, R96). -/

/-- Each element of a register pair of sources: the exact integer, finished by SAT, and packed again (R94, R95). -/
def elements (ty : Ty) (sat : Bool) (op : Int → Int → Int) (a b : Nat) : Rounded :=
  let w := ty.bits
  (List.range (32 / w)).foldl (fun acc k =>
    let x := finInt sat ty.signed w (op (readInt ty.signed w (a / 2 ^ (w * k))) (readInt ty.signed w (b / 2 ^ (w * k))))
    ⟨acc.bits + x.bits * 2 ^ (w * k), acc.flags ||| x.flags⟩) ⟨0, 0⟩
/-- SAT of an integer entry: OPX bit 0 (R94). -/
def satOf (f : Fields) : Bool := f.opx.getLsbD 0

def execIaddReg (f : Fields) (s : State) : Host.Outcome State Fault Refusal :=
  binary (.iaddReg f) f s (elements f.ty (satOf f) fun a b => a + b)
def execIaddImm (f : Fields) (s : State) : Host.Outcome State Fault Refusal :=
  immediate (.iaddImm f) f s (elements f.ty (satOf f) fun a b => a + b)
def execIsubReg (f : Fields) (s : State) : Host.Outcome State Fault Refusal :=
  binary (.isubReg f) f s (elements f.ty (satOf f) fun a b => a - b)
def execIsubImm (f : Fields) (s : State) : Host.Outcome State Fault Refusal :=
  immediate (.isubImm f) f s (elements f.ty (satOf f) fun a b => a - b)
def execImulReg (f : Fields) (s : State) : Host.Outcome State Fault Refusal :=
  binary (.imulReg f) f s (elements f.ty (satOf f) fun a b => a * b)
def execImulImm (f : Fields) (s : State) : Host.Outcome State Fault Refusal :=
  immediate (.imulImm f) f s (elements f.ty (satOf f) fun a b => a * b)
/-- Bits 63:32 of the exact product. -/
def execImulh (f : Fields) (s : State) : Host.Outcome State Fault Refusal :=
  binary (.imulh f) f s (elements f.ty false fun a b => a * b / 2 ^ 32)
def execImad (f : Fields) (s : State) : Host.Outcome State Fault Refusal :=
  ternary (.imad f) f s fun a b c =>
    finInt (satOf f) f.ty.signed 32 (readInt f.ty.signed 32 a * readInt f.ty.signed 32 b + readInt f.ty.signed 32 c)
def execIminReg (f : Fields) (s : State) : Host.Outcome State Fault Refusal :=
  binary (.iminReg f) f s (elements f.ty false min)
def execIminImm (f : Fields) (s : State) : Host.Outcome State Fault Refusal :=
  immediate (.iminImm f) f s (elements f.ty false min)
def execImaxReg (f : Fields) (s : State) : Host.Outcome State Fault Refusal :=
  binary (.imaxReg f) f s (elements f.ty false max)
def execImaxImm (f : Fields) (s : State) : Host.Outcome State Fault Refusal :=
  immediate (.imaxImm f) f s (elements f.ty false max)
def execIabs (f : Fields) (s : State) : Host.Outcome State Fault Refusal :=
  unary (.iabs f) f s fun a => elements f.ty (satOf f) (fun x _ => x.natAbs) a 0

/-! Carries (R97). -/

/-- A result and the carry it leaves, per active thread; the predicate is that of OPC. -/
def carried (i : Instr) (f : Fields) (s : State) (g : Nat → Nat → Nat → Nat × Bool) : Host.Outcome State Fault Refusal :=
  vector i f s fun rd wr m => do
    let a := srcLanes s rd f.opa
    let b := srcLanes s rd f.opb
    let p := predBits rd.work f.opc.toNat
    let x (t : Nat) : Nat × Bool := g (natAt a t) (natAt b t) (p.getLsbD t).toNat
    let r ← writeResult s wr f.dst m fun t => plain (x t).1
    .ok (writePred r f.opc.toNat m (maskOf fun t => (x t).2))

def execAddc (f : Fields) (s : State) : Host.Outcome State Fault Refusal :=
  carried (.addc f) f s fun a b p => ((a + b + p) % 2 ^ 32, decide (2 ^ 32 ≤ a + b + p))
def execSubb (f : Fields) (s : State) : Host.Outcome State Fault Refusal :=
  carried (.subb f) f s fun a b p => (wrapBits 32 ((a : Int) - b - p), decide (a < b + p))

/-! Pairs (R98). -/

def execIaddw (f : Fields) (s : State) : Host.Outcome State Fault Refusal :=
  vector (.iaddw f) f s fun rd wr m =>
    writeWide s wr f.dst m fun t =>
      finInt (satOf f) f.ty.signed 64 (readInt f.ty.signed 64 (pairAt s rd f.opa t) + readInt f.ty.signed 64 (pairAt s rd f.opb t))
def execImadw (f : Fields) (s : State) : Host.Outcome State Fault Refusal :=
  vector (.imadw f) f s fun rd wr m =>
    let a := srcLanes s rd f.opa
    let b := srcLanes s rd f.opb
    writeWide s wr f.dst m fun t =>
      finInt (satOf f) f.ty.signed 64
        (readInt f.ty.signed 32 (natAt a t) * readInt f.ty.signed 32 (natAt b t) + readInt f.ty.signed 64 (pairAt s rd f.opc t))

/-! Packed dot products (R99). -/

/-- Element k of four packed bytes. -/
def byteElem (signed : Bool) (w k : Nat) : Int := readInt signed 8 (w / 2 ^ (8 * k))

def execIdot4 (f : Fields) (s : State) : Host.Outcome State Fault Refusal :=
  vector (.idot4 f) f s fun rd wr m =>
    let a := srcLanes s rd f.opa
    let b := srcLanes s rd f.opb
    let c := srcLanes s rd f.opc
    writeResult s wr f.dst m fun t =>
      if f.ty.isFloat then
        dot4 (fctx s rd f (f.opx.extractLsb' 0 2).toNat (posOf 0 t)) f.ty.fmt (natAt a t) (natAt b t) (natAt c t)
      else
        let sum := ((List.range 4).map fun k => byteElem f.ty.signed (natAt a t) k * byteElem f.ty.signed (natAt b t) k).sum
        finInt (satOf f) f.ty.signed 32 (readInt f.ty.signed 32 (natAt c t) + sum)
def execIsad (f : Fields) (s : State) : Host.Outcome State Fault Refusal :=
  ternary (.isad f) f s fun a b c =>
    plain (wrapBits 32 ((c : Int) +
      ((List.range 4).map fun k => ((byteElem f.ty.signed a k - byteElem f.ty.signed b k).natAbs : Int)).sum))

/-! Counts (R100). -/

/-- Bits of a word, bit 0 first. -/
def bitsOf (n : Nat) : List Bool := (List.range 32).map fun k => n.testBit k
def popCount (n : Nat) : Nat := ((bitsOf n).filter id).length
def leadingZeros (n : Nat) : Nat := ((bitsOf n).reverse.takeWhile fun b => !b).length

def execPopc (f : Fields) (s : State) : Host.Outcome State Fault Refusal :=
  unary (.popc f) f s fun a => plain (popCount a)
def execClz (f : Fields) (s : State) : Host.Outcome State Fault Refusal :=
  unary (.clz f) f s fun a => plain (leadingZeros a)

/-! Logic (R101). -/

def execAndReg (f : Fields) (s : State) : Host.Outcome State Fault Refusal :=
  binary (.andReg f) f s fun a b => plain (a &&& b)
def execAndImm (f : Fields) (s : State) : Host.Outcome State Fault Refusal :=
  immediate (.andImm f) f s fun a b => plain (a &&& b)
def execOrReg (f : Fields) (s : State) : Host.Outcome State Fault Refusal :=
  binary (.orReg f) f s fun a b => plain (a ||| b)
def execOrImm (f : Fields) (s : State) : Host.Outcome State Fault Refusal :=
  immediate (.orImm f) f s fun a b => plain (a ||| b)
def execXorReg (f : Fields) (s : State) : Host.Outcome State Fault Refusal :=
  binary (.xorReg f) f s fun a b => plain (a ^^^ b)
def execXorImm (f : Fields) (s : State) : Host.Outcome State Fault Refusal :=
  immediate (.xorImm f) f s fun a b => plain (a ^^^ b)

/-- A bit of a truth table at the index {a, b, c}. -/
def ttBit (tt : BitVec 8) (a b c : Bool) : Bool := tt.getLsbD (4 * a.toNat + 2 * b.toNat + c.toNat)
/-- A truth table over three words. -/
def ttWord (tt : BitVec 8) (a b c : Word) : Word :=
  maskOf fun i => ttBit tt (a.getLsbD i) (b.getLsbD i) (c.getLsbD i)

def execTern (f : Fields) (s : State) : Host.Outcome State Fault Refusal :=
  ternary (.tern f) f s fun a b c => plain (ttWord f.tt (BitVec.ofNat 32 a) (BitVec.ofNat 32 b) (BitVec.ofNat 32 c)).toNat

/-! Shifts (R102): the amount is clamped to 32. -/

def shlNat (a n : Nat) : Rounded := plain (a * 2 ^ min n 32 % 2 ^ 32)
def shrNat (a n : Nat) : Rounded := plain (a / 2 ^ min n 32)
def sarNat (a n : Nat) : Rounded := plain (wrapBits 32 (readInt true 32 a / 2 ^ min n 32))
/-- The high half of {hi, lo} × 2^s, and the low half of {hi, lo} div 2^s. -/
def fshlNat (hi lo n : Nat) : Rounded := plain ((hi * 2 ^ 32 + lo) * 2 ^ min n 32 / 2 ^ 32 % 2 ^ 32)
def fshrNat (hi lo n : Nat) : Rounded := plain ((hi * 2 ^ 32 + lo) / 2 ^ min n 32 % 2 ^ 32)

def execShlReg (f : Fields) (s : State) : Host.Outcome State Fault Refusal := binary (.shlReg f) f s shlNat
def execShlImm (f : Fields) (s : State) : Host.Outcome State Fault Refusal := immediate (.shlImm f) f s shlNat
def execShrReg (f : Fields) (s : State) : Host.Outcome State Fault Refusal := binary (.shrReg f) f s shrNat
def execShrImm (f : Fields) (s : State) : Host.Outcome State Fault Refusal := immediate (.shrImm f) f s shrNat
def execSarReg (f : Fields) (s : State) : Host.Outcome State Fault Refusal := binary (.sarReg f) f s sarNat
def execSarImm (f : Fields) (s : State) : Host.Outcome State Fault Refusal := immediate (.sarImm f) f s sarNat
def execFshlReg (f : Fields) (s : State) : Host.Outcome State Fault Refusal := ternary (.fshlReg f) f s fshlNat
def execFshrReg (f : Fields) (s : State) : Host.Outcome State Fault Refusal := ternary (.fshrReg f) f s fshrNat

/-- A funnel shift of a pair by an immediate: the odd register is the high word. -/
def funnelImm (i : Instr) (f : Fields) (s : State) (g : Nat → Nat → Nat → Rounded) : Host.Outcome State Fault Refusal :=
  vector i f s fun rd wr m =>
    let lo := partLanes s rd f.opa 0
    let hi := partLanes s rd f.opa 1
    writeResult s wr f.dst m fun t => g (natAt hi t) (natAt lo t) (immWord rd f).toNat
def execFshlImm (f : Fields) (s : State) : Host.Outcome State Fault Refusal := funnelImm (.fshlImm f) f s fshlNat
def execFshrImm (f : Fields) (s : State) : Host.Outcome State Fault Refusal := funnelImm (.fshrImm f) f s fshrNat

/-! Bit fields (R103). -/

/-- Position and length of a field descriptor. -/
def fieldOf (d : Nat) : Nat × Nat :=
  let p := min (d % 256) 32
  (p, min (d / 256 % 256) (32 - p))
def bfxNat (signed : Bool) (a d : Nat) : Rounded :=
  let (p, l) := fieldOf d
  if l = 0 then plain 0 else plain (wrapBits 32 (readInt signed l (a / 2 ^ p)))
/-- a[l−1:0] inserted into b at p. -/
def bfiNat (a b d : Nat) : Rounded :=
  let (p, l) := fieldOf d
  plain (b / 2 ^ (p + l) * 2 ^ (p + l) + a % 2 ^ l * 2 ^ p + b % 2 ^ p)
def brevNat (a : Nat) : Nat := (maskOf fun k => a.testBit (31 - k)).toNat
/-- PERM's byte k. -/
def permByte (a b c k : Nat) : Nat :=
  let n := c / 2 ^ (4 * k) % 16
  let x := (a + b * 2 ^ 32) / 2 ^ (8 * (n % 8)) % 256
  if n < 8 then x else if 128 ≤ x then 255 else 0

def execBrev (f : Fields) (s : State) : Host.Outcome State Fault Refusal := unary (.brev f) f s fun a => plain (brevNat a)
def execBfxReg (f : Fields) (s : State) : Host.Outcome State Fault Refusal := binary (.bfxReg f) f s (bfxNat f.ty.signed)
/-- The descriptor is the immediate; only its low 16 bits matter. -/
def execBfxImm (f : Fields) (s : State) : Host.Outcome State Fault Refusal := immediate (.bfxImm f) f s (bfxNat f.ty.signed)
def execBfiReg (f : Fields) (s : State) : Host.Outcome State Fault Refusal := ternary (.bfiReg f) f s bfiNat
/-- The base is d's own value. -/
def execBfiImm (f : Fields) (s : State) : Host.Outcome State Fault Refusal :=
  vector (.bfiImm f) f s fun rd wr m =>
    let a := srcLanes s rd f.opa
    let b := regLanes rd.work f.dst.toNat
    writeResult s wr f.dst m fun t => bfiNat (natAt a t) (natAt b t) (immWord rd f).toNat
def execPerm (f : Fields) (s : State) : Host.Outcome State Fault Refusal :=
  ternary (.perm f) f s fun a b c =>
    plain (permByte a b c 0 + 2 ^ 8 * permByte a b c 1 + 2 ^ 16 * permByte a b c 2 + 2 ^ 24 * permByte a b c 3)

/-! Moves (R104). -/

def execSel (f : Fields) (s : State) : Host.Outcome State Fault Refusal :=
  vector (.sel f) f s fun rd wr m =>
    let a := srcLanes s rd f.opa
    let b := srcLanes s rd f.opb
    let p := predBits rd.work f.opc.toNat
    writeResult s wr f.dst m fun t => plain (if p.getLsbD t then natAt a t else natAt b t)
def execMov (f : Fields) (s : State) : Host.Outcome State Fault Refusal :=
  vector (.mov f) f s fun rd wr m =>
    if f.ty = .n64 then writeWide s wr f.dst m fun t => plain (pairAt s rd f.opa t)
    else
      let a := srcLanes s rd f.opa
      writeResult s wr f.dst m fun t => plain (natAt a t)
def execMovi (f : Fields) (s : State) : Host.Outcome State Fault Refusal :=
  vector (.movi f) f s fun rd wr m => writeResult s wr f.dst m fun _ => plain (immWord rd f).toNat
/-- Bit k of the result is predicate B + k, for those that exist. -/
def execP2v (f : Fields) (s : State) : Host.Outcome State Fault Refusal :=
  vector (.p2v f) f s fun rd wr m =>
    let b := f.opa.toNat
    writeResult s wr f.dst m fun t =>
      plain (maskOf fun k => decide (b + k < 64) && (predBits rd.work (b + k)).getLsbD t).toNat
/-- Predicates D to min(D + 31, 63) take the bits of a. -/
def execV2p (f : Fields) (s : State) : Host.Outcome State Fault Refusal :=
  vector (.v2p f) f s fun rd wr m =>
    let a := srcLanes s rd f.opa
    let d := f.dst.toNat
    .ok ((List.range (min 32 (64 - d))).foldl (fun r k => writePred r (d + k) m (maskOf fun t => (laneAt a t).getLsbD k)) wr)

end Sys2Proof.Machine
end

