-- ==== Sys2Proof/Machine/Compare.lean ====
section
/-! DEFINITION. Compares, predicate logic and the operations across threads (R105, R106, R114 to R118). -/

namespace Sys2Proof.Machine

/-- The predicate a compare writes: cmp alone, or combined with pC by COMB (R105). -/
def combine (f : Fields) (old cmp : Mask) : Mask :=
  match (f.opx.extractLsb' 3 2).toNat with
  | 1 => cmp &&& old
  | 2 => cmp ||| old
  | _ => cmp

/-- ICMP's condition. -/
def intCond (cond : Nat) (a b : Int) : Bool :=
  match cond with
  | 0 => a = b
  | 1 => a ≠ b
  | 2 => a < b
  | 3 => a ≤ b
  | 4 => b < a
  | _ => b ≤ a

def execIcmp (f : Fields) (s : State) : Host.Outcome State Fault Refusal :=
  vector (.icmp f) f s fun rd wr m =>
    let cond := (f.opx.extractLsb' 0 3).toNat
    let w := f.ty.bits
    let a := srcLanes s rd f.opa
    let b := srcLanes s rd f.opb
    let x (t : Nat) : Nat := if f.ty.wide then pairAt s rd f.opa t else natAt a t
    let y (t : Nat) : Nat := if f.ty.wide then pairAt s rd f.opb t else natAt b t
    let cmp := maskOf fun t => intCond cond (readInt f.ty.signed w (x t)) (readInt f.ty.signed w (y t))
    .ok (writePred wr f.dst.toNat m (combine f (predBits rd.work f.opc.toNat) cmp))

def execFcmp (f : Fields) (s : State) : Host.Outcome State Fault Refusal :=
  vector (.fcmp f) f s fun rd wr m =>
    let cond := (f.opx.extractLsb' 0 3).toNat
    let a := srcLanes s rd f.opa
    let b := srcLanes s rd f.opb
    let c (t : Nat) : Bool × BitVec 6 := f.ty.fmt.compare (modeDaz rd.work.mode) cond (natAt a t) (natAt b t)
    let cmp := maskOf fun t => (c t).1
    let fl := (results m fun t => ⟨0, (c t).2⟩)
    .ok (raise (writePred wr f.dst.toNat m (combine f (predBits rd.work f.opc.toNat) cmp)) (flagsOf fl))

def execPlop (f : Fields) (s : State) : Host.Outcome State Fault Refusal :=
  vector (.plop f) f s fun rd wr m =>
    .ok (writePred wr f.dst.toNat m
      (ttWord f.tt (predBits rd.work f.opa.toNat) (predBits rd.work f.opb.toNat) (predBits rd.work f.opc.toNat)))

/-! Across threads (R114 to R116). -/

/-- The value of an MSK prefix, when there is one (R80): that of the lowest thread of MASK. -/
def mskValue (s : State) (rd : Run) : Option Mask :=
  rd.msk.map fun c => laneAt (srcLanes s rd c) ((firstThread (runMask rd)).getD 0)

/-- PICK's source thread by its rule. -/
def pickFrom (rule t n : Nat) : Nat :=
  match rule with
  | 0 => n
  | 1 => (t + 2 ^ 32 - n) % 32
  | 2 => t ^^^ n
  | _ => t &&& n

def execPick (f : Fields) (s : State) : Host.Outcome State Fault Refusal :=
  vector (.pick f) f s fun rd wr m =>
    let a := srcLanes s rd f.opa
    let b := srcLanes s rd f.opb
    let v := match mskValue s rd with | some x => runMask rd &&& x | none => m
    writeResult s wr f.dst m fun t =>
      let k := pickFrom (f.opx.extractLsb' 0 2).toNat t (natAt b t)
      plain (if k < 32 ∧ v.getLsbD k then natAt a k else natAt a t)

/-- PGATH's forms over the threads that are active. -/
def gathered (form : Nat) (p m : Mask) : Nat :=
  match form with
  | 0 => if p &&& m = m then 1 else 0
  | 1 => if p &&& m ≠ 0 then 1 else 0
  | 2 => if p &&& m = m ∨ p &&& m = 0 then 1 else 0
  | 3 => (p &&& m).toNat
  | _ => popCount (p &&& m).toNat

def execPgath (f : Fields) (s : State) : Host.Outcome State Fault Refusal :=
  vector (.pgath f) f s fun rd wr m =>
    writeResult s wr f.dst m fun _ => plain (gathered (f.opx.extractLsb' 0 3).toNat (predBits rd.work f.opa.toNat) m)

/-- OP and X of a reduction (R116). -/
def redOp (f : Fields) : Nat := (f.opx.extractLsb' 0 3).toNat
def redX (f : Fields) : Bool := f.opx.getLsbD 3

/-- One combination of two terms (R116). -/
def redCombine (ty : Ty) (op : Nat) (c : FCtx) (x y : Nat) : Rounded :=
  let lt (a b : Nat) : Bool := readInt ty.signed 32 a < readInt ty.signed 32 b
  if ty = .f32 then
    match op with
    | 0 => fmtF32.add c x y
    | 1 => fmtF32.minMax c false x y
    | _ => fmtF32.minMax c true x y
  else
    match op with
    | 0 => plain ((x + y) % 2 ^ 32)
    | 1 => plain (if lt y x then y else x)
    | 2 => plain (if lt x y then y else x)
    | 3 => plain (x &&& y)
    | 4 => plain (x ||| y)
    | _ => plain (x ^^^ y)

/-- What governs a tree addition: pos is {level, left index} (R116). -/
def treeCtx (s : State) (rd : Run) (f : Fields) (l i : Nat) : FCtx :=
  fctx s rd f (f.opx.extractLsb' 4 2).toNat (32 * (l % 8) + i % 32)

/-- SRED over the terms present, by index. -/
def reduce (s : State) (rd : Run) (f : Fields) (terms : List (Nat × Nat)) : Rounded :=
  if redX f then
    let r := terms.foldl (fun (st : Xs320 × BitVec 6) x => let y := st.1.addTerm x.2; (y.1, st.2 ||| y.2)) (Xs320.empty, 0)
    let o := r.1.read
    ⟨o.bits, o.flags ||| r.2⟩
  else
    match terms, f.ty with
    | [x], .f32 => fmtF32.lone (treeCtx s rd f 0 x.1) x.2
    | _, _ =>
    match indexTree (fun l i x y => redCombine f.ty (redOp f) (treeCtx s rd f l i) x y) 32 0 terms 0 with
    | some (v, fl) => ⟨v, fl⟩
    | none => ⟨0, 0⟩

def execSred (f : Fields) (s : State) : Host.Outcome State Fault Refusal :=
  vector (.sred f) f s fun rd wr m =>
    let a := srcLanes s rd f.opa
    let terms := ((List.range threads).filter fun t => m.getLsbD t).map fun t => (t, natAt a t)
    let r := reduce s rd f terms
    writeResult s wr f.dst m fun _ => r

/-! REDL (R117, R118): a step performs one element. -/

/-- The identity of a reduction of no element. -/
def redIdentity (f : Fields) : Nat :=
  match f.ty, redOp f with
  | .f32, 1 => 0x7F800000
  | .f32, 2 => 0xFF800000
  | ty, 1 => wrapBits 32 (intMax ty.signed 32)
  | ty, 2 => wrapBits 32 (intMin ty.signed 32)
  | _, 3 => 0xFFFFFFFF
  | _, _ => 0

/-- The work area's slots and presence bits. -/
structure RedWork where
  slots : List Nat
  present : Nat
  deriving DecidableEq, Repr

def RedWork.read (c : Scratch) (o : Nat) : RedWork :=
  ⟨(List.range 32).map fun j => scratchWord c (o + 4 * j), scratchWord c (o + 128)⟩
/-- Put a partial value of level l in, combining upwards while its slot is taken; i is the index of the element just read. -/
def RedWork.put (op : Nat → Nat → Nat → Nat → Rounded) (i : Nat) : Nat → Nat → Nat → BitVec 6 → RedWork → RedWork × BitVec 6
  | 0, _, _, fl, w => (w, fl)
  | n + 1, l, x, fl, w =>
    if w.present.testBit l then
      -- the left operand's elements begin 2^(l+1) − 1 below i
      let r := op l (i + 1 - 2 ^ (l + 1)) (w.slots.getD l 0) x
      RedWork.put op i n (l + 1) r.bits (fl ||| r.flags) { w with present := w.present - 2 ^ l }
    else ({ slots := w.slots.set l x, present := w.present + 2 ^ l }, fl)

/-- The lowest element index of the partial value pending at level l, of n elements. -/
def slotIndex (n l : Nat) : Nat := n / 2 ^ (l + 1) * 2 ^ (l + 1)
/-- The levels of the index tree at which pending partials meet: a lone value rises unchanged until it has a partner. -/
def RedWork.result (op : Nat → Nat → Nat → Nat → Rounded) (n : Nat) (w : RedWork) : Option (Nat × BitVec 6) :=
  (List.range 32).foldl (fun acc l =>
    if w.present.testBit l then
      match acc with
      | none => some (w.slots.getD l 0, 0)
      | some (v, fl) =>
        let r := op l (slotIndex n l) (w.slots.getD l 0) v
        some (r.bits, fl ||| r.flags)
    else acc) none

/-- The level at which a partial value comes to rest: the lowest whose slot is free. -/
def RedWork.level (w : RedWork) : Nat := ((List.range 32).find? fun l => !w.present.testBit l).getD 31
/-- The words of the work area that a step reads are free of errors (R158): the image, or the presence bits and the slots named. -/
def redChecked (x : Bool) (c : Scratch) (o : Nat) (reads : Nat → Bool) : Except Stop Unit := do
  let _ ← scratchData c (if x then o else o + 128) (if x then 48 else 4)
  let _ ← ((List.range 32).filter fun l => !x && reads l).mapM fun l => scratchData c (o + 4 * l) 4
  .ok ()

/-- One element of REDL, or its result after the last one. DESIGN CHOICE: where a or c is misaligned and a bounds check of R118 fails as well,
the rule gives no order between the two traps; Misaligned is taken here (log 96). -/
def execRedl (f : Fields) (s : State) : Host.Outcome State Fault Refusal :=
  match s.run with
  | none => .fault .noClause
  | some rd =>
    let wr := noteReads s (.redl f) rd
    let t := (firstThread (runMask rd)).getD 0
    let a := natAt (srcLanes s rd f.opa) t
    let n := natAt (srcLanes s rd f.opb) t
    let c := natAt (srcLanes s rd f.opc) t
    let prog := rd.work.prog
    let g := wgOf rd.ref
    let op (l i x y : Nat) : Rounded := redCombine f.ty (redOp f) (treeCtx s rd f l i) x y
    -- the work area is cleared before the first element
    let cleared := scratchPut s g (c + 128) (List.replicate 16 0)
    let s0 := if prog ≠ 0 then s else if redX f then scratchPut cleared g c Xs320.empty.image else cleared
    let out : Except Stop State := do
      let w ← runWg s rd
      if a % 4 ≠ 0 ∨ c % 16 ≠ 0 then .error (.trap 5 0 0)
      else if (n ≠ 0 ∧ w.scratch.size < a + 4 * n) ∨ w.scratch.size < c + 144 ∨ (w.frozen ∧ c < w.scratch.persist) then .error (.trap 7 0 0)
      else
        let w ← runWg s0 rd
        let sc := w.scratch
        let k := RedWork.read sc c
        if n ≤ prog then do
          redChecked (redX f) sc c k.present.testBit
          let r : Rounded :=
            if redX f then (Xs320.ofImage (scratchRead sc c 48)).read
            else if n = 1 && f.ty = .f32 then fmtF32.lone (treeCtx s rd f 0 0) (k.slots.getD 0 0)
            else
              match k.result op n with
              | some (v, fl) => ⟨v, fl⟩
              | none => plain (redIdentity f)
          let r1 ← writeResult s0 wr f.dst (runMask rd) fun _ => r
          .ok (finishLong s0 r1)
        else do
          let x ← scratchSeen s0 w (a + 4 * prog) 4
          redChecked (redX f) sc c fun l => l < k.level
          let x := bytesToNat x
          let (s1, fl) :=
            if redX f then
              let y := (Xs320.ofImage (scratchRead sc c 48)).addTerm x
              (scratchPut s0 g c y.1.image, y.2)
            else
              let y := k.put op prog 32 0 x 0
              (scratchPut (scratchPut s0 g (c + 4 * k.level) (natToBytes 4 (y.1.slots.getD k.level 0))) g (c + 128) (natToBytes 4 y.1.present), y.2)
          -- an enabled exception stops the element before it is performed (R22)
          match enabledTrap rd.work.mode fl with
          | some d => .error (.trap 0x13 d 0)
          | none => .ok (advance s1 (raise rd fl) (prog + 1))
    match out with
    | .ok s1 => .next s1
    | .error e => .next (stopRun s rd e)

end Sys2Proof.Machine
end

