-- ==== Sys2Proof/Machine/Divert.lean ====
section
/-! DEFINITION. What stands between a swarm and its next clause when its launch is diverted or pre-empted: DRAINs, the diversion of one
swarm, and the swarms a pre-emption lets finish (R218, R225, R358, R359, R377). -/

namespace Sys2Proof.Machine

/-- A clause that holds GATHER, SCATTER or REDL: it stops at its next element boundary (R358, R377). -/
def longRun (r : Run) : Bool := r.words.any fun y => longOps.contains (opNat y) && opNat y ≠ 0x8A

/-- A swarm stands in a DRAIN that has begun: in flight, held on a fault, or with rows to resume. -/
def inDrain (s : State) (w : Swarm) : Bool :=
  w.draining.isSome || (s.run.toList ++ s.runs).any fun x => x.ref = w.ref && x.words.any fun y => opNat y = 0x8A
/-- A DRAIN of a workgroup is under way (R218). -/
def drainUnderWay (s : State) (g : WgRef) : Bool := (swarmsOf s g).any (inDrain s)

/-- A clause that runs to its end before its swarm is diverted: it waits neither at a fetch nor at an arrival, and holds no instruction
that stops between two elements. -/
def midClause (s : State) (w : Swarm) : Bool :=
  (s.run.any fun x => x.ref = w.ref && !longRun x) ||
    (w.sched = .active && s.runs.any fun x => x.ref = w.ref && match x.phase with
      | .cellWait _ | .fencing .. => true
      | .executing | .stalled => !longRun x
      | _ => false)

/-- A swarm of a diverted launch that is to go to its wrap-up now: not one HALTED by the debugger, nor, but for a cancellation, one that
is stopped (R358, R365). -/
def divertsNow (s : State) (w : Swarm) : Bool :=
  match launch? s w.ref.seq with
  | none => false
  | some l =>
    l.cause ≠ 0 && l.state = .resident && !w.diverted && !w.ref.slice && w.sched ≠ .done &&
      (w.sched ≠ .halted || (w.stopped && l.cancelled)) && !midClause s w && !drainUnderWay s (wgOf w.ref)

/-- A task whose arrivals are all made counts as ended, its operations and its commit still to complete (R347, R361). -/
def taskOpenAt (s : State) (g : WgRef) : Bool := inTask s g && !taskEnded s g

/-- WRAPCAUSE (R359). -/
def wrapCauseOf (cause : Nat) (open_ : Bool) (prog : Nat) : Word :=
  BitVec.ofNat 32 (cause % 8 + (if open_ then 8 else 0) + (if prog = 0 then 0 else 16) + 2 ^ 8 * min prog 0xFFFFFF)

/-- DIVERT ONE SWARM (R358). A stopped swarm leaves at its launch's cancellation, with cause 2 whatever diverted the others (R365). -/
def divertSwarm (s : State) (r : SwarmRef) : State :=
  match swarm? s r, wg? s (wgOf r), launch? s r.seq with
  | some _, some g, some l =>
    let s1 := { squash (dissolve s r) r with dies := s.dies.map fun d => { d with holds := d.holds.filter fun h => h.ref ≠ r || h.engine.isSome } }
    modSwarm s1 r fun w => { w with
      slotA := ⟨true, false, g.wrapup, w.live, Config.noneAddr, Config.noneAddr⟩
      slotB := Slot.empty
      dsDepth := 0
      prog := 0
      progFlags := 0
      draining := none
      wrapCause := wrapCauseOf (if w.stopped && l.cancelled then 2 else l.cause) (taskOpenAt s g.ref) w.prog
      barrier := none, rerun := false, pendFetch := none, waitFrom := none, mismatches := 0
      stopped := false, diverted := true
      sched := if w.sched = .active then .active else .ready
      since := s.cycle
      freeFrom := if w.sched = .held || w.sched = .halted then s.cycle else w.freeFrom }
  | _, _, _ => s

/-- Whether a pre-emption under way keeps a swarm from issuing: all but one that finishes a DRAIN (R218, R377). -/
def preempted (s : State) (w : Swarm) : Bool :=
  match launch? s w.ref.seq with
  | none => false
  | some l => l.state ≠ .resident || (l.stopping && !inDrain s w)

end Sys2Proof.Machine
end

