-- ==== Sys2Proof/Machine/Issue.lean ====
section
/-! DEFINITION. The issue of a clause: who may issue, from which slot, the checks and waits at issue, and the clause in flight that
results (R25, R28, R36, R71, R82, R131 to R138, R155, R182, R188, R189, R280, R291 to R293, R402). -/

namespace Sys2Proof.Machine

/-- What an unmet wait condition is: a GROW, for which neither slot issues (R127); a tile or a slice context and nothing else (R209, R291);
any other. -/
inductive WaitWhy where
  | grow | tile | context | other
  deriving DecidableEq, Repr

/-- What the next clause of a slot would do now. -/
inductive Prep where
  | issue (r : Run)
  | park
  | wait (why : WaitWhy)
  | stop (e : Stop)
  deriving DecidableEq, Repr

/-- A clause in flight at its first word. A resumed REDL goes on with the flags of the elements it has performed (R23). -/
def newRun (w : Swarm) (k : SlotId) (pc header : DWord) (words : List DWord) (idx grown : Nat) : Run :=
  ⟨w.ref, k, pc, header, words, idx, w, none, none, [], [], grown, if words.any (fun x => opNat x = 0x37) then w.progFlags else 0,
    .none, 0, [], none, .executing⟩

/-- Paths on which a word raises a counter (R166, R219, R316, R403, R412, R419). -/
def raisesPath (op : Nat) : Option Nat :=
  if op = 0x61 || op = 0x6A || op = 0x6C then some 0
  else if op = 0x66 || op = 0x67 then some 2
  else if op = 0x82 || op = 0x83 || op = 0x84 then some 3
  else if (0xB0 ≤ op && op ≤ 0xB3) || op = 0xB6 then some 4
  else if op = 0x77 then some 5
  else none
/-- A counter would pass 63 (R155). -/
def counterFull (w : Swarm) (ws : List DWord) : Bool :=
  (List.range 7).any fun p =>
    let n := (ws.filter fun x => raisesPath (opNat x) = some p).length
    n ≠ 0 && 63 < counterOf w p + n

/-- The threads of a slot whose guard is true at issue. -/
def issueActive (w : Swarm) (k : SlotId) (x : DWord) : Mask := (slotOf w k).mask &&& guardMask w (Fields.ofWord x)

/-! Stream registers at issue (R280, R293, R296). -/

/-- Reads of a stream register by a clause. -/
def needOf (ws : List DWord) (k : Nat) : Nat := (ws.filter fun x => (wordReads x).contains k).length
/-- Stream registers a clause reads, in order. -/
def readsOf (ws : List DWord) : List Nat := ((ws.map wordReads).flatten).eraseDups

/-- The checks of R280 for one register: a trap, a wait, or none. -/
def streamCheck (w : Swarm) (ws : List DWord) (k : Nat) : Option Prep :=
  let x := w.streams.getD k Stream.unbound
  let need := needOf ws k
  if x.failed then some (.stop (.trap 0x0C 0x0008 0))
  else if !x.bound then some (.stop (.trap 0x11 0x0401 0))
  else if x.depth < need then some (.stop (.trap 0x11 0x0403 0))
  else if x.entries.length < need then
    (if x.ended && x.next.isNone then some (.stop (.trap 0x11 0x0402 0)) else some (.wait .other))
  else
    match (x.entries.take need).findSome? Entry.fault with
    | some (c, d) => some (.stop (.trap c d 0))
    | none => none

/-- Pushes of a clause need room in the ring; one without an active thread pushes nothing (R293). -/
def pushWaits (s : State) (w : Swarm) (k : SlotId) (ws : List DWord) : Bool :=
  let o := (swarm? s (ownerOf w.ref)).getD w
  let pushes := (ws.filter fun x => issueActive w k x ≠ 0).filterMap wordPush
  pushes.eraseDups.any fun j =>
    let x := o.streams.getD j Stream.unbound
    x.bound && x.desc.push && !x.ended && x.depth < x.entries.length + (pushes.filter (· = j)).length

/-! Hive queues at issue (R188, R189). -/

/-- Whether an operand code fits a queue's width. -/
def widthFits (width c : Nat) (source : Bool) : Bool :=
  match width with
  | 0 => true
  | 1 => (source && c = 0xF0) || (c < 128 && c % 2 = 0)
  | _ => c < 128 && c % 4 = 0
def isQueueOp (x : DWord) : Bool := opNat x = 0x72 || opNat x = 0x73
/-- A push or pop can proceed. -/
def queueReady (q : Queue) (r : SwarmRef) (push : Bool) : Bool :=
  if push then
    q.pushers.length + q.pushRes.length < q.cap &&
      (q.allow = 0 || (q.pushers.filter (· = r.idx)).length + (q.pushRes.filter (· = r)).length < q.allow)
  else q.popRes.length < q.pushers.length
/-- The operand code of a QPUSH or QPOP. -/
def queueOperand (x : DWord) : Nat := if opNat x = 0x72 then (Fields.ofWord x).opa.toNat else (Fields.ofWord x).dst.toNat
/-- The registers that the width of the workgroup's queue makes an operand name must lie below RMAX (R32, R188): the index of the first
word that names one beyond. -/
def queueRange (s : State) (w : Swarm) (ws : List DWord) : Option Nat :=
  (List.range ws.length).findSome? fun k =>
    ws[k]?.bind fun x =>
      let q := hiveAt s w.ref.core (Fields.ofWord x).sel.toNat
      let c := queueOperand x
      if isQueueOp x && q.owner = some (wgOf w.ref) && c < 128 && widthFits q.width c false && w.rmax < c + 2 ^ q.width then some (k + 1) else none
/-- The check of a QPUSH or QPOP at issue. -/
def queueCheck (s : State) (w : Swarm) (k : SlotId) (x : DWord) : Option Prep :=
  let f := Fields.ofWord x
  let push : Bool := opNat x = 0x72
  let q := hiveAt s w.ref.core f.sel.toNat
  if q.owner ≠ some (wgOf w.ref) || !widthFits q.width (queueOperand x) push then some (.stop (.trap 0x11 0 0))
  else if issueActive w k x = 0 || f.imm18.getLsbD 6 || queueReady q w.ref push then none
  else some (.wait .other)
/-- Reserve an entry for the push or pop that can proceed. -/
def queueReserve (s : State) (w : Swarm) (k : SlotId) (x : DWord) : State :=
  let f := Fields.ofWord x
  let push : Bool := opNat x = 0x72
  if issueActive w k x ≠ 0 && queueReady (hiveAt s w.ref.core f.sel.toNat) w.ref push then
    modHive s w.ref.core f.sel.toNat fun q =>
      if push then { q with pushRes := q.pushRes ++ [w.ref] } else { q with popRes := q.popRes ++ [w.ref] }
  else s

/-! Other waits. -/

/-- WAITC's threshold is not met (R182). -/
def waitcWaits (w : Swarm) (k : SlotId) (ws : List DWord) : Bool :=
  match ws with
  | x :: _ =>
    let f := Fields.ofWord x
    let t := (firstThread (slotOf w k).mask).getD 0
    let v := if f.opa.toNat < 128 then natAt (regLanes w f.opa.toNat) t else natAt (constLanes w f.opa.toNat) t
    opNat x = 0x70 && min 63 v < counterOf w f.sel.toNat
  | [] => false
/-- A GROW that does not fit its lane (R36). -/
def growWaits (s : State) (w : Swarm) (ws : List DWord) : Bool :=
  ws.any fun x =>
    let n := (Fields.ofWord x).imm18.toNat
    opNat x = 0x5A && (Fields.ofWord x).sel = 0 && w.rsv < n && n ≤ w.rmax && !growFits s w n
/-- Too few free tiles for the clause's ACCALLOCs, those of longer waiters counted first (R209). -/
def tileWaits (s : State) (w : Swarm) (ws : List DWord) : Bool :=
  let names := tileNames s w ws
  let ahead := ((s.swarms.filter fun x => x.ref.core = w.ref.core && x.ref ≠ w.ref && waitsForTile x && waitedLonger x w).map (tilesOwed s)).sum
  !names.isEmpty && decide ((freeTiles s w.ref.core).length < names.length + ahead)
/-- No slice context for an FGSTART (R291). -/
def contextWaits (s : State) (w : Swarm) (ws : List DWord) : Bool :=
  let cl := clusterOf w.ref.core
  let ahead := (s.swarms.filter fun x => clusterOf x.ref.core = cl && x.ref ≠ w.ref && waitsForSlice x && waitedLonger x w).length
  ws.any (fun x => opNat x = 0x92) && (swarm? s (sliceOf w.ref)).isNone &&
    decide (Config.sliceContexts ≤ slicesIn s cl + ahead)
/-- FGWAIT waits for the slice (R292). -/
def sliceWaits (s : State) (w : Swarm) (ws : List DWord) : Bool :=
  ws.any (fun x => opNat x = 0x93 && (Fields.ofWord x).sel = 0) && (swarm? s (sliceOf w.ref)).isSome
/-- A fence holds every fabric instruction but GENFENCE (R402). -/
def fabricWaits (s : State) (ws : List DWord) : Bool :=
  s.fabric.fence.isSome && ws.any fun x => 0xB0 ≤ opNat x && opNat x ≤ 0xB6 && opNat x ≠ 0xB4
/-- Operations of a FENCEX are still outstanding (R181). -/
def fenceWaits (w : Swarm) : Bool :=
  w.inflight.any fun l => l.any fun o => !o.done && w.fenceOps.contains o.id

/-- A team's MMA is not issued while a member is HELD or HALTED: an arrival would dissolve (R137; log 85). -/
def mmaWaits (s : State) (w : Swarm) (ws : List DWord) : Bool :=
  w.inTeam && (ws.any fun x => opNat x = 0x83 || opNat x = 0x84) &&
    (swarmsOf s (wgOf w.ref)).any fun m => m.inTeam && m.team = w.team && (m.sched = .held || m.sched = .halted)
/-- The unmet wait condition of a swarm's clause, streams and queues apart. -/
def clauseWaits (s : State) (w : Swarm) (k : SlotId) (h : DWord) (ws : List DWord) : Option WaitWhy :=
  if growWaits s w ws then some .grow
  else if (hdrWaits h).any (fun x => x.2 < counterOf w x.1) || fenceWaits w || barrierOpen s w ||
      (w.endArrived.isSome && !w.rerun && inTask s (wgOf w.ref)) || waitcWaits w k ws || counterFull w ws || mmaWaits s w ws ||
      sliceWaits s w ws || fabricWaits s ws || pushWaits s w k ws then some .other
  else if contextWaits s w ws then some (if tileWaits s w ws then .other else .context)
  else if tileWaits s w ws then some .tile
  else none

/-- What a slot's next clause would do. -/
def prepSlot (s : State) (w : Swarm) (k : SlotId) : Prep :=
  let pc := (slotOf w k).pc
  let die := dieOf w.ref.core
  let ctx := ctxOf s (wgOf w.ref)
  match fetchWord s die ctx pc with
  | .error e => .stop e
  | .ok h =>
    if !w.ref.slice && hdrMark h && hdrRcp h && (slotOf w k).rpc = pc then .park
    else
      match fetchWords s die ctx pc (if hdrMark h then hdrCount h else 0) with
      | .error e => .stop e
      | .ok ws =>
        match clauseFault (limitsOf s w) h ws, queueRange s w ws with
        | some (c, i), _ => .stop (.trap c i 0)
        | none, some i => .stop (.trap codeIllegal i 0)
        | none, none =>
          if w.ref.slice then
            (if pushWaits s w k ws then .wait .other else .issue (newRun w k pc h ws 0 0))
          else
            match clauseWaits s w k h ws, (readsOf ws).findSome? (streamCheck w ws), (ws.filter isQueueOp).findSome? (queueCheck s w k) with
            | some .grow, _, _ => .wait .grow
            | some .other, _, _ => .wait .other
            | _, some p, _ => p
            | _, none, some p => p
            | some y, none, none => .wait y
            | none, none, none => .issue (newRun w k pc h ws 0 (grownAt s w ws))

/-- The slot that issues next and what its clause would do (R25). While the clause of either waits in a GROW neither issues (R127). -/
def choose (s : State) (w : Swarm) : SlotId × Prep :=
  let first : SlotId := if w.slotA.running && w.slotB.running then w.lastSlot.other else if w.slotA.running then .a else .b
  if !(slotOf w first).running then (first, .wait .other)
  else
    let p := prepSlot s w first
    if !(slotOf w first.other).running then (first, p)
    else
      match p, prepSlot s w first.other with
      | .wait .grow, _ => (first, p)
      | _, .wait .grow => (first.other, .wait .grow)
      | .wait _, .wait _ => (first, p)
      | .wait _, q => (first.other, q)
      | _, _ => (first, p)

/-- What a swarm none of whose running slots can go on waits for: a tile or a slice context, when the clause of one waits for nothing else
(R209, R291). -/
def waitKind (s : State) (w : Swarm) : WaitFor :=
  let ps := ([SlotId.a, SlotId.b].filter fun k => (slotOf w k).running).map (prepSlot s w)
  if ps.contains (.wait .tile) then .tile else if ps.contains (.wait .context) then .context else .other
/-- A swarm with no clause in flight, one of whose running slots' clauses waits on the LDST counter while stores of the swarm are buffered
(R166). -/
def ldstDrains (s : State) (w : Swarm) : Bool :=
  w.sched ≠ .done && ((coreAt s w.ref.core).wcb.any fun e => e.writers.any fun x => x.1 = w.ref) &&
    !((s.run.toList ++ s.runs).any fun x => x.ref = w.ref) && [SlotId.a, SlotId.b].any fun k =>
      (slotOf w k).running &&
        match fetchWord s (dieOf w.ref.core) (ctxOf s (wgOf w.ref)) (slotOf w k).pc with
        | .error _ => false
        | .ok h => hdrMark h && ((hdrWaits h).any (fun x => x.1 = 0 && x.2 < counterOf w 0) ||
            match fetchWord s (dieOf w.ref.core) (ctxOf s (wgOf w.ref)) ((slotOf w k).pc + 8) with
            | .ok x => waitcWaits w k [x] && (Fields.ofWord x).sel = 0
            | .error _ => false)

/-! Teams and lanes (R133 to R137). -/

/-- The swarms of a team. -/
def teamOf (s : State) (g : WgRef) (team : Nat) : List Swarm := (swarmsOf s g).filter fun w => w.inTeam && w.team = team
/-- Members of a team that count. -/
def liveTeam (s : State) (g : WgRef) (team : Nat) : List Swarm := (teamOf s g team).filter fun w => w.sched ≠ .done
/-- A team no member of which is HELD or HALTED, and some member can issue (R135). -/
def teamReady (s : State) (g : WgRef) (team : Nat) : Bool :=
  let ms := teamOf s g team
  ms.all (fun w => w.sched ≠ .held && w.sched ≠ .halted) && ms.any fun w => w.sched = .ready
/-- A team is active: it holds its members' lanes, ACTIVE or HELD, until it leaves them (R135, R136). -/
def teamActive (s : State) (g : WgRef) (team : Nat) : Bool :=
  (teamOf s g team).any (fun w => w.sched = .active) || (!(liveTeam s g team).isEmpty && (wg? s g).any fun x => x.seated.contains team)
/-- A swarm's team gives its lanes up. -/
def unseat (s : State) (w : Swarm) : State :=
  if w.inTeam then modWg s (wgOf w.ref) fun g => { g with seated := g.seated.filter (· ≠ w.team) } else s
/-- The cycle at which a ready team became so: a member can issue since then, and no member has been HELD or HALTED since (R135). -/
def teamSince (ms : List Swarm) : Nat :=
  let ready := (ms.filter fun m => m.sched = .ready).map Swarm.since
  (ms.map Swarm.freeFrom).foldl max (ready.foldl min (ready.headD 0))
/-- A lane's active slot is empty, and no active team keeps it. -/
def laneFree (s : State) (core lane : Nat) : Bool :=
  (laneSwarms s core lane).all fun w => w.sched ≠ .active && !(w.inTeam && teamActive s (wgOf w.ref) w.team)

/-- What a lane may choose: a swarm alone, or a team; with the cycle since which it is ready and its rank in a tie (R133). -/
structure Choice where
  since : Nat
  seq : Nat
  idx : Nat
  ref : SwarmRef
  team : Option (WgRef × Nat)
  deriving DecidableEq, Repr

/-- The READY swarms and ready teams of a lane, those of an active team apart: such a member takes its own slot again. -/
def choices (s : State) (core lane : Nat) : List Choice :=
  (laneSwarms s core lane).filterMap fun w =>
    if w.inTeam then
      let g := wgOf w.ref
      let ms := teamOf s g w.team
      if w.sched ≠ .done && teamReady s g w.team && !teamActive s g w.team then
        some ⟨teamSince ms, g.seq, ms.foldl (fun m x => min m x.ref.idx) w.ref.idx, w.ref, some (g, w.team)⟩
      else none
    else if w.sched = .ready then some ⟨w.since, w.ref.seq, w.ref.idx, w.ref, none⟩
    else none
/-- The first of two choices: ready longer, then the older launch, then the lower swarm. -/
def Choice.before (x y : Choice) : Bool :=
  x.since < y.since || (x.since = y.since && (x.seq < y.seq || (x.seq = y.seq && x.idx < y.idx)))
/-- The best of a list of choices. -/
def bestOf (l : List Choice) : Option Choice :=
  l.foldl (fun b x => match b with | none => some x | some y => if x.before y then some x else b) none

/-- A ready team enters: each of its lanes selects it, one of them is free, and none is kept by an active team (R135; log 86). -/
def teamClaims (s : State) (g : WgRef) (team : Nat) : Bool :=
  let ms := liveTeam s g team
  teamReady s g team && !teamActive s g team && (ms.any fun m => laneFree s m.ref.core m.lane) &&
    ms.all fun m =>
      ((laneSwarms s m.ref.core m.lane).all fun w => !(w.inTeam && teamActive s (wgOf w.ref) w.team)) &&
        (bestOf (choices s m.ref.core m.lane)).any fun x => x.team = some (g, team)
/-- A lane that an entering team claims: its active swarm issues no further clause (R135). -/
def laneClaimed (s : State) (core lane : Nat) : Bool :=
  (bestOf (choices s core lane)).any fun x => x.team.any fun t => teamClaims s t.1 t.2
/-- What has been ready for 1,024 cycles and forces a swap on a lane (R134). -/
def dueChoice (s : State) (core lane : Nat) : Option Choice := bestOf ((choices s core lane).filter fun x => x.since + 1024 ≤ s.cycle)

/-- A member's clause stands in an arrival that is not complete (R137). -/
def arrivedRun (s : State) (r : SwarmRef) : Bool := s.runs.any fun x => x.ref = r && x.phase = .arrived
/-- A team is pinned while an arrival of its is incomplete and every member that is not DONE is ACTIVE (R137). -/
def pinned (s : State) (w : Swarm) : Bool :=
  w.inTeam &&
    let ms := liveTeam s (wgOf w.ref) w.team
    ms.any (fun m => arrivedRun s m.ref) && ms.all fun m => m.sched = .active
/-- A swarm whose lane is to pass to another at this clause boundary (R134, R135). -/
def mustYield (s : State) (w : Swarm) : Bool :=
  !w.ref.slice && (laneClaimed s w.ref.core w.lane || ((dueChoice s w.ref.core w.lane).isSome && !pinned s w))

/-- Whether a swarm, or a slice, may issue at all: it is ACTIVE, not stopped, nothing of it is in flight, its launch is
neither over nor being pre-empted, its task is not ending, and its lane is not to pass to another. -/
def mayIssue (s : State) (w : Swarm) : Bool :=
  (if w.ref.slice then w.sched = .ready else w.sched = .active) && !w.stopped && !(s.run.any fun r => r.ref = w.ref) &&
    !(s.runs.any fun r => r.ref = w.ref) && !preempted s w && !(((wg? s (wgOf w.ref)).bind Workgroup.task).any fun t => t.ending.isSome) &&
    !mustYield s w

/-! Leaving a lane (R132, R136). -/

/-- A READY swarm, or a ready team, waits for a lane. -/
def contender (s : State) (core lane : Nat) : Bool := !(choices s core lane).isEmpty
/-- A swarm has a clause that can go on, or something that it would do at its next clause. -/
def canGo (s : State) (w : Swarm) : Bool :=
  !w.deferred.isEmpty || w.pendFetch.isSome || (match (choose s w).2 with | .wait _ => false | _ => true)
/-- A swarm stands at a clause boundary as far as a swap is concerned: nothing of it is in flight, but for a clause that waits at an
arrival, at its workgroup's fetch or at a membership fence. -/
def atBoundary (s : State) (r : SwarmRef) : Bool :=
  !(s.run.any fun x => x.ref = r) &&
    !(s.runs.any fun x => x.ref = r && match x.phase with | .arrived | .fetching .. | .fencing .. => false | _ => true)

/-- A swarm leaves its lane: READY when its next clause can issue, else WAITING. No arrival survives a swap (R137). -/
def stepAside (s : State) (w : Swarm) : State :=
  let go := arrivedRun s w.ref || (!(s.runs.any fun x => x.ref = w.ref) && canGo s w)
  setSched (if arrivedRun s w.ref then dissolve s w.ref else s) w.ref (if go then .ready else .waiting)

/-- The ACTIVE swarm whose next clause waits leaves its lane when another is READY (R132); a team leaves as one, its HELD members with it,
when none of its members can issue and something waits for one of its lanes; one whose hold is over takes its slot again and can (R136). -/
def leaveLane (s : State) (w : Swarm) : State :=
  if w.ref.slice then setSched s w.ref .waiting
  else if w.inTeam then
    let ms := liveTeam s (wgOf w.ref) w.team
    if !teamActive s (wgOf w.ref) w.team || ms.any (fun m => !atBoundary s m.ref || m.sched = .ready ||
        (m.sched = .active && mayIssue s m && canGo s m)) || !(ms.any fun m => contender s m.ref.core m.lane) then s
    else (ms.filter fun m => m.sched = .active).foldl stepAside (unseat s w)
  else if contender s w.ref.core w.lane then setSched s w.ref .waiting
  else s

/-- The launch's first clause gives TSTART (R341), and before its first on a core the core's L1 is invalidated (R249). -/
def noteStart (s : State) (g : WgRef) : State :=
  let s1 := if (launch? s g.seq).any fun l => l.tstart = 0 then modLaunch s g.seq fun l => { l with tstart := s.clkns } else s
  if (wg? s g).any fun w => !w.begun then modWg (l1Drop s1 g.core fun _ => true) g fun w => { w with begun := true } else s1

/-- A swarm is found waiting: since when, and for what (R209, R291). -/
def noteWait (s : State) (w : Swarm) : State :=
  let kind := waitKind s w
  modSwarm s w.ref fun w => { w with waitFrom := some (if w.waitFor = kind then w.waitFrom.getD s.cycle else s.cycle), waitFor := kind }

/-- The kind of a wait in ACCALLOC or FGSTART that the clause of a swarm's other slot stands in while this slot's issues: it keeps its place
(R209, R291). -/
def otherWait (s : State) (w : Swarm) (k : SlotId) : Option WaitFor :=
  if (slotOf w k.other).running then
    match prepSlot s w k.other with
    | .wait .tile => some .tile
    | .wait .context => some .context
    | _ => none
  else none
/-- A swarm's wait as one of its slots' clauses issues. -/
def waitPast (s : State) (k : SlotId) (w : Swarm) : Swarm :=
  match otherWait s w k with
  | none => { w with waitFrom := none }
  | some kind => { w with waitFrom := some (if w.waitFor = kind then w.waitFrom.getD s.cycle else s.cycle), waitFor := kind }

/-- What a waiting swarm waits for is found anew each cycle, whether or not it holds its lane: a header's condition may be met and a tile
lacking still (R132, R209). One that can go on keeps its place. -/
def reviewWait (s : State) (r : SwarmRef) : State :=
  match swarm? s r with
  | none => s
  | some w =>
    let s1 := if ldstDrains s w then drainSwarm s r else s
    if w.waitFrom.isSome && !w.ref.slice && (w.sched = .active || w.sched = .waiting || w.sched = .ready) &&
        !((s.run.toList ++ s.runs).any fun x => x.ref = r) && (match (choose s w).2 with | .wait _ => waitKind s w ≠ w.waitFor | _ => false) then
      noteWait s1 w
    else s1
/-- The same of every swarm. -/
def reviewWaits (s : State) : State := (s.swarms.map Swarm.ref).foldl reviewWait s

/-- ISSUE A CLAUSE: a deferred trap is raised (R162), a restored FETCH result delivered, or the chosen slot's clause issued, parked,
stopped or left waiting. -/
def issueClause (s : State) (r : SwarmRef) : State :=
  match swarm? s r with
  | none => s
  | some w =>
    if !mayIssue s w then s
    else if divertsNow s w then divertSwarm s r
    else
      match w.deferred, w.pendFetch with
      | d :: ds, _ =>
        takeTrap (modSwarm s r fun w => { w with deferred := ds }) r ⟨d.code, d.detail, d.origin, d.pc, d.addr, w.prog, 0⟩
      | [], some (dst, pred, v, fl) => refetch s r dst pred v fl
      | [], none =>
        match choose s w with
        | (_, .park) => { s with agenda := .event (.reconvergencePark r) :: s.agenda }
        | (k, .stop e) => stopRun s (newRun w k (slotOf w k).pc 0 [] 0 0) e
        | (k, .wait why) =>
          if why = .grow && lastToWait s r (waitsToGrow s) then stopRun s (newRun w k (slotOf w k).pc 0 [] 0 0) (.trap 8 0 0)
          else leaveLane (noteWait s w) w
        | (_, .issue run) =>
          let s1 := (run.words.filter isQueueOp).foldl (fun s x => queueReserve s w run.slot x) s
          let s2 := modSwarm { s1 with run := some { run with work := { run.work with waitFrom := none } } } r (waitPast s run.slot)
          noteStart (countCore s2 r.core 0x01 (ctxOf s (wgOf r))) (wgOf r)

end Sys2Proof.Machine
end

