-- ==== Sys2Proof/Machine/Ordering.lean ====
section
/-! DEFINITION. Fences, WAITC, hive queues and barriers (R180 to R182, R186 to R190). -/

namespace Sys2Proof.Machine

/-! Fences (R180, R181). -/

/-- SEL of FENCE: 1 .ACQ, 2 .REL, 3 .AR. An acquire acts at once; a release marks the swarm's next write; .AR also orders every earlier
access on a release path before every later one (R230). -/
def execFence (f : Fields) (s : State) : Host.Outcome State Fault Refusal :=
  withRun (.fence f) s fun rd wr =>
    let sc := f.rnd.toNat
    let settled : Except Stop State := if f.sel = 3 then settleSwarm s rd.ref false else .ok s
    match settled with
    | .error _ => .error .wait
    | .ok s0 =>
      let s1 := if f.sel.getLsbD 0 then acquireAt s0 rd.ref sc else s0
      let wr := if f.sel.getLsbD 1 then { wr with work := { wr.work with pendRel := wr.work.pendRel ++ [sc] } } else wr
      .ok (s1, if f.sel = 3 then { wr with effects := wr.effects ++ [.settle false] } else wr)

def execFencex (f : Fields) (s : State) : Host.Outcome State Fault Refusal :=
  withEffect (.fencex f) s fun _ _ => .ok (.fencex (f.imm18.extractLsb' 0 7))

/-- WAITC's threshold is a condition of its clause's issue (R182). -/
def execWaitc (f : Fields) (s : State) : Host.Outcome State Fault Refusal :=
  withRun (.waitc f) s fun _ wr => .ok (s, wr)

/-! Hive queues (R187 to R189). -/

def execQinit (f : Fields) (s : State) : Host.Outcome State Fault Refusal :=
  withRun (.qinit f) s fun rd wr =>
    match firstThread (active rd f) with
    | none => .ok (s, wr)
    | some t => do
      let i := f.imm18.toNat
      let q := f.sel.toNat
      let base := natAt (srcLanes s rd f.opa) t
      let cap := i % 2 ^ 8 + 1
      let width := i / 2 ^ 8 % 4
      let g ← runWg s rd
      let owner := (hiveAt s rd.ref.core q).owner
      if owner.isSome && owner ≠ some g.ref then .error (.trap 0x11 0 0)
      else if base % 128 ≠ 0 then .error (.trap 5 0 base)
      else if g.scratch.size < base + cap * entryBytes width ∨ base < g.scratch.persist then .error (.trap 7 0 0)
      else .ok (s, { wr with effects := wr.effects ++ [.qinit q base cap width (i / 2 ^ 10 % 64)] })

/-- Registers of a queue's entry per thread. -/
def queueParts (q : Queue) : Nat := 2 ^ q.width
/-- pD and .NB of a QPUSH or QPOP. -/
def queuePred (f : Fields) : Nat := (f.imm18.extractLsb' 0 6).toNat
def queueNb (f : Fields) : Bool := f.imm18.getLsbD 6
/-- .NB's report in every thread of MASK. -/
def queueTold (r : Run) (f : Fields) (ok : Bool) : Run :=
  if queueNb f then writePred r (queuePred f) (runMask r) (if ok then BitVec.allOnes 32 else 0) else r
/-- The clause gives back the entry it reserved and does not use. -/
def queueRelease (s : State) (core : Nat) (f : Fields) (r : SwarmRef) : State :=
  modHive s core f.sel.toNat fun q => { q with pushRes := q.pushRes.erase r, popRes := q.popRes.erase r }

/-- QPUSH and QPOP share their course: without an active thread nothing, with a reserved or free entry the transfer, else .NB's report
or the wait. The entry is taken when the clause completes: while an earlier effect of it still keeps it from completing, it waits here
(R165, R189). -/
def queueInstr (i : Instr) (f : Fields) (s : State) (push : Bool) (go : Run → Run → Queue → Mask → Except Stop Run) :
    Host.Outcome State Fault Refusal :=
  withRun i s fun rd wr => do
    let m := active rd f
    let q := hiveAt s rd.ref.core f.sel.toNat
    let reserved := (if push then q.pushRes else q.popRes).contains rd.ref
    if m = 0 then .ok (queueRelease s rd.ref.core f rd.ref, wr)
    else if reserved || queueReady q rd.ref push then
      match applyEffects s rd with
      | .error .wait => .error .wait
      | _ => do
        let r ← go rd wr q m
        .ok (s, queueTold r f true)
    else if queueNb f then .ok (s, queueTold wr f false)
    else .error .wait

/-- An entry's words: per thread its registers in turn, zero in inactive threads. -/
def entryWords (s : State) (rd : Run) (c : BitVec 8) (parts : Nat) (m : Mask) : List Word :=
  ((List.range threads).map fun t => (List.range parts).map fun k =>
    if m.getLsbD t then laneAt (partLanes s rd c k) t else 0).flatten

def execQpush (f : Fields) (s : State) : Host.Outcome State Fault Refusal :=
  queueInstr (.qpush f) f s true fun rd wr q m =>
    .ok { wr with effects := wr.effects ++ [.qpush f.sel.toNat (entryWords s rd f.opa (queueParts q) m)] }

def execQpop (f : Fields) (s : State) : Host.Outcome State Fault Refusal :=
  queueInstr (.qpop f) f s false fun rd wr q m => do
    let g ← runWg s rd
    let parts := queueParts q
    let off := q.base + q.head % q.cap * entryBytes q.width
    let entry ← scratchSeen s g off (entryBytes q.width)
    let r ← (List.range parts).foldlM (fun r k =>
      writeReg s r (f.dst.toNat + k) m ((List.range threads).map fun t =>
        BitVec.ofNat 32 (bytesToNat ((entry.drop (4 * (t * parts + k))).take 4)))) wr
    .ok { r with effects := r.effects ++ [.qpop f.sel.toNat] }

/-! The barrier (R190). -/

def execTbar (f : Fields) (s : State) : Host.Outcome State Fault Refusal :=
  withEffect (.tbar f) s fun rd _ =>
    if runMask rd ≠ rd.work.live ∨ (f.rnd = 2 ∧ !rd.work.inTeam) then .error (.trap codeIllegal (wordIndex rd) 0)
    else .ok (.tbar f.rnd.toNat (f.imm18.extractLsb' 0 4).toNat)

end Sys2Proof.Machine
end

