-- ==== Sys2Proof/Machine/Accum.lean ====
section
/-! DEFINITION. The matrix instructions: reservations, CPOB, arrivals at MMA and MMAW, accumulator names and elements, DRAIN (R193 to
R219). -/

namespace Sys2Proof.Machine

/-! Reservations (R194 to R197). -/

/-- The reservation records as the clause's earlier instructions leave them. -/
def recordsNow (g : Workgroup) (rd : Run) : List (Option Reservation) :=
  rd.effects.foldl (fun l e => match e with
    | .resv n base granules ty scoff ssoff => l.set n (some ⟨base, granules, ty, scoff, ssoff⟩)
    | .rels n => l.set n none
    | _ => l) g.records

def execResv (f : Fields) (s : State) : Host.Outcome State Fault Refusal :=
  withEffect (.resv f) s fun rd _ => do
    let g ← runWg s rd
    let n := f.dst.toNat
    let a := (firstWord s rd f.opa).toNat
    let base := a % 256
    let granules := a / 256 % 256 + 1
    let q := f.ty = .q16
    let scoff := if q then (firstWord s rd f.opb).toNat % 2 ^ 18 else 0
    let ssoff := if q then (firstWord s rd f.opc).toNat % 2 ^ 18 else 0
    let recs := recordsNow g rd
    resvCheck g.obufGranules recs n base granules
    if q && ssoff % 4 ≠ 0 then .error (.trap 5 0 0)
    else .ok (.resv n base granules f.ty scoff ssoff)

def execRels (f : Fields) (s : State) : Host.Outcome State Fault Refusal :=
  withEffect (.rels f) s fun _ _ => .ok (.rels f.dst.toNat)

def execCpob (f : Fields) (s : State) : Host.Outcome State Fault Refusal :=
  withRun (.cpob f) s fun rd wr =>
    match firstThread (active rd f) with
    | none => .ok (s, wr)
    | some t => do
      let g ← runWg s rd
      let scratch := f.opx.getLsbD 0
      let src := if scratch then natAt (partLanes s rd f.opa 0) t else pairAt s rd f.opa t
      let dst := natAt (srcLanes s rd f.opb) t
      let len := natAt (srcLanes s rd f.opc) t
      if len = 0 then .ok (s, wr)
      else if src % 64 ≠ 0 ∨ dst % 64 ≠ 0 ∨ len % 64 ≠ 0 then .error (.trap 5 0 src)
      else
        match (recordsNow g rd).getD f.dst.toNat none with
        | none => .error (.trap 7 0x0301 0)
        | some q =>
          if 1024 * q.granules < dst + len then .error (.trap 7 0x0304 0)
          else if scratch && decide (g.scratch.size < src + len) then .error (.trap 7 0 0)
          else do
            let a := accessOf s rd.ref
            let _ ← (if scratch then Except.ok [] else
              (sectorsOf len).mapM fun o => translate s a.die a.ctx ((src + o) % 2 ^ 64) false)
            let k : AsyncKind := .cpob f.dst.toNat scratch src (1024 * q.base + dst) len
            .ok (s, { wr with effects := wr.effects ++ [.async k] })

/-! Arrivals (R200 to R202). -/

/-- The quarters a swarm holds and their images: eight registers of 32 words each. -/
def quarterImages (s : State) (rd : Run) (f : Fields) : List (Nat × List Word) :=
  let w := rd.work
  let size := if w.inTeam then ((wg? s (wgOf rd.ref)).map Workgroup.teamSize).getD 1 else 1
  let pos := if w.inTeam then w.teamPos else 0
  ((List.range 4).filter fun q => q % size = pos).map fun q =>
    (q, ((List.range 8).map fun j => partLanes s rd f.opb (8 * (q / size) + j)).flatten)

/-- The arrival of a clause at an MMA or MMAW: its operands are read here, in word order. -/
def arrive (i : Instr) (f : Fields) (s : State) (wide : Bool) : Host.Outcome State Fault Refusal :=
  withRun i s fun rd wr =>
    let x : Arrival := {
      wide
      acc := f.dst.toNat
      record := f.opa.toNat
      opb := f.opb
      tile := (firstWord s rd f.opc).toNat
      rows := (mskValue s rd).getD (BitVec.allOnes 32)
      key := (if wide then 0x84 else 0x83, f.dst, f.opa, f.opc, f.mod, rd.msk)
      ty := f.ty
      tyB := Ty.ofCode (f.opx.extractLsb' 0 4)
      quarters := quarterImages s rd f }
    .ok (s, { wr with arrival := some x })

def execMma (f : Fields) (s : State) : Host.Outcome State Fault Refusal := arrive (.mma f) f s false
def execMmaw (f : Fields) (s : State) : Host.Outcome State Fault Refusal := arrive (.mmaw f) f s true

/-! Accumulator names (R208 to R211). -/

/-- A name as the clause's earlier instructions leave it. DESIGN CHOICE: R209 speaks of N when the clause is about to issue, and not of an
ACCFREE of it earlier in the clause; such a name counts as unmapped here, and ACCALLOC maps it to a free tile (log 89). -/
def nameNow (s : State) (rd : Run) (n : Nat) : Option Nat :=
  rd.effects.foldl (fun x e => match e with
    | .accMap k t => if k = n then some t else x
    | .accFree k => if k = n then none else x
    | _ => x) (tileOf s (wgOf rd.ref) n)

def execAccalloc (f : Fields) (s : State) : Host.Outcome State Fault Refusal :=
  withRun (.accalloc f) s fun rd wr =>
    let n := f.dst.toNat
    let nb := f.opx.getLsbD 0
    let told (r : Run) (ok : Bool) : Run :=
      if nb then writePred r f.opa.toNat (runMask rd) (if ok then BitVec.allOnes 32 else 0) else r
    let free := freeTiles s rd.ref.core
    -- a freed tile goes to the longest waiter first
    let ahead := if nb then ((s.swarms.filter fun x => x.ref.core = rd.ref.core && x.ref ≠ rd.ref && waitsForTile x).map (tilesOwed s)).sum else 0
    if (nameNow s rd n).isSome then .ok (s, told wr true)
    else
      match free, decide (free.length ≤ ahead) with
      | k :: _, false => .ok (s, told { wr with effects := wr.effects ++ [.accMap n k] } true)
      | _, _ => if nb then .ok (s, told wr false) else .error .wait

def execAccfree (f : Fields) (s : State) : Host.Outcome State Fault Refusal :=
  withEffect (.accfree f) s fun rd _ => do
    tileReady s rd.ref f.dst.toNat true
    .ok (.accFree f.dst.toNat)

def execAcczero (f : Fields) (s : State) : Host.Outcome State Fault Refusal :=
  withEffect (.acczero f) s fun rd _ => do
    if f.opx.getLsbD 0 then .ok .accZeroExc
    else if (nameNow s rd f.dst.toNat).isNone then .error (.trap 7 0x0311 0)
    else do
      tileReady s rd.ref f.dst.toNat true
      .ok (.accZero f.dst.toNat)

/-! Elements (R212, R213). -/

/-- Row and column a thread names: (t, a[5:0]), or under .T (a[4:0], t + 32 × a[5]). -/
def elementOf (transposed : Bool) (t a : Nat) : Nat × Nat :=
  if transposed then (a % 32, t + 32 * (a / 32 % 2)) else (t, a % 64)

/-- The tile of a name with the clause's earlier operations on it done. -/
def tileNow (s : State) (rd : Run) (n : Nat) (write : Bool) : Except Stop Tile := do
  tileReady s rd.ref n write
  let trial ← applyEffects s rd
  let (t, s1) ← useTile trial (wgOf rd.ref) n
  .ok (tileAt s1 rd.ref.core t)

def execAccrd (f : Fields) (s : State) : Host.Outcome State Fault Refusal :=
  vector (.accrd f) f s fun rd wr m => do
    let mode := (f.opx.extractLsb' 0 2).toNat
    if mode = 2 then do
      let trial ← applyEffects s rd
      let g ← runWg trial rd
      let k := f.dst.toNat
      let v := min (2 ^ 32 - 1) (g.exc.getD k 0 + g.excShadow.getD k 0)
      writeReg s wr f.opa.toNat m (splat (BitVec.ofNat 32 v))
    else do
      let t ← tileNow s rd f.dst.toNat false
      let a := srcLanes s rd f.opb
      writeReg s wr f.opa.toNat m ((List.range threads).map fun k =>
        let e := elementOf (mode = 1) k (natAt a k)
        t.elems.getD (tileIndex e.1 e.2) 0)

def execAccwr (f : Fields) (s : State) : Host.Outcome State Fault Refusal :=
  withEffect (.accwr f) s fun rd _ => do
    let a := srcLanes s rd f.opa
    let b := srcLanes s rd f.opb
    let _ ← tileNow s rd f.dst.toNat true
    .ok (.accWrite f.dst.toNat ((threadsOf (active rd f)).map fun t =>
      let e := elementOf (f.opx.getLsbD 0) t (natAt a t)
      (e.1, e.2, laneAt b t)))

/-! DRAIN (R215 to R218): a step performs one row. -/

/-- OUT, .S and .SAT of DRAIN. -/
def drainOut (f : Fields) : Nat := (f.opx.extractLsb' 0 2).toNat
def drainScratch (f : Fields) : Bool := f.opx.getLsbD 2
def drainSat (f : Fields) : Bool := f.opx.getLsbD 3
def drainElem (f : Fields) : Nat := addSize f.ty (drainOut f = 2)

/-- DRAIN's operands: destination, pitch, rows, columns. -/
structure DrainArgs where
  dst : Nat
  pitch : Nat
  rows : Nat
  cols : Nat

/-- The operands, checked (R215). DESIGN CHOICE: for R or C of 0, of which R215 says that DRAIN has no effect, the limits and the alignment
are checked all the same, and the .S range, which names no byte then, is not (log 90). -/
def drainArgs (s : State) (rd : Run) (f : Fields) (g : Workgroup) : Except Stop DrainArgs :=
  let t := (firstThread (runMask rd)).getD 0
  let dst := if drainScratch f then natAt (partLanes s rd f.opa 0) t else pairAt s rd f.opa t
  let pitch := natAt (srcLanes s rd f.opb) t
  let c := natAt (srcLanes s rd f.opc) t
  let rows := c % 64
  let cols := c / 2 ^ 8 % 128
  let e := drainElem f
  let off (x : Nat) : Bool := x % e ≠ 0 || (drainOut f = 2 && x % 16 ≠ 0)
  if 32 < rows ∨ 64 < cols then .error (.trap 7 0x0313 0)
  else if off dst || off pitch then .error (.trap 5 0 dst)
  else if rows = 0 ∨ cols = 0 then .ok ⟨dst, pitch, 0, 0⟩
  else if drainScratch f then do
    scratchCheck g (dst + (rows - 1) * pitch) (cols * e) true
    scratchCheck g dst (cols * e) true
    .ok ⟨dst, pitch, rows, cols⟩
  else .ok ⟨dst, pitch, rows, cols⟩

/-- The bytes a row stores with OUT 0, with the flags of their roundings. -/
def storeRow (f : Fields) (words : List Word) : List Byte × List (BitVec 6) :=
  let out := words.map fun x =>
    if f.ty = .f32 ∨ f.ty = .s32 then (natToBytes 4 x.toNat, (0 : BitVec 6))
    else
      let r := convert { FCtx.engine with sat := drainSat f } f.ty .f32 x.toNat
      (natToBytes (drainElem f) r.bits, r.flags)
  ((out.map Prod.fst).flatten, out.map Prod.snd)

/-- Row i as an add. -/
def rowOf (s : State) (rd : Run) (f : Fields) (d : DrainArgs) (dst : Nat) (words : List Word) : AddRow :=
  let mine := ((versionOps s (wgOf rd.ref)).filter fun o => match o with | .add r => r.swarm = rd.ref.idx | _ => false).length
  ⟨dst, f.ty, drainOut f = 2, drainSat f, words, d.rows, d.pitch, rd.ref.idx, mine⟩

/-- Every sector of a row can be written (R161). -/
def rowWritable (s : State) (a : Access) (dst n : Nat) : Except Stop Unit := do
  let _ ← (sectorsTouched dst n).mapM fun b => translateData s a.die a.ctx (if b < dst then dst else b) true
  .ok ()

/-- The own core's L1 loses the sectors of a row, so that the task's next read of them sees the row (R164). -/
def dropRow (s : State) (a : Access) (dst n : Nat) : Except Stop State :=
  (sectorsTouched dst n).foldlM (fun s b => do
    let (_, pa) ← translateData s a.die a.ctx (if b < dst then dst else b) true
    .ok (l1Drop s a.ref.core fun x => x = pa / 64 * 64)) s

/-- Perform row i: in the scratchpad, in the task's version, or at its home (R216, R217). -/
def drainRow (s : State) (rd : Run) (f : Fields) (g : Workgroup) (d : DrainArgs) : Except Stop State := do
  let i := rd.work.prog
  let (t, s) ← useTile s g.ref f.dst.toNat
  let words := ((tileAt s g.ref.core t).elems.drop (tileIndex i 0)).take d.cols
  let e := drainElem f
  let shadow := g.task.isSome
  let counted (s : State) (fl : List (BitVec 6)) : State := modWg s g.ref fun g => countRoundings shadow g fl
  if drainScratch f then
    let o := d.dst + i * d.pitch
    let s ← (match settleCpobs s rd.ref true o (d.cols * e) with | .ok s1 => Except.ok s1 | .error _ => .error .wait)
    if drainOut f = 0 then
      let r := storeRow f words
      .ok (counted (scratchPut s g.ref o r.1) r.2)
    else do
      let old ← scratchSeen s g o (d.cols * e)
      let cells := rowBytes (fun a => old.getD (a - o) 0) (rowOf s rd f d o words)
      .ok (counted (scratchPut s g.ref o (cells.map fun c => c.2.1).flatten) (cells.map fun c => c.2.2))
  else do
    let dst := (d.dst + i * d.pitch) % 2 ^ 64
    let a := accessOf s rd.ref
    rowWritable s a dst (d.cols * e)
    -- what the swarm's CPOBs have still to read of these bytes is read first (R230, R233)
    let s ← (match settleCpobs s rd.ref false dst (d.cols * e) with | .ok s1 => Except.ok s1 | .error _ => .error .wait)
    let s ← markAll rd.ref s (sectorsTouched dst (d.cols * e) |>.map fun b => if b < dst then dst else b)
    if drainOut f = 0 then do
      let r := storeRow f words
      let s1 ← directWrite s a dst r.1 .clear
      budgetCheck s1 rd.ref
      .ok (counted s1 r.2)
    else if g.task.isSome then do
      -- buffered stores of the task to these bytes come before the add (R217)
      let s := drainWhere s rd.ref.core fun x => x.task = some g.ref && dst < x.va + 64 && x.va < dst + d.cols * e
      let s ← dropRow s a dst (d.cols * e)
      let s1 := versionPush s g.ref (.add (rowOf s rd f d dst words))
      budgetCheck s1 rd.ref
      .ok s1
    else do
      -- bytes the swarm still holds in the buffer drain before the read of the row
      let mine := drainWhere s rd.ref.core fun x => x.task.isNone && x.ctx = a.ctx && dst < x.va + 64 && x.va < dst + d.cols * e
      let _ ← (sectorsTouched dst (d.cols * e)).mapM fun b => do
        let (_, pa) ← translateData mine a.die a.ctx (if b < dst then dst else b) true
        sectorData mine pa b
      let cells := rowBytes (committedByte mine a.die a.ctx) (rowOf mine rd f d dst words)
      let s1 ← directWrite mine a dst (cells.map fun c => c.2.1).flatten .clear
      .ok (counted s1 (cells.map fun c => c.2.2))

def execDrain (f : Fields) (s : State) : Host.Outcome State Fault Refusal :=
  match s.run with
  | none => .fault .noClause
  | some rd =>
    let out : Except Stop State := do
      let g ← runWg s rd
      let d ← drainArgs s rd f g
      tileReady s rd.ref f.dst.toNat false
      if d.rows ≤ rd.work.prog then .ok (finishLong s (noteReads s (.drain f) rd))
      else do
        let s1 ← drainRow s rd f g d
        .ok (advance (modSwarm s1 rd.ref fun w => { w with draining := some f.dst.toNat }) rd (rd.work.prog + 1))
    match out with
    | .ok s1 => .next s1
    | .error e => .next (stopRun s rd e)

end Sys2Proof.Machine
end

