-- ==== Sys2Proof/Machine/Cells.lean ====
section
/-! DEFINITION. Decide-once cells: the home's rows, decided copies, PROPOSE, DOCRD and RECYCLE, and replies that come later (R309 to
R321). -/

namespace Sys2Proof.Machine

/-! The home (R309, R311). -/

/-- Statuses of R312. -/
abbrev cellWon : Nat := 0
abbrev cellDecided : Nat := 1
abbrev cellEmpty : Nat := 2
abbrev cellStale : Nat := 0x12
abbrev cellLost : Nat := 0x15

/-- A reply that carries a status alone. -/
def plainReply (status : Nat) : CellReply := ⟨status, none, none, none, false⟩

/-- INC and STATE of a cell's header. -/
def cellInc (d : List Byte) : Nat := bytesToNat (d.take 2)
def cellState (d : List Byte) : Nat := (d.getD 2 0).toNat % 4
/-- The sector a decision leaves. -/
def decidedSector (inc : Nat) (value : List Byte) (ident : BitVec 128) : List Byte :=
  natToBytes 8 (inc + 2 ^ 16 + (ident.extractLsb' 30 5).toNat * 2 ^ 38 + (ident.extractLsb' 35 5).toNat * 2 ^ 43 +
    (ident.extractLsb' 112 16).toNat * 2 ^ 48) ++ (value ++ List.replicate 56 0).take 56

/-- A row that changes nothing: the request is announced all the same. -/
def announceOnly (s : State) (b : Nat) : State := performWrite s b [] 0 .keep
/-- A row that writes the cell's sector and what its tag keeps. -/
def writeCell (s : State) (b : Nat) (sector : List Byte) (ident : BitVec 128) (sig : Option (BitVec 512)) : State :=
  modMeta (performWrite s b sector (BitVec.allOnes 64) .keep) b fun m => { m with ident, cellSig := sig }

/-- The row of R311 that applies, performed: the reply, and the machine after it. -/
def cellRow (s : State) (pa : Nat) (q : CellReq) : CellReply × State :=
  let b := pa / 64 * 64
  match sectorData s b b with
  | .error (.trap c d _) => (⟨0, none, none, some (c, d), false⟩, s)
  | .error _ => (plainReply cellStale, s)
  | .ok d =>
    let m := metaOf s b
    let held : CellReply := ⟨cellDecided, some (d.drop 8), m.cellSig, none, false⟩
    if 2 ≤ cellState d then (⟨0, none, none, some (7, 0x0503), false⟩, announceOnly s b)
    else
      match q with
      | .propose inc value ident sig _ =>
        if inc ≠ cellInc d then (plainReply cellStale, announceOnly s b)
        else if cellState d = 0 then
          let sector := decidedSector inc value ident
          (⟨cellWon, some (sector.drop 8), sig, none, true⟩, writeCell s b sector ident sig)
        else if m.ident = ident then ({ held with status := cellWon }, announceOnly s b)
        else (held, announceOnly s b)
      | .docrd inc _ =>
        if inc ≠ cellInc d then (plainReply cellStale, announceOnly s b)
        else if cellState d = 0 then (plainReply cellEmpty, announceOnly s b)
        else (held, announceOnly s b)
      | .recycle inc _ =>
        if cellState d = 1 && inc = cellInc d then
          (plainReply cellEmpty, writeCell s b (natToBytes 8 ((inc + 1) % 2 ^ 16) ++ List.replicate 56 0) 0 none)
        else (plainReply cellEmpty, announceOnly s b)

/-- A row would write a cell in a granule that a live view guards: its request waits for the granule's copy (R325). -/
def snapshotHolds (s : State) (pa : Nat) (q : CellReq) : Bool :=
  (guardedPa s pa).isSome && memRead (cellRow s pa q).2.mem (pa / 64 * 64) 64 ≠ memRead s.mem (pa / 64 * 64) 64

/-! Decided copies (R317). -/

/-- Keep a copy in a list of copies, in place of one of the same name. -/
def keepCopy (c : CellCopy) (l : List CellCopy) : List CellCopy := c :: l.filter fun x => x.pa ≠ c.pa || x.inc ≠ c.inc

/-- A reply of WON or DECIDED fills a copy in the requester's die L2, and in its L1 when the scope is .CORE or narrower. -/
def fillCopy (s : State) (r : SwarmRef) (scope : Nat) (c : CellCopy) : State :=
  let s1 := modDie s (dieOf r.core) fun d => { d with cells := keepCopy c d.cells }
  if scope ≤ 3 then modCore s1 r.core fun x => { x with l1Cells := keepCopy c x.l1Cells } else s1

/-- The decided copy a DOCRD is served from, when one is still kept: a cache keeps it as long as it likes, so that is a free choice. -/
def findCopy (s : State) (r : SwarmRef) (scope key inc : Nat) : Option CellCopy × State :=
  let named (l : List CellCopy) : Option CellCopy := l.find? fun x => x.pa = key && x.inc = inc
  let l1 := if scope ≤ 3 then named (coreAt s r.core).l1Cells else none
  match l1.orElse fun _ => named (dieAt s (dieOf r.core)).cells with
  | none => (none, s)
  | some c => (if Config.freeNat s.fresh % 2 = 0 then some c else none, { s with fresh := s.fresh + 1 })

/-! Requests. -/

/-- A cell's address in the space of a swarm: aligned, translated, on a cell page (R313, R321). -/
def cellTarget (s : State) (r : SwarmRef) (va : Nat) : Except Stop (Mapping × Nat) := do
  if va % 64 ≠ 0 then .error (.trap 5 0 va)
  else
    let (m, pa) ← translate s (dieOf r.core) (ctxOf s (wgOf r)) va false
    if !m.cell || m.onChip.isSome then .error (.trap 7 0x0502 va) else .ok (m, pa)

/-- The proposer identity (R310). -/
def proposerId (s : State) (rd : Run) (t : Nat) : BitVec 128 :=
  let g := wgOf rd.ref
  let place := if inTask s g then (taskIdOf s g).toNat % 2 ^ 23 else 2 ^ 23 + rd.ref.core
  BitVec.ofNat 128 (ownMod s * 2 ^ 112 + ctxOf s g % 2 ^ 16 * 2 ^ 96 + rd.ref.seq % 2 ^ 32 * 2 ^ 64 + place * 2 ^ 40 +
    rd.ref.idx * 2 ^ 35 + t * 2 ^ 30 + wordOffset s rd % 2 ^ 24 * 2 ^ 6)

/-- .V form: one request for the swarm. -/
def cellV (f : Fields) : Bool := decide (f.ty = .none)
/-- The incarnation operand, and the value operand of 56 bytes. -/
def cellIncOf (s : State) (rd : Run) (f : Fields) (t : Nat) : Nat :=
  natAt (if cellV f then partLanes s rd f.dst 0 else partLanes s rd f.dst 2) (if cellV f then 14 else t) % 2 ^ 16
def cellValueOf (s : State) (rd : Run) (f : Fields) (t : Nat) : List Byte :=
  if cellV f then ((List.range 14).map fun j => natToBytes 4 (natAt (partLanes s rd f.dst 0) j)).flatten
  else natToBytes 8 (pairAt s rd f.dst t) ++ List.replicate 48 0

/-! Results in the requester (R313, R247). -/

/-- Write a reply's result for a thread, or once for .V: the value when the name is decided, the status and the predicate. At a scope,
the reply is an acquire (R247); a signature without one is received all the same (R171, R242). -/
def deliverCell (s : State) (r : Run) (f : Fields) (doc : Bool) (t pa : Nat) (y : CellReply) : Except Stop (State × Run) :=
  match y.trap with
  | some (c, d) => .error (.trap c d (addrAt s r f t))
  | none => do
    let d := f.dst.toNat
    let v := cellV f
    let m : Mask := if v then runMask r else 1 <<< t
    let ctx := ctxOf s (wgOf r.ref)
    let die := dieOf r.ref.core
    let s := if doc then s else countDie s die 0x4C ctx
    let s := if y.status = cellStale then countDie s die 0x4D ctx else if y.status = cellLost then countDie s die 0x4E ctx else s
    let r1 ← (match y.value with
      | none => .ok r
      | some b =>
        if v then writeReg s r d 0x3FFF ((List.range threads).map fun j => BitVec.ofNat 32 (descWord b (4 * j) 4))
        else writePair s r d m (List.replicate threads (descWord b 0 8)))
    let r2 ← writeReg s r1 (if v then d + 1 else d + 3) m (splat (BitVec.ofNat 32 y.status))
    let yes := y.status = (if doc then cellDecided else cellWon)
    let r3 := writePred r2 f.opx.toNat m (if yes then BitVec.allOnes 32 else 0)
    let sc := f.rnd.toNat
    -- the winner has written the cell, and at .CLU or wider released what its accumulator held (R242, R247)
    let s1 := if y.new then markRel (if 4 ≤ sc then (takeRel s r.ref [sc]).2 else s) r.ref pa else s
    let s2 := match y.sig with
      | some g => modSwarm s1 r.ref fun w => receive w g (sc ≠ 0) sc
      | none => s1
    .ok (if sc = 0 || (doc && y.value.isNone) then s2 else acquireAt s2 r.ref sc, r3)

/-- A request's course: answered now, or by an event later. -/
structure CellState where
  s : State
  r : Run
  ids : List Nat

/-- A reply from a home, kept as a copy when it is decided. -/
def homeReply (s : State) (rd : Run) (f : Fields) (key inc : Nat) (y : CellReply) : State :=
  match y.value with
  | some v => fillCopy s rd.ref f.rnd.toNat ⟨key, inc, v, y.sig⟩
  | none => s

/-- One request of PROPOSE or DOCRD. -/
def cellRequest (rd : Run) (f : Fields) (doc : Bool) (sig : Option (BitVec 512)) (st : CellState) (t : Nat × Nat) :
    Except Stop CellState := do
  let s := st.s
  let g := wgOf rd.ref
  let (m, pa) ← cellTarget s rd.ref t.2
  let inc := cellIncOf s rd f t.1
  let key := cellKey m pa
  let value := cellValueOf s rd f t.1
  let ident := proposerId s rd (if cellV f then 0 else t.1)
  let q : CellReq := if doc then .docrd inc f.rnd.toNat else .propose inc value ident sig f.rnd.toNat
  let answer (s : State) (y : CellReply) : Except Stop CellState := do
    let (s1, r1) ← deliverCell s st.r f doc t.1 pa y
    .ok { st with s := s1, r := r1 }
  let (copy, s) := if doc then findCopy s rd.ref f.rnd.toNat key inc else (none, s)
  match copy with
  | some c =>
    let y : CellReply := ⟨cellDecided, some c.value, c.sig, none, false⟩
    answer (homeReply s rd f key inc y) y
  | none =>
    let home := elsewhere s m
    let park : CellState := { st with
      s := { s with
        nextId := s.nextId + 1
        cellWaits := s.cellWaits ++ [⟨s.nextId, some rd.ref, t.1, rd.pc, ctxOf s g, t.2, pa, home, q, none⟩] }
      ids := st.ids ++ [s.nextId] }
    -- requests of one swarm to one cell are performed in their order (R318); twins' are compared first (R319)
    let waits := (!doc && comparedRequest s rd.ref) || cellBusy s rd.ref pa home
    match home with
    | some n =>
      if !s.fabric.current.mods.contains n then answer s (plainReply cellLost)
      else if waits then .ok park
      else
        let id := s.nextId
        .ok { st with s := sendCell { s with nextId := id + 1 } n pa q [(id, rd.ref, t.1, rd.pc, t.2)], ids := st.ids ++ [id] }
    | none =>
      if waits || snapshotHolds s pa q then .ok park
      else
        let (y, s1) := cellRow s pa q
        answer (homeReply s1 rd f key inc y) y

/-- The entries of a PROPOSE in its task's signature. -/
def proposedCells (s : State) (rd : Run) (f : Fields) (names : List (Nat × Nat)) : List (Nat × Nat × List Byte × BitVec 128) :=
  names.map fun t => (t.2, cellIncOf s rd f t.1, cellValueOf s rd f t.1, proposerId s rd (if cellV f then 0 else t.1))

/-- An effect of a clause that writes memory when it takes place: not a versioned write of a task. -/
def Effect.writesOut (s : State) (r : SwarmRef) : Effect → Bool
  | .st .. => !inTask s (wgOf r)
  | .red .. | .recycle .. => true
  | .async k => !inTask s (wgOf r) || copyImmediate s (accessOf s r) k
  | _ => false
/-- The clause's earlier writes take place before a proposal that is a release and whose decision may come before the clause completes: no
reader of the decision finds them missing (R170, R247, R259; log 88). -/
def writeFirst (s : State) (rd : Run) : Except Stop (State × Run) :=
  match (rd.effects.filter (Effect.writesOut s rd.ref)).foldlM (applyEffect rd.ref rd.pc) s with
  | .ok s1 => .ok (s1, { rd with effects := rd.effects.filter fun e => !e.writesOut s rd.ref })
  | .error _ => .error .wait

/-- Steps 1 and 2 of R170 for a proposal at .CLU or wider: what came before is performed, and the signature formed, with the lines of the
clause's own earlier writes, which are performed with the clause when it completes at once (R38, R247; log 88). -/
def proposalSig (s : State) (rd : Run) (scope : Nat) : Except Stop (BitVec 512 × State) := do
  let (_, s1) ← releaseAt s rd.ref [scope]
  let trial ← applyEffects s rd
  let (sig, _) ← releaseAt trial rd.ref [scope]
  .ok (sig, modSwarm s1 rd.ref fun w => { w with relAcc := ((swarm? s rd.ref).map Swarm.relAcc).getD w.relAcc })

/-- The requests of a PROPOSE or DOCRD, of the threads named, on a machine and a clause as given. -/
def cellRequests (s : State) (rd wr : Run) (f : Fields) (doc : Bool) (names : List (Nat × Nat)) : Except Stop CellState := do
  let release := !doc && decide (4 ≤ f.rnd.toNat) && !names.isEmpty
  let (sig, s1) ← (if release then (do let (g, s1) ← proposalSig s rd f.rnd.toNat; Except.ok (some g, s1)) else .ok (none, s))
  let effects := wr.effects ++ (if doc || names.isEmpty then [] else [.proposed (proposedCells s rd f names)]) ++
    (if release && !rd.effects.isEmpty then [.settle true] else [])
  names.foldlM (cellRequest rd f doc sig) ⟨s1, { wr with effects }, []⟩

/-- PROPOSE and DOCRD: one request a thread, or one for the swarm; the clause waits for replies that are not there yet, its earlier writes
being performed first when the proposal is a release. -/
def cellInstr (i : Instr) (f : Fields) (s : State) (doc : Bool) : Host.Outcome State Fault Refusal :=
  match s.run with
  | none => .fault .noClause
  | some rd =>
    let wr := noteReads s i rd
    let ts := if cellV f then (threadsOf (active rd f)).take 1 else threadsOf (active rd f)
    let out : Except Stop CellState := do
      let names := ts.map fun t => (t, addrAt s rd f t)
      let _ ← names.mapM fun x => cellTarget s rd.ref x.2
      let (names, s1) := anyOrder s Prod.snd names
      let st ← cellRequests s1 rd wr f doc names
      if st.ids.isEmpty || doc || f.rnd.toNat < 4 || !(rd.effects.any (Effect.writesOut s rd.ref)) then .ok st
      else do
        let (s2, rd2) ← writeFirst s1 rd
        cellRequests s2 rd2 { wr with effects := rd2.effects } f doc names
    match out with
    | .error e => .next (stopRun s rd e)
    | .ok st => .next (if st.ids.isEmpty then nextWord st.s st.r else parkRun st.s st.r (.cellWait st.ids))

def execPropose (f : Fields) (s : State) : Host.Outcome State Fault Refusal := cellInstr (.propose f) f s false
def execDocrd (f : Fields) (s : State) : Host.Outcome State Fault Refusal := cellInstr (.docrd f) f s true

/-- RECYCLE. In a redundant task its clause waits at it, as a PROPOSE's does, while the twins' requests are compared (R319). -/
def execRecycle (f : Fields) (s : State) : Host.Outcome State Fault Refusal :=
  match s.run with
  | none => .fault .noClause
  | some rd =>
    let wr := noteReads s (.recycle f) rd
    let a := srcLanes s rd f.dst
    let out : Except Stop (List (Nat × Mapping × Nat × Nat × Nat × BitVec 128)) := (threadsOf (active rd f)).mapM fun t => do
      let va := addrAt s rd f t
      let (m, pa) ← cellTarget s rd.ref va
      if m.writable then Except.ok (t, m, pa, va, natAt a t % 2 ^ 16, proposerId s rd t) else .error (.trap 7 0x0504 va)
    match out with
    | .error e => .next (stopRun s rd e)
    | .ok reqs =>
      let noted : Effect := .proposed (reqs.map fun q => (q.2.2.2.1, q.2.2.2.2.1, [], q.2.2.2.2.2))
      if reqs.isEmpty then .next (nextWord s wr)
      else if comparedRequest s rd.ref then
        let waits := reqs.zipIdx.map fun q => CellWait.mk (s.nextId + q.2) (some rd.ref) q.1.1 rd.pc (ctxOf s (wgOf rd.ref)) q.1.2.2.2.1 q.1.2.2.1
          (elsewhere s q.1.2.1) (.recycle q.1.2.2.2.2.1 q.1.2.2.2.2.2) none
        let s1 := reqs.foldl (fun s q => markRel s rd.ref q.2.2.1) { s with nextId := s.nextId + reqs.length, cellWaits := s.cellWaits ++ waits }
        .next (parkRun s1 { wr with effects := wr.effects ++ [noted] } (.cellWait (waits.map CellWait.id)))
      else .next (nextWord s { wr with effects := wr.effects ++ [noted, .recycle (reqs.map fun q => q.2.2.2)] })

/-! Replies that come later (R319, R320). -/

/-- The instruction a waiting clause waits at: the word before its next one. -/
def waitingInstr (r : Run) : Option Instr := r.words[r.idx - 1]?.bind instrOf

/-- A reply to a request of a waiting clause: its result is written; after the last reply the clause goes on when it can. A RECYCLE has
no result, and its trap comes at the swarm's next clause (R316). -/
def replyToRun (s : State) (x : Run) (id thread : Nat) (y : CellReply) : State :=
  let received (s : State) (r : Run) : State :=
    modRun s x.ref fun _ => { r with phase := match x.phase with | .cellWait ids => .cellWait (ids.filter (· ≠ id)) | p => p }
  let go (f : Fields) (doc : Bool) : State :=
    match cellTarget s x.ref (addrAt s x f thread) with
    | .error e => stopRun s x e
    | .ok (m, pa) =>
      match deliverCell s x f doc thread pa y with
      | .error e => stopRun s x e
      | .ok (s1, r1) => received (homeReply s1 x f (cellKey m pa) (cellIncOf s x f thread) y) r1
  match waitingInstr x with
  | some (.propose f) => go f false
  | some (.docrd f) => go f true
  | some (.recycle f) =>
    let s1 := received s x
    (match y.trap with
      | some (c, d) => deferTrap s1 x.ref ⟨c, d, x.pc, 2, addrAt s x f thread⟩
      | none => s1)
  | _ => s

end Sys2Proof.Machine
end

