-- ==== Sys2Proof/Machine/Sched.lean ====
section
/-! DEFINITION. The events of a core's scheduler and of its arrays: parking, waiting, lanes and teams, scoreboards, drowsy banks,
accumulator refresh, ageing buffer entries (R28, R29, R131 to R139, R148, R150, R152). An event whose condition does not hold changes
nothing. -/

namespace Sys2Proof.Machine

/-! Parking (R28, R29). -/

/-- A slot parks and the stack is popped; a pop whose stack page is not there leaves the slot as it was, and the swarm held. -/
def parkSlot (s : State) (w : Swarm) (k : SlotId) : State :=
  let x := slotOf w k
  match reconvergeFrom (putSwarm s (setSlot w k { x with parked := true })) w.ref (slotMarks w) with
  | .error e => stopRun s (newRun w k x.pc 0 [] 0 0) e
  | .ok s1 => if (swarm? s1 w.ref).any Swarm.over then endSwarm s1 w.ref else s1

def execReconvergencePark (r : SwarmRef) (s : State) : Host.Outcome State Fault Refusal :=
  .next (match swarm? s r with
    | none => s
    | some w =>
      if !mayIssue s w then s
      else
        match choose s w with
        | (k, .park) => parkSlot s w k
        | _ => s)

/-! WAITING to READY (R132). -/

/-- Whether a waiting swarm's condition is met: nothing of it is parked at another agent, and its next clause, or the rest of the one it
waits in, can go on. -/
def conditionMet (s : State) (w : Swarm) : Bool :=
  match s.runs.find? fun x => x.ref = w.ref with
  | some x => x.phase = .cellWait [] || x.phase = .stalled
  | none => canGo s w

def execWaitConditionMet (r : SwarmRef) (s : State) : Host.Outcome State Fault Refusal :=
  .next (match swarm? s r with
    | none => s
    | some w => if w.sched = .waiting && conditionMet s w then setSched s r .ready else s)

/-! Lanes (R133 to R136). -/

/-- Banks of a swarm's mapped registers. -/
def banksOf (w : Swarm) : BitVec 8 := (physOf w.regs ++ mirrorsOf w.regs).foldl (fun m p => m ||| bankOf p) 0
/-- A swarm takes its lane's active slot: its drowsy banks wake (R133, R139). -/
def activate (s : State) (w : Swarm) : State :=
  let ctx := ctxOf s (wgOf w.ref)
  countCore (touchBanks (setSched s w.ref .active) w.ref.core w.lane ctx (banksOf w)) w.ref.core 0x03 ctx
/-- The members of a team that are neither DONE nor stopped take their slots together. -/
def activateTeam (s : State) (g : WgRef) (team : Nat) : State :=
  (liveTeam s g team).foldl activate (modWg s g fun x => { x with seated := if x.seated.contains team then x.seated else x.seated ++ [team] })

/-- A lane is left by a swarm that waits at its workgroup's fetch or at a membership fence and another wants it (R131, R132), and by a team
none of whose members can issue (R136). -/
def leaveParked (s : State) (core lane : Nat) : State :=
  match (laneSwarms s core lane).find? fun w => (w.inTeam && teamActive s (wgOf w.ref) w.team) || (w.sched = .active &&
      s.runs.any fun x => x.ref = w.ref && match x.phase with | .fetching .. | .fencing .. => true | _ => false) with
  | some w => leaveLane s w
  | none => s

def execActiveSlotFill (core lane : Nat) (s : State) : Host.Outcome State Fault Refusal :=
  let s := leaveParked s core lane
  .next (match (laneSwarms s core lane).find? fun w => w.sched = .ready && w.inTeam && teamActive s (wgOf w.ref) w.team with
    | some w => if (laneSwarms s core lane).any fun x => x.sched = .active then s else activate s w
    | none =>
      if !laneFree s core lane then s
      else
        match bestOf (choices s core lane) with
        | some x => (match x.team, swarm? s x.ref with
            | none, some w => activate s w
            | _, _ => s)
        | none => s)

/-- The swarms that leave when a lane is taken: its active swarm, with its whole team. -/
def occupants (s : State) (core lane : Nat) : List Swarm :=
  ((laneSwarms s core lane).filter fun w => w.sched = .active || (w.inTeam && teamActive s (wgOf w.ref) w.team)).map (fun w =>
    if w.inTeam then (teamOf s (wgOf w.ref) w.team).filter fun m => m.sched = .active else [w]) |>.flatten
/-- A displaced swarm is READY (R134), or goes on waiting where it is parked. No arrival survives a swap (R137). -/
def displace (s : State) (w : Swarm) : State :=
  let parked := s.runs.any fun x => x.ref = w.ref && x.phase ≠ .arrived
  unseat (setSched (if arrivedRun s w.ref then dissolve s w.ref else s) w.ref (if parked then .waiting else .ready)) w

/-- What takes lanes displaces their occupants and enters, once each of them stands at a clause boundary. -/
def takeLanes (s : State) (x : Choice) (lanes : List (Nat × Nat)) (counted : Bool) (core : Nat) : State :=
  let out := (lanes.map fun l => occupants s l.1 l.2).flatten.eraseDups
  if !(out.all fun w => atBoundary s w.ref) || (counted && (out.isEmpty || out.any (pinned s))) then s
  else
    let s1 := out.foldl displace s
    let s2 := if counted then countCore s1 core 0x04 (ctxOf s (wgOf x.ref)) else s1
    match x.team, swarm? s2 x.ref with
    | some (g, team), _ => activateTeam s2 g team
    | none, some w => activate s2 w
    | none, none => s2
/-- The lanes of a team. -/
def teamLanes (s : State) (g : WgRef) (team : Nat) : List (Nat × Nat) := (liveTeam s g team).map fun w => (w.ref.core, w.lane)

/-- A ready team that each of its lanes has selected enters when their active swarms have completed their clauses (R135). -/
def execTeamEntry (g : WgRef) (team : Nat) (s : State) : Host.Outcome State Fault Refusal :=
  .next (if teamClaims s g team then
      match liveTeam s g team with
      | w :: _ => takeLanes s ⟨0, g.seq, w.ref.idx, w.ref, some (g, team)⟩ (teamLanes s g team) false w.ref.core
      | [] => s
    else s)

/-- R134: what has been ready for 1,024 cycles takes the lanes it needs at the clause boundaries of their active swarms; a pin defers it. -/
def execForcedSwap (core lane : Nat) (s : State) : Host.Outcome State Fault Refusal :=
  .next (match dueChoice s core lane with
    | none => s
    | some x => takeLanes s x (match x.team with | some (g, team) => teamLanes s g team | none => [(core, lane)]) true core)

/-! Scoreboards and banks (R138, R139). -/

def execScoreboardRebuild (r : SwarmRef) (s : State) : Host.Outcome State Fault Refusal :=
  .next (match swarm? s r, (s.run.toList ++ s.runs).find? fun x => x.ref = r with
    | some w, some x =>
      let s1 := countCore (softError s r.core 0 1) r.core 0x0A (ctxOf s (wgOf r))
      if 2 ≤ w.mismatches then
        takeTrap (modSwarm s1 r fun w => { w with mismatches := 0 }) r ⟨0x0C, 0x0001, 0, x.pc, 0, w.prog, 0⟩
      else modSwarm (squash s1 r) r fun w => { w with mismatches := w.mismatches + 1 }
    | _, _ => s)

/-- A bank is drowsy after 512 cycles without an access in which it has held no mapped register of its lane's active swarm (R139). -/
def execBankDrowsy (core lane bank : Nat) (s : State) : Host.Outcome State Fault Refusal :=
  let held := (laneSwarms s core lane).any fun w => (banksOf w).getLsbD bank && (w.sched = .active || decide (s.cycle < w.leftLane + 512))
  let idle := decide (((coreAt s core).bankUse.getD lane []).getD bank 0 + 512 ≤ s.cycle)
  .next (if idle && !held && decide (bank < 8) then
      modCore s core fun c => { c with drowsy := c.drowsy.modify lane fun m => m ||| (1 <<< bank) }
    else s)

/-! Accumulator refresh (R148, R150). -/

/-- The refresh period at this cycle. -/
def periodOf (c : Core) (cycle : Nat) : Nat :=
  match c.nextPeriod with
  | some (p, at_) => if at_ ≤ cycle then p else c.refreshPeriod
  | none => c.refreshPeriod

/-- Refresh of one bank of four tiles in its slot; an error that it finds and cannot correct marks its tile lost: in the tiles the event
names, and in those where one stands already. -/
def execAccRefreshSlot (core bank : Nat) (bad : List Nat) (s : State) : Host.Outcome State Fault Refusal :=
  let p := periodOf (coreAt s core) s.cycle
  let hits := (List.range 64).filter fun j => j / 4 = bank && (bad.contains j || (tileAt s core j).bad)
  let lose (j : Nat) (t : Tile) : Tile := if hits.contains j then { t with lost := true, bad := false } else t
  .next (if bank < 16 && bank * p / 16 ≤ s.cycle % p && s.cycle % p < bank * p / 16 + 48 then
      let s1 := modCore s core fun c => { c with
        refreshPeriod := p
        nextPeriod := if p = c.refreshPeriod then c.nextPeriod else none
        tiles := c.tiles.mapIdx lose }
      countCore (softError s1 core 3 hits.length) core 0x0C 0 hits.length
    else s)

def execJunctionTemperatureChange (core : Nat) (hot : Bool) (s : State) : Host.Outcome State Fault Refusal :=
  .next (if (coreAt s core).hot = hot then s
    else modCore s core fun c => { c with
      hot
      refreshPeriod := periodOf c s.cycle
      nextPeriod := some (if hot then 2048 else 4096, (s.cycle / 4096 + 1) * 4096) })

/-! The write-combining buffer (R152, R299). -/

/-- An entry 4,096 cycles old drains: a task's into its version, another by an announcement. -/
def execWcEntryAgeDrain (core sector : Nat) (s : State) : Host.Outcome State Fault Refusal :=
  .next (match (coreAt s core).wcb.find? fun e => e.pa = sector && !e.sent && e.firstWrite + 4096 ≤ s.cycle with
    | none => s
    | some e =>
      if e.task.isSome then drainEntry s core e
      else
        let mark (x : WcbEntry) : WcbEntry := if x = e then { x with sent := true } else x
        { modCore s core (fun c => { c with wcb := c.wcb.map mark }) with
          announcements := s.announcements ++ [⟨e.pa, e.data, e.mask, none, some core⟩] })

end Sys2Proof.Machine
end

