-- ==== Sys2Proof/Machine/EngineEvents.lean ====
section
/-! DEFINITION. The events of the engines and homes: copies, operand-buffer copies, FLUSH, MMA acceptance and results, accumulator
reclaim, atomic units, announcements, die copies, walks and slice contexts (R175, R184, R197 to R207, R221 to R224, R273, R278, R291,
R299 to R301). -/

namespace Sys2Proof.Machine

/-! Operations that run after their clauses. -/

/-- Two operations of one swarm on one path that touch a byte in common (R233). -/
def sameBytes (x y : Async) : Bool :=
  let meet (a m b n : Nat) : Bool := a < b + n && b < a + m
  x.ref = y.ref && match x.kind, y.kind with
    | .cpin v p m, .cpin w q n | .cpin v p m, .cpout w q n | .cpout v p m, .cpin w q n | .cpout v p m, .cpout w q n =>
      meet v m w n || meet p m q n
    | .cpob _ b v p m, .cpob _ c w q n => meet p m q n || (b = c && meet v m w n)
    | _, _ => false

/-- The engine of an asynchronous operation works to its end, or is held. It begins after the swarm's earlier ones that touch its bytes. -/
def finishAsync (s : State) (id : Nat) (kind : AsyncKind → Bool) : State :=
  match s.asyncs.find? fun x => x.id = id with
  | none => s
  | some x =>
    if !kind x.kind || engineHeld s x.ref id || (s.asyncs.takeWhile fun y => y ≠ x).any (sameBytes x) then s
    else
      match performAsync s x with
      | .ok s1 => s1
      | .error e => holdEngine s x.ref id e

def execCopyComplete (id : Nat) (s : State) : Host.Outcome State Fault Refusal :=
  .next (finishAsync s id fun | .cpin .. => true | .cpout .. => true | _ => false)
def execCpobComplete (id : Nat) (s : State) : Host.Outcome State Fault Refusal :=
  .next (finishAsync s id fun | .cpob .. => true | _ => false)
def execFlushComplete (id : Nat) (s : State) : Host.Outcome State Fault Refusal :=
  .next (finishAsync s id fun | .flush .. => true | _ => false)

/-- The requests of a RED reach their atomic units, after those the swarm sent before to a home of theirs (R301). -/
def execAtomicUnitRequest (id : Nat) (s : State) : Host.Outcome State Fault Refusal :=
  .next (match s.atomics.find? fun x => x.id = id with
    | none => s
    | some x =>
      let earlier := (s.atomics.takeWhile fun y => y ≠ x).filter fun y => y.ref = x.ref
      if engineHeld s x.ref id || earlier.any fun y => x.reqs.any fun q => (requestPa s x q).any (sameHome s y) then s
      else
        match performRed s x with
        | .ok s1 => s1
        | .error e => holdEngine s x.ref id e)

/-! Acceptance of an MMA (R198, R201 to R205). -/

/-- Every arrived member's clause stops; an error that the engine has met counts once. -/
def stopAll (s : State) (rs : List Run) (e : Stop) : State :=
  match rs, e with
  | x :: xs, .trap 0x0C d a =>
    xs.foldl (fun s y => takeTrap s y.ref ⟨0x0C, d, 0, y.pc, a, y.work.prog, 0⟩) (stopRun s x e)
  | _, _ => rs.foldl (fun s x => stopRun s x e) s

/-- Quarters a member of a team of a size holds. -/
def holdsQuarter (size pos : Nat) : Bool := (List.range 4).any fun q => q % size = pos

/-- Bytes of the workgroup's operand buffer that an operation reads: start and length. DESIGN CHOICE: R205 does not say whether a row of A that
the row mask leaves out is consumed; here the whole tile of A is, and the scales of the mask's rows alone (log 96). -/
def mmaReads (x : Arrival) (q : Reservation) : List (Nat × Nat) :=
  let base := 1024 * q.base
  let rows := (List.range 32).filter fun i => x.rows.getLsbD i
  (base + x.tile * mmaTileBytes x.ty, mmaTileBytes x.ty) ::
    (if x.ty = .q16 then
      rows.map (fun i => (base + q.scoff + 32 * x.tile + i, 1)) ++ rows.map fun i => (base + q.ssoff + 4 * ((32 * x.tile + i) / 256), 4)
    else [])

/-- The sectors of a workgroup's operand buffer that an operation in flight writes: its own offset, and the place in the buffer. CPOB does,
and a copy out to the buffer's window of the on-chip map (R198, R308). -/
def obufPieces (s : State) (g : WgRef) (x : Async) : List (Nat × Nat) :=
  match x.kind with
  | .cpob _ _ _ dst len => if wgOf x.ref = g then (sectorsOf len).map fun o => (o, dst + o) else []
  | .cpout va _ len => (sectorsOf len).filterMap fun o =>
      match translate s (dieOf x.ref.core) (ctxOf s (wgOf x.ref)) (va + o) true with
      | .ok (m, pa) => m.onChip.bind fun p =>
          let off := windowOffset s p.1 pa
          if 0x180000 ≤ off && off < 0x1C0000 && (mapTarget s p.1 p.2).any fun w => w.ref = g then some (o, off - 0x180000) else none
      | .error _ => none
  | _ => []
/-- It writes bytes that an operation reads. -/
def obufMeets (s : State) (g : WgRef) (reads : List (Nat × Nat)) (x : Async) : Bool :=
  (obufPieces s g x).any fun p => reads.any fun r => r.1 < p.2 + 64 && p.2 < r.1 + r.2
/-- The bytes of a sector it writes, when they can be read. -/
def pieceBytes (s : State) (x : Async) (o : Nat) : Option (List Byte) :=
  let fromScratch (src : Nat) : Option (List Byte) :=
    match scratchOf s (wgOf x.ref) (src + o) 64 with | .ok b => some b | .error _ => none
  match x.kind with
  | .cpob _ scratch src _ _ =>
    (match obufSource s (accessOf s x.ref) (wgOf x.ref) scratch (src + o) with | .ok (b, _) => some b | .error _ => none)
  | .cpout _ src _ => fromScratch src
  | _ => none

/-- The operand buffer with such an operation in flight: each byte is the old or the new one, free (R198). -/
def mixFlying (s : State) (g : WgRef) (m : Memory) (x : Async) (seed : Nat) : Memory :=
  (obufPieces s g x).foldl (fun m p =>
    match pieceBytes s x p.1 with
    | none => m
    | some b => b.zipIdx.foldl (fun m q => if Config.freeNat (seed + p.1 + q.2) % 2 = 0 then memSet m (p.2 + q.2) q.1 else m) m) m

/-- The checks of R205 on the deciding member's arrival: the record, the tile, and the words of the operand buffer (R146). -/
def mmaCheck (s : State) (g : Workgroup) (x : Arrival) : Except Stop (Reservation × Nat × State) :=
  match g.records.getD x.record none with
  | none => .error (.trap 7 0x0301 0)
  | some q =>
    if q.atype ≠ x.ty then .error (.trap 7 0x0306 0)
    else if (mmaReads x q).any fun r => 1024 * (q.base + q.granules) < r.1 + r.2 then .error (.trap 7 0x0305 0)
    else do
      let (t, s1) ← useTile s g.ref x.acc
      if (mmaReads x q).any fun r => eccBad g.obufBad r.1 r.2 then .error (.trap 0x0C 0x0003 0) else .ok (q, t, s1)

/-- The operation as the engine captures it. -/
def captureMma (s : State) (g : Workgroup) (obuf : Memory) (x : Arrival) (q : Reservation) (tile : Nat) (members : List Run) :
    AcceptedMma :=
  let base := 1024 * q.base
  let quarters := (members.map fun r => (r.arrival.map Arrival.quarters).getD []).flatten
  { id := s.nextId
    wg := g.ref
    members := members.map Run.ref
    wide := x.wide
    acc := x.acc
    tile
    rows := x.rows
    ty := x.ty
    tyB := x.tyB
    aBytes := memRead obuf (base + x.tile * mmaTileBytes x.ty) (mmaTileBytes x.ty)
    scales := if x.ty = .q16 then memRead obuf (base + q.scoff + 32 * x.tile) 32 else []
    supers := if x.ty = .q16 then
        (List.range 32).map fun i => BitVec.ofNat 32 (bytesToNat (memRead obuf (base + q.ssoff + 4 * ((32 * x.tile + i) / 256)) 4))
      else []
    quarters := (List.range 4).map fun k => ((quarters.find? fun z => z.1 = k).map Prod.snd).getD []
    discarded := false
    inTask := g.task.isSome }

/-- The members' clauses complete, each with the operation outstanding on its MATRIX path; or the first that cannot. -/
def completeMembers (id : Nat) : State → List Run → Except (Run × Stop) State
  | s, [] => .ok s
  | s, x :: xs =>
    let s1 := modSwarm s x.ref fun w => { w with inflight := w.inflight.modify 3 (· ++ [⟨id, false⟩]) }
    match commitRun s1 x with
    | .error e => .error (x, e)
    | .ok s2 => completeMembers id s2 xs

/-- ACCEPT a complete arrival. A member whose clause cannot complete stops, and nothing is accepted. -/
def acceptMma (s : State) (g : Workgroup) (members : List Run) (x : Arrival) : State :=
  let flying := match g.records.getD x.record none with
    | some q => s.asyncs.filter (obufMeets s g.ref (mmaReads x q))
    | none => []
  -- a member's own CPOB holds the operation, whose checks come when the engine accepts it (R198, R205)
  if flying.any fun a => a.path = 3 && members.any fun r => r.ref = a.ref then s
  else
    match mmaCheck s g x with
    | .error e => stopAll s members e
    | .ok (q, tile, s1) =>
      let mixed := flying.foldl (fun (m : Memory × Nat) a => (mixFlying s1 g.ref m.1 a m.2, m.2 + 2 ^ 20)) (g.obuf, s1.fresh)
      let m := captureMma s1 g mixed.1 x q tile members
      let s2 := { s1 with nextId := s1.nextId + 1, fresh := mixed.2, mmas := s1.mmas ++ [m] }
      match completeMembers m.id (countCore s2 g.ref.core 0x0D g.ctx) members with
      | .ok s3 => s3
      | .error (_, .wait) => s
      | .error (r, e) => stopRun s r e

/-- The engine accepts a complete arrival, or its checks stop every member's clause. DESIGN CHOICE: where the members' words disagree and the
holder of a quarter is DONE as well, R201 does not say which trap is taken; here it is 0x0201 (log 80). An ACCRD or ACCWR of the members'
own clauses on the tile does not hold the acceptance, which R212 would have wait for a clause that R201 completes only after it (log 96). -/
def execMmaAccept (r : SwarmRef) (s : State) : Host.Outcome State Fault Refusal :=
  .next (match swarm? s r, wg? s (wgOf r) with
    | some w, some g =>
      let all := if w.inTeam then teamOf s g.ref w.team else [w]
      let live := all.filter fun m => m.sched ≠ .done
      let runs := live.filterMap fun m => s.runs.find? fun x => x.ref = m.ref && x.phase = .arrived
      let deciding := live.foldl (fun (d : Option Swarm) m =>
        match d with | none => some m | some y => if m.teamPos < y.teamPos then some m else d) none
      let lead := deciding.bind fun d => (runs.find? fun x => x.ref = d.ref).bind Run.arrival
      if runs.length ≠ live.length then s
      else
        match lead with
        | none => s
        | some x =>
          if runs.any fun y => y.arrival.any fun z => z.key ≠ x.key then stopAll s runs (.trap codeIllegal 0x0201 0)
          else if w.inTeam && all.any fun m => m.sched = .done && holdsQuarter g.teamSize m.teamPos then stopAll s runs (.trap 7 0x0312 0)
          else if (tileOf s g.ref x.acc).any fun t => tileBusy s g.ref t (live.map Swarm.ref) true then s
          else acceptMma s g runs x
    | _, _ => s)

/-- The result is written; results of one tile in their order of acceptance (R214). -/
def execMmaResultWrite (id : Nat) (s : State) : Host.Outcome State Fault Refusal :=
  .next (match s.mmas.find? fun m => m.id = id with
    | none => s
    | some m =>
      if s.mmas.any fun y => y.wg.core = m.wg.core && y.tile = m.tile && !y.discarded && y.id < id then s else finishMma s m)

/-! Discard and reclaim (R218, R221 to R225). -/

/-- DISCARD a workgroup's accumulators, when it has one mapped: names and tiles are freed, accepted operations lose their effect,
incomplete arrivals dissolve, and swarms go to their restart labels. -/
def discardAccs (s : State) (g : WgRef) : State :=
  match wg? s g with
  | none => s
  | some w =>
    if w.names.all Option.isNone then s
    else
      let mark (m : AcceptedMma) : AcceptedMma := if m.wg = g then { m with discarded := true } else m
      let free (t : Tile) : Tile := if t.owner = some g then { t with owner := none, lost := false, bad := false } else t
      let s1 := { s with mmas := s.mmas.map mark }
      let s2 := (s1.runs.filter fun x => wgOf x.ref = g && x.phase = .arrived).foldl (fun s x => squash s x.ref) s1
      let s3 := modWg (modCore s2 g.core fun c => { c with tiles := c.tiles.map free }) g fun w =>
        { w with names := w.names.map fun _ => none }
      (swarmsOf s3 g).foldl restartSwarm s3

/-- No operation of a workgroup is outstanding but accepted MMAs. -/
def onlyMmas (s : State) (g : WgRef) : Bool :=
  (swarmsOf s g).all fun w => w.inflight.all fun l => l.all fun o => o.done || s.mmas.any fun m => m.id = o.id

def execAccumulatorReclaim (core : Nat) (s : State) : Host.Outcome State Fault Refusal :=
  let holders := ((coreAt s core).tiles.filterMap Tile.owner).eraseDups
  let waiters := s.swarms.filter fun w => w.ref.core = core && waitsForTile w
  let first := waiters.foldl (fun (f : Option Swarm) w => match f with | none => some w | some y => if waitedLonger w y then some w else f) none
  -- a free tile that is the longest waiter's, too few for its clause, is not free for another
  let none_ := (freeTiles s core).isEmpty || first.any fun w => (freeTiles s core).length < tilesOwed s w
  let stuck := none_ && holders.all fun g => (swarmsOf s g).any waitsForTile
  let young := (holders.filter fun g => !divertedLaunch s g.seq).foldl (fun (v : Option WgRef) g =>
    match v with | none => some g | some x => if x.seq < g.seq then some g else v) none
  .next (match stuck, young with
    | true, some g =>
      if drainUnderWay s g || !onlyMmas s g then s
      else
        -- its own ACCALLOCs wait anew, behind those of the others
        let s1 := modSwarms (discardAccs s g) g fun w => { w with waitFrom := none }
        let s2 := (s1.mmas.filter fun m => m.wg = g).foldl finishMma s1
        modLaunch s2 g.seq fun l => { l with reclaims := l.reclaims + 1, flags := l.flags ||| 1 }
    | _, _ => s)

/-! Announcements and die copies (R299, R300). -/

def execAnnouncementDelivery (s : State) : Host.Outcome State Fault Refusal :=
  .next (match s.announcements with
    | [] => s
    | a :: _ => deliver s a)

/-- The reply of a home to a die: kept when no announcement for the sector has gone out since, else discarded and asked for again. -/
def execSectorFetchReply (id : Nat) (s : State) : Host.Outcome State Fault Refusal :=
  let d := s.dies.findIdx? fun d => d.fetches.any fun f => f.id = id
  .next (match d, d.bind fun k => (dieAt s k).fetches.find? fun f => f.id = id with
    | some d, some f =>
      let m := metaOf s f.pa
      let s1 := modDie s d fun x => { x with fetches := x.fetches.filter fun y => y.id ≠ id }
      if f.count = m.announced then
        modDie s1 d fun x => { x with copies := ⟨f.pa, f.data, f.sig⟩ :: x.copies.filter fun c => c.pa ≠ f.pa }
      else
        let s2 := countDie s1 d 0x46 0
        match sectorData s2 f.pa f.pa with
        | .error _ => s2
        | .ok b => { modDie s2 d (fun x => { x with fetches := x.fetches ++ [⟨s2.nextId, f.pa, b, m.sig, m.announced⟩] }) with
            nextId := s2.nextId + 1 }
    | _, _ => s)

/-! Walks (R278). -/

/-- COUNT of a dimension; 1 at or above NDIM. -/
def walkCount (d : WalkDesc) (k : Nat) : Nat := d.counts.getD k 1
/-- The next position, innermost dimension first; none after the last. -/
def walkNext (d : WalkDesc) (pos : List Nat) : Option (List Nat) :=
  ((List.range 4).foldl (fun (st : Option (List Nat) × List Nat) k =>
    match st with
    | (some p, q) => (some p, q)
    | (none, q) =>
      if q.getD k 0 + 1 < walkCount d k then (some (q.set k (q.getD k 0 + 1)), q) else (none, q.set k 0)) (none, pos)).1

/-- Flags of an entry: dimension d ends when every index up to d is its last. -/
def walkEod (d : WalkDesc) (pos : List Nat) : BitVec 4 :=
  (List.range 4).foldl (fun m k =>
    if k < d.ndim && (List.range (k + 1)).all fun j => pos.getD j 0 + 1 = walkCount d j then m ||| (1 <<< k) else m) 0

/-- One word of an entry: its bytes, or the fault it marks the entry with. -/
def walkWord (s : State) (r : SwarmRef) (g : Workgroup) (d : WalkDesc) (a : Nat) : Except Stop (List Byte × Option (Nat × Nat) × State) :=
  let lost (c dt : Nat) : Except Stop (List Byte × Option (Nat × Nat) × State) :=
    .ok ((List.range 4).map fun k => Config.freeByte s.fresh (a + k), some (c, dt), { s with fresh := s.fresh + 1 })
  if d.scratch then
    (if g.scratch.size < a + 4 then lost 7 0x0413
      else
        match scratchData g.scratch a 4 with
        | .ok b => .ok (b, none, s)
        | .error (.badScratch p) => .ok ((List.range 4).map fun k => Config.freeByte s.fresh (a + k), some (0x0C, 0x0006),
            noteScratch { s with fresh := s.fresh + 1 } r p)
        | .error e => .error e)
  else
    match engineRead s (accessOf s r) a 4 with
    | .ok (b, sig, s1) => .ok (b, none, modSwarm s1 r fun w => receive w sig false 0)
    | .error (.trap c dt _) => if c = 7 then lost 7 0x0413 else lost c dt
    | .error e => .error e

/-- The 32 words of an entry, one read for each distinct address. DESIGN CHOICE: of several reads that fail in different ways R278 does not say
which marks the entry; here the first in thread order does (log 96). -/
def walkWords (s : State) (r : SwarmRef) (g : Workgroup) (d : WalkDesc) (pos : List Nat) :
    Except Stop (List (Nat × List Byte) × Option (Nat × Nat) × State) :=
  (((List.range threads).map (walkAddr d pos)).eraseDups).foldlM (fun (st : List (Nat × List Byte) × Option (Nat × Nat) × State) a => do
    let (b, bad, s1) ← walkWord st.2.2 r g d a
    .ok (st.1 ++ [(a, b)], st.2.1.orElse fun _ => bad, s1)) ([], none, s)

/-- A stream after its walk unit has appended an entry: past the last, the queued binding follows (R278, R289). -/
def appended (x : Stream) (e : Entry) : Stream :=
  let y := { x with entries := x.entries ++ [e] }
  match walkNext x.desc x.pos with
  | some pos => { y with pos }
  | none => endStream y

def execWalkEntryGenerate (r : SwarmRef) (k : Nat) (s : State) : Host.Outcome State Fault Refusal :=
  .next (match swarm? s r, wg? s (wgOf r) with
    | some w, some g =>
      let x := w.streams.getD k Stream.unbound
      if r.slice || w.sched = .done || !x.bound || x.failed || x.desc.push || x.ended || x.depth ≤ x.entries.length ||
          engineHeld s r (walkName k) then s
      else
        match walkWords s r g x.desc x.pos with
        | .error e => holdEngine s r (walkName k) e
        | .ok (ws, bad, s1) =>
          let words := ((List.range threads).map fun t => ((ws.find? fun z => z.1 = walkAddr x.desc x.pos t).map Prod.snd).getD []).flatten
          let off := x.ring + 128 * ((x.head + x.entries.length) % x.depth)
          let s2 := modWg s1 g.ref fun g => { g with scratch := scratchWrite g.scratch off words }
          modSwarm s2 r fun w => { w with streams := w.streams.modify k fun x => appended x ⟨walkEod x.desc x.pos, bad⟩ }
    | _, _ => s)

/-! Slice contexts (R273, R291). -/

/-- A free context goes to the swarm that has waited longest in FGSTART. -/
def execSliceContextGrant (cluster : Nat) (s : State) : Host.Outcome State Fault Refusal :=
  let waiting := s.swarms.filter fun w => clusterOf w.ref.core = cluster && w.sched = .waiting && waitsForSlice w
  let first := waiting.foldl (fun (f : Option Swarm) w => match f with | none => some w | some y => if waitedLonger w y then some w else f) none
  .next (match first with
    | some w => if slicesIn s cluster < Config.sliceContexts && canGo s w then setSched s w.ref .ready else s
    | none => s)

end Sys2Proof.Machine
end

