-- ==== Sys2Proof/Machine/CellEvents.lean ====
section
/-! DEFINITION. Cell requests at their homes, compared requests of twins, and requests and replies that travel by the fabric (R311, R316
to R320, R376). An event whose condition does not hold changes nothing. -/

namespace Sys2Proof.Machine

/-! Replies (R311, R313, R316). -/

/-- The reply to one waiting request: into its clause, or for a RECYCLE whose clause is over the end of its operation, its trap
deferred. -/
def answerCell (s : State) (id : Nat) (r : SwarmRef) (thread va : Nat) (pc : DWord) (recycle : Bool) (y : CellReply) : State :=
  match s.runs.find? fun x => x.ref = r && awaits x id with
  | some x => replyToRun s x id thread y
  | none =>
    if !recycle then s
    else
      let s1 := if recyclePending s id then s else opDone s r 5 id
      match y.trap with
      | some (c, d) => deferTrap s1 r ⟨c, d, pc, 2, va⟩
      | none => s1

/-- The reply to a list of waits that one request serves. Its signature is the first one's, and the release the first one's alone. -/
def answerWaits (s : State) (ws : List CellWait) (y : CellReply) : State :=
  ws.zipIdx.foldl (fun s x =>
    match x.1.ref with
    | some r => answerCell s x.1.id r x.1.thread x.1.va x.1.pc x.1.req.isRecycle { y with new := y.new && x.2 = 0 }
    | none => s) { s with cellWaits := s.cellWaits.filter fun x => !ws.contains x }

/-- Send one request for those who wait with it: performed at a home of this module, or sent to another. -/
def sendRequest (s : State) (x : CellWait) (ws : List CellWait) : State :=
  match x.home with
  | some n =>
    let s1 := { s with cellWaits := s.cellWaits.filter fun x => !ws.contains x }
    if s.fabric.current.mods.contains n then
      sendCell s1 n x.pa x.req (ws.filterMap fun w => w.ref.map fun r => (w.id, r, w.thread, w.pc, w.va))
    else answerWaits s1 ws (plainReply cellLost)
  | none =>
    let (y, s1) := cellRow s x.pa x.req
    answerWaits s1 ws y

/-! Twins (R319, R376). -/

/-- Who asks: identity and kind. -/
def CellReq.key : CellReq → Option (Bool × BitVec 128)
  | .propose _ _ ident _ _ => some (false, ident)
  | .recycle _ ident => some (true, ident)
  | .docrd .. => none
/-- Equal requests: one cell, one name, one value. -/
def sameRequest (x y : CellWait) : Bool :=
  x.pa = y.pa && x.home = y.home && match x.req, y.req with
    | .propose i v a _ _, .propose j w b _ _ => i = j && v = w && a = b
    | .recycle i a, .recycle j b => i = j && a = b
    | _, _ => false

/-- The workgroup of a wait. -/
def CellWait.wg (x : CellWait) : WgRef := (x.ref.map wgOf).getD ⟨0, 0⟩
/-- The waits that one identity stands behind, of one launch, the first run's or the tie-breaking pair's. -/
def waitsOf (s : State) (x : CellWait) (tie : Bool) : List CellWait :=
  s.cellWaits.filter fun y => y.req.key = x.req.key && y.wg.seq = x.wg.seq &&
    (y.ref.any fun r => (wg? s (wgOf r)).any fun g => g.twin.tieBreak = tie)

/-- The signature of a run's task: as it was formed at the task's end, else as it stands. -/
def signatureNow (s : State) (g : Workgroup) : Nat := ((g.twin.signature.map Prod.fst).getD (taskSignature s g.ref .commit)).toNat
/-- The signatures that an Unresolved record carries: of the tile's primary, its tie-breaking pair, its twin; 0 for one that does not run
(R368, R376). -/
def signaturesOf (s : State) (seq tile : Nat) : Nat × Nat × Nat :=
  let sig (p : TwinInfo → Bool) : Nat :=
    ((s.wgs.find? fun g => g.ref.seq = seq && p g.twin && g.task.any fun t => t.tile = tile).map (signatureNow s)).getD 0
  (sig fun t => !t.tieBreak && !t.isTwin, sig fun t => t.tieBreak && !t.isTwin, sig fun t => !t.tieBreak && t.isTwin)

/-- Waiting clauses trap Unresolved (R319, R376). -/
def unresolved (s : State) (ws : List CellWait) : State :=
  ws.foldl (fun s x =>
    match x.ref.bind fun r => s.runs.find? fun y => y.ref = r && awaits y x.id with
    | none => s
    | some y =>
      let tile := (((wg? s x.wg).bind Workgroup.task).map Task.tile).getD 0
      let g := signaturesOf s x.wg.seq tile
      takeTrap s y.ref ⟨0x0E, 0, 0, y.pc, g.1, g.2.1, g.2.2⟩) { s with cellWaits := s.cellWaits.filter fun x => !ws.contains x }

/-- Queue a tile for a tie-breaking run at once, or trap where no primary can take it; a diverted launch dispenses none, and the clauses
wait their 1 ms in vain (R375, R376). -/
def disagree (s : State) (x y : CellWait) : State :=
  let seq := x.wg.seq
  match (wg? s x.wg).bind Workgroup.task, launch? s seq with
  | some t, some l =>
    if l.ties.any fun z => z.tile = t.tile then s
    else if l.cause ≠ 0 || otherPrimary s x.wg y.wg then
      let twin := (wg? s x.wg).any fun g => g.twin.isTwin
      let tie : TieTile := ⟨t.tile, if twin then y.wg else x.wg, if twin then x.wg else y.wg, false, s.clkns⟩
      modLaunch s seq fun l => { l with ties := l.ties ++ [tie] }
    else unresolved s [x, y]
  | _, _ => s

/-- The dispenser compares the requests behind one identity. A first run's pair that agrees is sent once; one that does not waits for the
tie-breaking pair; that pair's request is sent when it equals one that waits, or when none waits. -/
def compareRequest (s : State) (x : CellWait) : State :=
  let first := waitsOf s x false
  let tie := waitsOf s x true
  match tie with
  | [a, b] =>
    (match first with
      | [] => if sameRequest a b then sendRequest s a [a, b] else unresolved s [a, b]
      | [_] => s
      | _ => if sameRequest a b && first.any (sameRequest a) then sendRequest s a (tie ++ first) else unresolved s (tie ++ first))
  | _ =>
    match first with
    | [a, b] => if sameRequest a b then sendRequest s a [a, b] else disagree s a b
    | _ => s

/-! At the home (R311, R318). -/

/-- The payload of a reply: status, whether a value and a signature follow and whether the request decided the name, the trap, the value;
then the signature (log 20). -/
def replyPayload (y : CellReply) : List Byte :=
  natToBytes 1 y.status ++ natToBytes 1 (y.value.isSome.toNat + 2 * y.sig.isSome.toNat + 4 * y.trap.isSome.toNat + 8 * y.new.toNat) ++
    natToBytes 1 ((y.trap.map Prod.fst).getD 0) ++ [0] ++ natToBytes 2 ((y.trap.map Prod.snd).getD 0) ++ [0, 0] ++
    (y.value.getD [] ++ List.replicate 56 0).take 56 ++ natToBytes 64 (y.sig.getD 0).toNat
/-- The reply a payload carries. -/
def replyOfPayload (b : List Byte) : CellReply :=
  let fl := descWord b 1 1
  { status := descWord b 0 1
    value := if fl % 2 = 1 then some ((b.drop 8).take 56) else none
    sig := if fl / 2 % 2 = 1 then some (BitVec.ofNat 512 (descWord b 64 64)) else none
    trap := if fl / 4 % 2 = 1 then some (descWord b 2 1, descWord b 4 2) else none
    new := fl / 8 % 2 = 1 }

/-- A request of this module, or another module's, is performed at its home; requests to one cell of one swarm, and those of one module, in
the order in which they came (R301, R318). One that would write a guarded granule starts its copy and waits (R325). -/
def execCellRequestAtHome (id : Nat) (s : State) : Host.Outcome State Fault Refusal :=
  .next (match s.cellWaits.find? fun x => x.id = id with
    | none => s
    | some x =>
      let first := s.cellWaits.takeWhile fun y => y ≠ x
      let same (y : CellWait) : Bool :=
        y.pa = x.pa && y.home = x.home && ((y.ref.isSome && y.ref = x.ref) || (y.packet.isSome && y.packet.map Packet.src = x.packet.map Packet.src))
      let flying := x.ref.any fun r => s.fabric.remoteCells.any fun c => c.ref = r && c.pa = x.pa && some c.module = x.home
      if first.any same || flying then s
      else if x.home.isNone && snapshotHolds s x.pa x.req then
        (match guardedPa s x.pa with | some (v, va) => startCopy v.ctx va s v | none => s)
      else
        match x.packet, x.ref with
        | some p, _ =>
          let (y, s1) := cellRow { s with cellWaits := s.cellWaits.erase x } x.pa x.req
          send s1 { newPacket s1 0x09 p.src p.jobtag p.cid 0 with payload := replyPayload y }
        | none, none => s
        | none, some r => if x.req.key.isSome && comparedRequest s r then compareRequest s x else sendRequest s x [x])

/-! Between modules (R320). -/

/-- A reply to those who wait for a packet. -/
def answerRemote (s : State) (wire : Nat) (y : CellReply) : State :=
  let who := s.fabric.remoteCells.filter fun c => c.wire = wire
  who.foldl (fun s c => answerCell s c.id c.ref c.thread c.va c.pc c.recycle y)
    (modFabric s fun f => { f with remoteCells := f.remoteCells.filter fun c => c.wire ≠ wire })

/-- No reply within 1 ms, or a home that has left the membership: HOMELOST. -/
def execCellReplyTimeout (wire : Nat) (s : State) : Host.Outcome State Fault Refusal :=
  .next (match s.fabric.remoteCells.find? fun c => c.wire = wire with
    | none => s
    | some c =>
      if s.fabric.current.mods.contains c.module && s.clkns < c.sentAt + 10 ^ 6 then s
      else answerRemote s wire (plainReply cellLost))

end Sys2Proof.Machine
end

