-- ==== Sys2Proof/Machine/FabricInstr.lean ====
section
/-! DEFINITION. The fabric instructions: RGET, RPUT, MCAST, CRED, GENFENCE, SNAP, JOIN, and the membership fence they share (R399 to
R422). -/

namespace Sys2Proof.Machine

/-! Transfers (R403). -/

/-- The operands of a transfer, checked; none when it has no effect. -/
def transferReq (s : State) (rd : Run) (f : Fields) (get rel many : Bool) : Except Stop (Option TransferReq) :=
  match firstThread (active rd f) with
  | none => .ok none
  | some t => do
    let arg (k : Nat) : Nat := natAt (partLanes s rd f.dst k) t
    let spad := arg 0
    let len := arg 1
    let first := arg 2 % 2 ^ 16
    let count := if many then arg 3 % 2 ^ 16 else 1
    let remote := addrAt s rd f t
    let mods := s.fabric.current.mods
    let g ← runWg s rd
    if len = 0 then .ok none
    else if spad % 64 ≠ 0 ∨ len % 64 ≠ 0 ∨ remote % 64 ≠ 0 then .error (.trap 5 0 remote)
    else if 2 ^ 20 < len then .error (.trap 7 0x0805 0)
    else do
      scratchCheck g spad len false
      if (ownRank s).isNone then .error (.trap 7 0x0802 0)
      else if count = 0 ∨ mods.length < first + count then .error (.trap 7 0x0801 0)
      else .ok (some ⟨get, rel, spad, len, remote, (mods.drop first).take count⟩)

/-- RGET, RPUT, MCAST: the transfer starts when its clause completes. -/
def transferInstr (i : Instr) (f : Fields) (s : State) (get rel many : Bool) : Host.Outcome State Fault Refusal :=
  withRun i s fun rd wr => do
    match ← transferReq s rd f get rel many with
    | none => .ok (s, wr)
    | some t => do
      (if get then .ok () else redundantCheck s rd.ref)
      .ok (s, { wr with effects := wr.effects ++ [.transfer t] })

def execRget (f : Fields) (s : State) : Host.Outcome State Fault Refusal := transferInstr (.rget f) f s true false false
def execRput (f : Fields) (s : State) : Host.Outcome State Fault Refusal := transferInstr (.rput f) f s false (f.opx.getLsbD 0) false
def execMcast (f : Fields) (s : State) : Host.Outcome State Fault Refusal := transferInstr (.mcast f) f s false false true

/-! CRED (R412). -/

/-- Whether a collective has another descriptor, operation or route than a CRED names. STATUS is the device's own. -/
def credDiffers (desc : List Byte) (op : Nat) (ty : Ty) (sw : Bool) (q : CredReq) : Bool :=
  desc.take 28 ≠ q.body.take 28 || desc.drop 32 ≠ q.body.drop 32 || op ≠ q.op || ty ≠ q.ty || sw ≠ q.sw
/-- The collectives that the clause's earlier CREDs open: the first CRED of each. -/
def openedCreds (s : State) (rd : Run) : List CredReq :=
  rd.effects.foldl (fun l e => match e with
    | .cred q => if (collective? s (descCid q.body)).isSome || l.any fun x => descCid x.body = descCid q.body then l else l ++ [q]
    | _ => l) []

def execCred (f : Fields) (s : State) : Host.Outcome State Fault Refusal :=
  withRun (.cred f) s fun rd wr =>
    match firstThread (active rd f) with
    | none => .ok (s, wr)
    | some t => do
      let first := natAt (partLanes s rd f.dst 0) t
      let count := natAt (partLanes s rd f.dst 1) t
      let va := addrAt s rd f t
      let op := (f.opx.extractLsb' 0 2).toNat
      if count = 0 then .ok (s, wr)
      else if va % 64 ≠ 0 then .error (.trap 5 0 va)
      else if (ownRank s).isNone then .error (.trap 7 0x0802 0)
      else do
        redundantCheck s rd.ref
        let (body, _, s1) ← engineRead s (accessOf s rd.ref) va 64
        let q : CredReq := ⟨va, body, op, f.ty, f.opx.getLsbD 2, f.opx.getLsbD 3, first, count⟩
        if !descOk op body || decide (chunkCount body < first + count) then .error (.trap 7 0x0805 0)
        else do
          let mine := openedCreds s1 rd
          (match collective? s1 (descCid body), mine.find? fun x => descCid x.body = descCid body with
            | some c, _ => if credDiffers c.desc c.op c.ty c.sw q then Except.error (Stop.trap 7 0x0806 0) else .ok ()
            | none, some x => if credDiffers x.body x.op x.ty x.sw q then Except.error (Stop.trap 7 0x0806 0) else .ok ()
            | none, none => if areaFits s1 (mine ++ [q]) then .ok () else .error .wait)
          .ok (s1, { wr with effects := wr.effects ++ [.cred q] })

/-! The membership fence (R399, R402). -/

/-- Bytes read in the way LD.HOME reads, across sectors. -/
def homeBytes (s : State) (r : SwarmRef) (va n : Nat) : Except Stop (List Byte × State) :=
  (sectorsTouched va n).foldlM (fun (st : List Byte × State) b => do
    let lo := if b < va then va else b
    let hi := if va + n < b + 64 then va + n else b + 64
    let (d, s1) ← threadLoad st.2 r true false 0 lo (hi - lo)
    Except.ok (st.1 ++ d, s1)) ([], s)

/-- The table of an image's bytes, when it is valid. -/
def tableOf (b : List Byte) : Option Membership :=
  let nr := descWord b 2 2
  let mods := (List.range nr).map fun k => descWord b (8 + 2 * k) 2
  if 1 ≤ nr && nr ≤ 144 && descWord b 6 2 = 0 && mods.all (· < 144) && mods.eraseDups.length = nr && mods.contains (descWord b 4 2) then
    some ⟨descWord b 0 2, descWord b 4 2, mods⟩
  else none

/-- Read and check an image. -/
def readTable (s : State) (r : SwarmRef) (va : Nat) : Except Stop (Membership × State) := do
  if va % 8 ≠ 0 then .error (.trap 5 0 va)
  else do
    let (h, s1) ← homeBytes s r va 8
    let nr := descWord h 2 2
    if nr = 0 ∨ 144 < nr then .error (.trap 7 0x0805 0)
    else do
      let (b, s2) ← homeBytes s1 r va (8 + 2 * nr)
      match tableOf b with
      | none => .error (.trap 7 0x0805 0)
      | some m => .ok (m, s2)

/-- The fence's markers go out: on every up plane one to each other module of NEXT (R402). -/
def sendMarkers (s : State) (next : Membership) : State :=
  (upPorts s).foldl (fun s k =>
    (next.mods.filter fun m => m ≠ ownMod s).foldl (fun s m => sendOn s k { newPacket s 0x0B m (jobTag s) 0 0 with gen := next.gen }) s) s

/-- Clauses waiting at the fence. -/
def fencingRuns (s : State) : List Run := s.runs.filter fun r => match r.phase with | .fencing .. => true | _ => false

/-- A waiting clause receives the fence's result, and a JOIN that succeeded starts the reel at completion; it goes on when it can. Its
destination was mapped before it waited. -/
def deliverFence (s : State) (r : Run) (result : Nat) : State :=
  match r.phase with
  | .fencing d join =>
    (match writeReg s r d (runMask r) (splat (BitVec.ofNat 32 result)) with
      | .error e => stopRun s r e
      | .ok r1 => modRun s r.ref fun _ => { r1 with
          phase := .cellWait []
          effects := match join with
            | some (desc, records) => if result = 0 then r1.effects ++ [.reel desc records] else r1.effects
            | none => r1.effects })
  | _ => s

/-- A collective ends with STATUS 2 at the swap: its CREDs complete, and nothing further is done for it (R411). -/
def endCollective (s : State) (c : Collective) : State :=
  let s1 := c.creds.foldl (fun s x => opDone s x.2.1 4 x.1) s
  writeStatuses (modFabric s1 fun f => { f with
    collectives := f.collectives.filter fun x => x.cid ≠ c.cid
    closed := ({ c with chunks := [], creds := [], sent := [] } :: f.closed).take 4096
    statuses := f.statuses ++ [(c.ctx, c.descAddr + 28, 2)] })

/-- Send a contribution again to a module that joined. One whose SRC has no translation asks for its page, and waits; one that cannot be
read is not sent (R411). -/
def resendPart (s : State) (x : Nat × Bool × Nat × Nat) : State :=
  let sent (s : State) : State := modFabric s fun f => { f with resends := f.resends.erase x }
  match (s.fabric.collectives ++ s.fabric.closed).find? fun c => c.cid = x.1 with
  | none => sent s
  | some c =>
    match sendPart none c x.2.1 [x.2.2.2] s x.2.2.1 with
    | .ok s1 => sent s1
    | .error (.miss va write) => requestPage s 0 c.ctx (pageOf va) write
    | .error (.trap ..) => sent s
    | .error _ => s
/-- All that still wait are tried. -/
def pumpResends (s : State) : State := s.fabric.resends.foldl resendPart s

/-- Open collectives at the swap (R411): closed with STATUS 2 when ranks changed, else their contributions go again to each module that
joined, in the new generation. -/
def collectivesAcross (s : State) (old next : Membership) : State :=
  let moved := old.mods.any fun m => next.mods.contains m && rankIn old (some m) ≠ rankIn next (some m)
  if old.mods.length ≠ next.mods.length || moved then
    s.fabric.collectives.foldl endCollective s
  else
    let added := next.mods.filter fun m => !old.mods.contains m
    if added.isEmpty then s
    else
      let again := ((s.fabric.collectives ++ s.fabric.closed).filter fun c => !c.sw).map fun c =>
        (c.sent.map fun x => ((List.range x.2.1).map fun j => added.map fun m => (c.cid, x.2.2, x.1 + j, m)).flatten).flatten
      pumpResends (modFabric s fun f => { f with resends := f.resends ++ again.flatten })

/-- Transfers and stripes whose peer leaves the membership (R404, R419). -/
def peersGone (s : State) (next : Membership) : State :=
  let gone (m : Nat) : Bool := !next.mods.contains m
  let s1 := (s.fabric.transfers.filter fun t => t.waiting.any gone).foldl (fun s t => endTransfer s t.id (some (7, 0x0809))) s
  match s1.fabric.reel with
  | none => s1
  | some r =>
    let lost := r.stripes.zipIdx.filter fun x => (x.1.state = 1 || x.1.state = 4) && gone x.1.peer
    settleReel (lost.foldl (fun s x => retryStripe s x.2) s1)

/-- Peers whose heartbeats are awaited: those of a table and the watch list; one newly awaited counts as heard now (R414). -/
def watchedPeers (f : Fabric) (mods : List Nat) (now : Nat) : List Peer :=
  ((mods ++ f.watch).eraseDups.filter fun m => some m ≠ f.modNum).map fun m => (f.peers.find? fun p => p.num = m).getD ⟨m, now, [], now, []⟩

/-- The swap of R402, R398 and R320: the table, the effects across it, the replies of lost homes, the held packets, the results. -/
def swapFence (s : State) (fe : Fence) : State :=
  let old := s.fabric.current
  let runs := fencingRuns s
  let lost := s.fabric.remoteCells.filter fun c => !fe.next.mods.contains c.module
  let held := (s.fabric.heldPackets.filter fun p => p.1 = 0 && p.2.gen = fe.next.gen).map Prod.snd
  let s1 := modFabric s fun f => { f with
    current := fe.next
    fence := none
    markers := f.markers.filter fun m => m.2.2 ≠ fe.next.gen
    heldPackets := f.heldPackets.filter fun p => p.1 ≠ 0
    peers := watchedPeers f fe.next.mods s.clkns }
  let s2 := peersGone (collectivesAcross s1 old fe.next) fe.next
  let next := (lost.map RemoteCell.wire).eraseDups.map (fun w => Move.event (.cellReplyTimeout w)) ++
    held.filterMap fun p => (packetEvent p 0).map Move.event
  -- the tags that other modules gave notice of leave with the generation that could carry them (log 25)
  let s3 := { s2 with agenda := s2.agenda ++ next, killList := s2.killList.filter fun t => s2.kills.any fun k => k.tag = t }
  runs.foldl (fun s r => deliverFence s r (if (ownRank s3).isSome then 0 else 1)) s3

/-- The fence in progress is complete when a marker of its generation has arrived on every up plane from every other module (R402,
R426). -/
def settleFence (s : State) : State :=
  match s.fabric.fence with
  | none => s
  | some fe =>
    if (upPorts s).all fun p => (fe.next.mods.filter fun m => m ≠ ownMod s).all fun m => s.fabric.markers.contains (p, m, fe.next.gen) then
      swapFence s fe
    else s

/-- Enter a fence: a new one, or the one in progress; one nobody waits at any more sends its markers again. -/
def enterFence (s : State) (next : Membership) : State :=
  let fresh := s.fabric.fence.isNone || (fencingRuns s).length ≤ 1
  if fresh then settleFence (sendMarkers (modFabric s fun f => { f with fence := some ⟨next, s.clkns⟩ }) next) else settleFence s

/-- R420. -/
def ownerCheck (s : State) (r : SwarmRef) : Except Stop Unit :=
  if inTask s (wgOf r) then .error (.trap 7 0x0803 0)
  else if s.fabric.owner.map Prod.fst ≠ some (ctxOf s (wgOf r)) then .error (.trap 7 0x0804 0)
  else .ok ()

/-- A result at once: d in every thread of MASK, and the clause goes on. -/
def fenceResult (s : State) (wr : Run) (d v : Nat) : Except Stop State := do
  let r ← writeReg s wr d (runMask wr) (splat (BitVec.ofNat 32 v))
  .ok (nextWord s r)

/-- Wait at a fence with the destination mapped. -/
def waitAtFence (s : State) (wr : Run) (d : Nat) (join : Option (Nat × List Byte)) (next : Membership) : Except Stop State := do
  let r ← writeReg s wr d (runMask wr) (regLanes wr.work d)
  .ok (enterFence (parkRun s { r with writes := wr.writes } (.fencing d join)) next)

/-- An outcome of an instruction that completes or parks its clause itself. -/
def runOutcome (s : State) (k : Run → Except Stop State) : Host.Outcome State Fault Refusal :=
  match s.run with
  | none => .fault .noClause
  | some rd =>
    match k rd with
    | .ok s1 => .next s1
    | .error e => .next (stopRun s rd e)

def execGenfence (f : Fields) (s : State) : Host.Outcome State Fault Refusal :=
  runOutcome s fun rd => do
    ownerCheck s rd.ref
    let (m, s1) ← readTable s rd.ref (pairAt s rd f.opa ((firstThread (runMask rd)).getD 0))
    let wr := noteReads s (.genfence f) rd
    let now := s1.fabric.current
    if m.gen = now.gen && m = now then fenceResult s1 wr f.dst.toNat 0
    else if m.gen ≠ (now.gen + 1) % 2 ^ 16 || (s1.fabric.fence.any fun x => x.next ≠ m) then fenceResult s1 wr f.dst.toNat 2
    else waitAtFence s1 wr f.dst.toNat none m

/-! JOIN (R418, R419). -/

/-- A stripe record outside its limits: LEN is from 64 to 1 MiB, a multiple of 64. -/
def stripeBad (b : List Byte) : Bool :=
  let n := descWord b 24 4
  n = 0 || n % 64 ≠ 0 || decide (2 ^ 20 < n)

def execJoin (f : Fields) (s : State) : Host.Outcome State Fault Refusal :=
  runOutcome s fun rd => do
    ownerCheck s rd.ref
    let va := pairAt s rd f.opa ((firstThread (runMask rd)).getD 0)
    let wr := noteReads s (.join f) rd
    let d := f.dst.toNat
    if va % 64 ≠ 0 then .error (.trap 5 0 va)
    else do
      let (b, s1) ← homeBytes s rd.ref va 64
      if descWord b 8 8 % 32 ≠ 0 ∨ (b.drop 28).any (· ≠ 0) ∨ descWord b 16 4 = 0 ∨ 65536 < descWord b 16 4 then .error (.trap 7 0x0805 0)
      else if (ownRank s1).isSome then fenceResult s1 wr d 4
      else do
        let (m, s2) ← readTable s1 rd.ref (descWord b 0 8)
        let ahead := (m.gen + 2 ^ 16 - s2.fabric.current.gen) % 2 ^ 16
        if (rankIn m s2.fabric.modNum).isNone then fenceResult s2 wr d 1
        else if ahead = 0 ∨ 32767 < ahead ∨ s2.fabric.fence.any fun x => x.next ≠ m then fenceResult s2 wr d 2
        else do
          -- the records are read before the fence, so that nothing after it can stop the clause
          let (records, s3) ← homeBytes s2 rd.ref (descWord b 8 8) (32 * descWord b 16 4)
          if (List.range (descWord b 16 4)).any fun k => stripeBad (records.drop (32 * k)) then .error (.trap 7 0x0805 0)
          else waitAtFence s3 wr d (some (va, records)) m

/-! SNAP (R416). -/

/-- The context's views as the clause's earlier instructions leave them: id, alias and its length, and whether it has not ended. -/
def viewsNow (s : State) (rd : Run) : List (Nat × Nat × Nat × Bool) :=
  rd.effects.foldl (fun l e => match e with
    | .snap id _ len alias_ => l ++ [(id, alias_, len, true)]
    | .snapEnd id => l.filter fun v => v.1 ≠ id
    | _ => l) ((s.views.filter fun v => v.ctx = ctxOf s (wgOf rd.ref)).map fun v => (v.id, v.alias_, v.len, !v.granules.isEmpty))
/-- Ids in use: of views that have not ended. -/
def viewIds (s : State) (rd : Run) : List Nat := ((viewsNow s rd).filter fun v => v.2.2.2).map Prod.fst

/-- Limits of a view descriptor. -/
def viewOk (b : List Byte) : Bool :=
  let r := descWord b 0 8
  let n := descWord b 8 8
  let v := descWord b 16 8
  r % 65536 = 0 && n % 65536 = 0 && n ≠ 0 && n ≤ 2 ^ 40 && v % 65536 = 0 && descWord b 24 1 < 64 && (b.drop 25).all (· = 0) &&
    r + n ≤ 2 ^ 64 && v + n ≤ 2 ^ 64

/-- The pages of the ranges: the live one mapped writable, the alias unmapped, by another view of the context or of the clause too. -/
def viewPages (s : State) (rd : Run) (range len alias_ : Nat) : Except Stop Unit :=
  let die := dieOf rd.ref.core
  let ctx := ctxOf s (wgOf rd.ref)
  let meets (m : Mapping) : Bool := m.ctx = ctx && m.va < alias_ + len && alias_ < m.va + m.len
  if s.dies.any (fun d => d.tlb.any meets) || (viewsNow s rd).any (fun v => v.2.1 < alias_ + len && alias_ < v.2.1 + v.2.2.1)
    then .error (.trap 7 0x0805 0)
  else (List.range (len / 4096)).forM fun k => do
    match tlbFind s die ctx (range + 4096 * k) with
    | none => .error (.miss (range + 4096 * k) true)
    | some m => if m.writable && !m.code && m.onChip.isNone && (elsewhere s m).isNone then .ok () else .error (.trap 7 0x0805 0)

def execSnap (f : Fields) (s : State) : Host.Outcome State Fault Refusal :=
  withRun (.snap f) s fun rd wr => do
    ownerCheck s rd.ref
    let tell (s : State) (v : Nat) (es : List Effect) : Except Stop (State × Run) := do
      let r ← writeReg s wr f.dst.toNat (runMask rd) (splat (BitVec.ofNat 32 v))
      .ok (s, { r with effects := r.effects ++ es })
    if f.sel = 1 then
      let id := f.imm18.toNat % 64
      if (viewIds s rd).contains id then tell s 0 [.snapEnd id] else tell s 1 []
    else do
      let va := pairAt s rd f.opa ((firstThread (runMask rd)).getD 0)
      if va % 32 ≠ 0 then .error (.trap 5 0 va)
      else do
        let (b, s1) ← homeBytes s rd.ref va 32
        let id := descWord b 24 1
        if !viewOk b then .error (.trap 7 0x0805 0)
        else do
          viewPages s1 rd (descWord b 0 8) (descWord b 8 8) (descWord b 16 8)
          if (viewIds s1 rd).contains id then tell s1 1 []
          else if (contextAt s1 (ctxOf s1 (wgOf rd.ref))).shadowPool.isNone then tell s1 2 []
          else tell s1 0 [.snap id (descWord b 0 8) (descWord b 8 8) (descWord b 16 8)]

end Sys2Proof.Machine
end

