-- ==== Sys2Proof/Machine/FabricEvents.lean ====
section
/-! DEFINITION. What arrives at the fabric engine and what it times: flits, packets and their admission, transfers, contributions, cell
requests, heartbeats, fences and stripes (R394 to R412, R414, R415, R417 to R419, R426). An event whose condition does not hold changes
nothing. -/

namespace Sys2Proof.Machine

/-! Admission (R398, R400). -/

/-- What becomes of an arriving packet. -/
inductive Admission where
  | admitted (ctx : Nat)
  | held
  | dropped
  | killed
  | refused
  deriving DecidableEq, Repr

/-- The entry of a packet that was admitted and is held. -/
def heldEntry (s : State) (p : Packet) : Option (Nat × Packet) := s.fabric.heldPackets.find? fun h => h.1 ≠ 0 && h.2 = p
/-- The generation of a fence in progress. -/
def fenceGen (s : State) : Option Nat := s.fabric.fence.map fun f => f.next.gen
/-- The rule of R398 for checked packets, then the kill list, then the owner's tag; one admitted before stays so. -/
def admissionOf (s : State) (p : Packet) : Admission :=
  let now := s.fabric.current
  let tagged : Admission :=
    if s.killList.contains p.jobtag then .killed
    else
      match s.fabric.owner with
      | some (ctx, tag) => if tag = p.jobtag then .admitted ctx else .refused
      | none => .refused
  if (heldEntry s p).isSome then tagged
  else if now.mods.isEmpty then .dropped
  else if p.gen = now.gen then tagged
  else if fenceGen s = some p.gen then .held
  else .dropped

/-- A packet dropped by its generation, or that finds no owner, is counted (R398, R400; log 27). One that the kill list stops is not. -/
def dropPacket (s : State) : State := countFabric s 0x80 0

/-- An access of a packet cannot be made yet: the packet is held, once. -/
def holdPacket (s : State) (p : Packet) (ctx : Nat) (e : Stop) : State :=
  let (k, s1) := match heldEntry s p with
    | some h => (h.1, s)
    | none => (s.nextId + 1, modFabric { s with nextId := s.nextId + 1 } fun f => { f with heldPackets := f.heldPackets ++ [(s.nextId + 1, p)] })
  match e with
  | .wait => s1
  | _ => holdAccess s1 hubRef 0 ctx (packetName k) e
/-- A packet that was held is not any more. -/
def unhold (s : State) (p : Packet) : State :=
  match heldEntry s p with
  | some h => modFabric s fun f => { f with heldPackets := f.heldPackets.erase h }
  | none => s

/-- ADMIT A CHECKED PACKET and act on it: what it does for the owner context, or how it is refused. -/
def admitPacket (s : State) (p : Packet) (act : Nat → State → Except Stop State) (refuse : State → State) : State :=
  match admissionOf s p with
  | .dropped => dropPacket (unhold s p)
  | .killed => unhold s p
  | .held => modFabric s fun f => { f with heldPackets := f.heldPackets ++ [(0, p)] }
  | .refused => refuse (unhold s p)
  | .admitted ctx =>
    if (heldEntry s p).any fun h => engineHeld s hubRef (packetName h.1) then s
    else
      match act ctx (unhold s p) with
      | .ok s1 => s1
      | .error (.trap ..) => refuse (unhold s p)
      | .error e => holdPacket s p ctx e

/-- An answer to a packet's sender. -/
def answer (s : State) (p : Packet) (op : Nat) : Packet := { newPacket s op p.src p.jobtag p.cid 0 with }
/-- A refusal: an acknowledgement that says so, by IDENT (log 20). -/
def refuseTransfer (p : Packet) (s : State) : State := send s { answer s p 0x04 with ident := true, last := true }

/-! Transfers (R403 to R405). -/

/-- A target serves a read from its homes. -/
def execRgetRequest (p : Packet) (s : State) : Host.Outcome State Fault Refusal :=
  .next (admitPacket s p (fun ctx s => do
    if !p.bad.isEmpty then .error (.trap 7 0x0807 0)
    else do
      let (b, s) ← fabricRead s ctx p.addr (descWord p.payload 0 4)
      .ok (match b with
        | some b => send s { answer s p 0x02 with addr := descWord p.payload 4 8, last := p.last, payload := b }
        | none => refuseTransfer p s)) (refuseTransfer p))

/-- The open transfer of a packet. -/
def transferOf (s : State) (p : Packet) : Option Transfer := s.fabric.transfers.find? fun t => t.id = p.cid
/-- Replace a transfer; one that waits for nothing more ends. -/
def settleTransfer (s : State) (t : Transfer) : State :=
  let s1 := modFabric s fun f => { f with transfers := f.transfers.map fun x => if x.id = t.id then t else x }
  if (if t.req.get then t.remaining = 0 else t.waiting.isEmpty) then endTransfer s1 t.id t.failed else s1
/-- RGET data enter the scratchpad, but for sectors that fail their check values and a destination that may not be written. -/
def takeData (s : State) (t : Transfer) (p : Packet) : State :=
  let g := wgOf t.ref
  let sectors := (List.range (p.payload.length / 64)).filter fun k => !p.bad.contains k
  let at_ (k : Nat) : Nat := t.req.spad + p.addr + 64 * k
  let may (k : Nat) : Bool := (wg? s g).any fun w => match scratchCheck w (at_ k) 64 true with | .ok _ => true | .error _ => false
  let s1 := (sectors.filter may).foldl (fun s k =>
    scratchPut s g (at_ k) ((p.payload.drop (64 * k)).take 64)) s
  let failed :=
    if t.failed.isSome then t.failed
    else if !p.bad.isEmpty then some (0x0B, 0)
    else if sectors.any fun k => !may k then some (7, 0)
    else none
  settleTransfer s1 { t with remaining := t.remaining - p.payload.length, failed }
def execRgetData (p : Packet) (s : State) : Host.Outcome State Fault Refusal :=
  .next (admitPacket s p (fun _ s => .ok (match transferOf s p with
    | some t => if t.req.get then takeData s t p else s
    | none => s)) dropPacket)

/-- The lines that a module's fabric writes have written here. -/
def writtenBy (s : State) (m : Nat) : BitVec 512 := ((s.fabric.written.find? fun x => x.1 = m).map Prod.snd).getD 0
/-- Lines written are noted for the module. -/
def noteWritten (s : State) (m : Nat) (lines : BitVec 512) : State :=
  let all := writtenBy s m ||| lines
  modFabric s fun f => { f with written := (m, all) :: f.written.filter fun x => x.1 ≠ m }
/-- The lines of bytes of a context. -/
def linesOf (s : State) (ctx va n : Nat) : BitVec 512 :=
  (sectorsTouched va n).foldl (fun m b =>
    match translateAny s ctx b true with
    | .ok (_, pa) => m ||| lineMarks pa
    | .error _ => m) 0
/-- An earlier packet of the same transfer is still held. -/
def earlierHeld (s : State) (p : Packet) : Bool :=
  s.fabric.heldPackets.any fun h => h.1 ≠ 0 && h.2 ≠ p && h.2.src = p.src && h.2.cid = p.cid && h.2.op = p.op
/-- A sector of a data packet is written at its home, with its line noted for the releases that follow it; or refused, for its check value or
its page (R404). Whether one has been. -/
def putSector (p : Packet) (ctx : Nat) (rule : SigRule) (st : Bool × State) (k : Nat) : Except Stop (Bool × State) :=
  let va := p.addr + 64 * k
  if p.bad.contains k then .ok (true, st.2)
  else
    match writeAny st.2 ctx va ((p.payload.drop (64 * k)).take 64) rule with
    | .error (.trap ..) => .ok (true, st.2)
    | .error e => .error e
    | .ok s1 =>
      let s2 := noteWritten s1 p.src (linesOf s1 ctx va 64)
      -- this module's own transfer marks the lines it wrote for its swarm's releases (R242)
      .ok (st.1, match transferOf s2 p with
        | some t => if p.src = ownMod s2 then markRange s2 t.ref va 64 else s2
        | none => s2)
/-- RPUT and MCAST data are performed sector by sector; the last packet after all others, for a release as the release write with the lines
the module's fabric writes have written here. Then the target acknowledges, or refuses the transfer for a sector it refused. -/
def execRputData (p : Packet) (s : State) : Host.Outcome State Fault Refusal :=
  .next (admitPacket s p (fun ctx s =>
    if p.last && earlierHeld s p then .error .wait
    else do
      let rule : SigRule := if p.ident then .replace (writtenBy s p.src ||| linesOf s ctx p.addr p.payload.length) else .clear
      let (refused, s1) ← (List.range (p.payload.length / 64)).foldlM (putSector p ctx rule) (false, s)
      .ok (if refused then refuseTransfer p s1
        else if p.last then send s1 { answer s1 p 0x04 with last := true }
        else s1)) (refuseTransfer p))

/-- The form in which this module contributed a chunk of a collective, open or recently closed. -/
def sentForm (s : State) (cid k : Nat) : Option Bool :=
  ((s.fabric.collectives ++ s.fabric.closed).find? fun c => c.cid = cid).bind fun c =>
    (c.sent.find? fun x => x.1 ≤ k && k < x.1 + x.2.1).map fun x => x.2.2
/-- This module's contribution of a chunk goes out again, to a module or to the switch (R412). -/
def sendAgain (s : State) (cid k dst : Nat) : State :=
  match sentForm s cid k with
  | some ident => pumpResends (modFabric s fun f => { f with resends := f.resends ++ [(cid, ident, k, dst)] })
  | none => s

/-- A target has performed its writes, or refuses the transfer; or a receiver asks again for a contribution (log 20). -/
def execAcknowledgement (p : Packet) (s : State) : Host.Outcome State Fault Refusal :=
  .next (admitPacket s p (fun _ s => .ok (if p.ident && !p.last then sendAgain s p.cid p.chunk p.src else match transferOf s p with
    | none => s
    | some t =>
      let failed := if p.ident then some (t.failed.getD (7, 0x0807)) else t.failed
      settleTransfer s { t with waiting := t.waiting.filter (· ≠ p.src), remaining := if p.ident then 0 else t.remaining, failed })) dropPacket)

/-- No acknowledgement within 1 ms. -/
def execTransferAckTimeout (id : Nat) (s : State) : Host.Outcome State Fault Refusal :=
  .next (match s.fabric.transfers.find? fun t => t.id = id with
    | none => s
    | some t => if t.started && t.sentAt + 10 ^ 6 ≤ s.clkns then endTransfer s id (some (7, 0x0809)) else s)

/-! Collectives (R408 to R412). -/

/-- A sector of a chunk's packet fails its check value: its sender is asked for the packet again, the switch by this module's own contribution;
after three failures the chunk fails (R412; log 20). -/
def failPart (s : State) (c : Collective) (p : Packet) : Except Stop State :=
  let worn (x : Chunk) : Chunk := { x with retries := x.retries + 1, failed := x.failed || 3 ≤ x.retries + 1 }
  let spent := (c.chunks[p.chunk]?).any fun x => (worn x).failed
  (settleCollective (modCollective s c.cid fun c => { c with chunks := c.chunks.modify p.chunk worn }) c.cid).map fun s1 =>
    if spent then s1
    else if c.sw then sendAgain s1 c.cid p.chunk 0xFFFF
    else send s1 { answer s1 p 0x04 with ident := true, chunk := p.chunk }

/-- A contribution: accepted by its key; kept early, where there is room; or dropped when its collective has closed. -/
def execContribution (p : Packet) (s : State) : Host.Outcome State Fault Refusal :=
  .next (admitPacket s p (fun _ s =>
    match collective? s p.cid with
    | some c =>
      let open_ := (c.chunks[p.chunk]?).any fun x => !x.done && !x.failed && !(x.parts.any fun y => y.1 = p.srank)
      if c.sw || !open_ || s.fabric.current.mods.length ≤ p.srank then .ok s
      else if !p.bad.isEmpty then failPart s c p
      else acceptPart s p.cid p.srank p.chunk (p.payload.take (chunkAt c.op c.desc p.chunk).2)
    | none =>
      if (s.fabric.closed.any fun c => c.cid = p.cid) || s.fabric.early.any fun q => q.cid = p.cid && q.srank = p.srank && q.chunk = p.chunk
        then .ok s
      else if areaUsed s + 32 + p.payload.length ≤ (s.fabric.area.map Prod.snd).getD 0 then
        .ok (modFabric s fun f => { f with early := f.early ++ [p] })
      else .error .wait) dropPacket)

/-- A chunk combined in the switch is written at DST. -/
def execSwitchResult (p : Packet) (s : State) : Host.Outcome State Fault Refusal :=
  .next (admitPacket s p (fun _ s =>
    match collective? s p.cid with
    | none => .ok s
    | some c =>
      if !c.sw || !((c.chunks[p.chunk]?).any fun x => !x.done && !x.failed) then .ok s
      else if !p.bad.isEmpty then failPart s c p
      else (writeChunk s c p.chunk p.payload).map fun s1 => countFabric s1 0x87 c.ctx) dropPacket)

/-! Cells (R320). -/

/-- A reply to another module's request. -/
def replyCell (s : State) (p : Packet) (y : CellReply) : State := send s { answer s p 0x09 with payload := replyPayload y }
/-- A request of another module waits at the home of the cell it names in the owner's space. -/
def execCellRequest (p : Packet) (s : State) : Host.Outcome State Fault Refusal :=
  .next (admitPacket s p (fun ctx s => do
    let (m, pa) ← translateAny s ctx p.addr false
    if !m.cell || p.addr % 64 ≠ 0 || !p.bad.isEmpty then .ok (replyCell s p { plainReply 0 with trap := some (7, 0x0502) })
    else .ok { s with
      nextId := s.nextId + 1
      cellWaits := s.cellWaits ++ [⟨s.nextId, none, 0, 0, ctx, p.addr, pa, none, cellOfPayload p.payload, some p⟩] })
    fun s => replyCell s p { plainReply 0 with trap := some (7, 0x0807) })
/-- A reply of another module reaches those who wait. -/
def execCellReply (p : Packet) (s : State) : Host.Outcome State Fault Refusal :=
  .next (admitPacket s p (fun _ s => .ok (if p.bad.isEmpty then answerRemote s p.cid (replyOfPayload p.payload) else s)) dropPacket)

/-! Heartbeats and suspicion (R414, R415). -/

/-- The MSI-X vector the host has for the fabric; the specification names no number (log 26). -/
def fabricVector : Nat := 2048
/-- A word of the suspect map. -/
def suspectWord (s : State) (k : Nat) : Nat := (s.fabric.suspected.map fun m => if m / 32 = k then 2 ^ (m % 32) else 0).sum
/-- Write the suspect map's words that wait, as releases at .POD, and raise the vector for each change; one whose page is not there asks for
it, and one whose page refuses it is told alone. -/
def syncSuspects (s : State) : State :=
  match s.fabric.suspectMap, s.fabric.owner with
  | some a, some (ctx, _) =>
    s.fabric.mapStale.foldl (fun s x =>
      let told (s : State) : State :=
        let s1 := modFabric s fun f => { f with mapStale := f.mapStale.filter (· ≠ x) }
        if x.2 then { s1 with msix := s1.msix ++ [fabricVector] } else s1
      match writeAny s ctx (a + 4 * x.1) (natToBytes 4 (suspectWord s x.1)) (.replace (BitVec.allOnes 512)) with
      | .ok s1 => told s1
      | .error (.trap ..) => told s
      | .error (.miss va write) => requestPage s 0 ctx (pageOf va) write
      | .error _ => s) s
  | some _, none => s
  | none, _ => modFabric s fun f => { f with mapStale := [] }
/-- A module becomes suspected, or is so no more. -/
def setSuspected (s : State) (m : Nat) (on : Bool) : State :=
  if s.fabric.suspected.contains m = on then s
  else syncSuspects (modFabric s fun f => { f with
    suspected := if on then f.suspected ++ [m] else f.suspected.filter (· ≠ m)
    mapStale := (f.mapStale.filter fun x => x.1 ≠ m / 32) ++ [(m / 32, true)] })

/-- Packets that waited for a plane go out: on the plane they name, or on one chosen now. -/
def releaseWaits (s : State) (go : Nat × Packet → Bool) : State :=
  (s.fabric.planeWaits.filter go).foldl (fun s x => if x.1 < 36 then sendOn s x.1 x.2 else send s x.2)
    (modFabric s fun f => { f with planeWaits := f.planeWaits.filter fun x => !go x })

/-- A heartbeat: the plane is up for the peer, what had no plane to it goes out, and suspicion ends. -/
def execHeartbeat (port src : Nat) (s : State) : Host.Outcome State Fault Refusal :=
  let heard (p : Peer) : Peer := { p with
    heard := s.clkns
    down := p.down.filter (· ≠ port)
    planes := (port, s.clkns) :: p.planes.filter fun x => x.1 ≠ port }
  let s1 := modFabric s fun f => { f with
    peers := if f.peers.any fun p => p.num = src then f.peers.map fun p => if p.num = src then heard p else p
      else f.peers ++ [heard ⟨src, s.clkns, [], s.clkns, []⟩] }
  .next (setSuspected (releaseWaits s1 fun x => x.1 = 36 && x.2.dst = src) src false)

/-- When a peer's heartbeat on a plane was heard last, or began to be awaited. -/
def beatOn (p : Peer) (port : Nat) : Nat := max p.since (((p.planes.find? fun x => x.1 = port).map Prod.snd).getD 0)
/-- Five heartbeats of a peer in a row are missed on a plane: none of them in 100 µs (log 68). -/
def missDue (s : State) (p : Peer) (port : Nat) : Bool :=
  port < s.fabric.ports.length && !p.down.contains port && decide (beatOn p port + 100000 ≤ s.clkns)
/-- A plane on which a peer's heartbeats are missed is down for that peer. -/
def missBeats (peer port : Nat) (s : State) : State :=
  if s.fabric.peers.any fun p => p.num = peer && missDue s p port then
    countFabric (modFabric s fun f => { f with
      peers := f.peers.map fun p => if p.num = peer then { p with down := p.down ++ [port] } else p }) 0x85 0 5
  else s
def execHeartbeatMiss (peer port : Nat) (s : State) : Host.Outcome State Fault Refusal := .next (missBeats peer port s)
/-- What has been missed by now, of every peer on every plane. -/
def missAll (s : State) : State :=
  s.fabric.peers.foldl (fun s p => (List.range s.fabric.ports.length).foldl (fun s k => missBeats p.num k s) s) s

/-- Heartbeats go out every 20 µs, on every up plane to each other module of CURRENT and of the watch list. With them what has been missed
is noted, and what waits for a page of the fabric's own is tried again. -/
def execHeartbeatTimer (s : State) : Host.Outcome State Fault Refusal :=
  let peers := ((s.fabric.current.mods ++ s.fabric.watch).eraseDups).filter fun m => some m ≠ s.fabric.modNum
  .next (if peers.isEmpty || s.clkns < s.fabric.beatAt + 20000 then s
    else
      let s1 := (upPorts s).foldl (fun s k => peers.foldl (fun s m => sendOn s k (newPacket s 0x0A m (jobTag s) 0 0)) s) (missAll s)
      writeStatuses (pumpResends (syncSuspects (modFabric s1 fun f => { f with beatAt := s.clkns }))))

/-- A module of CURRENT is not heard for 100 µs. -/
def execSuspicionTimeout (m : Nat) (s : State) : Host.Outcome State Fault Refusal :=
  .next (match s.fabric.peers.find? fun p => p.num = m with
    | none => s
    | some p => if s.fabric.current.mods.contains m && p.heard + 100000 ≤ s.clkns then setSuspected s m true else s)

/-! Fences (R402, R426). -/

def execFenceMarker (port src gen : Nat) (s : State) : Host.Outcome State Fault Refusal :=
  .next (if s.fabric.markers.contains (port, src, gen) then s
    else settleFence (modFabric s fun f => { f with markers := f.markers ++ [(port, src, gen)] }))

/-- A marker is missing 10 ms after the markers went out: nothing is swapped, and each waiting instruction gives 3. -/
def execFenceTimeout (s : State) : Host.Outcome State Fault Refusal :=
  .next (match s.fabric.fence with
    | none => s
    | some fe =>
      if s.clkns < fe.started + 10 ^ 7 then s
      else
        let lost := (s.fabric.heldPackets.filter fun h => h.1 = 0).length
        let s1 := modFabric s fun f => { f with fence := none, heldPackets := f.heldPackets.filter fun h => h.1 ≠ 0 }
        (fencingRuns s).foldl (fun s r => deliverFence s r 3) (countFabric s1 0x80 0 lost))

/-! Stripes (R417, R419). -/

/-- The live view of a context whose alias holds a range whole. -/
def servingView (s : State) (ctx va n : Nat) : Bool :=
  s.views.any fun v => v.ctx = ctx && !v.granules.isEmpty && v.alias_ ≤ va && va + n ≤ v.alias_ + v.len
/-- A peer serves a stripe through its view, in packets of up to 4 KiB, or refuses it. -/
def execStripeRequest (p : Packet) (s : State) : Host.Outcome State Fault Refusal :=
  .next (admitPacket s p (fun ctx s => do
    let n := descWord p.payload 0 4
    if !p.bad.isEmpty || !servingView s ctx p.addr n then .error (.trap 7 0x0807 0)
    else do
      let b ← readAny s ctx p.addr n
      .ok ((packetOffsets n).foldl (fun s o =>
        send s { answer s p 0x0F with addr := o, last := decide (n ≤ o + 4096), payload := (b.drop o).take 4096 }) s))
    fun s => send s { answer s p 0x0F with ident := true, last := true })

/-- Change a stripe of the reel, which then goes on. -/
def putStripe (s : State) (k : Nat) (x : Stripe) : State :=
  settleReel (modFabric s fun f => { f with reel := f.reel.map fun r => { r with stripes := r.stripes.set k x } })
/-- Stripe data are written at DSTA; a refusal, or data that fail their check values, send the request to ALTRANK. -/
def execStripeData (p : Packet) (s : State) : Host.Outcome State Fault Refusal :=
  .next (admitPacket s p (fun _ s =>
    match s.fabric.reel, s.fabric.reel.bind fun r => r.stripes[p.cid]? with
    | some r, some x =>
      if (x.state ≠ 1 && x.state ≠ 4) || x.peer ≠ p.src then .ok s
      else if p.ident || !p.bad.isEmpty then .ok (settleReel (retryStripe s p.cid))
      else
        match fabricWrite s r.ctx (x.dsta + p.addr) p.payload with
        | .error (.trap ..) => .ok (putStripe s p.cid { x with state := 2 })
        | .error e => .error e
        | .ok s1 =>
          let s1 := markRange s1 r.ref (x.dsta + p.addr) p.payload.length
          let got := x.got + p.payload.length
          .ok (if x.len ≤ got then countFabric (putStripe s1 p.cid { x with got, state := 3 }) 0x88 r.ctx
            else putStripe s1 p.cid { x with got, asked := some s.clkns })
    | _, _ => .ok s) dropPacket)
/-- A stripe unanswered for 1 ms is asked of ALTRANK, or fails; a reel that has ended writes its record when it can. -/
def execStripeTimeout (k : Nat) (s : State) : Host.Outcome State Fault Refusal :=
  .next (match s.fabric.reel.bind fun r => r.stripes[k]? with
    | none => s
    | some x =>
      if (x.state = 1 || x.state = 4) && x.asked.any fun t => t + 10 ^ 6 ≤ s.clkns then settleReel (retryStripe s k) else settleReel s)

/-! The link (R394, R396, R408). -/

/-- A packet of its bytes, when its reserved fields are zero and its OP is listed; and which of its sectors fail. -/
def packetOf (b : List Byte) : Option Packet :=
  let n := descWord b 12 2
  let flags := descWord b 9 1
  let payload := (b.drop 32).take (64 * n)
  let checks := b.drop (32 + 64 * n)
  let bad := (List.range n).filter fun k => crc16 ((payload.drop (64 * k)).take 64) ≠ descWord checks (2 * k) 2
  let p : Packet :=
    ⟨descWord b 0 2, descWord b 2 2, descWord b 4 2, descWord b 6 2, descWord b 8 1, flags % 2 = 1, flags / 2 % 2 = 1, descWord b 10 2,
     descWord b 14 2, descWord b 16 4, descWord b 20 8, payload, bad⟩
  if flags < 4 && descWord b 28 4 = 0 && (packetEvent p 0).isSome then some p else none
/-- Bytes a packet of n sectors takes. -/
def packetSize (n : Nat) : Nat := 32 + 64 * n + (2 * n + 7) / 8 * 8
/-- What a packet does when it has come over the link: its event; nothing, where the kill list stops a heartbeat or a fence marker (R398); or
none, where it is dropped and counted, such as a heartbeat or a fence marker whose tag finds no owner (R400). Kill notices and their answers
name the tags that the list holds, and pass (R380; log 27). -/
def packetArrival (s : State) (port : Nat) (p : Packet) : Option (List Instr) :=
  if p.op = 0x0A || p.op = 0x0B then
    if s.killList.contains p.jobtag then some []
    else if s.fabric.owner.map Prod.snd = some p.jobtag then (packetEvent p port).map fun e => [e]
    else none
  else (packetEvent p port).map fun e => [e]
/-- The whole packets at the front of a port's bytes, each as what it does, and the bytes that remain. -/
def unpack (s : State) (port : Nat) : Nat → List Byte → List (Option (List Instr)) × List Byte
  | 0, b => ([], b)
  | k + 1, b =>
    let n := descWord b 12 2
    if b.length < 32 then ([], b)
    else if 64 < n then ([none], [])
    else if b.length < packetSize n then ([], b)
    else
      let (es, rest) := unpack s port k (b.drop (packetSize n))
      ((packetOf b).bind (packetArrival s port) :: es, rest)

/-- A port's failed replay; after sixteen in a row the port is down, and a fence no longer waits for its plane. -/
def linkFailure (s : State) (port : Nat) : State :=
  let worn (p : Port) : Port := { p with failures := p.failures + 1, up := p.up && p.failures + 1 < 16 }
  settleFence (countFabric (modFabric s fun f => { f with ports := f.ports.modify port worn }) 0x84 0)
/-- A flit: discarded when its CRC fails or its place in the sequence is another; else acknowledged, and its packets unpacked (log 27). -/
def execFlitReceive (port : Nat) (flit : List Byte) (s : State) : Host.Outcome State Fault Refusal :=
  .next (match s.fabric.ports[port]? with
    | none => s
    | some p =>
      let h := descWord flit 0 4
      let kind := h / 2 ^ 24 % 16
      if flit.length ≠ 256 || !p.up then s
      else if crc32 (flit.take 252) ≠ descWord flit 252 4 then linkFailure s port
      else if 2 < kind || (kind = 1 && h % 2 ^ 12 ≠ p.rxSeq) then s
      else
        let (es, rest) := if kind = 1 then unpack s port 256 (p.rx ++ (flit.drop 4).take 248) else ([], p.rx)
        let took (p : Port) : Port := { p with
          failures := 0
          rxSeq := if kind = 1 then (p.rxSeq + 1) % 2 ^ 12 else p.rxSeq
          acked := h / 2 ^ 12 % 2 ^ 12
          credits := p.credits + 8 * (h / 2 ^ 28)
          rx := rest }
        let s1 := countFabric (modFabric s fun f => { f with ports := f.ports.modify port took }) 0x82 0
        let s2 := countFabric s1 0x80 0 (es.filter Option.isNone).length
        { s2 with agenda := s2.agenda ++ ((es.filterMap id).flatten.map Move.event) })

/-- A port returns to service, of a fabric that knows its module number (R393), and what waited for its plane, or for any, goes out. -/
def execPortUp (port : Nat) (s : State) : Host.Outcome State Fault Refusal :=
  let back (p : Port) : Port := { p with up := true, failures := 0, replays := 0 }
  .next (if s.fabric.modNum.isNone || (s.fabric.ports[port]?).any Port.up then s
    else releaseWaits (modFabric s fun f => { f with ports := f.ports.modify port back }) fun x => x.1 = port || x.1 = 36)

end Sys2Proof.Machine
end

