-- ==== Sys2Proof/Machine/Streams.lean ====
section
/-! DEFINITION. Stream bindings, slices and pushes: WBIND, WRESET, FGSTART, FGWAIT, SPUSH (R276, R277, R285 to R293). -/

namespace Sys2Proof.Machine

/-! Descriptors (R277, R289). -/

/-- The descriptor in 64 bytes. -/
def walkDesc (b : List Byte) : WalkDesc :=
  let n := bytesToNat ((b.drop 12).take 1)
  let word (o : Nat) : Nat := bytesToNat ((b.drop o).take 4)
  { base := BitVec.ofNat 64 (bytesToNat (b.take 8))
    tstride := BitVec.ofNat 32 (word 8)
    ndim := n % 8
    scratch := n / 8 % 2 = 1
    push := n / 16 % 4 = 1
    depth := bytesToNat ((b.drop 13).take 1) % 32
    ring := word 16
    counts := (List.range (min 4 (n % 8))).map fun d => word (24 + 8 * d)
    strides := (List.range (min 4 (n % 8))).map fun d => BitVec.ofNat 32 (word (28 + 8 * d)) }

/-- Misaligned fields. With ringIgnored, RING and DEPTH are not looked at; a push stream ignores what describes a walk. -/
def descMisaligned (d : WalkDesc) (ringIgnored : Bool) : Bool :=
  (!ringIgnored && d.ring % 128 ≠ 0) ||
    (!d.push && (d.base.toNat % 4 ≠ 0 || d.tstride.toNat % 4 ≠ 0 || d.strides.any fun x => x.toNat % 4 ≠ 0))

/-- Reserved fields, NDIM, KIND, DEPTH and the counts. -/
def descInvalid (b : List Byte) (d : WalkDesc) (ringIgnored : Bool) : Bool :=
  let byte (o : Nat) : Nat := (b.getD o 0).toNat
  let zero (o n : Nat) : Bool := ((b.drop o).take n).all (· = 0)
  64 ≤ byte 12 || 32 ≤ byte 13 || !zero 14 2 || !zero 20 4 || !zero 56 8 || d.ndim = 0 || 4 < d.ndim || 2 ≤ byte 12 / 16 % 4 ||
    (!ringIgnored && (d.depth < 2 || 16 < d.depth)) ||
    (!d.push && (!zero (24 + 8 * d.ndim) (8 * (4 - d.ndim)) || d.counts.any (· = 0)))

/-- The owner's stream registers with the changes of binding that this instruction follows: a slice's earlier ones, and the clause's
own. -/
def streamsBefore (s : State) (rd : Run) : List Stream :=
  let w := if rd.ref.slice then
      (match swarm? s (ownerOf rd.ref) with | some o => o.sliceBinds.foldl applyBind o | none => rd.work)
    else rd.work
  (rd.effects.foldl (fun w e => match e with | .bind c => applyBind w c | _ => w) w).streams

/-- A ring of a bound register of the workgroup, other than one, meets bytes of the scratchpad. -/
def ringTaken (s : State) (rd : Run) (k lo n : Nat) : Bool :=
  let meets (x : Stream) : Bool := x.bound && x.ring < lo + n && lo < x.ring + 128 * x.depth
  ((streamsBefore s rd).zipIdx.any fun x => x.2 ≠ k && meets x.1) ||
    (swarmsOf s (wgOf rd.ref)).any fun w => w.ref ≠ ownerOf rd.ref && w.streams.any meets

/-- The 64 bytes WBIND reads: with .S from the scratchpad, else from global memory by the forager's path (R283, R289). -/
def descriptorBytes (s : State) (rd : Run) (f : Fields) (g : Workgroup) : Except Stop (List Byte × State) := do
  let t := (firstThread (runMask rd)).getD 0
  let scratch := f.imm18.getLsbD 0
  let a := if scratch then natAt (partLanes s rd f.opa 0) t else pairAt s rd f.opa t
  if a % 64 ≠ 0 then .error (.trap 5 0 a)
  else if scratch then do
    scratchCheck g a 64 false
    let b ← scratchSeen s g a 64
    .ok (b, s)
  else do
    let (b, sig, s1) ← engineRead s (accessOf s rd.ref) a 64
    .ok (b, modSwarm s1 (ownerOf rd.ref) fun w => receive w sig false 0)

def execWbind (f : Fields) (s : State) : Host.Outcome State Fault Refusal :=
  withRun (.wbind f) s fun rd wr => do
    let k := f.sel.toNat
    let app := f.imm18.getLsbD 1
    let g ← runWg s rd
    let x := (streamsBefore s rd).getD k Stream.unbound
    if x.failed then .error (.trap 0x0C 0x0008 0)
    else do
      let (b, s1) ← descriptorBytes s rd f g
      let d := walkDesc b
      let kept := app && x.bound
      if descMisaligned d kept then .error (.trap 5 0 0)
      else if descInvalid b d kept then .error (.trap 7 0x0411 0)
      else if !kept && (decide (g.scratch.size < d.ring + 128 * d.depth) || decide (d.ring < g.scratch.persist) ||
          ringTaken s rd k d.ring (128 * d.depth)) then .error (.trap 7 0x0412 0)
      else if kept && x.next.isSome then .error (.trap 0x11 0x0404 0)
      else .ok (s1, { wr with effects := wr.effects ++ [.bind (.bind k d app)] })

def execWreset (f : Fields) (s : State) : Host.Outcome State Fault Refusal :=
  withEffect (.wreset f) s fun _ _ => .ok (.bind (if f.sel = 0x10 then .resetAll else .reset f.sel.toNat))

/-! Slices (R285, R291, R292). -/

/-- The swarm's slice stands when this instruction executes. -/
def sliceRuns (s : State) (rd : Run) : Bool :=
  (swarm? s (sliceOf rd.ref)).isSome && !rd.effects.contains .fgstop
/-- The swarm has, or has started in this clause, a slice. -/
def sliceTaken (s : State) (rd : Run) : Bool :=
  rd.effects.foldl (fun b e => match e with | .fgstart _ => true | .fgstop => false | _ => b) (swarm? s (sliceOf rd.ref)).isSome

def execFgstart (f : Fields) (s : State) : Host.Outcome State Fault Refusal :=
  withEffect (.fgstart f) s fun rd _ => do
    let g ← runWg s rd
    let t := (firstThread (runMask rd)).getD 0
    if g.sliceEntry = Config.noneAddr then .error (.trap codeIllegal (wordIndex rd) 0)
    else if sliceTaken s rd then .error (.trap 0x11 0x0405 0)
    else .ok (.fgstart ((List.range 4).map fun k => laneAt (partLanes s rd f.opa k) t))

def execFgwait (f : Fields) (s : State) : Host.Outcome State Fault Refusal :=
  withRun (.fgwait f) s fun rd wr =>
    match f.sel.toNat with
    | 0 => if sliceRuns s rd then .error .wait else .ok (s, wr)
    | 1 => .ok (s, { wr with effects := wr.effects ++ [.fgstop] })
    | _ => .ok (s, writePred wr f.dst.toNat (runMask rd) (if sliceRuns s rd then 0 else BitVec.allOnes 32))

/-! SPUSH (R293). -/

/-- The register SPUSH names, with the pushes of earlier instructions of the clause. A slice's own changes of binding wait for its
owner's clause boundary. -/
def pushTarget (s : State) (rd : Run) (k : Nat) : Stream :=
  let l := if rd.ref.slice then ((swarm? s (ownerOf rd.ref)).map Swarm.streams).getD [] else streamsBefore s rd
  rd.effects.foldl (fun x e => match e with
    | .spush j _ eod last => if j = k then { x with entries := x.entries ++ [⟨eod, none⟩], ended := x.ended || last } else x
    | _ => x) (l.getD k Stream.unbound)

def execSpush (f : Fields) (s : State) : Host.Outcome State Fault Refusal :=
  withRun (.spush f) s fun rd wr =>
    let m := active rd f
    let k := f.dst.toNat % 16
    let eod : BitVec 4 := f.opx.extractLsb' 0 4
    let x := pushTarget s rd k
    let a := srcLanes s rd f.opa
    let words := (List.range threads).map fun t =>
      if rd.ref.slice then laneAt a 0 else if m.getLsbD t then laneAt a t else 0
    if m = 0 then .ok (s, wr)
    else if !x.bound || !x.desc.push || x.ended || 2 ^ x.desc.ndim ≤ eod.toNat then .error (.trap 0x11 0x0404 0)
    else if x.depth ≤ x.entries.length then .error .wait
    else .ok (s, { wr with effects := wr.effects ++ [.spush k words eod (f.opx.getLsbD 4)] })

end Sys2Proof.Machine
end

