-- ==== Sys2Proof/Machine/TaskEvents.lean ====
section
/-! DEFINITION. The events of tasks: the end, the replay, the end by a trap without replay, and the timeout of a tie-breaking run (R348,
R371, R372, R376). An event whose condition does not hold changes nothing. -/

namespace Sys2Proof.Machine

def execTaskEnd (g : WgRef) (s : State) : Host.Outcome State Fault Refusal := .next (endTask s g)
def execTaskReplay (g : WgRef) (s : State) : Host.Outcome State Fault Refusal := .next (replay s g)
def execTrapWithoutReplay (g : WgRef) (s : State) : Host.Outcome State Fault Refusal := .next (endNoReplay s g)

/-- The waits of a workgroup whose twin's request under the same identity is another. -/
def disagreeing (s : State) (g : WgRef) : List CellWait :=
  s.cellWaits.filter fun x => x.wg = g && x.req.key.isSome && (waitsOf s x false).any fun y => y.wg ≠ g && !sameRequest x y

/-- A tie-breaking pair still runs a tile. -/
def tieRuns (s : State) (seq tile : Nat) : Bool :=
  s.wgs.any fun g => g.ref.seq = seq && g.twin.tieBreak && g.twin.signature.isNone && g.task.any fun t => t.tile = tile

/-- Twins wait on a request they disagree on, and 1 ms has passed without a tie-breaking run; or that run is over without it. -/
def execTiebreakTimeout (g : WgRef) (s : State) : Host.Outcome State Fault Refusal :=
  .next (match (wg? s g).bind Workgroup.task, launch? s g.seq with
    | some t, some l =>
      (match l.ties.find? fun z => z.tile = t.tile && (z.primary = g || z.twin = g) with
        | none => s
        | some z =>
          let ws := disagreeing s z.primary ++ disagreeing s z.twin
          let late := !z.dispatched && decide (z.since + 10 ^ 6 ≤ s.clkns)
          let gone := z.dispatched && !tieRuns s g.seq z.tile
          if !ws.isEmpty && (late || gone) then dropTie (unresolved s ws) g.seq z.tile else s)
    | _, _ => s)

end Sys2Proof.Machine
end

