-- ==== Sys2Proof/Machine/TaskInstr.lean ====
section
/-! DEFINITION. The task instructions: FETCH, COMMIT, ABANDON, WRAPRET, ENQ (R347, R350 to R354). -/

namespace Sys2Proof.Machine

/-- An instruction that runs only in a slot that holds every live thread (R350). -/
def wholeSwarm (rd : Run) : Except Stop Unit :=
  if runMask rd ≠ rd.work.live then .error (.trap codeIllegal (wordIndex rd) 0) else .ok ()

/-! FETCH (R351; log 13). -/

/-- FETCH arrives, and its clause waits in flight: its effects, and those of the words before it, come when the fetch completes (R38). A
clause that is to trap (R22), or that has no register for the result, stops before it arrives. -/
def execFetch (f : Fields) (s : State) : Host.Outcome State Fault Refusal :=
  match s.run with
  | none => .fault .noClause
  | some rd =>
    let d := f.dst.toNat
    let open_ := inTask s (wgOf rd.ref)
    let out : Except Stop State := do
      wholeSwarm rd
      (if divertedLaunch s rd.ref.seq then Except.error (Stop.trap 0x11 0x0601 0) else .ok ())
      (match enabledTrap rd.work.mode rd.raised with
        | some n => Except.error (Stop.trap 0x13 n 0)
        | none => .ok ())
      -- the pair is mapped now, at its present value, so that the result's write cannot fail; it is no write of its own
      let r1 ← writePair s rd d (runMask rd) ((List.range threads).map fun t =>
        natAt (regLanes rd.work d) t + 2 ^ 32 * natAt (regLanes rd.work (d + 1)) t)
      let s1 := modSwarm s rd.ref fun w =>
        { w with endArrived := if open_ then some (w.endArrived.getD .commit) else w.endArrived, rerun := false }
      .ok (takeDeferred (parkRun s1 { r1 with writes := rd.writes } (.fetching d (f.imm18.extractLsb' 0 6).toNat)) rd.ref)
    match out with
    | .ok s1 => .next (settleWg s1 (wgOf rd.ref))
    | .error e => .next (stopRun s rd e)

/-! End arrivals (R347, R352, R353). -/

/-- An end arrival of a kind; with no task open nothing. -/
def arriveEnd (i : Instr) (s : State) (k : EndKind) : Host.Outcome State Fault Refusal :=
  withRun i s fun rd wr => do
    wholeSwarm rd
    .ok (s, if inTask s (wgOf rd.ref) then { wr with effects := wr.effects ++ [.endArrive k] } else wr)

def execCommit (f : Fields) (s : State) : Host.Outcome State Fault Refusal :=
  arriveEnd (.commit f) s (if f.sel = 1 then .partialCommit else .commit)
def execAbandon (f : Fields) (s : State) : Host.Outcome State Fault Refusal := arriveEnd (.abandon f) s .abandon

def execWrapret (f : Fields) (s : State) : Host.Outcome State Fault Refusal :=
  withEffect (.wrapret f) s fun rd _ => do
    wholeSwarm rd
    if rd.work.diverted then .ok .wrapret else .error (.trap 0x11 0x0604 0)

/-! ENQ (R354, R355). -/

/-- The queue an ENQ names, when its context may use it. DESIGN CHOICE: a queue that is being removed counts as not installed, which R354 leaves
open (log 97). -/
def enqTarget (s : State) (ctx : Nat) (v : Word) : Option WorkQueue :=
  (queue? s (v.toNat % 2 ^ 13)).filter fun q => v.toNat < 2 ^ 13 && q.ctx = ctx && !q.removing

/-- Commands in a ring, its reservations among them. -/
def ringUsed (q : WorkQueue) : Nat := (q.widx + q.ringRes + 2 ^ 32 - q.ridx) % 2 ^ 32
/-- Where a command goes: 0 the ring, 1 the extension, 2 nowhere. -/
def enqPlace (q : WorkQueue) : Nat :=
  if q.extCount = 0 && q.extRes = 0 && ringUsed q < q.entries then 0
  else if q.extBase ≠ 0 && q.extCount + q.extRes < q.extEntries then 1
  else 2
/-- The space is reserved. -/
def enqReserve (s : State) (q place : Nat) : State :=
  modQueue s q fun x => match place with
    | 0 => { x with ringRes := x.ringRes + 1 }
    | 1 => { x with extRes := x.extRes + 1 }
    | _ => x

def execEnq (f : Fields) (s : State) : Host.Outcome State Fault Refusal :=
  withRun (.enq f) s fun rd wr =>
    match firstThread (active rd f) with
    | none => .ok (s, wr)
    | some t => do
      let va ← (let a := addrAt s rd f t; if a % 64 ≠ 0 then Except.error (Stop.trap 5 0 a) else .ok a)
      let (b, s1) ← threadLoad s rd.ref true false 0 va 64
      let cmd := overCells (clauseStores rd) t va b
      let v := laneAt (partLanes s rd f.dst 0) t
      match enqTarget s1 (ctxOf s1 (wgOf rd.ref)) v with
      | none => .error (.trap 7 0x0602 0)
      | some q =>
        let op := bytesToNat (cmd.take 2)
        if op ≠ 1 ∧ op ≠ 2 then .error (.trap 7 0x0603 0)
        else do
          let place := enqPlace q
          let m := runMask rd
          let r ← writeReg s1 wr (f.dst.toNat + 1) m (splat (BitVec.ofNat 32 place))
          let r := writePred r f.opx.toNat m (if place < 2 then BitVec.allOnes 32 else 0)
          .ok (enqReserve s1 q.num place,
            if place < 2 then { r with effects := r.effects ++ [.enq q.num cmd (place = 1)] } else r)

end Sys2Proof.Machine
end

