-- ==== Sys2Proof/Machine/Queues.lean ====
section
/-! DEFINITION. Work queues: commands, gangs and their slack, the mapping of gangs to hardware slots, extensions, and the events of the
doorbell, NOP, SIGNAL and refill (R330 to R336, R355). An event whose condition does not hold changes nothing. -/

namespace Sys2Proof.Machine

/-! Commands (R331, R332). -/

/-- A command of a ring, in its fields. -/
structure Command where
  index : Nat
  opcode : Nat
  after : Bool
  notify : Bool
  addr : Nat
  value : Nat
  deriving DecidableEq, Repr

/-- A command's 64 bytes, read. -/
def commandOf (index : Nat) (b : List Byte) : Command :=
  ⟨index, descWord b 0 2, descWord b 2 1 % 2 = 1, descWord b 2 1 / 2 % 2 = 1, descWord b 8 8, descWord b 16 8⟩
/-- A command of the ring by its index. -/
def commandAt (s : State) (q : WorkQueue) (index : Nat) : Command :=
  commandOf index (ringRead s (q.ring + 64 * (index % q.entries)) 64)
/-- The k-th command of the extension, from its oldest on (R355). -/
def extensionBytes (s : State) (q : WorkQueue) (k : Nat) : List Byte := memRead s.mem (q.extAt k) 64
/-- The command a mapped queue takes next. -/
def nextCommand (s : State) (q : WorkQueue) : Option Command :=
  if q.mapped && q.taken ≠ q.widx then some (commandAt s q q.taken) else none
/-- It is taken, and has started. -/
def takeCommand (s : State) (q : WorkQueue) (c : Command) : State :=
  modQueue s q.num fun x => { x with taken := (x.taken + 1) % 2 ^ 32, open_ := x.open_ ++ [(c.index, false)] }
/-- An AFTER launch and a SIGNAL start when every earlier command has completed. -/
def mayStart (q : WorkQueue) (c : Command) : Bool := q.open_.isEmpty || !(c.after && c.opcode = 1 || c.opcode = 2)

/-- A queue whose command has completed: RIDX is the oldest that has not. -/
def afterCompletion (q : WorkQueue) (index : Nat) : WorkQueue :=
  let l := (q.open_.map fun x => if x.1 = index then (x.1, true) else x).dropWhile Prod.snd
  let ridx := (l.head?.map Prod.fst).getD q.taken
  { q with
    open_ := l
    ridx
    since := q.since.dropWhile fun x => (x.1 + 2 ^ 32 - ridx) % 2 ^ 32 = 0 || q.entries < (x.1 + 2 ^ 32 - ridx) % 2 ^ 32 }
/-- A command completes: RIDX is written when it moves, then with NOTIFY the vector is raised. -/
def completeCommand (s : State) (q index : Nat) (notify : Bool) : State :=
  match queue? s q with
  | none => s
  | some x =>
    let y := afterCompletion x index
    let s1 := modQueue s q fun _ => y
    let s2 := if y.ridx = x.ridx then s1 else ringWrite s1 x.ridxAddr (natToBytes 4 y.ridx)
    if notify then { s2 with msix := s2.msix ++ [x.vector] } else s2

/-! Launch descriptors (R337). -/

/-- The 128 bytes of a descriptor, read. -/
def launchDesc (b : List Byte) : LaunchDesc :=
  let n (o k : Nat) : Nat := descWord b o k
  let flags := n 78 1
  ⟨BitVec.ofNat 64 (n 0 8), BitVec.ofNat 64 (n 8 8), BitVec.ofNat 64 (n 16 8), n 24 8, n 32 4, n 36 4, n 40 8, n 48 8,
   BitVec.ofNat 64 (n 56 8), BitVec.ofNat 32 (n 64 4), n 68 4, n 72 2, n 74 1, n 75 1, n 76 1, n 77 1, flags % 2 = 1, flags / 2 % 2 = 1,
   n 79 1, n 80 1, n 81 1, n 82 1, n 83 1, n 84 4, n 88 4, n 92 1, n 94 2, n 96 8, n 104 2, n 112 8⟩

/-- Launches that have not completed. -/
def Launch.live (l : Launch) : Bool := l.state ≠ .completed && l.state ≠ .ending
/-- A queue's commands not yet taken: the ring's, then the extension's. -/
def untaken (s : State) (q : WorkQueue) : List Command :=
  ((List.range (min ((q.widx + 2 ^ 32 - q.taken) % 2 ^ 32) q.entries)).map fun k => commandAt s q ((q.taken + k) % 2 ^ 32)) ++
    (List.range q.extCount).map fun k => commandOf 0 (extensionBytes s q k)
/-- Slack of a queue: its oldest launch, else its first LAUNCH not yet taken (R334). DESIGN CHOICE: while that LAUNCH's descriptor cannot be read
the slack is 2^63 − 1, which R334 does not say (log 97). -/
def queueSlack (s : State) (q : WorkQueue) : Int :=
  match s.launches.find? fun l => l.queue = q.num && l.live with
  | some l => slackOf s l
  | none =>
    match (untaken s q).find? fun c => c.opcode = 1 with
    | none => noDeadline
    | some c =>
      match readAny s q.ctx c.addr 128 with
      | .ok b => slackFrom s (launchDesc b) (launchDesc b).ntiles
      | .error _ => noDeadline

/-! Gangs and their mapping (R333, R335). -/

/-- A gang as the evaluation sees it. -/
structure Gang where
  ctx : Nat
  gang : Nat
  slack : Int
  oldest : Nat
  size : Nat
  mapped : Bool
  removing : Bool
  pinned : Bool
  deriving DecidableEq, Repr

/-- Queues of a gang. -/
def gangQueues (s : State) (ctx gang : Nat) : List WorkQueue := s.queues.filter fun q => q.ctx = ctx && q.gang = gang
/-- Launches of a gang's queues. -/
def gangLaunches (s : State) (ctx gang : Nat) : List Launch :=
  s.launches.filter fun l => (gangQueues s ctx gang).any fun q => q.num = l.queue
/-- A gang, with its slack. -/
def gangOf (s : State) (x : Nat × Nat) : Gang :=
  let qs := gangQueues s x.1 x.2
  { ctx := x.1, gang := x.2
    slack := (qs.map (queueSlack s)).foldl min noDeadline
    oldest := (qs.map fun q => (q.since.head?.map Prod.snd).getD s.clkns).foldl min s.clkns
    size := qs.length
    mapped := qs.any WorkQueue.mapped
    removing := qs.any WorkQueue.removing
    -- a diverted launch that has not completed keeps its gang mapped
    pinned := (gangLaunches s x.1 x.2).any fun l => l.cause ≠ 0 && l.state ≠ .completed }
/-- The order in which gangs are considered. -/
def Gang.before (x y : Gang) : Bool := x.slack < y.slack || (x.slack = y.slack && x.oldest < y.oldest)
/-- Put a gang in its place. -/
def insertGang (x : Gang) : List Gang → List Gang
  | [] => [x]
  | y :: ys => if x.before y then x :: y :: ys else y :: insertGang x ys
/-- The gangs in increasing slack. -/
def gangs (s : State) : List Gang :=
  (((s.queues.map fun q => (q.ctx, q.gang)).eraseDups).map (gangOf s)).foldl (fun l g => insertGang g l) []

/-- Map or unmap a gang; unmapping pre-empts its resident launches. -/
def mapGang (s : State) (g : Gang) (on : Bool) : State :=
  let qs := (gangQueues s g.ctx g.gang).map WorkQueue.num
  let stop (l : Launch) : Launch := if !on && qs.contains l.queue && l.state = .resident then { l with stopping := true } else l
  { s with
    queues := s.queues.map fun q => if q.ctx = g.ctx && q.gang = g.gang then { q with mapped := on } else q
    launches := s.launches.map stop }
/-- Queue slots in use. -/
def slotsUsed (s : State) : Nat := (s.queues.filter WorkQueue.mapped).length

/-- Mapped gangs that may give way to one of a slack, the greatest slack first: of several that could, R335 does not say which gives way
(DEDUCED from its order of gangs, log 97). -/
def victims (s : State) (slack : Int) : List Gang :=
  ((gangs s).filter fun v => v.mapped && !v.pinned && slack + 100000 ≤ v.slack).reverse
/-- Unmap victims until n slots are free; unchanged when they do not suffice. -/
def makeRoom (s : State) (n : Nat) : List Gang → Option State
  | [] => if slotsUsed s + n ≤ Config.mappedQueues then some s else none
  | v :: vs => if slotsUsed s + n ≤ Config.mappedQueues then some s else makeRoom (mapGang s v false) n vs
/-- Queues of a gang that are not mapped. -/
def unmapped (s : State) (g : Gang) : Nat := ((gangQueues s g.ctx g.gang).filter fun q => !q.mapped).length
/-- Consider one gang. A mapped one that a queue has joined is mapped whole, or else unmapped whole (R333). -/
def considerGang (s : State) (g : Gang) : State :=
  if g.removing then (if g.mapped && !g.pinned then mapGang s g false else s)
  else if unmapped s g = 0 then s
  else
    match makeRoom s (unmapped s g) (victims s g.slack) with
    | some s1 => mapGang s1 g true
    | none => if (gangQueues s g.ctx g.gang).any WorkQueue.mapped && !g.pinned then mapGang s g false else s
/-- RE-EVALUATE THE MAPPING. -/
def evaluateMapping (s : State) : State := (gangs s).foldl considerGang s

/-! Events. -/

/-- The host publishes commands; the mapping is evaluated again. -/
def execDoorbellWrite (q index : Nat) (s : State) : Host.Outcome State Fault Refusal :=
  .next (match queue? s q with
    | none => s
    | some x => evaluateMapping (modQueue s q fun _ => x.publish (index % 2 ^ 32) s.clkns))

/-- A NOP completes; so does, failed, a command whose OPCODE is not listed. -/
def execNopCommand (q : Nat) (s : State) : Host.Outcome State Fault Refusal :=
  .next (match queue? s q with
    | none => s
    | some x =>
      match nextCommand s x with
      | none => s
      | some c => if c.opcode = 1 || c.opcode = 2 then s else completeCommand (takeCommand s x c) q c.index c.notify)

/-- SIGNAL: an ordinary write with release order, whose signature marks every line (log 22). DESIGN CHOICE: one whose ADDR is not a
multiple of 8, for which R331 names no status, completes without effect (log 97). -/
def execSignal (q : Nat) (s : State) : Host.Outcome State Fault Refusal :=
  .next (match queue? s q with
    | none => s
    | some x =>
      match nextCommand s x with
      | none => s
      | some c =>
        if c.opcode ≠ 2 || !mayStart x c || engineHeld s hubRef (queueName q) then s
        else
          let finish (s : State) : State := completeCommand (takeCommand s x c) q c.index c.notify
          if c.addr % 8 ≠ 0 then finish s
          else
            match writeAny s x.ctx c.addr (natToBytes 8 c.value) (.replace (BitVec.allOnes 512)) with
            | .ok s1 => finish s1
            | .error (.trap ..) => finish s
            | .error e => holdAccess s hubRef 0 x.ctx (queueName q) e)

/-- Firmware moves the extension's oldest command into the ring when it has room. -/
def execExtensionRefill (q : Nat) (s : State) : Host.Outcome State Fault Refusal :=
  .next (match queue? s q with
    | none => s
    | some x =>
      if x.extCount = 0 || x.entries ≤ ringUsed x then s
      else
        modQueue (ringWrite s (x.ring + 64 * (x.widx % x.entries)) (extensionBytes s x 0)) q fun x =>
          { x.publish ((x.widx + 1) % 2 ^ 32) s.clkns with extHead := (x.extHead + 1) % x.extEntries, extCount := x.extCount - 1 })

end Sys2Proof.Machine
end

