-- ==== Sys2Proof/Machine/Launches.lean ====
section
/-! DEFINITION. Launches: admission, placement, completion records, and the ways a launch is stopped (R249, R275, R337 to R343, R358,
R360). An event whose condition does not hold changes nothing. -/

namespace Sys2Proof.Machine

/-! Admission (R338, R339, R275). -/

/-- Whether an entry is a place where a clause may begin. -/
def entryOk (x : DWord) : Bool := x.toNat % 8 = 0
/-- MODE as R20 admits it. -/
def modeOk (m : Word) : Bool :=
  m &&& 0xFFC0C000 = 0 && (m.extractLsb' 0 3).toNat ≠ 0 && (m.extractLsb' 0 3).toNat ≠ 7 && !m.getLsbD 7
/-- The fields outside their limits: byte offset and the test, in the order of their offsets (check 1). -/
def fieldTests (b : List Byte) (d : LaunchDesc) : List (Nat × Bool) :=
  let wrap := d.wrapup ≠ Config.noneAddr
  let zero (o n : Nat) : Bool := ((b.drop o).take n).all (· = 0)
  [(0, !entryOk d.entry), (8, d.slice ≠ Config.noneAddr && !entryOk d.slice), (16, wrap && !entryOk d.wrapup),
   (32, if wrap then decide (d.budget < 1 ∨ 1000000 < d.budget) else d.budget ≠ 0), (48, d.crec % 64 ≠ 0), (64, !modeOk d.mode),
   (68, decide (2 ^ 23 < d.ntiles)), (74, decide (31 < d.ox)), (75, decide (23 < d.oy)),
   (76, decide (d.w < 1 ∨ 32 < d.w ∨ 32 < d.ox + d.w)), (77, decide (d.h < 1 ∨ 24 < d.h ∨ 24 < d.oy + d.h)),
   (78, 4 ≤ descWord b 78 1), (79, d.swarms = 0), (80, d.tcount = 0 && d.tsize ≠ 0), (82, d.rinit = 0 || decide (d.rmaxv < d.rinit)),
   (93, !zero 93 1), (96, d.dsArea % 32 ≠ 0), (106, !zero 106 6), (120, !zero 120 8)]
/-- The first offending field. -/
def badField (b : List Byte) (d : LaunchDesc) : Option Nat := ((fieldTests b d).find? Prod.snd).map Prod.fst

/-- The STREAMS records, w0 first: none where all bytes are zero. -/
def streamRecords (b : List Byte) : List (Option WalkDesc) :=
  (List.range 16).map fun k =>
    let r := (b.drop (64 * k)).take 64
    if r.all (· = 0) then none else some (walkDesc r)
/-- A record that R289 refuses whatever its place. -/
def recordBad (b : List Byte) : Bool :=
  (List.range 16).any fun k =>
    let r := (b.drop (64 * k)).take 64
    !(r.all (· = 0)) && (descMisaligned (walkDesc r) false || descInvalid r (walkDesc r) false)
/-- The rings of a workgroup's swarms: start and length in the scratchpad (R294). -/
def launchRings (swarms : Nat) (binds : List (Option WalkDesc)) : List (Nat × Nat) :=
  ((List.range swarms).map fun i => binds.filterMap fun d => d.map fun d => (d.ring + i * d.depth * 128, 128 * d.depth)).flatten
/-- Some two of a list's ranges meet. -/
def someMeet : List (Nat × Nat) → Bool
  | [] => false
  | x :: xs => xs.any (fun y => x.1 < y.1 + y.2 && y.1 < x.1 + x.2) || someMeet xs
/-- Check 2: the first condition of R339 that holds; bad are STREAMS records that break R289 whatever their place, or cannot be read. -/
def exceedsCore (d : LaunchDesc) (bad : Bool) (binds : List (Option WalkDesc)) : Option Nat :=
  let rings := launchRings d.swarms binds
  let tests : List Bool :=
    [decide (32 < d.swarms), decide (d.swarms < d.tsize * d.tcount) || (d.tcount ≠ 0 && decide (d.tsize < 2 ∨ 8 < d.tsize)),
     decide (512 < d.rinit * ((d.swarms + 7) / 8)) || decide (128 < d.rmaxv), decide (2 ^ 20 < d.scratch), decide (d.scratch < d.persist),
     decide (64 < d.accs), decide (256 < d.obuf),
     bad || rings.any (fun r => r.1 < d.persist || d.scratch < r.1 + r.2) || someMeet rings]
  (tests.findIdx? id).map (· + 1)
/-- ADMISSION: status and RESOURCE of a launch that is rejected. -/
def admission (b : List Byte) (d : LaunchDesc) (bad : Bool) (binds : List (Option WalkDesc)) : Option (Nat × Nat) :=
  match badField b d with
  | some o => some (0x82, o)
  | none =>
    match exceedsCore d bad binds with
    | some k => some (0x81, k)
    | none => if d.redund && (d.ox % 4 ≠ 0 || d.w % 8 ≠ 0) then some (0x83, 0) else none

/-! Completion (R341, R342). -/

/-- Tiles of a launch with a code. -/
def codeCount (l : Launch) (c : Nat) : Nat := (l.codes.filter fun x => x.2 = c).length
/-- The 64 bytes of a completion record. -/
def completionRecord (s : State) (l : Launch) : List Byte :=
  let w (n : Nat) : List Byte := natToBytes 4 n
  natToBytes 2 l.status ++ natToBytes 2 l.resource ++ w l.seq ++ ([1, 2, 3, 4, 5].map fun c => w (codeCount l c)).flatten ++
    w (l.desc.ntiles - l.codes.length) ++ w l.reclaims ++ w l.replays ++ natToBytes 8 l.tstart ++ natToBytes 8 s.clkns ++ w 1 ++ w l.flags
/-- Write the record, DONE last; nothing when CREC is 0. -/
def writeRecord (s : State) (l : Launch) : Except Stop State :=
  if l.desc.crec = 0 then .ok s
  else do
    let b := completionRecord s l
    let s1 ← writeAny s l.ctx l.desc.crec (b.take 56) .clear
    let s2 ← writeAny s1 l.ctx (l.desc.crec + 60) (b.drop 60) .clear
    writeAny s2 l.ctx (l.desc.crec + 56) ((b.drop 56).take 4) .clear
/-- The command of a completed launch completes, and the mapping is evaluated again. -/
def closeLaunch (s : State) (l : Launch) : State :=
  let s1 := modLaunchId s l.id fun l => { l with state := .completed, saved := none, ties := [] }
  evaluateMapping (completeCommand { s1 with wgs := s1.wgs.filter fun g => g.ref.seq ≠ l.seq || l.seq = 0 } l.queue l.cmd l.notify)
/-- FINISH A LAUNCH that is over: its map and its record are written, or wait for their pages; a record that cannot be is dropped. -/
def finishLaunch (s : State) (id : Nat) : State :=
  match s.launches.find? fun l => l.id = id with
  | none => s
  | some l0 =>
    let s := flushCodes s l0.seq
    match s.launches.find? fun l => l.id = id && l.state = .ending with
    | none => s
    | some l =>
      if !l.unwritten.isEmpty || engineHeld s hubRef (recordName id) then s
      else
        match writeRecord s l with
        | .ok s1 => closeLaunch s1 l
        | .error (.trap ..) => closeLaunch s l
        | .error e => holdAccess s hubRef 0 l.ctx (recordName id) e
/-- A launch is over with a status. -/
def endLaunch (s : State) (id status resource : Nat) : State :=
  finishLaunch (modLaunchId s id fun l => { l with state := .ending, status, resource, stopping := false }) id

/-! The LAUNCH command (R331, R332, R338). -/

/-- A launch as its command forms it. -/
def newLaunch (s : State) (x : WorkQueue) (c : Command) (d : LaunchDesc) (binds : List (Option WalkDesc)) : Launch :=
  ⟨s.nextId, x.num, c.index, x.ctx, c.notify, d, .waiting, false, 0, 0, binds, 0, [], [], 0, 0, 0, 0, 0, false, 0, 0, 0, 0, false, none, []⟩
/-- A descriptor fails a check that needs no STREAMS record (R338, R339). -/
def failsEarly (b : List Byte) (d : LaunchDesc) : Bool := (badField b d).isSome || (exceedsCore d false []).isSome
/-- What a LAUNCH reads: its descriptor, and when the checks come to them its STREAMS records; none where they cannot be read (log 23).
DESIGN CHOICE: a LAUNCH whose ADDR is not a multiple of 64, for which R331 and R338 name no status, completes without effect (log 97). -/
def launchReads (s : State) (x : WorkQueue) (c : Command) : Except Stop (List Byte × Option (List Byte)) := do
  let b ← (if c.addr % 64 ≠ 0 then .error (.trap 5 0 0) else readAny s x.ctx c.addr 128)
  let d := launchDesc b
  if d.streams = 0 || failsEarly b d then .ok (b, some [])
  else
    match readAny s x.ctx d.streams 1024 with
    | .ok r => .ok (b, some r)
    | .error (.trap ..) => .ok (b, none)
    | .error e => .error e

/-- A LAUNCH is admitted, and waits for placement; or it is rejected, and completes. One whose descriptor cannot be read completes with
no record (log 23). -/
def execLaunch (q : Nat) (s : State) : Host.Outcome State Fault Refusal :=
  .next (match queue? s q with
    | none => s
    | some x =>
      match nextCommand s x with
      | none => s
      | some c =>
        if c.opcode ≠ 1 || !mayStart x c || engineHeld s hubRef (queueName q) then s
        else
          match launchReads s x c with
          | .error (.trap ..) => completeCommand (takeCommand s x c) q c.index c.notify
          | .error e => holdAccess s hubRef 0 x.ctx (queueName q) e
          | .ok (b, r) =>
            let d := launchDesc b
            let binds := streamRecords (r.getD [])
            let l := newLaunch s x c d binds
            let s1 := takeCommand { s with nextId := s.nextId + 1 } x c
            match admission b d (r.isNone || recordBad (r.getD [])) binds with
            | none => { s1 with launches := s1.launches ++ [l] }
            | some (st, res) =>
              -- no record is written at a CREC that is itself out of its limits
              let l := if st = 0x82 && res = 48 then { l with desc := { d with crec := 0 } } else l
              endLaunch { s1 with launches := s1.launches ++ [l] } l.id st res)

/-! Placement (R130, R340, R343). -/

/-- The lowest place of a range of a size among taken ranges, below a limit. -/
def firstFit (size limit : Nat) (taken : List (Nat × Nat)) : Option Nat :=
  if size = 0 then some 0
  else
    let starts := (0 :: taken.map fun t => t.1 + t.2).filter fun o =>
      o + size ≤ limit && taken.all fun t => t.2 = 0 || o + size ≤ t.1 || t.1 + t.2 ≤ o
    starts.foldl (fun m o => match m with | none => some o | some x => some (min x o)) none
/-- Lanes with room for swarms of a base, their RSV values in order (R130). -/
def lanesFit (s : State) (core lb : Nat) (rsvs : List Nat) : Bool :=
  (List.range 8).all fun lane =>
    let mine := (rsvs.zipIdx.filter fun r => (lb + r.2) % 8 = lane).map Prod.fst
    (laneSwarms s core lane).length + mine.length ≤ 4 && laneRsv s core lane hubRef + mine.sum ≤ 512
/-- The workgroups resident on a core. -/
def residents (s : State) (core : Nat) : List Workgroup := s.wgs.filter fun g => g.ref.core = core && !g.ended
/-- Where a core takes a workgroup: lane base, scratchpad and operand-buffer places. -/
def coreFits (s : State) (core : Nat) (bases : List Nat) (rsvs : List Nat) (scratch obuf : Nat) : Option (Nat × Nat × Nat) :=
  let d := dieAt s (dieOf core)
  if !d.admits || d.fenced.contains (clusterOf core) then none
  else
    match bases.find? fun lb => lanesFit s core lb rsvs,
        firstFit scratch (2 ^ 20) ((residents s core).map fun g => (g.scratchBase, g.scratch.size)),
        firstFit obuf 256 ((residents s core).map fun g => (g.obufBase, g.obufGranules)) with
    | some lb, some a, some b => some (lb, a, b)
    | _, _, _ => none
/-- The cores of a launch's rectangle, by workgroup index. -/
def rectangle (d : LaunchDesc) : List Nat :=
  ((List.range d.h).map fun j => (List.range d.w).map fun i => 32 * (d.oy + j) + d.ox + i).flatten
/-- Its places, when every core can take a workgroup. -/
def placesFor (s : State) (l : Launch) : Option (List (Nat × Nat × Nat × Nat)) :=
  (rectangle l.desc).mapM fun c =>
    (coreFits s c (List.range 8) (List.replicate l.desc.swarms l.desc.rinit) l.desc.scratch l.desc.obuf).map fun x => (c, x)

/-- A launch's workgroup as it starts on a core. -/
def newWg (l : Launch) (seq core index lb scratchBase obufBase : Nat) : Workgroup :=
  let d := l.desc
  let i := index % max 1 d.w
  { ref := ⟨seq, core⟩
    ctx := l.ctx
    index
    laneBase := lb
    swarms := d.swarms
    teamSize := d.tsize
    teamCount := d.tcount
    accs := d.accs
    scratch := ⟨d.scratch, d.persist, [], 0, []⟩
    scratchBase, obufBase
    frozen := false
    obufGranules := d.obuf
    obuf := []
    obufBad := []
    records := List.replicate 16 none
    names := List.replicate 64 none
    exc := [0, 0, 0, 0]
    excShadow := [0, 0, 0, 0]
    barriers := []
    seated := []
    task := none
    fetches := 0
    twin := if d.redund then ⟨some ⟨seq, if i < d.w / 2 then core + d.w / 2 else core - d.w / 2⟩, d.w / 2 ≤ i, false, none⟩
      else ⟨none, false, false, none⟩
    begun := false
    ended := false
    entry := d.entry
    sliceEntry := d.slice
    wrapup := d.wrapup }
/-- A workgroup's swarm as it starts (R17, R343, R294). -/
def newSwarm (s : State) (l : Launch) (g : Workgroup) (i : Nat) : Swarm :=
  let d := l.desc
  let inTeam := i < d.tsize * d.tcount
  { Swarm.fresh ⟨g.ref.seq, g.ref.core, i, false⟩ ((g.laneBase + i) % 8) (if inTeam then i % d.tsize else 0)
      (if inTeam then i / d.tsize else 0) inTeam d.entry d.mode with
    rsv := d.rinit
    rmax := d.rmaxv
    dsBase := d.dsArea + 32 * d.dsLim * (d.swarms * g.index + i)
    dsLim := d.dsLim
    since := s.cycle
    streams := (List.range 16).map fun k =>
      match l.binds.getD k none with
      | some x => boundStream { x with ring := x.ring + i * x.depth * 128 }
      | none => Stream.unbound }
/-- Lanes that mirror no longer drop their registers' mirrors (R140). -/
def dropMirrors (s : State) : State :=
  let bare (w : Swarm) : Swarm := { w with regs := w.regs.map fun x => x.map fun v => { v with mirror := none } }
  { s with
    swarms := s.swarms.map fun w => if mirrored s w.ref.core w.lane then w else bare w
    runs := s.runs.map fun r => if mirrored s r.ref.core r.work.lane then r else { r with work := bare r.work } }
/-- PLACE A LAUNCH: a sequence, a tag, and a workgroup on each core. -/
def placeLaunch (s : State) (l : Launch) (places : List (Nat × Nat × Nat × Nat)) : State :=
  let seq := s.nextSeq
  let wgs := places.zipIdx.map fun p => newWg l seq p.1.1 p.2 p.1.2.1 p.1.2.2.1 p.1.2.2.2
  let s1 := { s with
    nextSeq := seq + 1
    wgs := s.wgs ++ wgs
    swarms := s.swarms ++ (wgs.map fun g => (List.range g.swarms).map (newSwarm s l g)).flatten }
  modLaunchId (dropMirrors s1) l.id fun l => { l with state := .resident, seq, tag := seq % 2 ^ 16 }

/-- Resident launches that placement may pre-empt, none of them diverted. -/
def pressed (s : State) (l : Launch) : List Launch :=
  s.launches.filter fun r => r.state = .resident && !r.stopping && r.cause = 0 && decide (slackOf s l < slackOf s r)
/-- Under placement pressure firmware may pre-empt the resident launch of the greatest slack: a free choice. -/
def pressPlacement (s : State) (l : Launch) : State :=
  let most := (pressed s l).foldl (fun (m : Option Launch) r =>
    match m with | none => some r | some x => if slackOf s x < slackOf s r then some r else m) none
  match most with
  | none => s
  | some r =>
    let s1 := { s with fresh := s.fresh + 1 }
    if Config.freeNat s.fresh % 2 = 0 then modLaunchId s1 r.id fun r => { r with stopping := true } else s1
/-- A layout change waits for every resident launch to be saved, and none is saved in a layout it cannot restore (R379). -/
def activating (s : State) : Bool :=
  match s.fwPending with
  | none => false
  | some v => s.launches.all (fun l => l.saved.all fun x => v ≤ x.layout + 2) &&
      (v ≤ s.fwLayout + 2 || s.launches.all fun l => l.state ≠ .resident)

def execLaunchPlacement (id : Nat) (s : State) : Host.Outcome State Fault Refusal :=
  .next (match s.launches.find? fun l => l.id = id && l.state = .waiting with
    | none => s
    | some l =>
      if !s.powered || !((queue? s l.queue).any WorkQueue.mapped) || activating s then s
      else
        match placesFor s l with
        | some ps => placeLaunch s l ps
        | none => pressPlacement s l)

/-! The end of a launch (R341, R342, R360). -/

/-- The write-combining entries of a launch's swarms drain (R249). -/
def drainLaunch (s : State) (seq : Nat) : State :=
  (s.cores.map Core.idx).foldl (fun s n => drainWhere s n fun e => e.writers.any fun w => w.1.seq = seq) s
/-- A tile parked for a tie-breaking run that none can run any more is marked 4, its record of the first run's primary (R375). -/
def endParked (s : State) (seq tile : Nat) : State :=
  let first (twin : Bool) : Option Version := s.versions.find? fun v => v.wg.seq = seq && v.parked.any fun p => p.1 = tile && p.2.1 = twin
  let sig (twin : Bool) : Nat := ((first twin).bind fun v => v.parked.map fun p => p.2.2.1.toNat).getD 0
  let swid := ((first false).bind fun v => (v.swarms.map Prod.fst).head?).getD 0
  dropTie (markUnresolved (dropParked s seq tile) seq swid ((first false).bind Version.task) false tile (sig false) 0 (sig true)) seq tile
/-- So is every tile still parked. -/
def markParked (s : State) (seq : Nat) : State :=
  ((s.versions.filterMap fun v => if v.wg.seq = seq then v.parked.map Prod.fst else none).eraseDups).foldl (fun s t => endParked s seq t) s

/-- Every workgroup of the launch has ended. -/
def allEnded (s : State) (seq : Nat) : Bool := (s.wgs.filter fun g => g.ref.seq = seq).all Workgroup.ended

/-- When a launch overruns (R360); none without a deadline and without diversion. -/
def overrunTime (l : Launch) : Option Nat :=
  if l.cause ≠ 0 then some l.overrunAt else if l.desc.deadline ≠ 0 then some l.desc.deadline else none

/-- Its time has come, and not every workgroup has ended in time. -/
def overrunDue (s : State) (l : Launch) : Bool :=
  l.live && (overrunTime l).any (· ≤ s.clkns) && !(l.state = .resident && allEnded s l.seq)
/-- LAUNCH_COMPLETE: every workgroup has ended, or the launch is over already and its record is to write. A workgroup whose last
outstanding operation is over ends first. One whose deadline has come ends by the overrun instead (R360). -/
def execLaunchComplete (id : Nat) (s0 : State) : Host.Outcome State Fault Refusal :=
  .next (match s0.launches.find? fun l => l.id = id with
    | none => s0
    | some l =>
      let s := if l.state = .resident then ((s0.wgs.filter fun g => g.ref.seq = l.seq).map Workgroup.ref).foldl settleWg s0 else s0
      if overrunDue s0 l then s0
      else if l.state = .ending then finishLaunch s id
      else if l.state = .resident && allEnded s l.seq then
        let s1 := markParked (drainLaunch s l.seq) l.seq
        endLaunch s1 id (if l.cause = 0 then 0 else if l.cause = 2 then 0x85 else 1) 0
      else flushCodes s l.seq)

/-- The operations of a launch's swarms, whose clauses are over: those that can be performed at once are, the rest are dropped; with
perform false all are. -/
def settleOps (s : State) (seq : Nat) (perform : Bool) : State :=
  let mine (r : SwarmRef) : Bool := r.seq = seq
  let s1 := (s.asyncs.filter fun x => mine x.ref).foldl (fun s x =>
    match performAsync s x with
    | .ok s1 => if perform then s1 else finishOp s x.ref x.path x.id
    | .error _ => finishOp s x.ref x.path x.id) s
  let s2 := (s1.atomics.filter fun x => mine x.ref).foldl (fun s x =>
    match performRed s x with
    | .ok s1 => if perform then s1 else finishOp s x.ref 0 x.id
    | .error _ => finishOp s x.ref 0 x.id) s1
  let cells := s2.cellWaits.filter fun x => x.ref.any mine
  let s3 := if perform then cells.foldl (fun s x => if x.home.isNone && x.req.isRecycle then (cellRow s x.pa x.req).2 else s) s2 else s2
  { s3 with
    cellWaits := s3.cellWaits.filter fun x => !(x.ref.any mine)
    mmas := s3.mmas.filter fun m => m.wg.seq ≠ seq
    dies := s3.dies.map fun d => { d with holds := d.holds.filter fun h => !(mine h.ref) || h.ref = hubRef }
    fabric := { s3.fabric with
      transfers := s3.fabric.transfers.filter fun t => !mine t.ref
      remoteCells := s3.fabric.remoteCells.filter fun c => !mine c.ref
      reel := s3.fabric.reel.filter fun r => !mine r.ref
      collectives := s3.fabric.collectives.map fun c => { c with creds := c.creds.filter fun x => !mine x.2.1 } } }

/-- The open tasks of workgroups are discarded, each tile marked 3 once; the reservations of commands held with them are released. -/
def discardTasks (s : State) (seq : Nat) (gs : List Workgroup) : State :=
  let s1 := gs.foldl (fun s g =>
    match g.task with
    | none => s
    | some t => if (wg? s g.ref).isSome then discardVersion s g.ref else t.enqs.foldl (fun s e => enqRelease s e.1 e.2.2.2) s) s
  ((gs.filterMap fun g => g.task.map Task.tile).eraseDups).foldl (fun s t =>
    let parked := s.versions.any fun v => v.wg.seq = seq && match v.parked with | some p => decide (p.1 = t) | none => false
    if parked || (launch? s seq).any fun l => l.codes.any fun c => c.1 = t then s else writeCode s seq t 3) s1

/-- STOP EVERY SWARM OF A LAUNCH AT ONCE: no clause completes afterwards, every open task is discarded, parked tiles are marked 4 and
residency is released. With perform false none of its outstanding writes is performed. -/
def stopLaunch (s : State) (l : Launch) (perform : Bool) : State :=
  let seq := l.seq
  if seq = 0 then s
  else
    let s1 := (s.swarms.filter fun w => w.ref.seq = seq).foldl (fun s w => squash s w.ref) s
    let s2 := settleOps s1 seq perform
    let here := s2.wgs.filter fun g => g.ref.seq = seq
    -- what a saved launch has parked ends as what a resident one has: its commands' reservations are released with it (R354)
    let s2 := { s2 with versions := s2.versions ++ ((l.saved.map Saved.versions).getD []).filter fun v => v.parked.isSome }
    let s3 := markParked (discardTasks s2 seq (here ++ (l.saved.map Saved.wgs).getD [])) seq
    let s4 := if perform then drainLaunch s3 seq
      else { s3 with cores := s3.cores.map fun c => { c with wcb := c.wcb.filter fun e => !(e.writers.any fun w => w.1.seq = seq) } }
    let s5 := here.foldl (fun s g => releaseResidency (modWg s g.ref fun g => { g with ended := true, task := none }) g.ref) s4
    modLaunchId { s5 with versions := s5.versions.filter fun v => v.wg.seq ≠ seq } l.id fun l => { l with saved := none, ties := [] }

/-- DEADLINE_OVERRUN: the launch is stopped and completes DeadlineOverrun, with a record of its trap (R360, R364). -/
def execDeadlineOverrun (id : Nat) (s : State) : Host.Outcome State Fault Refusal :=
  .next (match s.launches.find? fun l => l.id = id && l.live with
    | none => s
    | some l =>
      if !overrunDue s l then s
      else
        let s1 := putRecord s l.ctx (trapBytes s none l.ctx l.seq ⟨0x10, 0, 3, 0, 0, 0, 0⟩)
        endLaunch (stopLaunch s1 l true) id 0x10 0)

/-! Diversion and cancellation (R358 to R361). -/

/-- The time from which a launch is to be diverted, by its deadline. -/
def diversionTime (d : LaunchDesc) : Nat := d.deadline - 1000 * d.budget
/-- A resident launch is marked diverted; a pre-emption under way is called off, and a task that was to be replayed ends instead. -/
def markDiverted (s : State) (l : Launch) (cause : Nat) : State :=
  let at_ := if cause = 2 then s.clkns + 1000 * l.desc.budget else l.desc.deadline
  let s1 := modLaunchId s l.id fun l => { l with cause, flags := l.flags ||| 2, overrunAt := at_, stopping := false }
  { s1 with wgs := s1.wgs.map fun g => if g.ref.seq = l.seq then
      { g with task := g.task.map fun t => { t with ending := t.ending.map fun e => if e = .replay then .noReplay 5 else e } } else g }
/-- Every swarm of a launch that can be diverted now is. -/
def divertReady (s : State) (seq : Nat) : State :=
  (s.swarms.filter fun w => w.ref.seq = seq).foldl (fun s w =>
    if (swarm? s w.ref).any (divertsNow s) then divertSwarm s w.ref else s) s
/-- A resident launch that is to be diverted and is not yet: cancelled, or its diversion time has come (R358). -/
def divertable (s : State) (l : Launch) : Bool :=
  l.state = .resident && l.desc.wrapup ≠ Config.noneAddr && l.cause = 0 &&
    (l.cancelled || (l.desc.deadline ≠ 0 && diversionTime l.desc ≤ s.clkns && !allEnded s l.seq))
/-- Some swarm of a launch is to be diverted now. -/
def diversionDue (s : State) (l : Launch) : Bool :=
  divertable s l || (s.swarms.any fun w => w.ref.seq = l.seq && divertsNow s w)
/-- Diversion, when it is due; then of each swarm as it reaches its boundary. -/
def divertLaunch (s : State) (l : Launch) : State :=
  if divertable s l then divertReady (markDiverted s l (if l.cancelled then 2 else 1)) l.seq
  else if l.cause ≠ 0 && l.state = .resident then divertReady s l.seq
  else s
def execDiversion (id : Nat) (s : State) : Host.Outcome State Fault Refusal :=
  .next (match s.launches.find? fun l => l.id = id with
    | none => s
    | some l => divertLaunch s l)

/-- HOST CANCELLATION: with a wrap-up entry the launch is diverted as it is, or becomes, resident; without one it is stopped. In a launch
already diverted, stopped swarms leave for the wrap-up entry, with cause 2 (R365). DESIGN CHOICE: a launch that is not placed yet has no swarm to
divert, and completes Cancelled at once even where it has a wrap-up entry, which R358 leaves open (log 97). -/
def cancelLaunch (s : State) (id : Nat) : State :=
  match s.launches.find? fun l => l.id = id && l.live with
  | none => s
  | some l =>
    if l.state = .waiting || l.desc.wrapup = Config.noneAddr then endLaunch (stopLaunch s l true) id 0x85 0
    else divertLaunch (modLaunchId s id fun l => { l with cancelled := true }) { l with cancelled := true }
def execMailboxCancelLaunch (id : Nat) (s : State) : Host.Outcome State Fault Refusal := .next (cancelLaunch s id)

/-- A launch's watchdog count has reached its context's limit. -/
def watchdogDue (s : State) (l : Launch) : Bool :=
  let limit := (contextAt s l.ctx).watchdog
  l.live && limit ≠ 0 && limit ≤ l.watchdog && !l.expired
/-- WATCHDOG_EXPIRY: a record, and the launch is cancelled (R383). -/
def execWatchdogExpiry (id : Nat) (s : State) : Host.Outcome State Fault Refusal :=
  .next (match s.launches.find? fun l => l.id = id && l.live with
    | none => s
    | some l =>
      if !watchdogDue s l then s
      else
        let s1 := putRecord s l.ctx (trapBytes s none l.ctx l.seq ⟨0x0F, 0, 3, 0, 0, 0, 0⟩)
        cancelLaunch (modLaunchId s1 id fun l => { l with expired := true }) id)

end Sys2Proof.Machine
end

