-- ==== Sys2Proof/Machine/Preempt.lean ====
section
/-! DEFINITION. Pre-emption and restore of a launch, and the activation of a firmware image, which saves every launch first (R140, R186,
R221, R340, R377 to R379). An event whose condition does not hold changes nothing. -/

namespace Sys2Proof.Machine

/-! Pre-emption (R377, R378). -/

/-- A launch's swarms all stand at a clause boundary, or between two elements of a long instruction, outside any DRAIN, with their
operations complete and no replay to come. -/
def canSave (s : State) (l : Launch) : Bool :=
  let gs := s.wgs.filter fun g => g.ref.seq = l.seq
  l.state = .resident && l.stopping && l.cause = 0 && !(s.run.any fun r => r.ref.seq = l.seq) &&
    !(s.swarms.any fun w => w.ref.seq = l.seq && midClause s w) &&
    gs.all fun g => !drainUnderWay s g.ref && countersZero s g.ref && !(g.task.any fun t => t.ending.isSome)
/-- A swarm as it is saved: READY, unless DONE or halted. -/
def savedSwarm (w : Swarm) : Swarm :=
  match w.sched with
  | .done => w
  | .halted => { w with haltedFrom := .ready, waitFrom := none }
  | _ => { w with sched := .ready, waitFrom := none }
/-- The queue units a workgroup owns, by core and number. -/
def unitsOf (s : State) (g : WgRef) : List (Nat × Nat × Queue) :=
  (coreAt s g.core).queues.zipIdx.filterMap fun q => if q.1.owner = some g then some (g.core, q.2, q.1) else none

/-! The save area (R378). What of a record's bytes the specification leaves open is the model's reading of it (log 32). -/

/-- Bytes cut or filled with zeros to a size. -/
def padTo (n : Nat) (b : List Byte) : List Byte := (b ++ List.replicate (n - b.length) 0).take n
/-- A word with a bit for each flag of a list, the first lowest. -/
def boolBits (l : List Bool) : Nat := (l.zipIdx.map fun b => if b.1 then 2 ^ b.2 else 0).sum
/-- A stream descriptor in the format of R277, its reserved bytes 15:14 and 63:56 filled as given. -/
def descBytes (d : WalkDesc) (low high : Nat) : List Byte :=
  natToBytes 8 d.base.toNat ++ natToBytes 4 d.tstride.toNat ++ natToBytes 1 (d.ndim + 8 * d.scratch.toNat + 16 * d.push.toNat) ++
  natToBytes 1 d.depth ++ natToBytes 2 low ++ natToBytes 4 d.ring ++ natToBytes 4 0 ++
  ((List.range 4).map fun k => natToBytes 4 (d.counts.getD k 0) ++ natToBytes 4 (d.strides.getD k 0).toNat).flatten ++ natToBytes 8 high
/-- A stream register: POS, then its descriptor with its faulted entries, flags, COUNT, place in the ring and EODF, then NEXT with the
entries' flag bits. -/
def streamBytes (x : Stream) : List Byte :=
  let eods := (x.entries.zipIdx.map fun e => e.1.eod.toNat * 2 ^ (4 * e.2)).sum
  ((List.range 4).map fun k => natToBytes 4 (x.pos.getD k 0)).flatten ++
  descBytes { x.desc with ring := x.ring, depth := x.depth } (boolBits (x.entries.map fun e => e.fault.isSome))
    (boolBits [x.bound, x.ended, x.failed, x.next.isSome] + 2 ^ 8 * x.entries.length + 2 ^ 16 * x.head + 2 ^ 24 * x.eodf.toNat) ++
  descBytes (x.next.getD WalkDesc.zero) 0 eods
/-- A slice context: its registers, predicates and PC (R285). -/
def sliceBytes (w : Option Swarm) : List Byte :=
  padTo 256 (match w with
    | none => []
    | some w =>
      ((List.range 32).map fun k => natToBytes 4 (((w.regs.getD k none).map fun v => natAt v.vals 0).getD 0)).flatten ++
      natToBytes 8 (boolBits ((w.preds.take 8).map fun p => p.getLsbD 0)) ++ natToBytes 8 w.slotA.pc.toNat ++ natToBytes 1 1)
/-- A slot as a stack entry, with VALID and PARKED beside KIND. -/
def slotBytes (x : Slot) : List Byte := stackEntry (2 ^ 8 * x.valid.toNat + 2 ^ 9 * x.parked.toNat) x
def Sched.code : Sched → Nat
  | .active => 0 | .ready => 1 | .waiting => 2 | .held => 3 | .halted => 4 | .done => 5
/-- The section items of one swarm. -/
def swarmBytes (w : Swarm) (slice : Option Swarm) : List Byte :=
  padTo 256 (slotBytes w.slotA ++ slotBytes w.slotB ++ natToBytes 4 w.live.toNat ++ natToBytes 4 w.dsDepth ++ natToBytes 4 w.rsv ++
    natToBytes 4 w.mode.toNat ++ natToBytes 4 w.shadow.toNat ++ natToBytes 4 w.entryMode.toNat ++ natToBytes 8 w.prog ++
    natToBytes 8 w.rstPc.toNat ++ natToBytes 8 w.rstRec.1.toNat ++ natToBytes 8 w.rstRec.2.1.toNat ++ natToBytes 4 w.rstRec.2.2 ++
    natToBytes 1 w.sched.code ++ natToBytes 1 (boolBits [w.stopped, w.diverted]) ++ natToBytes 1 w.progFlags.toNat ++
    natToBytes 4 w.wrapCause.toNat) ++
  padTo 512 ((w.relAcc ++ w.received).map fun x => natToBytes 64 x.toNat).flatten ++
  padTo 2560 (padTo 2304 (w.streams.map streamBytes).flatten ++ sliceBytes slice) ++
  natToBytes 16 (boolBits (w.regs.map Option.isSome)) ++
  (w.regs.filterMap fun x => x.map fun v => ((List.range threads).map fun t => natToBytes 4 (natAt v.vals t)).flatten).flatten ++
  padTo 256 (w.preds.map fun p => natToBytes 4 p.toNat).flatten
/-- A reservation record, and a queue unit with its per-swarm counts. -/
def recordBytes : Option Reservation → List Byte
  | none => List.replicate 16 0
  | some x => padTo 16 (natToBytes 1 1 ++ natToBytes 1 x.base ++ natToBytes 2 x.granules ++ natToBytes 1 x.atype.code.toNat ++
      natToBytes 4 x.scoff ++ natToBytes 4 x.ssoff)
def queueBytes (x : Nat × Nat × Queue) : List Byte :=
  let q := x.2.2
  natToBytes 2 x.2.1 ++ natToBytes 4 q.base ++ natToBytes 2 q.cap ++ natToBytes 1 q.width ++ natToBytes 1 q.allow ++ natToBytes 2 q.head ++
    natToBytes 2 q.tail ++ natToBytes 2 q.pushers.length ++
    natToBytes 36 ((List.range 32).map fun k => (q.pushers.filter (· = k)).length * 2 ^ (9 * k)).sum
/-- A swarm's task-start record (R369). -/
def startBytes (x : StartRecord) : List Byte :=
  natToBytes 1 x.idx ++ natToBytes 8 x.fetchPc.toNat ++ natToBytes 1 x.dst ++ natToBytes 1 x.pred ++ slotBytes x.slotA ++
    natToBytes 4 x.live.toNat ++ natToBytes 4 x.dsDepth ++ natToBytes 2 x.rsv ++ natToBytes 4 x.entryMode.toNat ++ x.stack.flatten
def barrierBytes (b : Barrier) : List Byte :=
  natToBytes 1 b.scope ++ natToBytes 1 b.team ++ natToBytes 1 b.id ++ natToBytes 1 (b.phase % 2) ++
    natToBytes 4 (boolBits ((List.range 32).map fun k => b.arrived.contains k))
/-- A task's state: its tile and counts, its held ENQs, its releases and cell operations, then its task-start records (R304, R354, R369,
R373). -/
def taskBytes (t : Task) : List Byte :=
  let sized (b : List Byte) : List Byte := natToBytes 2 b.length ++ b
  natToBytes 4 t.tile ++ natToBytes 8 t.taskId.toNat ++ natToBytes 8 t.coord.toNat ++ natToBytes 1 (boolBits [true, t.nonReplayable]) ++
  natToBytes 1 t.attempt ++ natToBytes 1 t.machineTraps ++ natToBytes 2 t.enqs.length ++ natToBytes 2 t.releases.length ++ natToBytes 2 t.cellOps.length ++
  (t.enqs.map fun e => natToBytes 2 e.1 ++ natToBytes 1 e.2.1 ++ natToBytes 1 e.2.2.2.toNat ++ sized e.2.2.1).flatten ++
  (t.releases.map fun x => natToBytes 1 x.1 ++ natToBytes 1 (x.2.2.1.map fun k => 2 ^ k).sum ++ natToBytes 1 x.2.2.2.toNat ++
    sized (x.2.1.map fun c => natToBytes 8 c.1 ++ sized c.2).flatten).flatten ++
  (t.cellOps.map fun x => natToBytes 8 x.1 ++ natToBytes 2 x.2.1 ++ padTo 56 x.2.2.1 ++ natToBytes 16 x.2.2.2.toNat).flatten ++
  (t.records.map startBytes).flatten
/-- A workgroup's item; the end arrivals that stand, one byte for each swarm, come before its task (R347). -/
def wgBytes (g : Workgroup) (units : List (Nat × Nat × Queue)) (ws : List Swarm) : List Byte :=
  let arrival (k : Nat) : List Byte :=
    natToBytes 1 ((((ws.find? fun w => w.ref.idx = k && !w.ref.slice).bind Swarm.endArrived).map fun e => e.code + 1).getD 0)
  scratchRead g.scratch 0 g.scratch.size ++ memRead g.obuf 0 (1024 * g.obufGranules) ++
  padTo 4096 ((g.records.map recordBytes).flatten ++ (units.map queueBytes).flatten ++ ((g.exc ++ g.excShadow).map (natToBytes 4)).flatten ++
    natToBytes 4 g.fetches ++ (g.barriers.map barrierBytes).flatten ++ ((List.range 32).map arrival).flatten ++ (g.task.map taskBytes).getD [])
/-- The 96-byte records of a version: one for a sector, and for every sixteen words of a pending row. -/
def versionBytes (v : Version) (ctx : Nat) : List Byte :=
  let id := ((v.task.map fun t => t.taskId.toNat).getD 0)
  let entry (kind swarm va : Nat) (rmw : Bool) (mask : Nat) (data : List Byte) : List Byte :=
    natToBytes 2 ctx ++ natToBytes 2 v.wg.core ++ natToBytes 8 id ++ natToBytes 8 va ++ natToBytes 1 kind ++ natToBytes 1 v.parked.isSome.toNat ++
      natToBytes 1 swarm ++ natToBytes 1 rmw.toNat ++ natToBytes 8 mask ++ padTo 64 data
  (v.ops.map fun
    | .store i va d m rmw => entry 1 i va rmw m.toNat d
    | .add r => ((List.range ((r.words.length + 15) / 16)).map fun k =>
        let ws := (r.words.drop (16 * k)).take 16
        entry 2 r.swarm (r.dst + 16 * k * addSize r.ty r.exact) false
          (r.ty.code.toNat + 16 * r.exact.toNat + 32 * r.sat.toNat + 2 ^ 8 * ws.length + 2 ^ 32 * r.index)
          (ws.map fun w => natToBytes 4 w.toNat).flatten).flatten).flatten
/-- A workgroup's section: its own item, its versions, its swarms. -/
def sectionBytes (x : Saved) (g : Workgroup) : List Byte :=
  let mine (r : SwarmRef) : Bool := wgOf r = g.ref
  wgBytes g (x.queues.filter fun q => q.1 = g.ref.core) (x.swarms.filter fun w => mine w.ref) ++
  ((x.versions.filter fun v => v.wg = g.ref).map fun v => versionBytes v g.ctx).flatten ++
  ((x.swarms.filter fun w => mine w.ref && !w.ref.slice).map fun w =>
    swarmBytes w (x.swarms.find? fun y => y.ref = sliceOf w.ref)).flatten
/-- Firmware writes second-tier bytes of its own, on pages encrypted under the key of a context that has one (R385). -/
def writeSaved (s0 : State) (ctx a : Nat) (b : List Byte) : State :=
  let s := noteKey s0 a b.length (if (contextAt s0 ctx).key then some ctx else none)
  { s with
    mem := memWrite s.mem a b
    dirty := s.dirty ++ (((List.range ((a % 256 + b.length + 255) / 256)).map (a / 256 + ·)).filter fun l => !s.dirty.contains l)
    sectors := s.sectors.map fun m => if a ≤ m.pa && m.pa < a + b.length then
      { m with sig := 0, bad := none, check := none, soft := false } else m }
/-- A launch's save area: the header, the directory of its sections, and the sections (R378). -/
def saveBytes (l : Launch) (x : Saved) : List Byte :=
  let base := Config.saveArea l.id
  let parts := x.wgs.map (sectionBytes x)
  let first := base + 64 + 8 * parts.length
  let dir := parts.zipIdx.map fun p => natToBytes 8 (first + ((parts.take p.2).map List.length).sum)
  padTo 64 (natToBytes 2 x.layout ++ natToBytes 2 0 ++ natToBytes 4 l.seq ++ natToBytes 4 (l.desc.w * l.desc.h) ++ natToBytes 4 0 ++
    natToBytes 8 (base + 64)) ++ dir.flatten ++ parts.flatten

/-- PREEMPTION, once every swarm has stopped: buffered stores drain, accumulators are discarded, the state is saved and residency
released. -/
def execPreemption (id : Nat) (s : State) : Host.Outcome State Fault Refusal :=
  .next (match s.launches.find? fun l => l.id = id with
    | none => s
    | some l =>
      if !canSave s l then s
      else
        let s1 := (s.swarms.filter fun w => w.ref.seq = l.seq).foldl (fun s w => squash s w.ref) s
        let refs := (s1.wgs.filter fun g => g.ref.seq = l.seq).map Workgroup.ref
        let s2 := refs.foldl discardAccs (drainLaunch s1 l.seq)
        let saved : Saved :=
          { layout := s2.fwLayout
            wgs := (s2.wgs.filter fun g => g.ref.seq = l.seq).map fun g => { g with seated := [] }
            swarms := (s2.swarms.filter fun w => w.ref.seq = l.seq).map savedSwarm
            queues := (refs.map (unitsOf s2)).flatten
            versions := s2.versions.filter fun v => v.wg.seq = l.seq }
        let s3 := refs.foldl releaseResidency s2
        modLaunchId { writeSaved s3 l.ctx (Config.saveArea id) (saveBytes l saved) with
            wgs := s3.wgs.filter fun g => g.ref.seq ≠ l.seq
            versions := s3.versions.filter fun v => v.wg.seq ≠ l.seq
            dies := s3.dies.map fun d => { d with holds := d.holds.filter fun h => h.ref.seq ≠ l.seq || h.ref = hubRef } } id fun l =>
          { l with state := .saved, stopping := false, saved := some saved })

/-- The host asks for a pre-emption; refused for a launch that is diverted or not resident (R225, R361). -/
def execMailboxPreempt (id : Nat) (s : State) : Host.Outcome State Fault Refusal :=
  .next (if s.launches.any fun l => l.id = id && l.state = .resident && l.cause = 0 then
      modLaunchId { s with replies := s.replies ++ [0] } id fun l => { l with stopping := true }
    else { s with replies := s.replies ++ [1] })

/-! Restore (R340, R377). -/

/-- Registers of a lane: in pairs while it mirrors (R140). -/
def lanePool (rmaxSum : Nat) : Nat := if rmaxSum ≤ 256 then Config.laneRegs / 2 else Config.laneRegs
/-- Each lane has free registers for what its restored swarms had mapped. -/
def registersFit (s : State) (core : Nat) (ws : List Swarm) : Bool :=
  (List.range 8).all fun lane =>
    let here := laneSwarms s core lane
    let mine := ws.filter fun w => w.lane = lane && !w.ref.slice
    let used := (here.map fun w => (physOf w.regs).length).sum
    let withheld := (here.map fun w => w.rsv - (physOf w.regs).length).sum
    used + withheld + (mine.map fun w => (physOf w.regs).length).sum ≤ lanePool ((here ++ mine).map Swarm.rmax).sum
/-- The units a workgroup owned at save are unowned. -/
def unitsFree (s : State) (x : Saved) : Bool :=
  x.queues.all fun q => ((coreAt s q.1).queues.getD q.2.1 Queue.unowned).owner.isNone
/-- Where each workgroup still to run fits again. -/
def restorePlaces (s : State) (x : Saved) : Option (List (WgRef × Nat × Nat × Nat)) :=
  (x.wgs.filter fun g => !g.ended).mapM fun g =>
    let ws := x.swarms.filter fun w => wgOf w.ref = g.ref
    if !registersFit s g.ref.core ws then none
    else
      (coreFits s g.ref.core [g.laneBase] ((ws.filter fun w => !w.ref.slice).map Swarm.rsv) g.scratch.size g.obufGranules).map fun p =>
        (g.ref, p)

/-- Give a restored swarm physical registers of its lane that none of a list takes; mirrors are not saved, and fill as registers
are written (R140, R378, R385). -/
def remapRegs (used : List Nat) (regs : List (Option VReg)) : List Nat × List (Option VReg) :=
  regs.foldl (fun (st : List Nat × List (Option VReg)) x =>
    match x with
    | none => (st.1, st.2 ++ [none])
    | some v =>
      let p := ((List.range Config.laneRegs).find? fun p => !st.1.contains p).getD 0
      (p :: st.1, st.2 ++ [some { v with phys := p, mirror := none }])) (used, [])
/-- Restore one swarm: its registers are renamed anew. -/
def restoreOne (s : State) (w : Swarm) : State :=
  let used := ((laneSwarms s w.ref.core w.lane).map fun x => physOf x.regs ++ mirrorsOf x.regs).flatten
  { s with swarms := s.swarms ++ [{ w with
      since := s.cycle
      freeFrom := s.cycle
      leftLane := s.cycle
      regs := if w.ref.slice then w.regs else (remapRegs used w.regs).2 }] }
/-- A workgroup takes its units back. -/
def restoreUnit (s : State) (q : Nat × Nat × Queue) : State := modCore s q.1 fun c => { c with queues := c.queues.set q.2.1 q.2.2 }
/-- RESTORE a launch at its places, its L1s invalidated. Its slice contexts come back as they were saved, and may exceed the cluster's 64:
R340 and R377 name no such condition for a restore, and R273's limit is kept where one is granted (DESIGN CHOICE, log 97). -/
def restoreLaunch (s : State) (l : Launch) (x : Saved) (places : List (WgRef × Nat × Nat × Nat)) : State :=
  let put (g : Workgroup) : Workgroup :=
    match places.find? fun p => p.1 = g.ref with
    | some p => { g with scratchBase := p.2.2.1, obufBase := p.2.2.2 }
    | none => g
  let s1 := places.foldl (fun s p => l1Drop s p.1.core fun _ => true)
    { s with wgs := s.wgs ++ x.wgs.map put, versions := s.versions ++ x.versions }
  let s2 := dropMirrors (x.queues.foldl restoreUnit (x.swarms.foldl restoreOne s1))
  modLaunchId s2 l.id fun l => { l with state := .resident, saved := none, stopping := false }

/-- The running image restores the layout a launch was saved in (R379). -/
def restorable (s : State) (x : Saved) : Bool := x.layout ≤ s.fwLayout && s.fwLayout ≤ x.layout + 2
def execContextRestore (id : Nat) (s : State) : Host.Outcome State Fault Refusal :=
  .next (match s.launches.find? fun l => l.id = id && l.state = .saved with
    | none => s
    | some l =>
      match l.saved with
      | none => s
      | some x =>
        if !s.powered || !((queue? s l.queue).any WorkQueue.mapped) || activating s || !unitsFree s x || !restorable s x then s
        else
          match restorePlaces s x with
          | some ps => restoreLaunch s l x ps
          | none => pressPlacement s l)

/-! Firmware images (R336, R379). -/

/-- Every resident launch that can be pre-empted is. -/
def stopAllResident (s : State) : State :=
  let stop (l : Launch) : Launch := if l.state = .resident && l.cause = 0 then { l with stopping := true } else l
  { s with launches := s.launches.map stop }
/-- Queues with launches that are saved, or are about to be saved by the running image, in a layout that another could not restore. -/
def deferring (s : State) (v : Nat) : List Nat :=
  (s.launches.filterMap fun l =>
    if (l.saved.any fun x => x.layout + 2 < v) || (l.state = .resident && l.cause = 0 && s.fwLayout + 2 < v) then some l.queue
    else none).eraseDups

/-- An image is offered: one whose signature fails is refused; one that must wait answers ActivationDeferred with the queues (log 24). -/
def execMailboxFirmwareImage (layout : Nat) (signed : Bool) (s : State) : Host.Outcome State Fault Refusal :=
  .next (if !signed then { s with replies := s.replies ++ [1] }
    else
      let qs := deferring s layout
      stopAllResident { s with fwPending := some layout, replies := s.replies ++ (if qs.isEmpty then [0] else 2 :: qs) })

/-- The image activates once every launch is saved in a layout it restores, or has drained. -/
def execDeferredActivation (s : State) : Host.Outcome State Fault Refusal :=
  .next (match s.fwPending with
    | none => s
    | some v =>
      if !activating s then s
      else if s.launches.any fun l => l.state = .resident then stopAllResident s
      else { s with fwLayout := v, fwPending := none })

end Sys2Proof.Machine
end

