-- ==== Sys2Proof/Machine/FaultEvents.lean ====
section
/-! DEFINITION. Translations, page requests and their answers, holds, migration, snapshot granules, and the scrubber (R322 to R329, R381,
R382). An event whose condition does not hold changes nothing. -/

namespace Sys2Proof.Machine

/-! Translations and page requests (R381). -/

/-- A mapping takes the place of those of the context it meets. -/
def putMapping (l : List Mapping) (m : Mapping) : List Mapping :=
  m :: l.filter fun x => x.ctx ≠ m.ctx || x.va + x.len ≤ m.va || m.va + m.len ≤ x.va
/-- The page requests of a group. -/
def groupPages (s : State) (g : Nat) : List PageRequest := s.pageRequests.filter fun p => p.group = g
/-- A page request's group: the context's that has not been sent yet, else one that is free among the 512 of the tag table. -/
def requestGroup (s : State) (ctx : Nat) : Option Nat :=
  match (List.range 512).find? fun g => !(groupPages s g).isEmpty && (groupPages s g).all fun p => p.ctx = ctx && !p.last with
  | some g => some g
  | none => (List.range 512).find? fun g => (groupPages s g).isEmpty
/-- A group is sent, with its last page flagged: with eight pages, or when no translation of the context is awaited (log 30). -/
def sendGroup (s : State) (die ctx : Nat) : State :=
  match s.pageRequests.reverse.find? fun p => p.ctx = ctx && (groupPages s p.group).all fun q => !q.last with
  | none => s
  | some p =>
    let n := (groupPages s p.group).length
    if n < 8 && s.dies.any fun d => d.ats.any fun a => a.1 = ctx then s
    else countDie { s with pageRequests := s.pageRequests.map fun q => if q = p then { q with last := true } else q } die 0x4F ctx n
/-- A refused translation becomes a page request, when the context may send one and an entry is free. -/
def sendPageRequest (s : State) (ctx page : Nat) (write : Bool) : State :=
  if s.pageRequests.any fun p => p.ctx = ctx && p.page = page then s
  else if !(contextAt s ctx).pageRequests || min Config.tagEntries s.prAllocation ≤ s.pageRequests.length then s
  else
    match requestGroup s ctx with
    | none => s
    | some g => { s with pageRequests := s.pageRequests ++ [⟨g, ctx, page, write, false⟩] }

/-- A hold that waits for a page of a context. -/
def faultsOn (ctx lo hi : Nat) (h : Hold) : Bool := h.why = .fault && h.ctx = ctx && lo ≤ h.page && h.page < hi
/-- A mapping fills the translation cache of a die, and the frames it names are under its context's key where the page is encrypted
(R297, R323). -/
def fillMapping (m : Mapping) (s : State) (die : Nat) : State :=
  let s1 := modDie s die fun d => { d with tlb := putMapping d.tlb m }
  if m.onChip.isSome || m.remote.isSome then s1 else noteKey s1 m.pa m.len (if m.encrypted then some m.ctx else none)

/-- An outstanding translation request returns: with a mapping, the translation caches of the die that asked and of every die with a waiter are
filled, and what waits for it is released; refused, a page request is made. The context's group goes out when nothing more is awaited. -/
def execAtsTranslationCompletion (die ctx va : Nat) (result : Option Mapping) (s : State) : Host.Outcome State Fault Refusal :=
  let page := pageOf va
  .next (match (dieAt s die).ats.find? fun a => a.1 = ctx && a.2.1 = page with
    | none => s
    | some a =>
      let s1 := modDie s die fun d => { d with ats := d.ats.erase a }
      match result.filter fun m => m.ctx = ctx && m.va ≤ page && page + 4096 ≤ m.va + m.len with
      | none => sendGroup (sendPageRequest s1 ctx page a.2.2) die ctx
      | some m =>
        let waits (d : Nat) : List Hold := (dieAt s1 d).holds.filter (faultsOn ctx m.va (m.va + m.len))
        let s2 := ((List.range s1.dies.length).filter fun d => d = die || !(waits d).isEmpty).foldl (fillMapping m) s1
        let mine := ((List.range s1.dies.length).map waits).flatten.filter Hold.queued
        sendGroup (mine.foldl releaseHold s2) die ctx)

/-- Faults of a die that no request stands for ask again, 4,096 cycles after their last try. -/
def execPageRequestRetry (die : Nat) (s : State) : Host.Outcome State Fault Refusal :=
  let lone (h : Hold) : Bool := h.why = .fault && h.queued && h.since + 4096 ≤ s.cycle && !atsPending s h.ctx h.page &&
    !(s.pageRequests.any fun p => p.ctx = h.ctx && p.page = h.page)
  let hs := (dieAt s die).holds.filter lone
  .next (if hs.isEmpty then s
    else hs.foldl (fun s h => requestPage s die h.ctx h.page h.write)
      (modDie s die fun d => { d with holds := d.holds.map fun h => if lone h then { h with since := s.cycle } else h }))

/-- Accesses without an entry of the hold queue try again, 4,096 cycles after their last try. -/
def execHoldRetry (die : Nat) (s : State) : Host.Outcome State Fault Refusal :=
  .next (((dieAt s die).holds.filter fun h => !h.queued && h.why ≠ .regs && h.since + 4096 ≤ s.cycle).foldl releaseHold s)

/-! Answers (R382). -/

/-- The clause address of a held swarm. -/
def heldPc (s : State) (w : Swarm) : DWord := (slotOf w (choose s w).1).pc
/-- A walk's element cannot be read: its entry is faulted (R278), its words unspecified. -/
def faultEntry (s : State) (r : SwarmRef) (k : Nat) : State :=
  match swarm? s r with
  | none => s
  | some w =>
    let x := w.streams.getD k Stream.unbound
    let off := x.ring + 128 * ((x.head + x.entries.length) % x.depth)
    let words := (List.range 128).map fun j => Config.freeByte s.fresh j
    let s1 := modWg { s with fresh := s.fresh + 1 } (wgOf r) fun g => { g with scratch := scratchWrite g.scratch off words }
    modSwarm s1 r fun w => { w with streams := w.streams.modify k fun x => appended x ⟨walkEod x.desc x.pos, some (7, 0x0413)⟩ }
/-- A launch's map or record is out of reach: the nibbles are dropped and noted, the record is not written (R349; log 23). -/
def dropRecord (s : State) (id : Nat) : State :=
  modLaunchId s id fun l =>
    if l.unwritten.isEmpty then { l with desc := { l.desc with crec := 0 } } else { l with unwritten := [], flags := l.flags ||| 8 }
/-- A queue's command whose bytes cannot be reached completes without effect (log 23). -/
def dropCommand (s : State) (q : Nat) : State :=
  match queue? s q with
  | none => s
  | some x =>
    match nextCommand s x with
    | none => s
    | some c => completeCommand (takeCommand s x c) q c.index c.notify
/-- A packet whose page fails is refused, or dropped (R400, R404). -/
def refusePacket (s : State) (k : Nat) : State :=
  match s.fabric.heldPackets.find? fun h => h.1 = k with
  | none => s
  | some (_, p) =>
    let s1 := modFabric s fun f => { f with heldPackets := f.heldPackets.filter fun h => h.1 ≠ k }
    if p.op = 0x01 || p.op = 0x03 then refuseTransfer p s1
    else if p.op = 0x08 then replyCell s1 p { plainReply 0 with trap := some (7, 0x0807) }
    else if p.op = 0x0E then send s1 { answer s1 p 0x0F with ident := true, last := true }
    else dropPacket s1
/-- The reel's record cannot be written: the reel ends without it. -/
def dropReel (s : State) : State :=
  match s.fabric.reel with
  | none => s
  | some r => modFabric (opDone s r.ref 4 r.op) fun f => { f with reel := none }

/-- An access of no swarm's clause fails: a commit, a walk, an operation that runs after its clause, the hub's own accesses, a packet. -/
def failEngine (s : State) (h : Hold) (name detail : Nat) : State :=
  let d (pc : DWord) : Deferred := ⟨6, detail, pc, 2, h.addr⟩
  if h.ref = hubRef && packetName 0 ≤ name then refusePacket s (name - packetName 0)
  else if h.ref = hubRef && name = reelName then dropReel s
  else if h.ref = hubRef && queueName 0 ≤ name then dropCommand s (name - queueName 0)
  else if h.ref = hubRef && recordName 0 ≤ name then dropRecord s (name - recordName 0)
  else if name = stackName then
    match (fetchRuns s (wgOf h.ref)).find? fun r => r.ref = h.ref with
    | some r => takeTrap s h.ref ⟨6, detail, 0, r.pc, h.addr, 0, 0⟩
    | none => s
  else if name = commitName then commitFails s (wgOf h.ref) h.ref.idx 6 detail
  else if walkName 0 ≤ name then faultEntry s h.ref (name - walkName 0)
  else
    match s.asyncs.find? fun x => x.id = name, s.atomics.find? fun x => x.id = name with
    | some x, _ => deferTrap (finishOp s x.ref x.path x.id) x.ref (d x.pc)
    | none, some x => deferTrap (finishOp s x.ref 0 x.id) x.ref (d x.pc)
    | none, none => s
/-- A waiting access traps PageFault, handled as a program trap. -/
def failHold (detail : Nat) (s : State) (h : Hold) : State :=
  let s1 := releaseHold s h
  match h.engine, swarm? s h.ref with
  | some name, _ => failEngine s1 h name detail
  | none, some w => takeTrap s1 h.ref ⟨6, detail, if h.ref.slice then 1 else 0, heldPc s w, h.addr, w.prog, 0⟩
  | none, none => s1

/-- The accesses that wait for a context's page in the hold queues. One without an entry tries again itself (R322). -/
def waitingFor (s : State) (ctx page : Nat) : List Hold :=
  (s.dies.map Die.holds).flatten.filter fun h => h.queued && h.why = .fault && h.ctx = ctx && h.page = page

/-- PAGE_REQUEST_RESPONSE: each page is translated again, or its accesses fail; a Response Failure fails every request of the context. -/
def execPageRequestResponse (ctx group : Nat) (code : PrgCode) (s : State) : Host.Outcome State Fault Refusal :=
  let mine := s.pageRequests.filter fun p => p.ctx = ctx && (p.group = group || code = .responseFailure)
  let sent := (groupPages s group).any fun p => p.ctx = ctx && p.last
  let s1 := { s with pageRequests := s.pageRequests.filter fun p => !mine.contains p }
  let fail (detail : Nat) (s : State) : State := mine.foldl (fun s p => (waitingFor s ctx p.page).foldl (failHold detail) s) s
  .next (if !sent then s
    else
      match code with
      | .success =>
        mine.foldl (fun s p => (List.range s.dies.length).foldl (fun s d =>
          if (dieAt s d).holds.any (faultsOn ctx p.page (p.page + 4096)) then requestPage s d ctx p.page p.write else s) s) s1
      | .invalidRequest => fail 0x0701 s1
      | .responseFailure => fail 0x0702 (modContext s1 ctx fun c => { c with pageRequests := false }))

def execMailboxReenablePageRequests (ctx : Nat) (s : State) : Host.Outcome State Fault Refusal :=
  .next (modContext { s with replies := s.replies ++ [0] } ctx fun c => { c with pageRequests := true })

/-! Migration (R323, R324). -/

/-- What caches keep of physical addresses from a on, n bytes, goes. -/
def forgetFrames (s : State) (a n : Nat) : State :=
  let inside (pa : Nat) : Bool := a ≤ pa && pa < a + n
  let s1 := (s.cores.map Core.idx).foldl (fun s c => drainWhere s c fun e => inside e.pa) (deliverAll s)
  { s1 with
    cores := s1.cores.map fun c => { c with l1 := c.l1.filter (fun x => !inside x.pa), l1Cells := c.l1Cells.filter fun x => !inside x.pa }
    dies := s1.dies.map fun d => { d with
      copies := d.copies.filter (fun c => !inside c.pa), fetches := d.fetches.filter (fun f => !inside f.pa)
      cells := d.cells.filter fun c => !inside c.pa } }
/-- Copy one sector with what its home keeps of it. -/
def moveSector (s : State) (src dst : Nat) : State :=
  let m := metaOf s src
  let s1 := performWrite s dst (memRead s.mem src 64) (BitVec.allOnes 64) (.replace m.sig)
  modMeta s1 dst fun x => { x with bad := sectorFault s src, ident := m.ident, cellSig := m.cellSig }
/-- Offsets of the sectors of a range. -/
def sectorOffsets (len : Nat) : List Nat := (List.range (len / 64)).map fun k => 64 * k

/-- What a context's swarms have already sent is performed at its homes: REDs and copies, which translated before (step 2 of R323); one
that meets a hold stays held. -/
def settleContext (s : State) (ctx : Nat) : State :=
  let mine (r : SwarmRef) : Bool := ctxOf s (wgOf r) = ctx
  let s1 := (s.atomics.filter fun x => mine x.ref).foldl (fun s x => match performRed s x with | .ok s1 => s1 | .error _ => s) s
  (s1.asyncs.filter fun x => mine x.ref).foldl (fun s x => match performAsync s x with | .ok s1 => s1 | .error _ => s) s1
/-- A cell request in a range of frames is still to be performed: it was translated before the mark. -/
def cellsPending (s : State) (pa len : Nat) : Bool := s.cellWaits.any fun c => c.home.isNone && pa ≤ c.pa && c.pa < pa + len
/-- The offsets of a page that a copy into a frame must still move: all, or after E1-compatible passes the dirty sectors (R324). -/
def staleSectors (s : State) (ctx va len newPa : Nat) : List Nat :=
  match s.precopies.find? fun p => p.ctx = ctx && p.va = va && p.len = len && p.newPa = newPa with
  | some p => p.stale
  | none => sectorOffsets len
/-- One pass of an E1-compatible copy: the sectors not yet copied, or written since, are copied while the page stays writable; the homes
report what is written from then on (R324). -/
def copyPass (s : State) (ctx va len oldPa newPa : Nat) : State :=
  let others := s.precopies.filter fun p => p.ctx ≠ ctx || p.va ≠ va
  let s1 := (staleSectors s ctx va len newPa).foldl (fun s o => moveSector s (oldPa + o) (newPa + o)) (noteKey s newPa len (keyContext s oldPa))
  { s1 with precopies := ⟨ctx, va, len, oldPa, newPa, []⟩ :: others }

/-- The steps of a migration, in their order (R323, R324). -/
def execMigration (ctx va len : Nat) (p : MigrationStep) (s : State) : Host.Outcome State Fault Refusal :=
  let mine (m : Migration) : Bool := m.ctx = ctx && m.va = va && m.len = len
  .next (match p, s.migrating.find? mine with
    | .e1Pass old new, none => copyPass s ctx va len old new
    | .e1Pass .., some _ => s
    | .mark old, none =>
      let away (m : Mapping) : Bool := m.ctx ≠ ctx || m.va + m.len ≤ va || va + len ≤ m.va
      let s0 := forgetFrames (settleContext s ctx) old len
      { s0 with
        migrating := s0.migrating ++ [⟨ctx, va, len, old, none⟩]
        dies := s0.dies.map fun d => { d with tlb := d.tlb.filter away } }
    | .mark _, some _ => s
    | .copy new, some m =>
      if m.newPa.isSome || cellsPending s m.oldPa len then s
      else
        let s0 := deliverAll s
        let s1 := (staleSectors s0 ctx va len new).foldl (fun s o => moveSector s (m.oldPa + o) (new + o))
          (noteKey s0 new len (keyContext s0 m.oldPa))
        { s1 with
          migrating := s1.migrating.map fun x => if mine x then { x with newPa := some new } else x
          precopies := s1.precopies.filter fun p => p.ctx ≠ ctx || p.va ≠ va }
    | .writeFrame new, some m => if m.newPa = some new then { s with migrating := s.migrating.filter fun x => !mine x } else s
    | .release, none => releaseWhere s fun h => h.queued && h.why = .migrate && h.ctx = ctx && va ≤ h.addr && h.addr < va + len
    | _, _ => s)

/-! Snapshot granules (R325). -/

/-- The live frame of a granule's sector. -/
def liveFrame (s : State) (ctx va : Nat) : Option Nat :=
  (s.dies.findSome? fun d => d.tlb.find? fun m => m.ctx = ctx && m.va ≤ va && va < m.va + m.len).map fun m => m.pa + (va - m.va)
/-- A granule's bytes are in its shadow frame: the view reads there, and held writes go on. -/
def execGranuleCopyComplete (ctx view granule shadow : Nat) (s : State) : Host.Outcome State Fault Refusal :=
  .next (match s.views.find? fun v => v.ctx = ctx && v.id = view with
    | none => s
    | some v =>
      let base := v.range + 65536 * granule
      let frames := (sectorOffsets 65536).mapM fun o => (liveFrame s ctx (base + o)).map fun pa => (o, pa)
      match v.granules[granule]?, frames with
      | some .copying, some fs =>
        let keyed := (fs.filter fun f => f.1 % 4096 = 0).foldl (fun s f => noteKey s (shadow + f.1) 4096 (keyContext s f.2)) s
        let s1 := fs.foldl (fun s f => moveSector s f.2 (shadow + f.1)) keyed
        let s2 := { s1 with views := s1.views.map fun x =>
          if x.ctx = ctx && x.id = view then { x with granules := x.granules.set granule (.split shadow) } else x }
        releaseWhere s2 fun h => h.queued && h.why = .snapshot && h.ctx = ctx && base ≤ h.addr && h.addr < base + 65536
      | some .copying, none => requestPage s 0 ctx (pageOf base) false
      | _, _ => s)

/-- No frame has been free for 10 ms: the oldest view of the context ends, the host is told, and held writes try again. Its alias stays,
and traps (log 28). -/
def execViewEnded (ctx : Nat) (s : State) : Host.Outcome State Fault Refusal :=
  let mine := s.views.filter fun v => v.ctx = ctx && !v.granules.isEmpty
  let oldest := mine.foldl (fun (m : Option View) v => match m with | none => some v | some x => if v.since < x.since then some v else some x) none
  .next (match oldest with
    | none => s
    | some o =>
      if !(mine.any fun v => v.starved.any fun t => t + 10 ^ 7 ≤ s.clkns) then s
      else
        let free (c : Context) : Context := { c with shadowPool := c.shadowPool.map (· + o.frames) }
        let ended (v : View) : View := if v = o then { v with granules := [], starved := none } else { v with starved := none }
        let s1 := modContext { s with views := s.views.map fun v => if v.ctx = ctx then ended v else v } ctx free
        releaseWhere { s1 with replies := s1.replies ++ [3, o.id] } fun h => h.queued && h.why = .snapshot && h.ctx = ctx)

/-! The scrubber (R326, R327). -/

/-- An error of stored words that a visit is the first to meet: a corrected or an uncorrectable one, which count (R329), or a check value's
mismatch; failing tags follow from what the line and its tag hold. -/
def meetError (die line : Nat) (s : State) (f : Nat × Nat) : State :=
  let pa := 256 * line + 64 * (f.1 % 4)
  match f.2 with
  | 1 => dieError (modMeta s pa fun m => { m with soft := true }) die 1
  | 2 => dieError (modMeta s pa fun m => { m with bad := some (m.bad.getD (0x0C, 0x0102)) }) die 1
  | 3 => modMeta s pa fun m => { m with bad := some (m.bad.getD (0x0B, 0)) }
  | _ => s
/-- SCRUB_VISIT of a line, which the die's scrubber makes when it is homed there. -/
def execScrubVisit (die line : Nat) (found : List (Nat × Nat)) (s : State) : Host.Outcome State Fault Refusal :=
  .next (if homeDie s (256 * line) ≠ die then s
    else [1, 2, 3, 4, 5].foldl (logFinding die line) (found.foldl (meetError die line) s))

end Sys2Proof.Machine
end

