-- ==== Sys2Proof/Machine/Float.lean ====
section
/-! DEFINITION. Conversions, Q16 and floating-point arithmetic (R107 to R113). -/

namespace Sys2Proof.Machine

/-- SF of a floating-point result in OPX bits 1:0 (R94). -/
def sfOf (f : Fields) : Nat := (f.opx.extractLsb' 0 2).toNat

/-! Shapes: an FP32 result of one, two or three sources, rounded once (R107). -/

def funary (i : Instr) (f : Fields) (s : State) (g : FCtx → Nat → Rounded) : Host.Outcome State Fault Refusal :=
  vector i f s fun rd wr m =>
    let a := srcLanes s rd f.opa
    writeResult s wr f.dst m fun t => g (fctx s rd f (sfOf f) (posOf 0 t)) (natAt a t)
def fbinary (i : Instr) (f : Fields) (s : State) (g : FCtx → Nat → Nat → Rounded) : Host.Outcome State Fault Refusal :=
  vector i f s fun rd wr m =>
    let a := srcLanes s rd f.opa
    let b := srcLanes s rd f.opb
    writeResult s wr f.dst m fun t => g (fctx s rd f (sfOf f) (posOf 0 t)) (natAt a t) (natAt b t)
def fimmediate (i : Instr) (f : Fields) (s : State) (g : FCtx → Nat → Nat → Rounded) : Host.Outcome State Fault Refusal :=
  vector i f s fun rd wr m =>
    let a := srcLanes s rd f.opa
    writeResult s wr f.dst m fun t => g (fctx s rd f (sfOf f) (posOf 0 t)) (natAt a t) (immWord rd f).toNat

def execFaddReg (f : Fields) (s : State) : Host.Outcome State Fault Refusal := fbinary (.faddReg f) f s fmtF32.add
def execFaddImm (f : Fields) (s : State) : Host.Outcome State Fault Refusal := fimmediate (.faddImm f) f s fmtF32.add
def execFmulReg (f : Fields) (s : State) : Host.Outcome State Fault Refusal := fbinary (.fmulReg f) f s fmtF32.mul
def execFmulImm (f : Fields) (s : State) : Host.Outcome State Fault Refusal := fimmediate (.fmulImm f) f s fmtF32.mul
def execFfmaReg (f : Fields) (s : State) : Host.Outcome State Fault Refusal :=
  vector (.ffmaReg f) f s fun rd wr m =>
    let a := srcLanes s rd f.opa
    let b := srcLanes s rd f.opb
    let c := srcLanes s rd f.opc
    writeResult s wr f.dst m fun t => fmtF32.fma (fctx s rd f (sfOf f) (posOf 0 t)) (natAt a t) (natAt b t) (natAt c t)
/-- a × imm + d, d read before it is written. -/
def execFfmaImm (f : Fields) (s : State) : Host.Outcome State Fault Refusal :=
  vector (.ffmaImm f) f s fun rd wr m =>
    let a := srcLanes s rd f.opa
    let d := regLanes rd.work f.dst.toNat
    writeResult s wr f.dst m fun t =>
      fmtF32.fma (fctx s rd f (sfOf f) (posOf 0 t)) (natAt a t) (immWord rd f).toNat (natAt d t)
def execFminReg (f : Fields) (s : State) : Host.Outcome State Fault Refusal :=
  fbinary (.fminReg f) f s fun c => fmtF32.minMax c false
def execFminImm (f : Fields) (s : State) : Host.Outcome State Fault Refusal :=
  fimmediate (.fminImm f) f s fun c => fmtF32.minMax c false
def execFmaxReg (f : Fields) (s : State) : Host.Outcome State Fault Refusal :=
  fbinary (.fmaxReg f) f s fun c => fmtF32.minMax c true
def execFmaxImm (f : Fields) (s : State) : Host.Outcome State Fault Refusal :=
  fimmediate (.fmaxImm f) f s fun c => fmtF32.minMax c true
def execFdiv (f : Fields) (s : State) : Host.Outcome State Fault Refusal := fbinary (.fdiv f) f s fmtF32.div
def execFsqrt (f : Fields) (s : State) : Host.Outcome State Fault Refusal := funary (.fsqrt f) f s fmtF32.sqrt
/-- 1 / a. -/
def execFrcp (f : Fields) (s : State) : Host.Outcome State Fault Refusal :=
  funary (.frcp f) f s fun c a => fmtF32.div c 0x3F800000 a
def execFrsq (f : Fields) (s : State) : Host.Outcome State Fault Refusal := funary (.frsq f) f s fmtF32.rsqrt
def execFexp2 (f : Fields) (s : State) : Host.Outcome State Fault Refusal := funary (.fexp2 f) f s fmtF32.exp2
def execFlog2 (f : Fields) (s : State) : Host.Outcome State Fault Refusal := funary (.flog2 f) f s fmtF32.log2

/-! Packed pairs (R109). -/

/-- Both 16-bit elements of a result; element e of R48 is 0 for the low one and 1 for the high one. -/
def pairResult (s : State) (rd : Run) (f : Fields) (t : Nat) (g : FCtx → (Nat → Nat) → Rounded) : Rounded :=
  let lo := g (fctx s rd f (sfOf f) (posOf 0 t)) fun w => w % 2 ^ 16
  let hi := g (fctx s rd f (sfOf f) (posOf 1 t)) fun w => w / 2 ^ 16 % 2 ^ 16
  ⟨lo.bits + 2 ^ 16 * hi.bits, lo.flags ||| hi.flags⟩

def execPradd (f : Fields) (s : State) : Host.Outcome State Fault Refusal :=
  vector (.pradd f) f s fun rd wr m =>
    let a := srcLanes s rd f.opa
    let b := srcLanes s rd f.opb
    writeResult s wr f.dst m fun t => pairResult s rd f t fun c h => f.ty.fmt.add c (h (natAt a t)) (h (natAt b t))
def execPrmul (f : Fields) (s : State) : Host.Outcome State Fault Refusal :=
  vector (.prmul f) f s fun rd wr m =>
    let a := srcLanes s rd f.opa
    let b := srcLanes s rd f.opb
    writeResult s wr f.dst m fun t => pairResult s rd f t fun c h => f.ty.fmt.mul c (h (natAt a t)) (h (natAt b t))
def execPrfma (f : Fields) (s : State) : Host.Outcome State Fault Refusal :=
  vector (.prfma f) f s fun rd wr m =>
    let a := srcLanes s rd f.opa
    let b := srcLanes s rd f.opb
    let d := srcLanes s rd f.opc
    writeResult s wr f.dst m fun t =>
      pairResult s rd f t fun c h => f.ty.fmt.fma c (h (natAt a t)) (h (natAt b t)) (h (natAt d t))

/-! Conversions (R110 to R113). -/

/-- The source type is OPX bits 3:0, SF bits 5:4. -/
def execCvt (f : Fields) (s : State) : Host.Outcome State Fault Refusal :=
  vector (.cvt f) f s fun rd wr m =>
    let src := cvtSrc f
    let a := srcLanes s rd f.opa
    let x (t : Nat) : Nat := if src.wide then pairAt s rd f.opa t else natAt a t
    let r (t : Nat) : Rounded := convert (fctx s rd f (f.opx.extractLsb' 4 2).toNat (posOf 0 t)) f.ty src (x t)
    if f.ty.wide then writeWide s wr f.dst m r else writeResult s wr f.dst m r

def execQunpk (f : Fields) (s : State) : Host.Outcome State Fault Refusal :=
  vector (.qunpk f) f s fun rd wr m =>
    let a := srcLanes s rd f.opa
    let b := srcLanes s rd f.opb
    let c := srcLanes s rd f.opc
    writeResult s wr f.dst m fun t =>
      qunpk (fctx s rd f (sfOf f) (posOf 0 t)) f.ty.fmt (natAt a t) (natAt b t) (natAt c t)

/-- A nibble of a word replaced. -/
def setNibble (d e code : Nat) : Nat := d - d / 16 ^ e % 16 * 16 ^ e + code * 16 ^ e

/-- The chosen code goes into nibble e of d; the rest of d stays. The element of R48 is e. -/
def execQpack (f : Fields) (s : State) : Host.Outcome State Fault Refusal :=
  vector (.qpack f) f s fun rd wr m =>
    let a := srcLanes s rd f.opa
    let b := srcLanes s rd f.opb
    let c := srcLanes s rd f.opc
    let d := regLanes rd.work f.dst.toNat
    writeResult s wr f.dst m fun t =>
      let e := natAt c t / 256 % 8
      let r := qpack (fctx s rd f 0 (posOf e t)) (natAt a t) (natAt b t) (natAt c t)
      ⟨setNibble (natAt d t) e r.1, r.2⟩

def execQscale (f : Fields) (s : State) : Host.Outcome State Fault Refusal :=
  vector (.qscale f) f s fun rd wr m =>
    let a := srcLanes s rd f.opa
    let b := srcLanes s rd f.opb
    writeResult s wr f.dst m fun t => qscale (fctx s rd f 0 (posOf 0 t)) (natAt a t) (natAt b t)

end Sys2Proof.Machine
end

