-- ==== Sys2Proof/Machine/ModuleEvents.lean ====
section
/-! DEFINITION. The module's reset, power and clock; the firmware mailbox; context kills; the debugger (R132, R330, R335, R356, R362, R363,
R365, R367, R380, R383, R384, R393, R401, R410, R414, R415). An event whose condition does not hold changes nothing. A mailbox request
answers 0 when it is taken and 1 when it is refused (log 24). -/

namespace Sys2Proof.Machine

/-- The mailbox's answer. -/
def reply (s : State) (n : Nat) : State := { s with replies := s.replies ++ [n] }
/-- A request taken on a condition, else refused. -/
def taken (s : State) (ok : Bool) (f : State → State) : Host.Outcome State Fault Refusal :=
  .next (if ok then reply (f s) 0 else reply s 1)

/-! Reset, power and clock (R356, R363, R393, R401). -/

/-- MODULE_RESET: every state of the module but the clock and the host's memory; the module number is what all 36 planes report. -/
def execModuleReset (planes : List Nat) (s : State) : Host.Outcome State Fault Refusal :=
  let num := match planes with
    | m :: ms => if planes.length = 36 && ms.all (· = m) && m < 144 then some m else none
    | [] => none
  let down (p : Port) : Port := { p with up := num.isSome }
  let r := State.reset
  .next { r with
    fresh := s.fresh, clkns := s.clkns, cycle := s.cycle, host := s.host, ocm := s.ocm, farRanges := s.farRanges
    fwLayout := s.fwLayout
    fabric := { r.fabric with modNum := num, ports := r.fabric.ports.map down } }

/-- The arithmetic clock is lowered, or raised again, in steps of 100 MHz from 1.2 GHz on. -/
def execThermalThrottle (mhz : Nat) (s : State) : Host.Outcome State Fault Refusal :=
  .next (if mhz % 100 = 0 && 1200 ≤ mhz && mhz ≤ 3300 then { s with mhz } else s)
def execMailboxPowerCap (watts : Nat) (s : State) : Host.Outcome State Fault Refusal :=
  taken s (1200 ≤ watts && watts ≤ 3600 && watts % 50 = 0) fun s => { s with powerCap := watts }
/-- Every launch stops and completes, and the dies power down. -/
def execThermalShutdown (s : State) : Host.Outcome State Fault Refusal :=
  let s1 := (s.launches.filter Launch.live).foldl (fun s l =>
    endLaunch (stopLaunch s l true) l.id (if l.desc.deadline ≠ 0 then 0x10 else 0x85) 0) { s with powered := false }
  .next s1

/-- A resident launch's watchdog counts CLKNS time while one of its swarms is neither HALTED nor stopped (R15, R383). -/
def countWatchdog (s : State) (ns : Nat) (l : Launch) : Launch :=
  if l.state = .resident && s.swarms.any fun w => w.ref.seq = l.seq && !w.ref.slice && w.sched ≠ .halted && !w.stopped then
    { l with watchdog := l.watchdog + ns }
  else l
/-- CLKNS advances (R356), and with it the watchdog counts. -/
def advanceClock (s : State) (ns : Nat) : State :=
  { s with clkns := s.clkns + ns, launches := s.launches.map (countWatchdog s ns) }

/-- CLKNS is slewed by offsets up to 1 ms, stepped by larger forward ones; a larger backward one is slewed and reported to the host. -/
def execPtpMessage (offset : Int) (s : State) : Host.Outcome State Fault Refusal :=
  .next (if 1000000 < offset then { advanceClock s offset.toNat with slew := 0, synced := true }
    else if offset < -1000000 then reply { s with slew := offset, synced := true } 4
    else { s with slew := offset, synced := true })
def execSyncLoss (s : State) : Host.Outcome State Fault Refusal := .next { s with synced := false, slew := 0 }

/-! Context kills (R380). -/

/-- A killed context's launches complete Cancelled at once, and nothing of them is performed. -/
def killLaunch (s : State) (l : Launch) : State :=
  let s1 := modLaunchId (stopLaunch s l false) l.id fun l => { l with state := .ending, status := 0x85, unwritten := [] }
  match s1.launches.find? fun x => x.id = l.id with
  | none => s1
  | some x => closeLaunch (match writeRecord s1 x with | .ok s2 => s2 | .error _ => s1) x
/-- What a context still has on its way is dropped: buffered and announced stores, held packets and cell requests. -/
def dropWrites (s : State) (ctx tag : Nat) : State :=
  let mine (e : WcbEntry) : Bool := e.ctx = ctx
  let sent (a : Announcement) : Bool := a.core.any fun n => (coreAt s n).wcb.any fun e => mine e && e.sent && e.pa = a.pa
  { s with
    announcements := s.announcements.filter fun a => !sent a
    cores := s.cores.map fun c => { c with wcb := c.wcb.filter fun e => !mine e }
    cellWaits := s.cellWaits.filter fun x => x.ctx ≠ ctx || x.packet.isNone
    fabric := { s.fabric with
      heldPackets := s.fabric.heldPackets.filter fun h => h.2.jobtag ≠ tag
      early := s.fabric.early.filter fun p => p.jobtag ≠ tag
      planeWaits := s.fabric.planeWaits.filter fun h => h.2.jobtag ≠ tag } }
/-- Steps 5 and 6: the keys and all the context had go, and the tag leaves the list. -/
def buryContext (s : State) (k : Kill) : State :=
  let dead (h : Hold) : Bool := h.ctx = k.ctx
  { s with
    kills := s.kills.erase k
    killList := s.killList.erase k.tag
    contexts := s.contexts.filter fun c => c.num ≠ k.ctx
    views := s.views.filter fun v => v.ctx ≠ k.ctx
    pageRequests := s.pageRequests.filter fun p => p.ctx ≠ k.ctx
    migrating := s.migrating.filter fun m => m.ctx ≠ k.ctx
    precopies := s.precopies.filter fun p => p.ctx ≠ k.ctx
    dies := s.dies.map fun d => { d with
      tlb := d.tlb.filter fun m => m.ctx ≠ k.ctx, ats := d.ats.filter fun a => a.1 ≠ k.ctx, holds := d.holds.filter fun h => !dead h }
    fabric := { s.fabric with
      owner := s.fabric.owner.filter fun o => o.1 ≠ k.ctx
      collectives := s.fabric.collectives.filter fun c => c.ctx ≠ k.ctx } }
/-- Step 3, when the list has room: the tag is listed and a notice goes to every other module of the membership. A context that does not
own the fabric has the tag log 67 gives it. -/
def enterKill (s : State) (k : Kill) : State :=
  if k.entered || Config.killTags ≤ s.killList.length then s
  else
    let told := s.fabric.current.mods.filter fun m => some m ≠ s.fabric.modNum
    let s1 := { s with
      killList := s.killList ++ [k.tag]
      kills := s.kills.map fun x => if x = k then { x with entered := true, waiting := told } else x }
    told.foldl (fun s m => send s (newPacket s 0x0C m k.tag 0 0)) s1
/-- A notice of another module is taken up when the list has room: the tag is listed, its writes dropped, and acknowledged. -/
def takeNotice (s : State) (n : Nat × Nat) : State :=
  if Config.killTags ≤ s.killList.length && !s.killList.contains n.2 then s
  else
    let held (h : Nat × Packet) : Bool := h.2.jobtag = n.2 && h.2.src = n.1
    let s1 := { s with killList := if s.killList.contains n.2 then s.killList else s.killList ++ [n.2] }
    let s2 := modFabric s1 fun f => { f with notices := f.notices.erase n, heldPackets := f.heldPackets.filter fun h => !held h }
    send s2 (newPacket s2 0x0D n.1 n.2 0 0)
/-- Kills go on: each that is acknowledged by all ends, and what waits for the list enters it. -/
def settleKills (s : State) : State :=
  let s1 := (s.kills.filter fun k => k.entered && k.waiting.isEmpty).foldl buryContext s
  let s2 := s1.kills.foldl enterKill s1
  let s3 := s2.fabric.notices.foldl takeNotice s2
  (s3.kills.filter fun k => k.entered && k.waiting.isEmpty).foldl buryContext s3
/-- KILL A CONTEXT: steps 1 to 3, and what can follow at once. -/
def killContext (s : State) (ctx : Nat) : State :=
  if s.kills.any fun k => k.ctx = ctx then s
  else
    let tag := match s.fabric.owner with | some (c, t) => if c = ctx then t else 2 ^ 16 + ctx | none => 2 ^ 16 + ctx
    let unmap (q : WorkQueue) : WorkQueue := if q.ctx = ctx then { q with mapped := false, removing := true } else q
    let s1 : State := { s with queues := s.queues.map unmap }
    let s2 : State := (s1.launches.filter fun (l : Launch) => l.ctx = ctx && l.state ≠ .completed).foldl killLaunch s1
    let s3 := dropWrites { s2 with queues := s2.queues.filter fun q => q.ctx ≠ ctx } ctx tag
    settleKills (modContext { s3 with kills := s3.kills ++ [⟨ctx, tag, false, []⟩] } ctx fun c => { c with killed := true })
def execMailboxKillContext (ctx : Nat) (s : State) : Host.Outcome State Fault Refusal := taken s true fun s => killContext s ctx

/-- KILL_NOTICE and KILL_ACK (R397). -/
def execKillNotice (src tag : Nat) (s : State) : Host.Outcome State Fault Refusal :=
  .next (settleKills (modFabric s fun f => { f with notices := f.notices ++ [(src, tag)] }))
def execKillAck (src tag : Nat) (s : State) : Host.Outcome State Fault Refusal :=
  .next (settleKills { s with kills := s.kills.map fun k =>
    if k.tag = tag && k.entered then { k with waiting := k.waiting.filter (· ≠ src) } else k })

/-! Queues (R330, R333, R335). -/

/-- Powers of two. -/
def isPow2 (n : Nat) : Bool := (List.range 32).any fun k => n = 2 ^ k
/-- A queue as its descriptor gives it. -/
def queueOf (s : State) (q : Nat) (d : List Byte) : WorkQueue :=
  ⟨q, descWord d 0 8, descWord d 8 4, descWord d 12 2, descWord d 14 2, descWord d 16 2, descWord d 24 8, descWord d 32 8, descWord d 40 4,
   0, 0, 0, [], 0, 0, 0, 0, false, false, [(0, s.clkns)]⟩
/-- A queue joins a mapped gang that can neither be mapped whole nor unmapped (R333, R335). DESIGN CHOICE: the mailbox then refuses it, where
the rules name no outcome (log 97). -/
def splitsGang (s : State) (x : WorkQueue) : Bool :=
  (gangs s).any fun g => g.ctx = x.ctx && g.gang = x.gang && g.mapped && g.pinned && (makeRoom s 1 (victims s g.slack)).isNone
/-- The limits of a descriptor, and of its gang. -/
def queueOk (s : State) (x : WorkQueue) (d : List Byte) : Bool :=
  x.num < Config.hostQueues && (queue? s x.num).isNone && d.length = 64 && x.ring % 4096 = 0 && isPow2 x.entries && 64 ≤ x.entries &&
    x.entries ≤ 65536 && 1 ≤ x.ctx && x.ctx ≤ 4095 && x.gang ≤ 1023 && x.vector < 2048 && x.extBase % 64 = 0 && x.extEntries ≤ 2 ^ 20 &&
    ((d.drop 18).take 6).all (· = 0) && ((d.drop 44).all (· = 0)) && (gangQueues s x.ctx x.gang).length < 8 &&
    !(s.kills.any fun k => k.ctx = x.ctx) && !splitsGang s x
def execMailboxInstallQueue (q : Nat) (desc : List Byte) (s : State) : Host.Outcome State Fault Refusal :=
  taken s (queueOk s (queueOf s q desc) desc) fun s =>
    evaluateMapping { s with queues := s.queues ++ [{ queueOf s q desc with since := [] }] }

/-- A queue that is being removed goes when its gang is unmapped and none of its launches is resident: what it still has completes
Cancelled, and the removal of a context's last queue kills the context. -/
def removeQueue (s : State) (q : WorkQueue) : State :=
  if q.mapped || s.launches.any fun l => l.queue = q.num && l.state = .resident then s
  else
    let s1 := (s.launches.filter fun l => l.queue = q.num && l.live).foldl (fun s l => endLaunch (stopLaunch s l true) l.id 0x85 0) s
    let s2 := { s1 with queues := s1.queues.filter fun x => x.num ≠ q.num }
    if s2.queues.any fun x => x.ctx = q.ctx then s2 else killContext s2 q.ctx
def dropRemoved (s : State) : State := (s.queues.filter WorkQueue.removing).foldl removeQueue s
def execMappingEvaluation (s : State) : Host.Outcome State Fault Refusal := .next (dropRemoved (evaluateMapping s))
def execMailboxRemoveQueue (q : Nat) (s : State) : Host.Outcome State Fault Refusal :=
  taken s (queue? s q).isSome fun s => dropRemoved (evaluateMapping (modQueue s q fun x => { x with removing := true }))

/-! Contexts (R362, R367, R383). -/

def execMailboxTrapArea (ctx base entries idx vec : Nat) (s : State) : Host.Outcome State Fault Refusal :=
  taken s (1 ≤ ctx && ctx ≤ 4095 && base % 4096 = 0 && isPow2 entries && 64 ≤ entries && entries ≤ 65536) fun s =>
    modContext s ctx fun c => { c with trapArea := some (base, entries, idx, vec), trapWrite := 0, trapRead := 0, trapLost := 0 }
def execTrapReadIndexWrite (ctx index : Nat) (s : State) : Host.Outcome State Fault Refusal :=
  .next (if 1 ≤ ctx && ctx ≤ 4095 then modContext s ctx fun c => { c with trapRead := index % 2 ^ 32 } else s)
def execMailboxWatchdogLimit (ctx limit : Nat) (s : State) : Host.Outcome State Fault Refusal :=
  taken s (limit = 0 || (10 ^ 6 ≤ limit && limit ≤ 2 ^ 40)) fun s => modContext s ctx fun c => { c with watchdog := limit }
def execKeyInstall (ctx : Nat) (s : State) : Host.Outcome State Fault Refusal := .next (modContext s ctx fun c => { c with key := true })
/-- A write to a BAR0 register without behaviour of its own. -/
def execRegisterWriteIgnored (_offset : Nat) (_value : DWord) (s : State) : Host.Outcome State Fault Refusal := .next s

/-! Stopped and halted swarms (R132, R365). -/

/-- The host's changes to a slot. -/
def editSlot (x : Slot) (e : SlotEdit) : Slot where
  valid := e.valid.getD x.valid
  parked := e.parked.getD x.parked
  pc := e.pc.getD x.pc
  mask := e.mask.getD x.mask
  rpc := e.rpc.getD x.rpc
  rjp := e.rjp.getD x.rjp
/-- One word of a register; a register that is not mapped is mapped first, where R35 grants one. -/
def editReg (s : State) (w : Swarm) (x : Nat × Nat × Word) : Swarm :=
  match writeReg s (bareRun w) x.1 (1 <<< x.2.1) (splat x.2.2) with
  | .ok r => { w with
      regs := r.work.regs
      regErrs := w.regErrs.filter fun e => e.1 ≠ x.1 || (e.2 ≠ x.2.1 && (w.regs.getD x.1 none).isSome) }
  | .error _ => w
/-- A stream register as the host leaves it; one whose descriptors WBIND would refuse, or with more entries than its ring, stays as it is. -/
def editStream (w : Swarm) (e : StreamEdit) : Swarm :=
  let ok (b : List Byte) (queued : Bool) : Bool := !descMisaligned (walkDesc b) queued && !descInvalid b (walkDesc b) queued
  let d := walkDesc e.desc
  if ok e.desc false && (e.next.all fun b => ok b true) && e.entries.length ≤ d.depth && e.pos.length = 4 then
    let x : Stream :=
      ⟨true, d, d.ring, d.depth, e.head % d.depth, e.entries.map fun x => ⟨x.1, x.2⟩, e.ended, e.pos, e.eodf, e.next.map walkDesc, false⟩
    { w with streams := w.streams.set e.reg x }
  else w
/-- The host's changes to a stopped swarm (R365). Reserved bits of MODE stay 0 (R9), RSV within RMAX and its lane (R36). -/
def editSwarm (s : State) (w : Swarm) (e : SwarmEdit) : Swarm :=
  let w1 := e.unbind.foldl (fun w k => applyBind w (.reset k)) w
  let w2 := (e.regs.filter fun x => x.1 < w.rmax && x.2.1 < 32).foldl (editReg s) (e.bind.foldl editStream w1)
  { w2 with
    slotA := editSlot w.slotA e.slotA
    slotB := editSlot w.slotB e.slotB
    live := e.live.getD w.live
    rsv := (e.rsv.filter fun n => n ≤ w.rmax && growFits s w n).getD w.rsv
    prog := e.prog.getD w.prog
    preds := e.preds.foldl (fun l x => l.set x.1 x.2) w.preds
    mode := (e.mode.filter fun m => !modeReserved m).getD w.mode
    dsDepth := e.dsDepth.getD w.dsDepth
    rstPc := (e.restart.map fun x => x.1).getD w.rstPc
    rstRec := (e.restart.map fun x => x.2).getD w.rstRec
    wrapCause := e.wrapCause.getD w.wrapCause }
/-- A swarm that may go on after a halt is diverted if its launch was meanwhile (R358). -/
def divertIfDue (s : State) (r : SwarmRef) : State := if (swarm? s r).any (divertsNow s) then divertSwarm s r else s
def execMailboxResumeSwarm (r : SwarmRef) (edit : SwarmEdit) (s : State) : Host.Outcome State Fault Refusal :=
  taken s ((swarm? s r).any Swarm.stopped) fun s =>
    match swarm? s r with
    | some w => divertIfDue (resumeStopped (wakeRegs (dropWalks (putSwarm s (editSwarm s w edit)) r) r.core w.lane) r) r
    | none => s
/-- The debugger halts a swarm: its clause is squashed. -/
def execDebugHalt (r : SwarmRef) (s : State) : Host.Outcome State Fault Refusal :=
  .next (match swarm? s r with
    | none => s
    | some w =>
      if r.slice || w.sched = .done || w.sched = .halted then s
      else modSwarm (dissolve (squash s r) r) r fun w =>
        { w with
          haltedFrom := if w.sched = .active then .ready else w.sched, sched := .halted, since := s.cycle
          leftLane := if w.sched = .active then s.cycle else w.leftLane })
/-- The debugger resumes it to the state before the halt; a swarm that a trap has stopped stays stopped. -/
def execDebugResume (r : SwarmRef) (s : State) : Host.Outcome State Fault Refusal :=
  .next (match swarm? s r with
    | none => s
    | some w =>
      if w.sched ≠ .halted || w.stopped then s
      else divertIfDue (modSwarm s r fun w => { w with sched := w.haltedFrom, since := s.cycle, freeFrom := s.cycle }) r)

/-! Counters (R384). -/

/-- A selector as it reads back: nothing for a source of another location or a reserved one. -/
def selectorFor (valid : Nat → Bool) (sel : Word) : Word :=
  if valid (sel.extractLsb' 0 8).toNat then sel &&& 0xFFFF03FF else 0
/-- Set a counter's selector. -/
def setSelector (valid : Nat → Bool) (k : Nat) (sel : Word) (cs : List Counter) : List Counter :=
  cs.modify k fun c => { c with sel := selectorFor valid sel }
def execMailboxCounterSelect (loc : CounterLoc) (k : Nat) (sel : Word) (s : State) : Host.Outcome State Fault Refusal :=
  match loc with
  | .core n => taken s (n < Config.cores && k < 8) fun s => modCore s n fun c => { c with counters := setSelector coreSource k sel c.counters }
  | .die n => taken s (n < 4 && k < 16) fun s => modDie s n fun d => { d with counters := setSelector dieSource k sel d.counters }
  | .fabric => taken s (k < 16) fun s => modFabric s fun f => { f with counters := setSelector fabricSource k sel f.counters }

/-- A gauge's level at a die. -/
def dieGauge (s : State) (die src : Nat) : Nat :=
  let held (size : Nat) : Nat := (s.l2Tags.filter fun t => t.2 = size && homeDie s (256 * t.1) = die).length
  if src = 0x42 then held 128
  else if src = 0x43 then held 192
  else if src = 0x44 then held 256
  else if src = 0x47 then ((dieAt s die).holds.filter Hold.queued).length
  else (((s.cores.map Core.idx).filter fun n => dieOf n = die).map (coreVersionCount s)).sum
/-- A die's counter as it reads. -/
def dieCounter (s : State) (die : Nat) (c : Counter) : Nat :=
  let src := (c.sel.extractLsb' 0 8).toNat
  if gaugeSource src then (if c.sel.getLsbD 8 then dieGauge s die src else 0) else c.count
/-- The 48-bit value of a named counter. -/
def execMailboxCounterRead (loc : CounterLoc) (k : Nat) (s : State) : Host.Outcome State Fault Refusal :=
  .next (reply s (match loc with
    | .core n => ((coreAt s n).counters.getD k ⟨0, 0⟩).count
    | .die n => dieCounter s n ((dieAt s n).counters.getD k ⟨0, 0⟩)
    | .fabric => (s.fabric.counters.getD k ⟨0, 0⟩).count))

/-! The fabric's mailbox requests (R400, R401, R410, R414, R415). -/

/-- A clause of the fabric owner that holds a fabric instruction is in flight. -/
def ownerInFlight (s : State) (ctx : Nat) : Bool :=
  (s.run.toList ++ s.runs).any fun r => ctxOf s (wgOf r.ref) = ctx && r.words.any fun w => 0xB0 ≤ opNat w && opNat w ≤ 0xB6
/-- The owner may be bound anew while it has no fabric instruction in flight, no collective open and no fence in progress (R401). -/
def fabricIdle (s : State) : Bool :=
  s.fabric.collectives.isEmpty && s.fabric.fence.isNone && s.fabric.reel.isNone && (fencingRuns s).isEmpty &&
    !(s.fabric.owner.any fun o => ownerInFlight s o.1 || s.fabric.transfers.any fun t => ctxOf s (wgOf t.ref) = o.1)
/-- Every word of the suspect map is to be written where it now lies (R415). -/
def remap (s : State) : State := syncSuspects (modFabric s fun f => { f with mapStale := (List.range 8).map fun k => (k, false) })
/-- Bind the owner: another owner or tag is another fabric job, which has closed no collective and keeps no early contribution (R409). -/
def bindOwner (s : State) (ctx jobtag : Nat) (m : Membership) : State :=
  let s1 := modFabric s fun f => { f with owner := some (ctx, jobtag), current := m, peers := watchedPeers f m.mods s.clkns }
  if s.fabric.owner = some (ctx, jobtag) then s1
  else remap (modFabric s1 fun f => { f with closed := [], early := [], resends := [] })
def execMailboxBindFabricOwner (ctx jobtag : Nat) (image : List Byte) (s : State) : Host.Outcome State Fault Refusal :=
  .next (match tableOf image with
    | none => reply s 1
    | some m =>
      if !fabricIdle s || 2 ^ 16 ≤ jobtag || image.length < 8 + 2 * m.mods.length then reply s 1
      else reply (bindOwner s ctx jobtag m) 0)
def execMailboxWatchList (mods : List Nat) (s : State) : Host.Outcome State Fault Refusal :=
  taken s (mods.all (· < 144)) fun s => modFabric s fun f =>
    { f with watch := mods, peers := watchedPeers { f with watch := mods } f.current.mods s.clkns }
def execMailboxSuspectMap (addr : Nat) (s : State) : Host.Outcome State Fault Refusal :=
  taken s (addr % 4 = 0) fun s => remap (modFabric s fun f => { f with suspectMap := some addr })
def execMailboxCollectiveArea (base size : Nat) (s : State) : Host.Outcome State Fault Refusal :=
  taken s (s.fabric.collectives.isEmpty && s.fabric.early.isEmpty) fun s => modFabric s fun f => { f with area := some (base, size) }

end Sys2Proof.Machine
end

