-- ==== Sys2Proof/Machine/Dispatch.lean ====
section
/-! DEFINITION. One arm per instruction and event: its meaning. -/

namespace Sys2Proof.Machine

/-- The outcome of an instruction in the clause in flight, or of an event. -/
def exec (i : Instr) (s : State) : Host.Outcome State Fault Refusal :=
  match i with
  | .iaddReg f => Sys2Proof.Machine.execIaddReg f s
  | .iaddImm f => Sys2Proof.Machine.execIaddImm f s
  | .isubReg f => Sys2Proof.Machine.execIsubReg f s
  | .isubImm f => Sys2Proof.Machine.execIsubImm f s
  | .imulReg f => Sys2Proof.Machine.execImulReg f s
  | .imulImm f => Sys2Proof.Machine.execImulImm f s
  | .imulh f => Sys2Proof.Machine.execImulh f s
  | .imad f => Sys2Proof.Machine.execImad f s
  | .iminReg f => Sys2Proof.Machine.execIminReg f s
  | .iminImm f => Sys2Proof.Machine.execIminImm f s
  | .imaxReg f => Sys2Proof.Machine.execImaxReg f s
  | .imaxImm f => Sys2Proof.Machine.execImaxImm f s
  | .iabs f => Sys2Proof.Machine.execIabs f s
  | .addc f => Sys2Proof.Machine.execAddc f s
  | .subb f => Sys2Proof.Machine.execSubb f s
  | .iaddw f => Sys2Proof.Machine.execIaddw f s
  | .imadw f => Sys2Proof.Machine.execImadw f s
  | .idot4 f => Sys2Proof.Machine.execIdot4 f s
  | .isad f => Sys2Proof.Machine.execIsad f s
  | .popc f => Sys2Proof.Machine.execPopc f s
  | .clz f => Sys2Proof.Machine.execClz f s
  | .andReg f => Sys2Proof.Machine.execAndReg f s
  | .andImm f => Sys2Proof.Machine.execAndImm f s
  | .orReg f => Sys2Proof.Machine.execOrReg f s
  | .orImm f => Sys2Proof.Machine.execOrImm f s
  | .xorReg f => Sys2Proof.Machine.execXorReg f s
  | .xorImm f => Sys2Proof.Machine.execXorImm f s
  | .tern f => Sys2Proof.Machine.execTern f s
  | .shlReg f => Sys2Proof.Machine.execShlReg f s
  | .shlImm f => Sys2Proof.Machine.execShlImm f s
  | .shrReg f => Sys2Proof.Machine.execShrReg f s
  | .shrImm f => Sys2Proof.Machine.execShrImm f s
  | .sarReg f => Sys2Proof.Machine.execSarReg f s
  | .sarImm f => Sys2Proof.Machine.execSarImm f s
  | .fshlReg f => Sys2Proof.Machine.execFshlReg f s
  | .fshlImm f => Sys2Proof.Machine.execFshlImm f s
  | .fshrReg f => Sys2Proof.Machine.execFshrReg f s
  | .fshrImm f => Sys2Proof.Machine.execFshrImm f s
  | .brev f => Sys2Proof.Machine.execBrev f s
  | .bfxReg f => Sys2Proof.Machine.execBfxReg f s
  | .bfxImm f => Sys2Proof.Machine.execBfxImm f s
  | .bfiReg f => Sys2Proof.Machine.execBfiReg f s
  | .bfiImm f => Sys2Proof.Machine.execBfiImm f s
  | .perm f => Sys2Proof.Machine.execPerm f s
  | .sel f => Sys2Proof.Machine.execSel f s
  | .mov f => Sys2Proof.Machine.execMov f s
  | .movi f => Sys2Proof.Machine.execMovi f s
  | .p2v f => Sys2Proof.Machine.execP2v f s
  | .v2p f => Sys2Proof.Machine.execV2p f s
  | .icmp f => Sys2Proof.Machine.execIcmp f s
  | .fcmp f => Sys2Proof.Machine.execFcmp f s
  | .plop f => Sys2Proof.Machine.execPlop f s
  | .pick f => Sys2Proof.Machine.execPick f s
  | .pgath f => Sys2Proof.Machine.execPgath f s
  | .sred f => Sys2Proof.Machine.execSred f s
  | .redl f => Sys2Proof.Machine.execRedl f s
  | .cvt f => Sys2Proof.Machine.execCvt f s
  | .qpack f => Sys2Proof.Machine.execQpack f s
  | .qunpk f => Sys2Proof.Machine.execQunpk f s
  | .qscale f => Sys2Proof.Machine.execQscale f s
  | .pradd f => Sys2Proof.Machine.execPradd f s
  | .prmul f => Sys2Proof.Machine.execPrmul f s
  | .prfma f => Sys2Proof.Machine.execPrfma f s
  | .faddReg f => Sys2Proof.Machine.execFaddReg f s
  | .faddImm f => Sys2Proof.Machine.execFaddImm f s
  | .fmulReg f => Sys2Proof.Machine.execFmulReg f s
  | .fmulImm f => Sys2Proof.Machine.execFmulImm f s
  | .ffmaReg f => Sys2Proof.Machine.execFfmaReg f s
  | .ffmaImm f => Sys2Proof.Machine.execFfmaImm f s
  | .fminReg f => Sys2Proof.Machine.execFminReg f s
  | .fminImm f => Sys2Proof.Machine.execFminImm f s
  | .fmaxReg f => Sys2Proof.Machine.execFmaxReg f s
  | .fmaxImm f => Sys2Proof.Machine.execFmaxImm f s
  | .fdiv f => Sys2Proof.Machine.execFdiv f s
  | .fsqrt f => Sys2Proof.Machine.execFsqrt f s
  | .frcp f => Sys2Proof.Machine.execFrcp f s
  | .frsq f => Sys2Proof.Machine.execFrsq f s
  | .fexp2 f => Sys2Proof.Machine.execFexp2 f s
  | .flog2 f => Sys2Proof.Machine.execFlog2 f s
  | .bra f => Sys2Proof.Machine.execBra f s
  | .brx f => Sys2Proof.Machine.execBrx f s
  | .beod f => Sys2Proof.Machine.execBeod f s
  | .call f => Sys2Proof.Machine.execCall f s
  | .ret f => Sys2Proof.Machine.execRet f s
  | .rejoin f => Sys2Proof.Machine.execRejoin f s
  | .exit f => Sys2Proof.Machine.execExit f s
  | .nop f => Sys2Proof.Machine.execNop f s
  | .getsr f => Sys2Proof.Machine.execGetsr f s
  | .setsr f => Sys2Proof.Machine.execSetsr f s
  | .grow f => Sys2Proof.Machine.execGrow f s
  | .shrink f => Sys2Proof.Machine.execShrink f s
  | .setrestart f => Sys2Proof.Machine.execSetrestart f s
  | .trap f => Sys2Proof.Machine.execTrap f s
  | .bkpt f => Sys2Proof.Machine.execBkpt f s
  | .ld f => Sys2Proof.Machine.execLd f s
  | .st f => Sys2Proof.Machine.execSt f s
  | .lds f => Sys2Proof.Machine.execLds f s
  | .sts f => Sys2Proof.Machine.execSts f s
  | .gather f => Sys2Proof.Machine.execGather f s
  | .scatter f => Sys2Proof.Machine.execScatter f s
  | .cpin f => Sys2Proof.Machine.execCpin f s
  | .cpout f => Sys2Proof.Machine.execCpout f s
  | .atom f => Sys2Proof.Machine.execAtom f s
  | .atomv f => Sys2Proof.Machine.execAtomv f s
  | .red f => Sys2Proof.Machine.execRed f s
  | .prefetch f => Sys2Proof.Machine.execPrefetch f s
  | .flush f => Sys2Proof.Machine.execFlush f s
  | .invl1 f => Sys2Proof.Machine.execInvl1 f s
  | .fence f => Sys2Proof.Machine.execFence f s
  | .fencex f => Sys2Proof.Machine.execFencex f s
  | .waitc f => Sys2Proof.Machine.execWaitc f s
  | .qinit f => Sys2Proof.Machine.execQinit f s
  | .qpush f => Sys2Proof.Machine.execQpush f s
  | .qpop f => Sys2Proof.Machine.execQpop f s
  | .tbar f => Sys2Proof.Machine.execTbar f s
  | .propose f => Sys2Proof.Machine.execPropose f s
  | .docrd f => Sys2Proof.Machine.execDocrd f s
  | .recycle f => Sys2Proof.Machine.execRecycle f s
  | .resv f => Sys2Proof.Machine.execResv f s
  | .rels f => Sys2Proof.Machine.execRels f s
  | .cpob f => Sys2Proof.Machine.execCpob f s
  | .mma f => Sys2Proof.Machine.execMma f s
  | .mmaw f => Sys2Proof.Machine.execMmaw f s
  | .accalloc f => Sys2Proof.Machine.execAccalloc f s
  | .accfree f => Sys2Proof.Machine.execAccfree f s
  | .acczero f => Sys2Proof.Machine.execAcczero f s
  | .accrd f => Sys2Proof.Machine.execAccrd f s
  | .accwr f => Sys2Proof.Machine.execAccwr f s
  | .drain f => Sys2Proof.Machine.execDrain f s
  | .wbind f => Sys2Proof.Machine.execWbind f s
  | .wreset f => Sys2Proof.Machine.execWreset f s
  | .fgstart f => Sys2Proof.Machine.execFgstart f s
  | .fgwait f => Sys2Proof.Machine.execFgwait f s
  | .spush f => Sys2Proof.Machine.execSpush f s
  | .fetch f => Sys2Proof.Machine.execFetch f s
  | .commit f => Sys2Proof.Machine.execCommit f s
  | .abandon f => Sys2Proof.Machine.execAbandon f s
  | .enq f => Sys2Proof.Machine.execEnq f s
  | .wrapret f => Sys2Proof.Machine.execWrapret f s
  | .rget f => Sys2Proof.Machine.execRget f s
  | .rput f => Sys2Proof.Machine.execRput f s
  | .mcast f => Sys2Proof.Machine.execMcast f s
  | .cred f => Sys2Proof.Machine.execCred f s
  | .genfence f => Sys2Proof.Machine.execGenfence f s
  | .snap f => Sys2Proof.Machine.execSnap f s
  | .join f => Sys2Proof.Machine.execJoin f s
  | .imx f => Sys2Proof.Machine.execImx f s
  | .msk f => Sys2Proof.Machine.execMsk f s
  | .reconvergencePark r => Sys2Proof.Machine.execReconvergencePark r s
  | .waitConditionMet r => Sys2Proof.Machine.execWaitConditionMet r s
  | .activeSlotFill core lane => Sys2Proof.Machine.execActiveSlotFill core lane s
  | .forcedSwap core lane => Sys2Proof.Machine.execForcedSwap core lane s
  | .teamEntry w team => Sys2Proof.Machine.execTeamEntry w team s
  | .scoreboardRebuild r => Sys2Proof.Machine.execScoreboardRebuild r s
  | .bankDrowsy core lane bank => Sys2Proof.Machine.execBankDrowsy core lane bank s
  | .accRefreshSlot core bank bad => Sys2Proof.Machine.execAccRefreshSlot core bank bad s
  | .wcEntryAgeDrain core sector => Sys2Proof.Machine.execWcEntryAgeDrain core sector s
  | .copyComplete id => Sys2Proof.Machine.execCopyComplete id s
  | .cpobComplete id => Sys2Proof.Machine.execCpobComplete id s
  | .flushComplete id => Sys2Proof.Machine.execFlushComplete id s
  | .mmaAccept r => Sys2Proof.Machine.execMmaAccept r s
  | .mmaResultWrite id => Sys2Proof.Machine.execMmaResultWrite id s
  | .accumulatorReclaim core => Sys2Proof.Machine.execAccumulatorReclaim core s
  | .atomicUnitRequest id => Sys2Proof.Machine.execAtomicUnitRequest id s
  | .announcementDelivery => Sys2Proof.Machine.execAnnouncementDelivery s
  | .sectorFetchReply id => Sys2Proof.Machine.execSectorFetchReply id s
  | .cellRequestAtHome id => Sys2Proof.Machine.execCellRequestAtHome id s
  | .walkEntryGenerate r w => Sys2Proof.Machine.execWalkEntryGenerate r w s
  | .sliceContextGrant cluster => Sys2Proof.Machine.execSliceContextGrant cluster s
  | .taskEnd w => Sys2Proof.Machine.execTaskEnd w s
  | .tiebreakTimeout w => Sys2Proof.Machine.execTiebreakTimeout w s
  | .taskReplay w => Sys2Proof.Machine.execTaskReplay w s
  | .trapWithoutReplay w => Sys2Proof.Machine.execTrapWithoutReplay w s
  | .doorbellWrite q index => Sys2Proof.Machine.execDoorbellWrite q index s
  | .nopCommand q => Sys2Proof.Machine.execNopCommand q s
  | .launch q => Sys2Proof.Machine.execLaunch q s
  | .signal q => Sys2Proof.Machine.execSignal q s
  | .launchPlacement id => Sys2Proof.Machine.execLaunchPlacement id s
  | .launchComplete id => Sys2Proof.Machine.execLaunchComplete id s
  | .mappingEvaluation => Sys2Proof.Machine.execMappingEvaluation s
  | .extensionRefill q => Sys2Proof.Machine.execExtensionRefill q s
  | .diversion id => Sys2Proof.Machine.execDiversion id s
  | .deadlineOverrun id => Sys2Proof.Machine.execDeadlineOverrun id s
  | .watchdogExpiry id => Sys2Proof.Machine.execWatchdogExpiry id s
  | .preemption id => Sys2Proof.Machine.execPreemption id s
  | .contextRestore id => Sys2Proof.Machine.execContextRestore id s
  | .deferredActivation => Sys2Proof.Machine.execDeferredActivation s
  | .pageRequestResponse ctx group code => Sys2Proof.Machine.execPageRequestResponse ctx group code s
  | .pageRequestRetry die => Sys2Proof.Machine.execPageRequestRetry die s
  | .holdRetry die => Sys2Proof.Machine.execHoldRetry die s
  | .migration ctx va len p => Sys2Proof.Machine.execMigration ctx va len p s
  | .granuleCopyComplete ctx view granule shadow => Sys2Proof.Machine.execGranuleCopyComplete ctx view granule shadow s
  | .viewEnded ctx => Sys2Proof.Machine.execViewEnded ctx s
  | .scrubVisit die line found => Sys2Proof.Machine.execScrubVisit die line found s
  | .moduleReset planes => Sys2Proof.Machine.execModuleReset planes s
  | .thermalThrottle mhz => Sys2Proof.Machine.execThermalThrottle mhz s
  | .thermalShutdown => Sys2Proof.Machine.execThermalShutdown s
  | .ptpMessage offset => Sys2Proof.Machine.execPtpMessage offset s
  | .syncLoss => Sys2Proof.Machine.execSyncLoss s
  | .mailboxInstallQueue q desc => Sys2Proof.Machine.execMailboxInstallQueue q desc s
  | .mailboxRemoveQueue q => Sys2Proof.Machine.execMailboxRemoveQueue q s
  | .mailboxCancelLaunch id => Sys2Proof.Machine.execMailboxCancelLaunch id s
  | .mailboxPreempt id => Sys2Proof.Machine.execMailboxPreempt id s
  | .mailboxKillContext ctx => Sys2Proof.Machine.execMailboxKillContext ctx s
  | .mailboxResumeSwarm r edit => Sys2Proof.Machine.execMailboxResumeSwarm r edit s
  | .mailboxFirmwareImage layout signed => Sys2Proof.Machine.execMailboxFirmwareImage layout signed s
  | .mailboxTrapArea ctx base entries idx vec => Sys2Proof.Machine.execMailboxTrapArea ctx base entries idx vec s
  | .trapReadIndexWrite ctx index => Sys2Proof.Machine.execTrapReadIndexWrite ctx index s
  | .mailboxWatchdogLimit ctx limit => Sys2Proof.Machine.execMailboxWatchdogLimit ctx limit s
  | .mailboxCounterSelect loc k sel => Sys2Proof.Machine.execMailboxCounterSelect loc k sel s
  | .mailboxCounterRead loc k => Sys2Proof.Machine.execMailboxCounterRead loc k s
  | .mailboxPowerCap watts => Sys2Proof.Machine.execMailboxPowerCap watts s
  | .mailboxReenablePageRequests ctx => Sys2Proof.Machine.execMailboxReenablePageRequests ctx s
  | .mailboxBindFabricOwner ctx jobtag image => Sys2Proof.Machine.execMailboxBindFabricOwner ctx jobtag image s
  | .mailboxWatchList mods => Sys2Proof.Machine.execMailboxWatchList mods s
  | .mailboxSuspectMap addr => Sys2Proof.Machine.execMailboxSuspectMap addr s
  | .mailboxCollectiveArea base size => Sys2Proof.Machine.execMailboxCollectiveArea base size s
  | .keyInstall ctx => Sys2Proof.Machine.execKeyInstall ctx s
  | .registerWriteIgnored offset value => Sys2Proof.Machine.execRegisterWriteIgnored offset value s
  | .debugHalt r => Sys2Proof.Machine.execDebugHalt r s
  | .debugResume r => Sys2Proof.Machine.execDebugResume r s
  | .flitReceive port flit => Sys2Proof.Machine.execFlitReceive port flit s
  | .rgetRequest p => Sys2Proof.Machine.execRgetRequest p s
  | .rgetData p => Sys2Proof.Machine.execRgetData p s
  | .rputData p => Sys2Proof.Machine.execRputData p s
  | .acknowledgement p => Sys2Proof.Machine.execAcknowledgement p s
  | .transferAckTimeout id => Sys2Proof.Machine.execTransferAckTimeout id s
  | .contribution p => Sys2Proof.Machine.execContribution p s
  | .switchResult p => Sys2Proof.Machine.execSwitchResult p s
  | .cellRequest p => Sys2Proof.Machine.execCellRequest p s
  | .cellReply p => Sys2Proof.Machine.execCellReply p s
  | .cellReplyTimeout id => Sys2Proof.Machine.execCellReplyTimeout id s
  | .heartbeat port src => Sys2Proof.Machine.execHeartbeat port src s
  | .heartbeatTimer => Sys2Proof.Machine.execHeartbeatTimer s
  | .suspicionTimeout m => Sys2Proof.Machine.execSuspicionTimeout m s
  | .fenceMarker port src gen => Sys2Proof.Machine.execFenceMarker port src gen s
  | .fenceTimeout => Sys2Proof.Machine.execFenceTimeout s
  | .killNotice src tag => Sys2Proof.Machine.execKillNotice src tag s
  | .killAck src tag => Sys2Proof.Machine.execKillAck src tag s
  | .stripeRequest p => Sys2Proof.Machine.execStripeRequest p s
  | .stripeData p => Sys2Proof.Machine.execStripeData p s
  | .stripeTimeout k => Sys2Proof.Machine.execStripeTimeout k s
  | .atsTranslationCompletion die ctx va result => Sys2Proof.Machine.execAtsTranslationCompletion die ctx va result s
  | .junctionTemperatureChange core hot => Sys2Proof.Machine.execJunctionTemperatureChange core hot s
  | .portUp port => Sys2Proof.Machine.execPortUp port s
  | .heartbeatMiss peer port => Sys2Proof.Machine.execHeartbeatMiss peer port s

end Sys2Proof.Machine
end

