-- ==== Sys2Proof/Machine/Upsets.lean ====
section
/-! DEFINITION. What happens of itself to stored words, and the services of the debugger and of firmware that are no event of the table
(R73, R141, R146, R150, R153, R157, R158, R296, R297, R305 to R308, R325 to R329; log 77). Each comes by the agenda. -/

namespace Sys2Proof.Machine

/-! Errors in a core (R157) and a forager (R296). -/

/-- A multi-bit error in a register word. A mirrored register is repaired from its mirror; in another the word is marked until it is
written (R141). -/
def upsetRegister (s : State) (r : SwarmRef) (n t : Nat) : State :=
  match (swarm? s r).bind fun w => (w.regs.getD n none).map fun x => (w, x) with
  | none => s
  | some (w, x) =>
    if !r.slice && x.mirror.isSome && mirrored s r.core w.lane then noteError s r.core 1 (ctxOf s (wgOf r)) true
    else
      let spoil (w : Swarm) : Swarm := { w with regErrs := (n, t) :: w.regErrs.filter (· ≠ (n, t)) }
      let inRun (x : Run) : Run := if x.ref = r then { x with work := spoil x.work } else x
      { modSwarm s r spoil with run := s.run.map inRun, runs := s.runs.map inRun }

/-- The swarms that have stores in the entries of a sector of the write-combining buffer not yet on their way. -/
def bufferWriters (s : State) (core pa : Nat) : List SwarmRef :=
  (((coreAt s core).wcb.filter fun e => e.pa = pa / 64 * 64 && !e.sent).map fun e => e.writers.map Prod.fst).flatten.eraseDups
/-- A storing swarm loses its buffered entries, with what the L1 holds of them, and is to trap (R153). The clause named is its next one
(log 77). -/
def discardBuffered (s : State) (r : SwarmRef) : State :=
  let mine (e : WcbEntry) : Bool := !e.sent && e.writers.any fun w => w.1 = r
  let gone := (coreAt s r.core).wcb.filter mine
  let s1 := modCore s r.core fun c => { c with
    wcb := c.wcb.filter fun e => !mine e
    l1 := c.l1.filter fun x => !gone.any fun e => e.pa = x.pa }
  let s2 := gone.foldl (fun s e => storeDone s r.core e.writers) s1
  let pc := ((swarm? s2 r).map fun w => (if w.slotA.running then w.slotA else w.slotB).pc).getD 0
  deferTrap s2 r ⟨0x0C, 0x0005, pc, 2, (gone.head?.map WcbEntry.va).getD 0⟩
/-- An uncorrectable word of the write-combining buffer. -/
def upsetBuffer (s : State) (core pa : Nat) : State :=
  let rs := bufferWriters s core pa
  if rs.isEmpty then s else rs.foldl discardBuffered (noteError s core 5 0 false)

/-- A walk unit fails: every bound stream register of its cluster is marked failed (R296). -/
def upsetWalkUnit (s : State) (cluster : Nat) : State :=
  { s with
    foragerErrors := s.foragerErrors.modify cluster fun n => (n.1, n.2 + 1)
    swarms := s.swarms.map fun w => if clusterOf w.ref.core = cluster then
        { w with streams := w.streams.map fun x => if x.bound then { x with failed := true } else x }
      else w }

/-! Errors at the homes (R305, R328, R329). -/

/-- A cell stands in the line, as a cached mapping or its metadata tell. -/
def cellLine (s : State) (line : Nat) : Bool :=
  (s.dies.any fun d => d.tlb.any fun m => m.cell && m.pa / 256 ≤ line && 256 * line < m.pa + m.len) ||
    s.sectors.any fun m => m.pa / 256 = line && (m.ident ≠ 0 || m.cellSig.isSome)
/-- The sectors of a line are marked failed, those that were already as they were. -/
def failLine (s : State) (line code detail : Nat) : State :=
  (List.range 4).foldl (fun s k => modMeta s (256 * line + 64 * k) fun m => { m with bad := some (m.bad.getD (code, detail)) }) s

/-- The bytes of a sector change beside its check value (R305). -/
def putUnchecked (s : State) (pa : Nat) (data : List Byte) : State :=
  let b := pa / 64 * 64
  let old := memRead s.mem b 64
  modMeta { s with mem := memWrite s.mem b ((data ++ List.replicate 64 0).take 64) } b fun m =>
    { m with check := some (m.check.getD (BitVec.ofNat 16 (crc16 old))) }
/-- The plain bytes behind a clean line: those of the memory; of an encrypted line those the L2 held, if its ciphertext is that of them,
else unspecified ones (R328; log 75). -/
def plainLine (s : State) (line : Nat) : List Byte :=
  let back := memRead s.backing (256 * line) 256
  match s.lineTags.find? fun t => t.1 = line with
  | none => back
  | some t =>
    let held := memRead s.mem (256 * line) 256
    if Config.cipher t.2.1 line held = back then held else (List.range 256).map fun k => Config.freeByte s.fresh k
/-- A clean line is filled from the memory behind it: its integrity tag is checked, and its check values come with it (R305, R328). -/
def refillLine (s : State) (line : Nat) : State :=
  if s.dirty.contains line then s
  else if tagFails s line then failLine s line 0x0D 0
  else
    let plain := plainLine s line
    (List.range 4).foldl (fun s k =>
      let new := (plain.drop (64 * k)).take 64
      if new = memRead s.mem (256 * line + 64 * k) 64 then s else putUnchecked s (256 * line + 64 * k) new) s

/-- The same when no consumer has asked for the line: a check value's mismatch is logged (R305). -/
def fillUnasked (s : State) (line : Nat) : State :=
  let s1 := refillLine s line
  if s1 = s then s else logFinding (homeDie s (256 * line)) line s1 3
/-- A slice that holds more lines than it has room for gives one of them up, freely chosen: a dirty one is written back, and the next fill is
of what memory holds then (R298; log 94). -/
def evictLine (s : State) : State :=
  match overfull s with
  | [] => s
  | ls =>
    let line := ls.getD (Config.freeNat s.fresh % ls.length) 0
    let s1 := if s.dirty.contains line then writeBackLine s line else refillLine s line
    { s1 with l2Tags := s1.l2Tags.filter fun t => t.1 ≠ line }

/-- An error of tag and metadata that cannot be corrected: a clean line is fetched again, any other marked failed (R329). -/
def upsetTag (s : State) (line : Nat) : State :=
  let s1 := dieError s (homeDie s (256 * line)) 0
  if s.dirty.contains line || cellLine s line then failLine s1 line 0x0C 0x0101 else refillLine s1 line

/-- A replay of this module's flits on a port: it is counted, and after sixteen failed ones in a row the port is down (R394, R384). -/
def linkReplay (s : State) (port : Nat) (ok : Bool) : State :=
  let tried (p : Port) : Port := if ok then { p with replays := 0 } else { p with replays := p.replays + 1, up := p.up && p.replays + 1 < 16 }
  if (s.fabric.ports[port]?).any Port.up then
    settleFence (countFabric (modFabric s fun f => { f with ports := f.ports.modify port tried }) 0x84 0)
  else s

/-- What happens of itself to stored words. -/
def upset (u : Upset) (s : State) : State :=
  match u with
  | .corrected core part => if core < Config.cores then noteError s core part 0 true else s
  | .register r n t => if t < threads then upsetRegister s r n t else s
  | .operandBuffer g off => modWg s g fun w => if off < 1024 * w.obufGranules then { w with obufBad := (off / 8 * 8) :: w.obufBad } else w
  | .tile core j => if (tileAt s core j).owner.isSome then modTile s core j fun t => { t with bad := true } else s
  | .scratchpad g off =>
    modWg s g fun w => if off < w.scratch.size then { w with scratch := { w.scratch with bad := (off / 8 * 8) :: w.scratch.bad } } else w
  | .l1 core pa => modCore s core fun c => { c with l1 := c.l1.map fun x => if x.pa = pa / 64 * 64 then { x with bad := true } else x }
  | .writeBuffer core pa => upsetBuffer s core pa
  | .sliceCorrected cluster => { s with foragerErrors := s.foragerErrors.modify cluster fun n => (n.1 + 1, n.2) }
  | .walkUnit cluster => upsetWalkUnit s cluster
  | .l2Corrected die part => dieError s die part
  | .sectorSoft pa => dieError (modMeta s pa fun m => { m with soft := true }) (homeDie s pa) 1
  | .sectorData pa => dieError (modMeta s pa fun m => { m with bad := some (m.bad.getD (0x0C, 0x0102)) }) (homeDie s pa) 1
  | .sectorBytes pa data => putUnchecked s pa data
  | .sectorTag pa => upsetTag s (pa / 256)
  | .memoryByte pa b =>
    let s1 := { s with backing := memSet s.backing pa b }
    -- a line that no slice holds is filled from there at its next use
    if s.l2Tags.any fun t => t.1 = pa / 256 then s1 else refillLine s1 (pa / 256)
  | .refill line => fillUnasked s line
  | .writeBack line => if s.dirty.contains line then writeBackLine s line else s
  | .versionEntry g k =>
    dieError { s with versions := s.versions.map fun v => if v.wg = g && k < v.ops.length then { v with failed := k :: v.failed } else v }
      (dieOf g.core) 0
  | .notification dies =>
    dies.foldl (fun s d => dieError (modDie s d fun x => { x with admits := false }) d 2) { s with machineChecks := s.machineChecks + 1 }
  | .linkReplay port ok => linkReplay s port ok

/-! The debugger and the host (R73, R306, R384). -/

/-- Every swarm of a launch is halted, or over. -/
def allHalted (s : State) (seq : Nat) : Bool :=
  (s.swarms.filter fun w => w.ref.seq = seq && !w.ref.slice).all fun w => w.sched = .halted || w.sched = .done
/-- The frame of a code page of a context, by a die that caches its mapping. -/
def codeFrame (s : State) (ctx va : Nat) : Option Nat :=
  (s.dies.findSome? fun d => d.tlb.find? fun m => m.ctx = ctx && m.code && m.va ≤ va && va < m.va + m.len).map fun m => m.pa + (va - m.va)
/-- Code is written through its frames. -/
def writeCodeBytes (s : State) (ctx va : Nat) (bytes : List Byte) : State :=
  (sectorPieces va bytes).foldl (fun s p =>
    match codeFrame s ctx p.1 with
    | some pa => performWrite s pa p.2.1 p.2.2 .clear
    | none => s) s
def debugCode (seq va : Nat) (bytes : List Byte) (s : State) : State :=
  match launch? s seq with
  | none => reply s 1
  | some l =>
    if l.state = .resident && allHalted s seq && (sectorPieces va bytes).all fun p => (codeFrame s l.ctx p.1).isSome then
      reply (writeCodeBytes s l.ctx va bytes) 0
    else reply s 1

/-- The debugger's answers beside a word: not mapped, refused, a data error, a register window between two clauses of no swarm (log 77). -/
def mapAnswer (e : Stop) : Nat :=
  match e with
  | .trap .. | .badScratch _ => 2 ^ 66
  | _ => 2 ^ 67
def debugRead (core tag off : Nat) (s : State) : State :=
  if windowBusy s core tag off then reply s (2 ^ 67)
  else
    match mapRead s core tag (off / 8 * 8) with
    | .ok (some x, s1) => reply s1 (bytesToNat x.bytes + 2 ^ 64 * x.notMapped.toNat)
    | .ok (none, _) => reply s (2 ^ 65)
    | .error e => reply (noteSite s hubRef (mapSite s core tag) e) (mapAnswer e)
def debugWrite (core tag off : Nat) (bytes : List Byte) (s : State) : State :=
  if windowBusy s core tag off then reply s (2 ^ 67)
  else
    match mapWrite s core tag (off / 8 * 8) ((bytes ++ List.replicate 8 0).take 8) with
    | .ok (some s1) => reply s1 0
    | .ok none => reply s (2 ^ 65)
    | .error e => reply (noteSite s hubRef (mapSite s core tag) e) (mapAnswer e)
/-- The debugger reads a context's memory as its own accesses would see it at the homes: an encrypted page's as plaintext (R385). -/
def debugMemory (ctx va : Nat) (s : State) : State :=
  match readAny s ctx (va / 8 * 8) 8 with
  | .ok b => reply s (bytesToNat b)
  | .error e => reply s (mapAnswer e)

/-- The host writes a context's memory through the host link: ordinary writes at the homes, with their check values made there (R249, R260,
R305). A page that is not there is asked for; one that is held is left, and the host writes again (log 77). -/
def hostStore (ctx va : Nat) (bytes : List Byte) (s : State) : State :=
  match writeAny s ctx va bytes .clear with
  | .ok s1 => reply s1 0
  | .error (.miss a write) => reply (requestPage s 0 ctx (pageOf a) write) 1
  | .error (.held a .snapshot) => reply (startGranule s ctx a) 1
  | .error _ => reply s 1

/-- The read-only block of BAR0 in which the host reads the counters: the counter of an offset, one aligned word each (R384). -/
def counterBlock (off : Nat) : Option (CounterLoc × Nat) :=
  let k := off % 64 / 8
  let j := off % 128 / 8
  if off % 8 ≠ 0 then none
  else if 0x300000 ≤ off ∧ off < 0x300000 + 64 * Config.cores then some (.core ((off - 0x300000) / 64), k)
  else if 0x310000 ≤ off ∧ off < 0x310200 then some (.die ((off - 0x310000) / 128), j)
  else if 0x310400 ≤ off ∧ off < 0x310480 then some (.fabric, j)
  else none
/-- The host reads a word of the block; the answer is that of the mailbox request for the same counter. -/
def hostRead (off : Nat) (s : State) : State :=
  match counterBlock off with
  | some (loc, k) => (match execMailboxCounterRead loc k s with | .next t => t | _ => s)
  | none => s

/-- Frames of the second tier that contexts' pools hold, one context apart (R325). -/
def poolFrames (s : State) (ctx : Nat) : Nat := ((s.contexts.filter fun c => c.num ≠ ctx).map fun c => c.shadowPool.getD 0).sum

/-- A service of the debugger or of firmware. -/
def serve (x : Service) (s : State) : State :=
  match x with
  | .debugCode seq va bytes => debugCode seq va bytes s
  | .debugRead core tag off => debugRead core tag off s
  | .debugWrite core tag off bytes => debugWrite core tag off bytes s
  | .debugMemory ctx va => debugMemory ctx va s
  | .hostStore ctx va bytes => hostStore ctx va bytes s
  | .hostRead off => hostRead off s
  | .mapBase pa => if pa % 2 ^ 32 = 0 then { s with ocm := pa } else s
  | .farRange base len => { s with farRanges := s.farRanges ++ [(base, len)] }
  | .scrubRing die base => if base % 16 = 0 then modDie s die fun d => { d with scrubRing := some base, scrubNext := 0 } else s
  | .shadowPool ctx frames =>
    if poolFrames s ctx + frames ≤ Config.secondTierBytes / 65536 then modContext s ctx fun c => { c with shadowPool := some frames } else s

end Sys2Proof.Machine
end

