-- ==== Sys2Proof/WellFormed.lean ====
section
/-! DEFINITION. Well-formed instructions: the word passes the checks of R82 that concern one word alone, for some swarm of the
architecture. Events are well formed. -/

namespace Sys2Proof

/-- An instruction whose word passes checks 9 to 11 of R82 under the widest limits. -/
def Instr.wellFormed (i : Instr) : Bool :=
  (checkFields Limits.widest false i).isNone

/-- An instruction that has a word: a row of the instruction set, not an event. -/
def Instr.isInstruction (i : Instr) : Bool := i.opcode.isSome

end Sys2Proof
end

