-- ==== Sys2Proof/Machine/Agents.lean ====
section
/-! DEFINITION. The agents of the machine: time, the words of the clause in flight, clauses that wait, what must happen before anything
else, and the moves open to the machine (R15, R38, R165, R346, R356, R358, R360, R377, R383; log 2, log 5). -/

namespace Sys2Proof.Machine

/-! Time (R15, R356). -/

/-- What a clock offset that is slewed adds to a stretch of time, at most 500 ppm of it (R356). -/
def slewBy (slew : Int) (ns : Nat) : Int := max (-(ns / 2000 : Nat)) (min slew (ns / 2000 : Nat))

/-- Time passes by free amounts, and the free values advance (log 5). Watchdogs count what CLKNS counts. -/
def tick (s : State) : State :=
  let ns := Config.elapsedNs s.fresh
  countPassing { advanceClock s (ns + slewBy s.slew ns).toNat with
    fresh := s.fresh + 1
    slew := s.slew - slewBy s.slew ns
    cycle := s.cycle + Config.elapsedCycles s.fresh
    cores := s.cores.map fun c => { c with counters := c.counters.map (countOn 0x00 0 (Config.elapsedCycles s.fresh)) } }

/-! The clause in flight. -/

/-- The instruction of the clause in flight whose word executes next. -/
def runInstr (r : Run) : Option Instr := r.words[r.idx]?.bind instrOf

/-- The bytes of a stream register's oldest entry hold a word that cannot be corrected (R157, R296): whether of the persistent region. -/
def entryBad (s : State) (r : Run) (k : Nat) : Option Stop :=
  let x := r.work.streams.getD k Stream.unbound
  match wg? s (wgOf r.ref) with
  | none => none
  | some g =>
    match scratchData g.scratch (x.ring + 128 * (x.head % x.depth)) 128 with
    | .error e => some e
    | .ok _ => none
/-- The error among a word's operands that cannot be corrected (R141, R157, R296). -/
def operandStop (s : State) (r : Run) (i : Instr) : Option Stop :=
  if readsBad s r i then some (.trap 0x0C (if r.ref.slice then 0x0007 else 0x0002) 0)
  else (streamReads i).findSome? (entryBad s r)

/-- A long instruction stands between two elements, and its launch is being pre-empted, or its task is to be replayed or to end by a trap: it
stops here (R39, R371, R372, R377). A DRAIN does so for the task alone (R218). -/
def stopsHere (s : State) (r : Run) : Bool :=
  (r.words[r.idx]?.any fun w => longOps.contains (opNat w)) &&
    ((longRun r && (launch? s r.ref.seq).any Launch.stopping) || ((wg? s (wgOf r.ref)).bind Workgroup.task).any fun t => t.ending.isSome)

/-- The next word of a clause in flight executes. A word without instruction passed no check; it stops its clause. -/
def stepWord (s : State) (r : Run) : Host.Outcome State Fault Refusal :=
  match runInstr r with
  | some i =>
    if !i.isInstruction then .next (stopRun s r (.trap codeIllegal (r.idx + 1) 0))
    else if stopsHere s r then .next (squash s r.ref)
    else
      match operandStop s r i with
      | some e => .next (stopRun s r e)
      | none => exec i s
  | none => .next (stopRun s r (.trap codeIllegal (r.idx + 1) 0))

/-- Where the words begin that wait for the FETCH at a clause's end: an irrevocable one before it, with its prefixes, is performed when every
other instruction has executed (R165; log 13). Without one, at the FETCH. -/
def lateFrom (ws : List DWord) : Nat :=
  let n := ws.length - 1
  match opAt ws n, opAt ws (n - 1) with
  | some 0xA0, some k =>
    if irrevocable.contains k then n - 1 - ((ws.take (n - 1)).reverse.takeWhile fun x => isPrefix (opNat x)).length else n
  | _, _ => n
/-- A clause passes over such words to its FETCH. -/
def passesOver (r : Run) : Bool := lateFrom r.words ≤ r.idx && r.idx + 1 < r.words.length

/-- The clause in flight goes on by one word. -/
def stepRun (s : State) : Host.Outcome State Fault Refusal :=
  match s.run with
  | none => .next s
  | some r => if passesOver r then .next { s with run := some { r with idx := r.words.length - 1 } } else stepWord s r

/-- A clause that has irrevocable words behind it, or has settled what its swarm had sent for a proposal: until it completes or waits no
other agent moves (R165, R247). -/
def locked (r : Run) : Bool :=
  ((r.words.take r.idx).any fun w => irrevocable.contains (opNat w)) || r.effects.contains (.settle true)

/-! Clauses that wait. -/

/-- A swarm holds its lane, and nothing stops it. -/
def onLane (s : State) (r : SwarmRef) : Bool := (swarm? s r).any fun w => (w.sched = .active || w.ref.slice) && !w.stopped
/-- A waiting clause goes on where it stands. -/
def resumeRun (s : State) (r : Run) : State :=
  continueRun { s with runs := s.runs.filter fun x => x.ref ≠ r.ref } { r with phase := .executing }
/-- A clause whose cell requests are all answered, of a swarm that holds its lane, goes on (R311). -/
def resumeRuns (s : State) : State :=
  match s.run, s.runs.find? fun r => r.phase = .cellWait [] && onLane s r.ref with
  | none, some r => resumeRun s { r with imx := none, msk := none }
  | _, _ => s

/-- The clause of a swarm that a dependence holds in flight. -/
def stalledRun (s : State) (r : SwarmRef) : Option Run := s.runs.find? fun x => x.ref = r && x.phase = .stalled && onLane s r
/-- It tries again: its word, or its completion. -/
def retryRun (s : State) (r : Run) : State :=
  let t := resumeRun s r
  if t.run.any fun x => x.ref = r.ref then (match stepRun t with | .next u => u | _ => t) else t
/-- The dependence is met. -/
def progresses (s : State) (r : Run) : Bool :=
  !((retryRun s r).runs.any fun x => x.ref = r.ref && x.phase = .stalled && x.idx = r.idx)

/-! Serving fetches (R346, R351). -/

/-- The words of a waiting clause from where it stands up to its FETCH: the machine and the clause there, or, when one of them stops it, what
it leaves. -/
def runLate : Nat → State → Run → Except State (State × Run)
  | 0, s, r => .ok (s, r)
  | n + 1, s, r =>
    if r.words.length ≤ r.idx + 1 then .ok (s, r)
    else
      match stepWord { s with run := some r } r with
      | .next t => (match t.run with
        | some r1 => if r1.ref = r.ref then runLate n { t with run := none } r1 else .error t
        | none => .error t)
      | _ => .error s
/-- The same from the first word that waited for the FETCH. -/
def lateWords (s : State) (r : Run) : Except State (State × Run) :=
  runLate r.words.length s { r with idx := lateFrom r.words, phase := .executing }
/-- A waiting clause is done but for its FETCH; or what stops it: a word of its own, or an effect. -/
def finishWords (s : State) (r : Run) : Except (Run × Option Stop) State :=
  match lateWords s r with
  | .error _ => .error (r, none)
  | .ok (s1, r1) =>
    match commitFetch s1 r1 with
    | .error e => .error (r, some e)
    | .ok s2 => .ok s2

/-- Serve a ready fetch whose clauses are done but for their FETCHes: a tile, a tile's tie-breaking run, or none (R346, R351, R375). -/
def dispenseTo (s : State) (g : WgRef) (w : Workgroup) (l : Launch) (runs : List Run) : State :=
  let s := { s with lastFetch := some (s.cycle, fetchKey s g) }
  let of (q : WgRef) : List Run := runs.filter fun r => wgOf r.ref = q
  match w.twin.twin, eligibleTie l g with
  | none, _ =>
    let (tile, s1) := dispense s g.seq
    finishFetch s1 g (of g) l tile 0 false
  | some t, some tie =>
    let s1 := modLaunch s g.seq fun l => { l with ties := l.ties.map fun x => if x = tie then { x with dispatched := true } else x }
    finishFetch (finishFetch s1 g (of g) l (some tie.tile) 0 true) t (of t) l (some tie.tile) 0 true
  | some t, none =>
    let (tile, s1) := dispense s g.seq
    finishFetch (finishFetch s1 g (of g) l tile 0 false) t (of t) l tile 0 false

/-- SERVE A FETCH of a workgroup that is ready when its turn has come. Its swarms' saved stacks are read first (R369), and its clauses' other
words take effect; a clause that stops there traps or is held, or the fetch waits. -/
def tryFetch (s : State) (g : WgRef) : State :=
  if !fetchReady s g || !fetchTurn s g then s
  else
    match wg? s g, launch? s g.seq with
    | some w, some l =>
      let runs := fetchRuns s g ++ (w.twin.twin.map (fetchRuns s)).getD []
      let rest (p : Run → Bool) : State := { s with runs := s.runs.filter fun x => !p x }
      (match runs.findSome? fun r => ((swarm? s r.ref).bind fun x => stackStop s x x.dsDepth false).map fun e => (r, e) with
        | some (r, .trap c d a) => takeTrap s r.ref ⟨c, d, 0, r.pc, a, 0, 0⟩
        | some (r, e) => holdEngine s r.ref stackName e
        | none =>
          match runs.foldlM finishWords (rest runs.contains) with
          | .ok s1 => dispenseTo s1 g w l runs
          | .error (_, some .wait) => s
          | .error (r, some e) => stopRun s r e
          | .error (r, none) => (match lateWords (rest (· = r)) r with | .error t => t | .ok _ => s))
    | _, _ => s
/-- A workgroup's fetch can be served now, or stops. -/
def canServe (s : State) (g : WgRef) : Bool := fetchReady s g && fetchTurn s g && tryFetch s g ≠ s

/-- A SWARM MOVES: the clause that a dependence held tries again, the fetch it waits at is served, or its next clause issues. -/
def moveSwarm (s : State) (r : SwarmRef) : Host.Outcome State Fault Refusal :=
  match stalledRun s r with
  | some x => .next (retryRun s x)
  | none => if (fetchRuns s (wgOf r)).any fun x => x.ref = r then .next (tryFetch s (primaryOf s (wgOf r))) else stepRun (issueClause s r)

/-! The machine's own moves. -/

/-- What is due before anything else between clauses: the diversion of a launch, its watchdog's expiry (R358, R383). -/
def dueEvent (s : State) : Option Instr :=
  match s.launches.find? (diversionDue s), s.launches.find? (watchdogDue s) with
  | some l, _ => some (.diversion l.id)
  | none, some l => some (.watchdogExpiry l.id)
  | none, none => none

/-- The events an agent inside the module may make of itself, over what State holds. What the host, the firmware's choices, the fabric
and the physical world do comes by the agenda. -/
def ownEvents (s : State) : List Instr :=
  let cores := (s.swarms.map fun w => w.ref.core).eraseDups
  let lanes := (s.swarms.map fun w => (w.ref.core, w.lane)).eraseDups
  (s.swarms.filter fun w => w.sched = .waiting).map (fun w => .waitConditionMet w.ref) ++
  lanes.map (fun l => .activeSlotFill l.1 l.2) ++
  lanes.map (fun l => .forcedSwap l.1 l.2) ++
  ((s.swarms.filter fun w => w.inTeam && !w.ref.slice).map fun w => (wgOf w.ref, w.team)).eraseDups.map (fun t => .teamEntry t.1 t.2) ++
  (s.cores.map fun c => c.wcb.map fun e => Instr.wcEntryAgeDrain c.idx e.pa).flatten ++
  s.asyncs.map (fun x => match x.kind with
    | .cpin .. | .cpout .. => .copyComplete x.id
    | .cpob .. => .cpobComplete x.id
    | .flush .. => .flushComplete x.id) ++
  (s.runs.filter fun r => r.phase = .arrived).map (fun r => .mmaAccept r.ref) ++
  s.mmas.map (fun m => .mmaResultWrite m.id) ++
  cores.map (fun c => .accumulatorReclaim c) ++
  s.atomics.map (fun x => .atomicUnitRequest x.id) ++
  (if s.announcements.isEmpty then [] else [.announcementDelivery]) ++
  (s.dies.map fun d => d.fetches.map fun f => Instr.sectorFetchReply f.id).flatten ++
  s.cellWaits.map (fun c => .cellRequestAtHome c.id) ++
  (s.swarms.map fun w => (List.range 16).filterMap fun k =>
    if (w.streams.getD k Stream.unbound).bound then some (Instr.walkEntryGenerate w.ref k) else none).flatten ++
  (cores.map clusterOf).eraseDups.map (fun c => .sliceContextGrant c) ++
  (s.wgs.filter fun g => g.task.isSome).map (fun g => .taskEnd g.ref) ++
  (s.wgs.filter fun g => g.task.isSome).map (fun g => .taskReplay g.ref) ++
  (s.wgs.filter fun g => g.task.isSome).map (fun g => .trapWithoutReplay g.ref) ++
  (s.wgs.filter fun g => g.twin.twin.isSome).map (fun g => .tiebreakTimeout g.ref) ++
  ((s.launches.filter Launch.stopping).map fun l => Instr.preemption l.id) ++
  (if s.fwPending.isSome then [.deferredActivation] else []) ++
  ((s.fabric.heldPackets.filter fun h => h.1 ≠ 0).map fun h => (packetEvent h.2 0).toList).flatten ++
  (s.queues.map fun q => [Instr.nopCommand q.num, .launch q.num, .signal q.num, .extensionRefill q.num]).flatten ++
  (s.launches.map fun l => [Instr.launchPlacement l.id, .launchComplete l.id, .contextRestore l.id]).flatten ++
  [.mappingEvaluation] ++
  (List.range s.dies.length).map (fun d => .pageRequestRetry d) ++
  (List.range s.dies.length).map (fun d => .holdRetry d) ++
  (s.views.map fun v => v.ctx).eraseDups.map (fun c => .viewEnded c) ++
  s.fabric.transfers.map (fun t => .transferAckTimeout t.id) ++
  (s.fabric.remoteCells.map RemoteCell.wire).eraseDups.map (fun w => .cellReplyTimeout w) ++
  s.fabric.peers.map (fun p => .suspicionTimeout p.num) ++
  (if s.fabric.fence.isSome then [.fenceTimeout] else []) ++
  (List.range ((s.fabric.reel.map fun r => r.stripes.length).getD 0)).map (fun k => .stripeTimeout k) ++
  (if s.fabric.current.mods.isEmpty && s.fabric.watch.isEmpty then [] else [.heartbeatTimer])

/-- An event that would change the machine now. -/
def wouldMove (s : State) (e : Instr) : Bool :=
  match exec e s with
  | .next t => t ≠ s
  | _ => false

/-- The swarms that can move: those whose next clause can issue or would leave their lane, held clauses whose dependence is met, and one of
each workgroup whose fetch can be served. -/
def readySwarms (s : State) : List SwarmRef :=
  ((s.swarms.filter fun w => mayIssue s w && (canGo s w || w.waitFrom.isNone || leaveLane s w ≠ s)).map Swarm.ref) ++
  ((s.runs.filter fun r => r.phase = .stalled && onLane s r.ref && progresses s r).map Run.ref) ++
  (s.wgs.filter fun g => canServe s g.ref).filterMap fun g => (fetchRuns s g.ref).head?.map Run.ref
/-- The moves open to the machine: its swarms', and its own events. -/
def openMoves (s : State) : List Move := (readySwarms s).map Move.issue ++ ((ownEvents s).filter (wouldMove s)).map Move.event

/-- One of the open moves: free when there are several (log 2). -/
def pickMove (s : State) : Option Move :=
  match openMoves s with
  | [] => none
  | [m] => some m
  | ms => ms[Config.freeNat s.fresh % ms.length]?

/-- One move. -/
def makeMove (s : State) (m : Move) : Host.Outcome State Fault Refusal :=
  match m with
  | .event e => if e.isInstruction then .next s else exec e s
  | .issue r => moveSwarm s r
  | .upset u => .next (upset u s)
  | .service x => .next (serve x s)
/-- A move that waits for the clause in flight to complete or to wait. -/
def Move.patient : Move → Bool
  | .issue _ | .service _ => true
  | .event _ | .upset _ => false

/-- The machine moves when no clause is locked: what is due; else the agenda's next move; else the clause in flight goes on; else a move of
the machine's own; else only time passes. -/
def moveFree (s : State) : Host.Outcome State Fault Refusal :=
  match dueEvent s, s.agenda with
  | some e, _ => exec e s
  | none, m :: rest => if m.patient && s.run.isSome then stepRun s else makeMove { s with agenda := rest } m
  | none, [] =>
    if s.run.isSome then stepRun s
    else
      match pickMove s with
      | none => .next s
      | some m => makeMove s m
/-- What follows of itself from the time that has passed: a slice that is too full gives up a line, noted waits are looked at again, and a
waiting clause whose replies are there goes on. -/
def settled (s : State) : State := resumeRuns (reviewWaits (evictLine s))
/-- Once time has passed, one agent makes one move: a launch that has overrun stops, and no clause completes before that (R360); a locked clause
goes on by itself. -/
def moveOnce (s : State) : Host.Outcome State Fault Refusal :=
  match s.launches.find? (overrunDue s) with
  | some l => exec (.deadlineOverrun l.id) s
  | none => if (settled s).run.any locked then stepRun (settled s) else moveFree (settled s)

end Sys2Proof.Machine
end

