-- ==== Sys2Proof/Machine/Step.lean ====
section
/-! DEFINITION. One step of the machine: time passes, and one agent makes one move (log 2, log 5). -/

namespace Sys2Proof.Machine

/-- ONE STEP. -/
def step (s : State) : Host.Outcome State Fault Refusal := moveOnce (tick s)

/-! A program's place, for State.withFetchWord. -/

/-- Where the program placed from outside stands: context, code address, physical address. -/
def placedCtx : Nat := 1
def placedVa : Nat := 0x100000
def placedPa : Nat := 0x100000

/-- The clause that holds a word: the word, and for a prefix the instruction it stands before. -/
def placedWords (w : DWord) : List DWord :=
  if opNat w = 0xE0 then [w, 0x1000000000300000] else if opNat w = 0xE1 then [w, 0x3400000000000000] else [w]

/-- The header of such a clause: its engine class, no wait. -/
def placedHeader (w : DWord) : DWord :=
  let engine := (classOf (opcodeOf w)).getD (if isPrefix (opNat w) then 0 else 3)
  BitVec.ofNat 64 (0xF * 2 ^ 60 + engine * 2 ^ 56 + ((placedWords w).length - 1) * 2 ^ 52 + 63 * 2 ^ 43 + 63 * 2 ^ 34)

/-- The launch, workgroup and swarm that run it. -/
def placedDesc : LaunchDesc :=
  ⟨BitVec.ofNat 64 placedVa, Config.noneAddr, Config.noneAddr, 0, 0, 0, 0, 0, 0, 1, 0, 0, 0, 0, 1, 1, false, false, 1, 0, 0, 128, 128,
   4096, 0, 64, 256, 0, 0, 0⟩
def placedLaunch (id seq : Nat) : Launch :=
  ⟨id, 0, 0, placedCtx, false, placedDesc, .resident, false, seq, seq % 2 ^ 16, List.replicate 16 none, 0, [], [],
   0, 0, 0, 0, 0, false, 0, 0, 0, 0, false, none, []⟩
def placedWg (g : WgRef) : Workgroup where
  ref := g
  ctx := placedCtx
  index := 0
  laneBase := 0
  swarms := 1
  teamSize := 0
  teamCount := 0
  accs := 64
  scratch := ⟨4096, 0, [], 0, []⟩
  scratchBase := 0
  obufBase := 0
  frozen := false
  obufGranules := 256
  obuf := []
  obufBad := []
  records := List.replicate 16 none
  names := List.replicate 64 none
  exc := [0, 0, 0, 0]
  excShadow := [0, 0, 0, 0]
  barriers := []
  seated := []
  task := none
  fetches := 0
  twin := ⟨none, false, false, none⟩
  begun := false
  ended := false
  entry := BitVec.ofNat 64 placedVa
  sliceEntry := Config.noneAddr
  wrapup := Config.noneAddr
def placedSwarm (g : WgRef) : Swarm :=
  { Swarm.fresh ⟨g.seq, g.core, 0, false⟩ 0 0 0 false (BitVec.ofNat 64 placedVa) 1 with rsv := 128, rmax := 128, sched := .active }

/-- s with the word stored where the next step fetches and runs it: a launch of one swarm on core 0 whose entry is a clause that holds
the word, its code page mapped, and the agenda's first move the issue of that clause. It stands for the load of a program from outside
(log 21). -/
def State.withFetchWord (s : State) (_nbits w : Nat) : State :=
  let g : WgRef := ⟨s.nextSeq, 0⟩
  let x : DWord := BitVec.ofNat 64 w
  let code := ((placedHeader x :: placedWords x).map fun v => natToBytes 8 v.toNat).flatten
  { s with
    mem := memWrite s.mem placedPa code
    dirty := (placedPa / 256) :: s.dirty
    dies := s.dies.modify 0 fun d => { d with tlb := ⟨placedCtx, placedVa, 4096, placedPa, false, true, false, none, none, false⟩ :: d.tlb }
    launches := s.launches ++ [placedLaunch s.nextId s.nextSeq]
    wgs := s.wgs ++ [placedWg g]
    swarms := s.swarms ++ [placedSwarm g]
    nextSeq := s.nextSeq + 1
    nextId := s.nextId + 1
    run := none
    agenda := .issue (placedSwarm g).ref :: s.agenda }

end Sys2Proof.Machine
end

