-- ==== Sys2Proof/Laws/Decode.lean ====
section
/-! SUPPORT. The word of an opcode and its fields gives both back, and every word is that of its opcode and fields. -/

namespace Sys2Proof

theorem opcodeOf_toWord (op : BitVec 8) (f : Fields) : opcodeOf (f.toWord op) = op := by
  unfold opcodeOf Fields.toWord
  repeat rw [BitVec.extractLsb'_append_eq_of_le (by decide)]
  exact BitVec.extractLsb'_eq_self

theorem toWord_dst (op : BitVec 8) (f : Fields) : (f.toWord op).extractLsb' 48 8 = f.dst := by
  unfold Fields.toWord
  repeat rw [BitVec.extractLsb'_append_eq_of_le (by decide)]
  rw [BitVec.extractLsb'_append_eq_of_add_le (by decide)]
  exact BitVec.extractLsb'_eq_self

theorem toWord_opa (op : BitVec 8) (f : Fields) : (f.toWord op).extractLsb' 40 8 = f.opa := by
  unfold Fields.toWord
  repeat rw [BitVec.extractLsb'_append_eq_of_le (by decide)]
  rw [BitVec.extractLsb'_append_eq_of_add_le (by decide)]
  exact BitVec.extractLsb'_eq_self

theorem toWord_opb (op : BitVec 8) (f : Fields) : (f.toWord op).extractLsb' 32 8 = f.opb := by
  unfold Fields.toWord
  repeat rw [BitVec.extractLsb'_append_eq_of_le (by decide)]
  rw [BitVec.extractLsb'_append_eq_of_add_le (by decide)]
  exact BitVec.extractLsb'_eq_self

theorem toWord_opc (op : BitVec 8) (f : Fields) : (f.toWord op).extractLsb' 24 8 = f.opc := by
  unfold Fields.toWord
  repeat rw [BitVec.extractLsb'_append_eq_of_le (by decide)]
  rw [BitVec.extractLsb'_append_eq_of_add_le (by decide)]
  exact BitVec.extractLsb'_eq_self

theorem toWord_tyc (op : BitVec 8) (f : Fields) : (f.toWord op).extractLsb' 20 4 = f.tyc := by
  unfold Fields.toWord
  repeat rw [BitVec.extractLsb'_append_eq_of_le (by decide)]
  rw [BitVec.extractLsb'_append_eq_of_add_le (by decide)]
  exact BitVec.extractLsb'_eq_self

theorem toWord_opx (op : BitVec 8) (f : Fields) : (f.toWord op).extractLsb' 14 6 = f.opx := by
  unfold Fields.toWord
  repeat rw [BitVec.extractLsb'_append_eq_of_le (by decide)]
  rw [BitVec.extractLsb'_append_eq_of_add_le (by decide)]
  exact BitVec.extractLsb'_eq_self

theorem toWord_rnd (op : BitVec 8) (f : Fields) : (f.toWord op).extractLsb' 10 3 = f.rnd := by
  unfold Fields.toWord
  repeat rw [BitVec.extractLsb'_append_eq_of_le (by decide)]
  rw [BitVec.extractLsb'_append_eq_of_add_le (by decide)]
  exact BitVec.extractLsb'_eq_self

theorem toWord_lr (op : BitVec 8) (f : Fields) : (f.toWord op).extractLsb' 7 3 = f.lr := by
  unfold Fields.toWord
  repeat rw [BitVec.extractLsb'_append_eq_of_le (by decide)]
  rw [BitVec.extractLsb'_append_eq_of_add_le (by decide)]
  exact BitVec.extractLsb'_eq_self

theorem toWord_guard (op : BitVec 8) (f : Fields) : (f.toWord op).extractLsb' 0 7 = f.guard := by
  unfold Fields.toWord
  rw [BitVec.extractLsb'_append_eq_of_add_le (by decide)]
  exact BitVec.extractLsb'_eq_self

theorem toWord_ge (op : BitVec 8) (f : Fields) : (f.toWord op).getLsbD 13 = f.ge := by
  unfold Fields.toWord
  repeat rw [BitVec.getLsbD_append]
  simp

/-- The fields of a word formed from fields. -/
theorem ofWord_toWord (op : BitVec 8) (f : Fields) : Fields.ofWord (f.toWord op) = f := by
  unfold Fields.ofWord
  rw [toWord_dst, toWord_opa, toWord_opb, toWord_opc, toWord_tyc, toWord_opx, toWord_ge, toWord_rnd, toWord_lr, toWord_guard]

/-- A word is that of its opcode and its fields. -/
theorem toWord_ofWord (w : DWord) : (Fields.ofWord w).toWord (opcodeOf w) = w := by
  apply BitVec.eq_of_getLsbD_eq
  intro i hi
  simp only [Fields.toWord, Fields.ofWord, opcodeOf, BitVec.getLsbD_append, BitVec.getLsbD_extractLsb', BitVec.getLsbD_ofBool]
  repeat' split
  all_goals try simp only [*, decide_true, Bool.true_and]
  all_goals first
    | (congr 1; omega)
    | (rw [decide_eq_true (by omega)]; simp only [Bool.true_and]; congr 1; omega)

/-- The word of an instruction decodes to it, when its opcode is the map's. -/
theorem decodeWord_toWord {i : Instr} {op : BitVec 8} {f : Fields} (h : Instr.ofOpcode op.toNat f = some i) :
    decodeWord (f.toWord op) = .ok i := by
  unfold decodeWord
  rw [opcodeOf_toWord, ofWord_toWord, h]

end Sys2Proof
end

