-- ==== Sys2Proof/Laws/PerInstr.lean ====
section
/-! SUPPORT. The family RoundTrip, instruction by instruction: the word an instruction encodes to decodes to it; an event has no word. -/

namespace Sys2Proof.Laws.RoundTrip

/-- The word of an instruction, when it has one, decodes to the instruction itself. -/
def Statement (i : Instr) : Prop := ∀ w, encode i = some w → decodeWord w = .ok i

theorem of_opcode {i : Instr} {op : BitVec 8} {f : Fields} (e : i.opcode = some (op, f)) (h : Instr.ofOpcode op.toNat f = some i) :
    Statement i := by
  intro w hw
  simp only [encode, e, Option.map_some, Option.some.injEq] at hw
  subst hw
  exact decodeWord_toWord h

theorem of_event {i : Instr} (e : i.opcode = none) : Statement i := by
  intro w hw
  simp [encode, e] at hw

theorem iaddReg (f : Fields) : Statement (.iaddReg f) := of_opcode rfl rfl
theorem iaddImm (f : Fields) : Statement (.iaddImm f) := of_opcode rfl rfl
theorem isubReg (f : Fields) : Statement (.isubReg f) := of_opcode rfl rfl
theorem isubImm (f : Fields) : Statement (.isubImm f) := of_opcode rfl rfl
theorem imulReg (f : Fields) : Statement (.imulReg f) := of_opcode rfl rfl
theorem imulImm (f : Fields) : Statement (.imulImm f) := of_opcode rfl rfl
theorem imulh (f : Fields) : Statement (.imulh f) := of_opcode rfl rfl
theorem imad (f : Fields) : Statement (.imad f) := of_opcode rfl rfl
theorem iminReg (f : Fields) : Statement (.iminReg f) := of_opcode rfl rfl
theorem iminImm (f : Fields) : Statement (.iminImm f) := of_opcode rfl rfl
theorem imaxReg (f : Fields) : Statement (.imaxReg f) := of_opcode rfl rfl
theorem imaxImm (f : Fields) : Statement (.imaxImm f) := of_opcode rfl rfl
theorem iabs (f : Fields) : Statement (.iabs f) := of_opcode rfl rfl
theorem addc (f : Fields) : Statement (.addc f) := of_opcode rfl rfl
theorem subb (f : Fields) : Statement (.subb f) := of_opcode rfl rfl
theorem iaddw (f : Fields) : Statement (.iaddw f) := of_opcode rfl rfl
theorem imadw (f : Fields) : Statement (.imadw f) := of_opcode rfl rfl
theorem idot4 (f : Fields) : Statement (.idot4 f) := of_opcode rfl rfl
theorem isad (f : Fields) : Statement (.isad f) := of_opcode rfl rfl
theorem popc (f : Fields) : Statement (.popc f) := of_opcode rfl rfl
theorem clz (f : Fields) : Statement (.clz f) := of_opcode rfl rfl
theorem andReg (f : Fields) : Statement (.andReg f) := of_opcode rfl rfl
theorem andImm (f : Fields) : Statement (.andImm f) := of_opcode rfl rfl
theorem orReg (f : Fields) : Statement (.orReg f) := of_opcode rfl rfl
theorem orImm (f : Fields) : Statement (.orImm f) := of_opcode rfl rfl
theorem xorReg (f : Fields) : Statement (.xorReg f) := of_opcode rfl rfl
theorem xorImm (f : Fields) : Statement (.xorImm f) := of_opcode rfl rfl
theorem tern (f : Fields) : Statement (.tern f) := of_opcode rfl rfl
theorem shlReg (f : Fields) : Statement (.shlReg f) := of_opcode rfl rfl
theorem shlImm (f : Fields) : Statement (.shlImm f) := of_opcode rfl rfl
theorem shrReg (f : Fields) : Statement (.shrReg f) := of_opcode rfl rfl
theorem shrImm (f : Fields) : Statement (.shrImm f) := of_opcode rfl rfl
theorem sarReg (f : Fields) : Statement (.sarReg f) := of_opcode rfl rfl
theorem sarImm (f : Fields) : Statement (.sarImm f) := of_opcode rfl rfl
theorem fshlReg (f : Fields) : Statement (.fshlReg f) := of_opcode rfl rfl
theorem fshlImm (f : Fields) : Statement (.fshlImm f) := of_opcode rfl rfl
theorem fshrReg (f : Fields) : Statement (.fshrReg f) := of_opcode rfl rfl
theorem fshrImm (f : Fields) : Statement (.fshrImm f) := of_opcode rfl rfl
theorem brev (f : Fields) : Statement (.brev f) := of_opcode rfl rfl
theorem bfxReg (f : Fields) : Statement (.bfxReg f) := of_opcode rfl rfl
theorem bfxImm (f : Fields) : Statement (.bfxImm f) := of_opcode rfl rfl
theorem bfiReg (f : Fields) : Statement (.bfiReg f) := of_opcode rfl rfl
theorem bfiImm (f : Fields) : Statement (.bfiImm f) := of_opcode rfl rfl
theorem perm (f : Fields) : Statement (.perm f) := of_opcode rfl rfl
theorem sel (f : Fields) : Statement (.sel f) := of_opcode rfl rfl
theorem mov (f : Fields) : Statement (.mov f) := of_opcode rfl rfl
theorem movi (f : Fields) : Statement (.movi f) := of_opcode rfl rfl
theorem p2v (f : Fields) : Statement (.p2v f) := of_opcode rfl rfl
theorem v2p (f : Fields) : Statement (.v2p f) := of_opcode rfl rfl
theorem icmp (f : Fields) : Statement (.icmp f) := of_opcode rfl rfl
theorem fcmp (f : Fields) : Statement (.fcmp f) := of_opcode rfl rfl
theorem plop (f : Fields) : Statement (.plop f) := of_opcode rfl rfl
theorem pick (f : Fields) : Statement (.pick f) := of_opcode rfl rfl
theorem pgath (f : Fields) : Statement (.pgath f) := of_opcode rfl rfl
theorem sred (f : Fields) : Statement (.sred f) := of_opcode rfl rfl
theorem redl (f : Fields) : Statement (.redl f) := of_opcode rfl rfl
theorem cvt (f : Fields) : Statement (.cvt f) := of_opcode rfl rfl
theorem qpack (f : Fields) : Statement (.qpack f) := of_opcode rfl rfl
theorem qunpk (f : Fields) : Statement (.qunpk f) := of_opcode rfl rfl
theorem qscale (f : Fields) : Statement (.qscale f) := of_opcode rfl rfl
theorem pradd (f : Fields) : Statement (.pradd f) := of_opcode rfl rfl
theorem prmul (f : Fields) : Statement (.prmul f) := of_opcode rfl rfl
theorem prfma (f : Fields) : Statement (.prfma f) := of_opcode rfl rfl
theorem faddReg (f : Fields) : Statement (.faddReg f) := of_opcode rfl rfl
theorem faddImm (f : Fields) : Statement (.faddImm f) := of_opcode rfl rfl
theorem fmulReg (f : Fields) : Statement (.fmulReg f) := of_opcode rfl rfl
theorem fmulImm (f : Fields) : Statement (.fmulImm f) := of_opcode rfl rfl
theorem ffmaReg (f : Fields) : Statement (.ffmaReg f) := of_opcode rfl rfl
theorem ffmaImm (f : Fields) : Statement (.ffmaImm f) := of_opcode rfl rfl
theorem fminReg (f : Fields) : Statement (.fminReg f) := of_opcode rfl rfl
theorem fminImm (f : Fields) : Statement (.fminImm f) := of_opcode rfl rfl
theorem fmaxReg (f : Fields) : Statement (.fmaxReg f) := of_opcode rfl rfl
theorem fmaxImm (f : Fields) : Statement (.fmaxImm f) := of_opcode rfl rfl
theorem fdiv (f : Fields) : Statement (.fdiv f) := of_opcode rfl rfl
theorem fsqrt (f : Fields) : Statement (.fsqrt f) := of_opcode rfl rfl
theorem frcp (f : Fields) : Statement (.frcp f) := of_opcode rfl rfl
theorem frsq (f : Fields) : Statement (.frsq f) := of_opcode rfl rfl
theorem fexp2 (f : Fields) : Statement (.fexp2 f) := of_opcode rfl rfl
theorem flog2 (f : Fields) : Statement (.flog2 f) := of_opcode rfl rfl
theorem bra (f : Fields) : Statement (.bra f) := of_opcode rfl rfl
theorem brx (f : Fields) : Statement (.brx f) := of_opcode rfl rfl
theorem beod (f : Fields) : Statement (.beod f) := of_opcode rfl rfl
theorem call (f : Fields) : Statement (.call f) := of_opcode rfl rfl
theorem ret (f : Fields) : Statement (.ret f) := of_opcode rfl rfl
theorem rejoin (f : Fields) : Statement (.rejoin f) := of_opcode rfl rfl
theorem exit (f : Fields) : Statement (.exit f) := of_opcode rfl rfl
theorem nop (f : Fields) : Statement (.nop f) := of_opcode rfl rfl
theorem getsr (f : Fields) : Statement (.getsr f) := of_opcode rfl rfl
theorem setsr (f : Fields) : Statement (.setsr f) := of_opcode rfl rfl
theorem grow (f : Fields) : Statement (.grow f) := of_opcode rfl rfl
theorem shrink (f : Fields) : Statement (.shrink f) := of_opcode rfl rfl
theorem setrestart (f : Fields) : Statement (.setrestart f) := of_opcode rfl rfl
theorem trap (f : Fields) : Statement (.trap f) := of_opcode rfl rfl
theorem bkpt (f : Fields) : Statement (.bkpt f) := of_opcode rfl rfl
theorem ld (f : Fields) : Statement (.ld f) := of_opcode rfl rfl
theorem st (f : Fields) : Statement (.st f) := of_opcode rfl rfl
theorem lds (f : Fields) : Statement (.lds f) := of_opcode rfl rfl
theorem sts (f : Fields) : Statement (.sts f) := of_opcode rfl rfl
theorem gather (f : Fields) : Statement (.gather f) := of_opcode rfl rfl
theorem scatter (f : Fields) : Statement (.scatter f) := of_opcode rfl rfl
theorem cpin (f : Fields) : Statement (.cpin f) := of_opcode rfl rfl
theorem cpout (f : Fields) : Statement (.cpout f) := of_opcode rfl rfl
theorem atom (f : Fields) : Statement (.atom f) := of_opcode rfl rfl
theorem atomv (f : Fields) : Statement (.atomv f) := of_opcode rfl rfl
theorem red (f : Fields) : Statement (.red f) := of_opcode rfl rfl
theorem prefetch (f : Fields) : Statement (.prefetch f) := of_opcode rfl rfl
theorem flush (f : Fields) : Statement (.flush f) := of_opcode rfl rfl
theorem invl1 (f : Fields) : Statement (.invl1 f) := of_opcode rfl rfl
theorem fence (f : Fields) : Statement (.fence f) := of_opcode rfl rfl
theorem fencex (f : Fields) : Statement (.fencex f) := of_opcode rfl rfl
theorem waitc (f : Fields) : Statement (.waitc f) := of_opcode rfl rfl
theorem qinit (f : Fields) : Statement (.qinit f) := of_opcode rfl rfl
theorem qpush (f : Fields) : Statement (.qpush f) := of_opcode rfl rfl
theorem qpop (f : Fields) : Statement (.qpop f) := of_opcode rfl rfl
theorem tbar (f : Fields) : Statement (.tbar f) := of_opcode rfl rfl
theorem propose (f : Fields) : Statement (.propose f) := of_opcode rfl rfl
theorem docrd (f : Fields) : Statement (.docrd f) := of_opcode rfl rfl
theorem recycle (f : Fields) : Statement (.recycle f) := of_opcode rfl rfl
theorem resv (f : Fields) : Statement (.resv f) := of_opcode rfl rfl
theorem rels (f : Fields) : Statement (.rels f) := of_opcode rfl rfl
theorem cpob (f : Fields) : Statement (.cpob f) := of_opcode rfl rfl
theorem mma (f : Fields) : Statement (.mma f) := of_opcode rfl rfl
theorem mmaw (f : Fields) : Statement (.mmaw f) := of_opcode rfl rfl
theorem accalloc (f : Fields) : Statement (.accalloc f) := of_opcode rfl rfl
theorem accfree (f : Fields) : Statement (.accfree f) := of_opcode rfl rfl
theorem acczero (f : Fields) : Statement (.acczero f) := of_opcode rfl rfl
theorem accrd (f : Fields) : Statement (.accrd f) := of_opcode rfl rfl
theorem accwr (f : Fields) : Statement (.accwr f) := of_opcode rfl rfl
theorem drain (f : Fields) : Statement (.drain f) := of_opcode rfl rfl
theorem wbind (f : Fields) : Statement (.wbind f) := of_opcode rfl rfl
theorem wreset (f : Fields) : Statement (.wreset f) := of_opcode rfl rfl
theorem fgstart (f : Fields) : Statement (.fgstart f) := of_opcode rfl rfl
theorem fgwait (f : Fields) : Statement (.fgwait f) := of_opcode rfl rfl
theorem spush (f : Fields) : Statement (.spush f) := of_opcode rfl rfl
theorem fetch (f : Fields) : Statement (.fetch f) := of_opcode rfl rfl
theorem commit (f : Fields) : Statement (.commit f) := of_opcode rfl rfl
theorem abandon (f : Fields) : Statement (.abandon f) := of_opcode rfl rfl
theorem enq (f : Fields) : Statement (.enq f) := of_opcode rfl rfl
theorem wrapret (f : Fields) : Statement (.wrapret f) := of_opcode rfl rfl
theorem rget (f : Fields) : Statement (.rget f) := of_opcode rfl rfl
theorem rput (f : Fields) : Statement (.rput f) := of_opcode rfl rfl
theorem mcast (f : Fields) : Statement (.mcast f) := of_opcode rfl rfl
theorem cred (f : Fields) : Statement (.cred f) := of_opcode rfl rfl
theorem genfence (f : Fields) : Statement (.genfence f) := of_opcode rfl rfl
theorem snap (f : Fields) : Statement (.snap f) := of_opcode rfl rfl
theorem join (f : Fields) : Statement (.join f) := of_opcode rfl rfl
theorem imx (f : Fields) : Statement (.imx f) := of_opcode rfl rfl
theorem msk (f : Fields) : Statement (.msk f) := of_opcode rfl rfl
theorem reconvergencePark (r : SwarmRef) : Statement (.reconvergencePark r) := of_event rfl
theorem waitConditionMet (r : SwarmRef) : Statement (.waitConditionMet r) := of_event rfl
theorem activeSlotFill (core lane : Nat) : Statement (.activeSlotFill core lane) := of_event rfl
theorem forcedSwap (core lane : Nat) : Statement (.forcedSwap core lane) := of_event rfl
theorem teamEntry (w : WgRef) (team : Nat) : Statement (.teamEntry w team) := of_event rfl
theorem scoreboardRebuild (r : SwarmRef) : Statement (.scoreboardRebuild r) := of_event rfl
theorem bankDrowsy (core lane bank : Nat) : Statement (.bankDrowsy core lane bank) := of_event rfl
theorem accRefreshSlot (core bank : Nat) (bad : List Nat) : Statement (.accRefreshSlot core bank bad) := of_event rfl
theorem wcEntryAgeDrain (core sector : Nat) : Statement (.wcEntryAgeDrain core sector) := of_event rfl
theorem copyComplete (id : Nat) : Statement (.copyComplete id) := of_event rfl
theorem cpobComplete (id : Nat) : Statement (.cpobComplete id) := of_event rfl
theorem flushComplete (id : Nat) : Statement (.flushComplete id) := of_event rfl
theorem mmaAccept (r : SwarmRef) : Statement (.mmaAccept r) := of_event rfl
theorem mmaResultWrite (id : Nat) : Statement (.mmaResultWrite id) := of_event rfl
theorem accumulatorReclaim (core : Nat) : Statement (.accumulatorReclaim core) := of_event rfl
theorem atomicUnitRequest (id : Nat) : Statement (.atomicUnitRequest id) := of_event rfl
theorem announcementDelivery : Statement (.announcementDelivery) := of_event rfl
theorem sectorFetchReply (id : Nat) : Statement (.sectorFetchReply id) := of_event rfl
theorem cellRequestAtHome (id : Nat) : Statement (.cellRequestAtHome id) := of_event rfl
theorem walkEntryGenerate (r : SwarmRef) (w : Nat) : Statement (.walkEntryGenerate r w) := of_event rfl
theorem sliceContextGrant (cluster : Nat) : Statement (.sliceContextGrant cluster) := of_event rfl
theorem taskEnd (w : WgRef) : Statement (.taskEnd w) := of_event rfl
theorem tiebreakTimeout (w : WgRef) : Statement (.tiebreakTimeout w) := of_event rfl
theorem taskReplay (w : WgRef) : Statement (.taskReplay w) := of_event rfl
theorem trapWithoutReplay (w : WgRef) : Statement (.trapWithoutReplay w) := of_event rfl
theorem doorbellWrite (q index : Nat) : Statement (.doorbellWrite q index) := of_event rfl
theorem nopCommand (q : Nat) : Statement (.nopCommand q) := of_event rfl
theorem launch (q : Nat) : Statement (.launch q) := of_event rfl
theorem signal (q : Nat) : Statement (.signal q) := of_event rfl
theorem launchPlacement (id : Nat) : Statement (.launchPlacement id) := of_event rfl
theorem launchComplete (id : Nat) : Statement (.launchComplete id) := of_event rfl
theorem mappingEvaluation : Statement (.mappingEvaluation) := of_event rfl
theorem extensionRefill (q : Nat) : Statement (.extensionRefill q) := of_event rfl
theorem diversion (id : Nat) : Statement (.diversion id) := of_event rfl
theorem deadlineOverrun (id : Nat) : Statement (.deadlineOverrun id) := of_event rfl
theorem watchdogExpiry (id : Nat) : Statement (.watchdogExpiry id) := of_event rfl
theorem preemption (id : Nat) : Statement (.preemption id) := of_event rfl
theorem contextRestore (id : Nat) : Statement (.contextRestore id) := of_event rfl
theorem deferredActivation : Statement (.deferredActivation) := of_event rfl
theorem pageRequestResponse (ctx group : Nat) (code : PrgCode) : Statement (.pageRequestResponse ctx group code) := of_event rfl
theorem pageRequestRetry (die : Nat) : Statement (.pageRequestRetry die) := of_event rfl
theorem holdRetry (die : Nat) : Statement (.holdRetry die) := of_event rfl
theorem migration (ctx va len : Nat) (p : MigrationStep) : Statement (.migration ctx va len p) := of_event rfl
theorem granuleCopyComplete (ctx view granule shadow : Nat) : Statement (.granuleCopyComplete ctx view granule shadow) := of_event rfl
theorem viewEnded (ctx : Nat) : Statement (.viewEnded ctx) := of_event rfl
theorem scrubVisit (die line : Nat) (found : List (Nat × Nat)) : Statement (.scrubVisit die line found) := of_event rfl
theorem moduleReset (planes : List Nat) : Statement (.moduleReset planes) := of_event rfl
theorem thermalThrottle (mhz : Nat) : Statement (.thermalThrottle mhz) := of_event rfl
theorem thermalShutdown : Statement (.thermalShutdown) := of_event rfl
theorem ptpMessage (offset : Int) : Statement (.ptpMessage offset) := of_event rfl
theorem syncLoss : Statement (.syncLoss) := of_event rfl
theorem mailboxInstallQueue (q : Nat) (desc : List Byte) : Statement (.mailboxInstallQueue q desc) := of_event rfl
theorem mailboxRemoveQueue (q : Nat) : Statement (.mailboxRemoveQueue q) := of_event rfl
theorem mailboxCancelLaunch (id : Nat) : Statement (.mailboxCancelLaunch id) := of_event rfl
theorem mailboxPreempt (id : Nat) : Statement (.mailboxPreempt id) := of_event rfl
theorem mailboxKillContext (ctx : Nat) : Statement (.mailboxKillContext ctx) := of_event rfl
theorem mailboxResumeSwarm (r : SwarmRef) (edit : SwarmEdit) : Statement (.mailboxResumeSwarm r edit) := of_event rfl
theorem mailboxFirmwareImage (layout : Nat) (signed : Bool) : Statement (.mailboxFirmwareImage layout signed) := of_event rfl
theorem mailboxTrapArea (ctx base entries idx vec : Nat) : Statement (.mailboxTrapArea ctx base entries idx vec) := of_event rfl
theorem trapReadIndexWrite (ctx index : Nat) : Statement (.trapReadIndexWrite ctx index) := of_event rfl
theorem mailboxWatchdogLimit (ctx limit : Nat) : Statement (.mailboxWatchdogLimit ctx limit) := of_event rfl
theorem mailboxCounterSelect (loc : CounterLoc) (k : Nat) (sel : Word) : Statement (.mailboxCounterSelect loc k sel) := of_event rfl
theorem mailboxCounterRead (loc : CounterLoc) (k : Nat) : Statement (.mailboxCounterRead loc k) := of_event rfl
theorem mailboxPowerCap (watts : Nat) : Statement (.mailboxPowerCap watts) := of_event rfl
theorem mailboxReenablePageRequests (ctx : Nat) : Statement (.mailboxReenablePageRequests ctx) := of_event rfl
theorem mailboxBindFabricOwner (ctx jobtag : Nat) (image : List Byte) : Statement (.mailboxBindFabricOwner ctx jobtag image) := of_event rfl
theorem mailboxWatchList (mods : List Nat) : Statement (.mailboxWatchList mods) := of_event rfl
theorem mailboxSuspectMap (addr : Nat) : Statement (.mailboxSuspectMap addr) := of_event rfl
theorem mailboxCollectiveArea (base size : Nat) : Statement (.mailboxCollectiveArea base size) := of_event rfl
theorem keyInstall (ctx : Nat) : Statement (.keyInstall ctx) := of_event rfl
theorem registerWriteIgnored (offset : Nat) (value : DWord) : Statement (.registerWriteIgnored offset value) := of_event rfl
theorem debugHalt (r : SwarmRef) : Statement (.debugHalt r) := of_event rfl
theorem debugResume (r : SwarmRef) : Statement (.debugResume r) := of_event rfl
theorem flitReceive (port : Nat) (flit : List Byte) : Statement (.flitReceive port flit) := of_event rfl
theorem rgetRequest (p : Packet) : Statement (.rgetRequest p) := of_event rfl
theorem rgetData (p : Packet) : Statement (.rgetData p) := of_event rfl
theorem rputData (p : Packet) : Statement (.rputData p) := of_event rfl
theorem acknowledgement (p : Packet) : Statement (.acknowledgement p) := of_event rfl
theorem transferAckTimeout (id : Nat) : Statement (.transferAckTimeout id) := of_event rfl
theorem contribution (p : Packet) : Statement (.contribution p) := of_event rfl
theorem switchResult (p : Packet) : Statement (.switchResult p) := of_event rfl
theorem cellRequest (p : Packet) : Statement (.cellRequest p) := of_event rfl
theorem cellReply (p : Packet) : Statement (.cellReply p) := of_event rfl
theorem cellReplyTimeout (id : Nat) : Statement (.cellReplyTimeout id) := of_event rfl
theorem heartbeat (port src : Nat) : Statement (.heartbeat port src) := of_event rfl
theorem heartbeatTimer : Statement (.heartbeatTimer) := of_event rfl
theorem suspicionTimeout (m : Nat) : Statement (.suspicionTimeout m) := of_event rfl
theorem fenceMarker (port src gen : Nat) : Statement (.fenceMarker port src gen) := of_event rfl
theorem fenceTimeout : Statement (.fenceTimeout) := of_event rfl
theorem killNotice (src tag : Nat) : Statement (.killNotice src tag) := of_event rfl
theorem killAck (src tag : Nat) : Statement (.killAck src tag) := of_event rfl
theorem stripeRequest (p : Packet) : Statement (.stripeRequest p) := of_event rfl
theorem stripeData (p : Packet) : Statement (.stripeData p) := of_event rfl
theorem stripeTimeout (k : Nat) : Statement (.stripeTimeout k) := of_event rfl
theorem atsTranslationCompletion (die ctx va : Nat) (result : Option Mapping) : Statement (.atsTranslationCompletion die ctx va result) := of_event rfl
theorem junctionTemperatureChange (core : Nat) (hot : Bool) : Statement (.junctionTemperatureChange core hot) := of_event rfl
theorem portUp (port : Nat) : Statement (.portUp port) := of_event rfl
theorem heartbeatMiss (peer port : Nat) : Statement (.heartbeatMiss peer port) := of_event rfl

end Sys2Proof.Laws.RoundTrip
end

