-- ==== Sys2Proof/Safety.lean ====
section
/-! DEFINITION. What a safe machine is, in the terms the claims use: its memories keep their canonical form; and the words in which the
claims say what one instruction does to the clause in flight. -/

namespace Sys2Proof.Machine

/-- The operand buffers of workgroups are in canonical form. -/
def obufsOk (l : List Workgroup) : Bool := l.all fun g => Memory.wf g.obuf

/-- The memories of a state are in canonical form: the homes' bytes, the bytes behind them, the host's, every operand buffer's, and
those of the launches saved by a pre-emption. -/
def State.memOk (s : State) : Bool :=
  Memory.wf s.mem && Memory.wf s.backing && Memory.wf s.host && obufsOk s.wgs &&
    s.launches.all fun l => (l.saved.map fun x => obufsOk x.wgs).getD true

/-- The clause in flight can write register n in the threads of a mask: no thread is to be written, or the register is mapped, or R35
grants it a physical register. -/
def canWrite (s : State) (r : Run) (n : Nat) (m : Mask) : Prop :=
  m = 0 ∨ (r.work.regs.getD n none).isSome = true ∨ (allocPhys s r).isSome = true

/-- It can write register n and then register n + 1. -/
def canWritePair (s : State) (r : Run) (n : Nat) (m : Mask) : Prop :=
  canWrite s r n m ∧ ∀ r1, writeReg s r n m (splat 0) = .ok r1 → canWrite s r1 (n + 1) m

/-- The machine t in which a word's effect on the clause is r: the clause stands before its next word; after the last word, when it can
commit, it has committed. -/
def goesOn (s : State) (r : Run) (t : State) : Prop :=
  (r.idx + 1 < r.words.length → t = { s with run := some (pastWord r) }) ∧
  ∀ u, r.words.length ≤ r.idx + 1 → r.arrival = none → commitRun s (pastWord r) = .ok u → t = u

/-- An instruction completes: exec answers the machine in which the clause in flight is r, and which u gives beside the clause. -/
def completesOn (i : Instr) (s u : State) (r : Run) : Prop := ∃ t, exec i s = .next t ∧ goesOn u r t
/-- It completes and changes the clause alone. -/
def completes (i : Instr) (s : State) (r : Run) : Prop := completesOn i s s r

/-- The clause r is the clause w but that register n has the values v in the threads of m (and its old ones in the others), is not to be
freed, the write is noted (a first write is one of all 32 threads, R33) with its uniform tag (R37), and the flags fl are raised, in a slice
none. A register keeps its physical register; its mirror is not said (R140, log 79). -/
def wroteReg (w : Run) (n : Nat) (m : Mask) (v : Nat → Word) (fl : BitVec 6) (r : Run) : Prop :=
  ∃ regs writes, r = { w with
      raised := if w.ref.slice then w.raised else w.raised ||| fl
      frees := if m = 0 then w.frees else w.frees.filter (· ≠ n)
      writes
      work := { w.work with regs } } ∧
    (m = 0 → regs = w.work.regs ∧ writes = w.writes) ∧
    (m ≠ 0 → ∃ x : VReg, regs = w.work.regs.set n (some x) ∧
      writes = w.writes ++ [(n, if (w.work.regs.getD n none).isSome then m else BitVec.allOnes 32, uniform x.vals)] ∧
      (∀ y, w.work.regs.getD n none = some y → x.phys = y.phys) ∧
      ∀ t, t < threads → laneAt x.vals t = if m.getLsbD t then v t else laneAt (regLanes w.work n) t)

/-- The same for a pair: the low word, then the high one. -/
def wrotePair (w : Run) (n : Nat) (m : Mask) (v : Nat → DWord) (fl : BitVec 6) (r : Run) : Prop :=
  ∃ x, wroteReg w n m (fun t => (v t).extractLsb' 0 32) 0 x ∧ wroteReg x (n + 1) m (fun t => (v t).extractLsb' 32 32) fl r

/-- The clause r is the clause w but that predicate n has the bits v in the threads of m, and its old ones in the others. -/
def wrotePred (w : Run) (n : Nat) (m : Mask) (v : Nat → Bool) (r : Run) : Prop :=
  ∃ x : Mask, r = { w with work := { w.work with preds := w.work.preds.set n x } } ∧
    ∀ t, t < threads → x.getLsbD t = if m.getLsbD t then v t else (w.work.preds.getD n 0).getLsbD t

/-- A vector instruction with the destination register d writes the values v and raises the flags fl, and completes; when R35 grants no
register it waits for one. -/
def writesWord (i : Instr) (f : Fields) (d : BitVec 8) (s : State) (r : Run) (v : Nat → Word) (fl : BitVec 6) : Prop :=
  (canWrite s r d.toNat (active r f) →
    ∃ r1, completes i s r1 ∧ wroteReg (noteReads s i r) d.toNat (active r f) v fl r1) ∧
  (¬canWrite s r d.toNat (active r f) → exec i s = .next (stopRun s r (.held 0 .regs)))

/-- The same for a destination pair. -/
def writesPair (i : Instr) (f : Fields) (d : BitVec 8) (s : State) (r : Run) (v : Nat → DWord) (fl : BitVec 6) : Prop :=
  (canWritePair s r d.toNat (active r f) →
    ∃ r1, completes i s r1 ∧ wrotePair (noteReads s i r) d.toNat (active r f) v fl r1) ∧
  (¬canWritePair s r d.toNat (active r f) → exec i s = .next (stopRun s r (.held 0 .regs)))

/-- A vector instruction writes predicate n (modulo 64, R32) in its active threads, raises the flags fl, and completes. -/
def writesPred (i : Instr) (f : Fields) (n : BitVec 8) (s : State) (r : Run) (v : Nat → Bool) (fl : BitVec 6) : Prop :=
  ∃ r1, completes i s (raise r1 fl) ∧ wrotePred (noteReads s i r) (n.toNat % 64) (active r f) v r1

end Sys2Proof.Machine
end

