-- ==== Sys2Proof/Certificates/Slice0/Obligations.lean ====
section
/-! DEFINITION. The statements about the machine that the provers prove. -/

namespace Sys2Proof.Claims

open Machine

/-- The value a thread reads from an operand code, and the 64 bits it reads from a pair (R7, R77). -/
def val (s : State) (r : Run) (c : BitVec 8) (t : Nat) : Word := laneAt (srcLanes s r c) t
def pairVal (s : State) (r : Run) (c : BitVec 8) (t : Nat) : DWord := laneAt (partLanes s r c 1) t ++ laneAt (partLanes s r c 0) t

/-- A bit pattern as an integer of a signedness. -/
def asInt {w : Nat} (signed : Bool) (x : BitVec w) : Int := if signed then x.toInt else x.toNat
/-- Element k of a packed word (R95). -/
def elem (ty : Ty) (x : Word) (k : Nat) : Int := asInt ty.signed (x.extractLsb' (ty.bits * k) ty.bits)
/-- The range of w-bit integers of a signedness (R51). -/
def least (signed : Bool) (w : Nat) : Int := if signed then -2 ^ (w - 1) else 0
def greatest (signed : Bool) (w : Nat) : Int := if signed then 2 ^ (w - 1) - 1 else 2 ^ w - 1
/-- fin(x) of R96: sat(x) or wrap(x) of R51, as an integer. -/
def fin (sat signed : Bool) (w : Nat) (x : Int) : Int :=
  if sat then max (least signed w) (min (greatest signed w) x) else if signed then Int.bmod x (2 ^ w) else x % 2 ^ w
/-- sat() changes x. -/
def leaves (signed : Bool) (w : Nat) (x : Int) : Prop := x < least signed w ∨ greatest signed w < x

/-- An instruction whose result's element k is fin of an exact integer, and that raises FSAT exactly when sat() changes one (R95, R96). -/
def elementwise (i : Instr) (f : Fields) (s : State) (r : Run) (sat : Bool) (x : Nat → Nat → Int) : Prop :=
  ∃ v fl, writesWord i f f.dst s r v fl ∧
    (∀ t, t < threads → (active r f).getLsbD t = true → ∀ k, k < 32 / f.ty.bits → elem f.ty (v t) k = fin sat f.ty.signed f.ty.bits (x t k)) ∧
    (fl = 0 ∨ fl = fsat) ∧
    (fl = fsat ↔ sat = true ∧ ∃ t k, t < threads ∧ (active r f).getLsbD t = true ∧ k < 32 / f.ty.bits ∧ leaves f.ty.signed f.ty.bits (x t k))

/-- The same for one 32-bit element whatever the TYPE's own width. -/
def wordwise (i : Instr) (f : Fields) (s : State) (r : Run) (sat : Bool) (x : Nat → Int) : Prop :=
  ∃ v fl, writesWord i f f.dst s r v fl ∧
    (∀ t, t < threads → (active r f).getLsbD t = true → asInt f.ty.signed (v t) = fin sat f.ty.signed 32 (x t)) ∧
    (fl = 0 ∨ fl = fsat) ∧
    (fl = fsat ↔ sat = true ∧ ∃ t, t < threads ∧ (active r f).getLsbD t = true ∧ leaves f.ty.signed 32 (x t))

/-- The same for a 64-bit result in a pair (R98). -/
def pairwise (i : Instr) (f : Fields) (s : State) (r : Run) (sat : Bool) (x : Nat → Int) : Prop :=
  ∃ v fl, writesPair i f f.dst s r v fl ∧
    (∀ t, t < threads → (active r f).getLsbD t = true → asInt f.ty.signed (v t) = fin sat f.ty.signed 64 (x t)) ∧
    (fl = 0 ∨ fl = fsat) ∧
    (fl = fsat ↔ sat = true ∧ ∃ t, t < threads ∧ (active r f).getLsbD t = true ∧ leaves f.ty.signed 64 (x t))

/-- Position and length of a bit-field descriptor (R103). -/
def fieldPos (d : Word) : Nat := min (d.extractLsb' 0 8).toNat 32
def fieldLen (d : Word) : Nat := min (d.extractLsb' 8 8).toNat (32 - fieldPos d)
/-- Bit k of BFX's and of BFI's result. -/
def bfxBit (signed : Bool) (a d : Word) (k : Nat) : Bool :=
  if k < fieldLen d then a.getLsbD (fieldPos d + k) else signed && decide (0 < fieldLen d) && a.getLsbD (fieldPos d + fieldLen d - 1)
def bfiBit (a b d : Word) (k : Nat) : Bool :=
  if fieldPos d ≤ k ∧ k < fieldPos d + fieldLen d then a.getLsbD (k - fieldPos d) else b.getLsbD k
/-- Byte k of PERM's result. -/
def permOf (a b c : Word) (k : Nat) : Byte :=
  let n := c.extractLsb' (4 * k) 4
  let j := (b ++ a).extractLsb' (8 * (n.extractLsb' 0 3).toNat) 8
  if n.getLsbD 3 then (if j.getLsbD 7 then 0xFF else 0) else j

/-- The number of ones of a word. -/
def ones (x : Word) : Nat := ((List.range 32).filter x.getLsbD).length

/-- The flags an FP result raises over the active threads. -/
def flagsOver (m : Mask) (g : Nat → Rounded) : BitVec 6 := flagsOf (results m g)
/-- An instruction that writes the rounded results g, with their flags. -/
def rounds (i : Instr) (f : Fields) (s : State) (r : Run) (g : Nat → Rounded) : Prop :=
  writesWord i f f.dst s r (fun t => BitVec.ofNat 32 (g t).bits) (flagsOver (active r f) g)

/-- The lowest-numbered thread of the issuing slot's MASK. -/
def lowest (r : Run) : Nat := (firstThread (runMask r)).getD 0
/-- ICMP's conditions (R105). -/
def compares (cond : Nat) (a b : Int) : Bool :=
  match cond with
  | 0 => a == b
  | 1 => a != b
  | 2 => decide (a < b)
  | 3 => decide (a ≤ b)
  | 4 => decide (b < a)
  | _ => decide (b ≤ a)
/-- The predicate a compare writes, by COMB (R105). -/
def combined (f : Fields) (old cmp : Bool) : Bool :=
  match (f.opx.extractLsb' 3 2).toNat with
  | 1 => cmp && old
  | 2 => cmp || old
  | _ => cmp
/-- The thread PICK names (R114). -/
def pickSource (rule t n : Nat) : Nat :=
  match rule with
  | 0 => n
  | 1 => (((t : Int) - n) % 32).toNat
  | 2 => t ^^^ n
  | _ => t &&& n
/-- What governs a result's rounding, the saturation selected by OPX bits 1:0 (R94, R107). -/
def fpCtx (s : State) (r : Run) (f : Fields) (t : Nat) : FCtx := fctx s r f (f.opx.extractLsb' 0 2).toNat t
/-- A result of two halves, each rounded by itself: the high half at pos {1, t} of R48. -/
def halves (s : State) (r : Run) (f : Fields) (t : Nat) (g : FCtx → Nat → Rounded) : Rounded :=
  let lo := g (fpCtx s r f t) 0
  let hi := g (fpCtx s r f (32 + t)) 16
  ⟨lo.bits + 2 ^ 16 * hi.bits, lo.flags ||| hi.flags⟩
/-- The five formats of R41. -/
def formats : List Fmt := [fmtF32, fmtF16, fmtBF16, fmtE5M2, fmtE4M3]
/-- A decoded value that is neither a NaN nor an infinity, and its value. -/
def finite (v : Val) : Prop := ∃ n m e, v = .fin n m e
def ratOf : Val → ℚ
  | .fin n m e => (if n then -1 else 1) * m * 2 ^ e
  | _ => 0
/-- R45, R48: a magnitude d spacings above the lower neighbour t goes to the larger. -/
def takesLarger (c : FCtx) (neg : Bool) (t : Nat) (d : ℚ) : Prop :=
  d ≠ 0 ∧ match c.mode with
    | 1 => 1 / 2 < d ∨ (d = 1 / 2 ∧ t % 2 = 1)
    | 2 => False
    | 3 => neg = true
    | 4 => neg = false
    | 5 => 1 / 2 ≤ d
    | _ => 2 ^ 32 ≤ ⌊d * 2 ^ 32⌋ + c.mix
/-- R46: an overflow. -/
def overflows (F : Fmt) (c : FCtx) (neg : Bool) (y : Rounded) : Prop :=
  (c.sat = true → y = ⟨F.maxFinite neg, fsat ||| finx⟩) ∧
  (c.sat = false → y = ⟨if c.mode = 2 ∨ (c.mode = 3 ∧ neg = false) ∨ (c.mode = 4 ∧ neg = true) then F.maxFinite neg else F.infinity neg,
    fovf ||| finx⟩)
/-- R43, R45, R46: y is ±x rounded to F: t and t + 1 are the neighbours of x in spacings of 2^q, F's exponent range having no upper limit, and r
is the one the mode takes. -/
def roundsTo (F : Fmt) (c : FCtx) (neg : Bool) (x : ℚ) (y : Rounded) : Prop :=
  ∃ (t r : Nat) (q : Int), t < 2 ^ (F.frac + 1) ∧ 1 - F.bias - F.frac ≤ q ∧ (q = 1 - F.bias - F.frac ∨ 2 ^ F.frac ≤ t) ∧
    t * 2 ^ q ≤ x ∧ x < (t + 1) * 2 ^ q ∧
    let d := x / 2 ^ q - t
    let out := (F.maxSig : ℚ) * 2 ^ F.maxExp < r * 2 ^ q
    let tiny := 0 < r ∧ r < 2 ^ F.frac
    (takesLarger c neg t d → r = t + 1) ∧ (¬takesLarger c neg t d → r = t) ∧ (out → overflows F c neg y) ∧
    (¬out → r = 0 → y = ⟨F.signBit neg, finx⟩) ∧ (¬out → tiny → c.ftz = true → y = ⟨F.signBit neg, funf ||| finx⟩) ∧
    (¬out → r ≠ 0 → (tiny → c.ftz = false) → y.bits < 2 ^ F.width ∧ (∃ n e, F.decode false y.bits = .fin neg n e ∧ (n : ℚ) * 2 ^ e = r * 2 ^ q) ∧
      (d = 0 → y.flags = 0) ∧ (d ≠ 0 → tiny → y.flags = finx ||| funf) ∧ (d ≠ 0 → ¬tiny → y.flags = finx))
/-- R61: the bits y are the group sum of the products of a list of pairs. -/
def groupSumIs (ps : List (Val × Val)) (y : Nat) : Prop :=
  let sign := fun p : Val × Val => p.1.neg != p.2.neg
  let invalid := fun p : Val × Val => p.1.isNan = true ∨ p.2.isNan = true ∨ (p.1.isInf = true ∧ p.2.isZero = true) ∨
    (p.1.isZero = true ∧ p.2.isInf = true)
  let infinite := fun p : Val × Val => p.1.isInf = true ∨ p.2.isInf = true
  let bad := (∃ p ∈ ps, invalid p) ∨ ((∃ p ∈ ps, infinite p ∧ sign p = true) ∧ ∃ p ∈ ps, infinite p ∧ sign p = false)
  (bad → y = 0x7FC00000) ∧ (∀ p ∈ ps, ¬bad → infinite p → y = if sign p then 0xFF800000 else 0x7F800000) ∧
  ((∀ p ∈ ps, finite p.1 ∧ finite p.2) →
    let v : ℚ := (ps.map fun p => ratOf p.1 * ratOf p.2).sum
    (v ≠ 0 → ∃ fl, roundsTo fmtF32 FCtx.engine (decide (v < 0)) |v| ⟨y, fl⟩) ∧ (v = 0 → y = if ∀ p ∈ ps, sign p = true then 2 ^ 31 else 0))
/-- 16 bits of a word from a bit on. -/
def half (x : Word) (o : Nat) : Nat := (x.extractLsb' o 16).toNat

/-- A combination of REDL in the tree, told its level and the lowest element index of its left operand (R117). -/
def redStep (s : State) (r : Run) (f : Fields) (l i x y : Nat) : Rounded :=
  redCombine f.ty (f.opx.extractLsb' 0 3).toNat (fctx s r f (f.opx.extractLsb' 4 2).toNat (32 * (l % 8) + i % 32)) x y
/-- The machine with REDL's work area at offset c cleared before the first element. -/
def redCleared (s : State) (r : Run) (f : Fields) (c : Nat) : State :=
  if r.work.prog ≠ 0 then s
  else
    let t := scratchPut s (wgOf r.ref) (c + 128) (List.replicate 16 0)
    if f.opx.getLsbD 3 then scratchPut t (wgOf r.ref) c Xs320.empty.image else t
/-- One element x performed on the work area of a scratchpad: the machine after it, and the flags it raises. -/
def redElement (s : State) (r : Run) (f : Fields) (sc : Scratch) (c x : Nat) : State × BitVec 6 :=
  let g := wgOf r.ref
  if f.opx.getLsbD 3 then
    let y := (Xs320.ofImage (scratchRead sc c 48)).addTerm x
    (scratchPut s g c y.1.image, y.2)
  else
    let k := RedWork.read sc c
    let y := k.put (redStep s r f) r.work.prog 32 0 x 0
    (scratchPut (scratchPut s g (c + 4 * k.level) (natToBytes 4 (y.1.slots.getD k.level 0))) g (c + 128) (natToBytes 4 y.1.present), y.2)
/-- The result read from the work area: of one FP32 element, that element as the format takes it (R43, R44). -/
def redResult (s : State) (r : Run) (f : Fields) (sc : Scratch) (c n : Nat) : Rounded :=
  if f.opx.getLsbD 3 then (Xs320.ofImage (scratchRead sc c 48)).read
  else if n = 1 ∧ f.ty = .f32 then
    fmtF32.lone (fctx s r f (f.opx.extractLsb' 4 2).toNat 0) ((RedWork.read sc c).slots.getD 0 0)
  else
    match (RedWork.read sc c).result (redStep s r f) n with
    | some (v, fl) => ⟨v, fl⟩
    | none => ⟨redIdentity f, 0⟩
/-- REDL's work area after a list of elements, and the flags raised. -/
def redFold (op : Nat → Nat → Nat → Nat → Rounded) (xs : List Nat) : RedWork × BitVec 6 :=
  xs.zipIdx.foldl (fun st x => let y := st.1.put op x.2 32 0 x.1 0; (y.1, st.2 ||| y.2)) (⟨List.replicate 32 0, 0⟩, 0)

/-- Bytes of a workgroup's scratchpad as its instructions read them, when no word of them has an error (R158, R284). -/
def seen (s : State) (g : Workgroup) (o n : Nat) : List Byte := match scratchSeen s g o n with | .ok b => b | .error _ => []
/-- A long instruction has performed its element: PROG rises, the flags its elements have raised stay with it, and its clause stays at its
word (R23, R24). -/
def onward (s : State) (r : Run) (fl : BitVec 6) : State :=
  let x := raise r fl
  { modSwarm s r.ref (fun w => { w with prog := r.work.prog + 1, progFlags := x.raised }) with
    run := some { x with work := { x.work with prog := r.work.prog + 1, progFlags := x.raised } } }
/-- The clause of a long instruction after its last element: PROG is 0. -/
def ended (r : Run) : Run := { r with work := { r.work with prog := 0, progFlags := 0 } }

/-- A Format D target (R75), and the address of the next clause (R67). -/
def target (r : Run) (f : Fields) : DWord := r.pc + (f.off32.signExtend 64 <<< 3)
def nextClause (r : Run) : DWord := r.pc + BitVec.ofNat 64 (8 * (r.words.length + 1))
/-- The target of each thread of MASK in a BRX or RET: its pair when it is active, else the next clause (R121). -/
def pairTargets (s : State) (r : Run) (f : Fields) : List (Nat × DWord) :=
  ((List.range threads).filter fun t => (runMask r).getLsbD t).map fun t =>
    (t, if (active r f).getLsbD t then pairVal s r f.opa t else nextClause r)
/-- A predicate is written in every thread of MASK when an instruction has a .NB form, else nothing is. -/
def told (r : Run) (nb : Bool) (n : BitVec 8) (ok : Bool) : Run :=
  if nb then writePred r n.toNat (runMask r) (if ok then BitVec.allOnes 32 else 0) else r
/-- Bytes of a record (R367). -/
def recField (b : List Byte) (o n : Nat) : Nat := bytesToNat ((b.drop o).take n)

/-- The address a thread forms (R159), and the data a store takes from the registers of DATA (R167). -/
def address (s : State) (r : Run) (f : Fields) (t : Nat) : Nat :=
  (pairVal s r f.opa t + match r.imx with | some x => x.signExtend 64 | none => f.imm16.signExtend 64).toNat
/-- A property of every active thread. -/
def allActive (r : Run) (f : Fields) (P : Nat → Prop) : Prop := ∀ t, t < threads → (active r f).getLsbD t = true → P t
/-- The active threads, lowest first. -/
def activeThreads (r : Run) (f : Fields) : List Nat := (List.range threads).filter fun t => (active r f).getLsbD t
/-- A swarm can read, or write, an address: it translates for a data access, and what is read is good (R161, R162). -/
def readable (s : State) (r : SwarmRef) (a : Nat) : Prop := ∃ m pa, translateData s (dieOf r.core) (ctxOf s (wgOf r)) a false = .ok (m, pa) ∧
  ((elsewhere s m).isSome = true ∨ sectorFault s pa = none)
def translates (s : State) (r : SwarmRef) (a : Nat) (write : Bool) : Prop := ∃ x, translate s (dieOf r.core) (ctxOf s (wgOf r)) a write = .ok x
def storable (s : State) (r : SwarmRef) (a : Nat) : Prop := ∃ x, translateData s (dieOf r.core) (ctxOf s (wgOf r)) a true = .ok x
/-- No entry of a swarm's open version has failed (R329). -/
def keptWrites (s : State) (r : SwarmRef) : Prop := ∀ v ∈ s.versions, v.wg = wgOf r → v.parked = none → v.failed = []
/-- No RED of a core's swarms waits at its home. -/
def noReds (s : State) (core : Nat) : Prop := ∀ x ∈ s.atomics, x.ref.core ≠ core
/-- The registers n, n + 1, … can be written one after the other. -/
def canWriteRegs (s : State) (r : Run) (n : Nat) (m : Mask) : Nat → Prop
  | 0 => True
  | k + 1 => canWrite s r n m ∧ ∀ r1, writeReg s r n m (splat 0) = .ok r1 → canWriteRegs s r1 (n + 1) m k
/-- They are written, in turn, with the values of a list. -/
def wroteRegs (w : Run) (n : Nat) (m : Mask) : List (Nat → Word) → Run → Prop
  | [], r => r = w
  | v :: vs, r => ∃ x, wroteReg w n m v 0 x ∧ wroteRegs x (n + 1) m vs r
/-- The registers of a loaded value. -/
def partsOf (n : Nat) (v : Nat → Nat) : List (Nat → Word) := (List.range n).map fun k => fun t => BitVec.ofNat 32 (v t / 2 ^ (32 * k))
/-- The reads of an LD, one active thread after the other: what each loads, and the machine after them. -/
def loads (s : State) (r : Run) (f : Fields) : Except Stop (List (Nat × Nat) × State) :=
  (activeThreads r f).foldlM (fun (st : List (Nat × Nat) × State) t =>
    match threadLoad st.2 r.ref (f.opx.getLsbD 2) (f.opx.extractLsb' 0 2 == 1) f.rnd.toNat (address s r f t) (accessSize f) with
    | .ok (d, s1) => .ok (st.1 ++ [(t, loadValue f (overCells (clauseStores r) t (address s r f t) d))], s1)
    | .error e => .error e) ([], s)
/-- What a thread loaded. -/
def loaded (l : List (Nat × Nat)) (t : Nat) : Nat := ((l.find? fun x => x.1 = t).map Prod.snd).getD 0
/-- The cells a store writes: thread, address, bytes. -/
def storeCells (s : State) (r : Run) (f : Fields) : List (Nat × Nat × List Byte) :=
  (activeThreads r f).map fun t => (t, address s r f t, natToBytes (accessSize f) (dataAt s r f.dst (accessParts f) t))
/-- The scopes at which the next write is a release (R180), and the clause once a write of an active thread has carried them away. -/
def releases (r : Run) (f : Fields) (rel : Bool) : List Nat := (if rel then [f.rnd.toNat] else []) ++ r.work.pendRel
def carried (r : Run) (f : Fields) (w : Run) : Run := if active r f = 0 then w else { w with work := { w.work with pendRel := [] } }

/-- The clause after an instruction that leaves one effect for its completion. -/
def leavesEffect (s : State) (i : Instr) (r : Run) (e : Effect) : Run := { noteReads s i r with effects := r.effects ++ [e] }

/-- The requests of a PROPOSE or DOCRD at their targets: a proposal at .CLU or wider forms the signature of its release, a proposal leaves its
entries for the task's signature, and one that is a release what the clause wrote before it, to be performed with the clause (R170, R247). -/
def cellAsks (s : State) (rd wr : Run) (f : Fields) (doc : Bool) (names : List (Nat × Nat)) : Except Stop CellState :=
  let release := doc = false ∧ 4 ≤ f.rnd.toNat ∧ names ≠ []
  let asked := { wr with effects := wr.effects ++ (if doc ∨ names = [] then [] else [Effect.proposed (proposedCells s rd f names)]) ++
    if release ∧ rd.effects ≠ [] then [Effect.settle true] else [] }
  if release then
    match proposalSig s rd f.rnd.toNat with
    | .error e => .error e
    | .ok (sig, s1) => names.foldlM (cellRequest rd f doc (some sig)) ⟨s1, asked, []⟩
  else names.foldlM (cellRequest rd f doc none) ⟨s, asked, []⟩
/-- The course of a PROPOSE or DOCRD: every target is checked, and the requests go out, in a free order where two name one cell. When a reply
to a release is still to come, what the clause has written is performed first (R170, R247, R313). -/
def cellCourse (s : State) (r : Run) (f : Fields) (i : Instr) (doc : Bool) : Except Stop CellState :=
  let ts := if f.ty = .none then (activeThreads r f).take 1 else activeThreads r f
  let names := ts.map fun t => (t, address s r f t)
  let z := anyOrder s Prod.snd names
  let wr := noteReads s i r
  match names.mapM (fun x => cellTarget s r.ref x.2) with
  | .error e => .error e
  | .ok _ =>
    match cellAsks z.2 r wr f doc z.1 with
    | .error e => .error e
    | .ok st =>
      if st.ids = [] ∨ doc = true ∨ f.rnd.toNat < 4 ∨ ∀ e ∈ r.effects, e.writesOut s r.ref = false then .ok st
      else
        match writeFirst z.2 r with
        | .error e => .error e
        | .ok (s2, r2) => cellAsks s2 r2 { wr with effects := r2.effects } f doc z.1
/-- A cell's sector at its home: INC, STATE and VALUE (R309). -/
def cellSector (s : State) (pa : Nat) : List Byte := memRead s.mem (pa / 64 * 64) 64
def incOf (b : List Byte) : Nat := bytesToNat (b.take 2)
def stateOf (b : List Byte) : Nat := (b.getD 2 0).toNat % 4

/-- A swarm as a trap stops it (R132, R365). -/
def halted (s : State) (w : Swarm) : Swarm :=
  { w with
    stopped := true
    sched := .halted
    haltedFrom := if w.sched = .active ∨ w.sched = .halted then .ready else w.sched
    since := s.cycle
    leftLane := if w.sched = .active then s.cycle else w.leftLane }
/-- The instruction does not complete: its clause traps, is held, or waits. -/
def stops (i : Instr) (s : State) (r : Run) (e : Stop) : Prop := exec i s = .next (stopRun s r e)
/-- Row and column of the tile element that a thread names (R212). -/
def elementAt (transposed : Bool) (t : Nat) (a : Word) : Nat × Nat :=
  if transposed then ((a.extractLsb' 0 5).toNat, t + if a.getLsbD 5 then 32 else 0) else (t, (a.extractLsb' 0 6).toNat)
/-- The clause of an MMA or MMAW after its operands are read: the arrival it makes (R200, R201). -/
def arrived (s : State) (r : Run) (f : Fields) (wide : Bool) : Run :=
  let i : Instr := if wide then .mmaw f else .mma f
  { noteReads s i r with arrival := some {
      wide
      acc := f.dst.toNat
      record := f.opa.toNat
      opb := f.opb
      tile := (val s r f.opc (lowest r)).toNat
      rows := match r.msk with | none => BitVec.allOnes 32 | some c => val s r c (lowest r)
      key := (if wide then 0x84 else 0x83, f.dst, f.opa, f.opc, f.mod, r.msk)
      ty := f.ty
      tyB := Ty.ofCode (f.opx.extractLsb' 0 4)
      quarters := quarterImages s r f } }

/-- A result in every thread of MASK in register d, after the reads noted. -/
def answers (i : Instr) (f : Fields) (s u : State) (r : Run) (v : Word) (es : List Effect) : Prop :=
  canWrite u r f.dst.toNat (runMask r) → ∃ r1, wroteReg (noteReads s i r) f.dst.toNat (runMask r) (fun _ => v) 0 r1 ∧
    completesOn i s u { r1 with effects := r1.effects ++ es }
/-- The context that owns the fabric engine may act for it, outside a task (R420). -/
def owns (s : State) (r : Run) : Prop := inTask s (wgOf r.ref) = false ∧ s.fabric.owner.map Prod.fst = some (ctxOf s (wgOf r.ref))
/-- A clause waits at a membership fence with its destination mapped (R402). -/
def waitsAtFence (i : Instr) (f : Fields) (s u : State) (r : Run) (join : Option (Nat × List Byte)) (next : Membership) : Prop :=
  canWrite u r f.dst.toNat (runMask r) → ∃ r1, writeReg u (noteReads s i r) f.dst.toNat (runMask r) (regLanes r.work f.dst.toNat) = .ok r1 ∧
    exec i s = .next (enterFence (parkRun u { r1 with writes := r.writes } (.fencing f.dst.toNat join)) next)

/-- Requests performed at one cell in turn: the replies, and the machine after them. -/
def cellCourseAt (s : State) (pa : Nat) (qs : List CellReq) : List CellReply × State :=
  qs.foldl (fun st q => let x := cellRow st.2 pa q; (st.1 ++ [x.1], x.2)) ([], s)
/-- A request that does not recycle a name, for one incarnation, a proposal with a value of 56 bytes. -/
def asks (inc : Nat) (q : CellReq) : Prop :=
  (∃ scope, q = .docrd inc scope) ∨ ∃ value ident sig scope, q = .propose inc value ident sig scope ∧ value.length = 56

/-- A clause of a swarm comes to its completion: its swarm stands as the clause found it, no trap waits for it, and no exception that the
clause has raised is enabled. -/
def completing (s : State) (r : Run) (w : Swarm) : Prop :=
  swarm? s r.ref = some w ∧ r.ref.slice = false ∧ w.sliceBinds = [] ∧ w.deferred = [] ∧ r.work.slotA = w.slotA ∧ r.work.slotB = w.slotB ∧
    (slotOf w r.slot).valid = true ∧ ∀ k, k < 6 → ¬(r.raised.getLsbD k = true ∧ r.work.mode.getLsbD (8 + k) = true)
/-- Every swarm but those named is as it was. -/
def otherSwarms (s t : State) (l : List SwarmRef) : Prop := ∀ q, q ∉ l → swarm? t q = swarm? s q
/-- A slot as the host has changed it (R365). -/
def edited (x : Slot) (e : SlotEdit) (y : Slot) : Prop := y.pc = e.pc.getD x.pc ∧ y.mask = e.mask.getD x.mask ∧ y.rpc = e.rpc.getD x.rpc ∧
  y.rjp = e.rjp.getD x.rjp ∧ y.valid = e.valid.getD x.valid ∧ y.parked = e.parked.getD x.parked
/-- The homes' bytes, those behind them and the host's are as they were. -/
def sameMemory (s t : State) : Prop := t.mem = s.mem ∧ t.backing = s.backing ∧ t.host = s.host

/-- An address of ordinary memory: it translates for an agent, to a place of this module's, outside tasks, with good data. -/
def plainAt (s : State) (a : Access) (va pa : Nat) (write : Bool) : Prop := ∃ m, translateData s a.die a.ctx va write = .ok (m, pa) ∧
  translate s a.die a.ctx va write = .ok (m, pa) ∧ m.onChip = none ∧ m.remote = none ∧ sectorFault s pa = none ∧ a.task = none

/-- An instruction's opcode, the TYPEs that its entry admits, and how many values of OPX (R76, R83). -/
def entry (c : Fields → Instr) (op : BitVec 8) (types : List Ty) (opx : Nat := 1) : Prop :=
  ∀ f : Fields, (c f).opcode = some (op, f) ∧ ((c f).wellFormed = true → f.ty ∈ types ∧ f.opx.toNat < opx)

/-- The packets R398 checks: all but heartbeats, markers and kill notices. -/
def checkedPackets (p : Packet) : List Instr :=
  [.rgetRequest p, .rgetData p, .rputData p, .acknowledgement p, .contribution p, .switchResult p, .cellRequest p, .cellReply p,
   .stripeRequest p, .stripeData p]
/-- A packet sent to another module, of the 36 planes on one whose port is up and that is not down for it, after those sent before it; or,
when there is none, one that waits (R395, R408, R414). -/
def sends (s t : State) (q : Packet) : Prop := s.fabric.ports.length ≤ 36 →
  (∃ plane ∈ upPorts s, (∀ p ∈ s.fabric.peers, p.num = q.dst → plane ∉ p.down) ∧ t.fabric.outbox = s.fabric.outbox ++ [(plane, q)] ∧
    t.fabric.planeWaits = s.fabric.planeWaits) ∨
  ((∀ plane ∈ upPorts s, ∃ p ∈ s.fabric.peers, p.num = q.dst ∧ plane ∈ p.down) ∧ t.fabric.outbox = s.fabric.outbox ∧
    t.fabric.planeWaits = s.fabric.planeWaits ++ [(36, q)])

end Sys2Proof.Claims

open Sys2Proof Sys2Proof.Machine Sys2Proof.Claims

/-- R95, R96: IADD, ISUB, IMUL, IMIN, IMAX and IABS element by element; IMULH and IMAD; their opcodes and TYPEs. -/
def Obligations.IntegerArithmetic : Prop :=
  (entry .iaddReg 0x00 Shape.packed 2 ∧ entry .iaddImm 0x10 Shape.int32 2 ∧ entry .isubReg 0x01 Shape.packed 2 ∧ entry .isubImm 0x11 Shape.int32 2 ∧
    entry .imulReg 0x02 Shape.int32 2 ∧ entry .imulImm 0x12 Shape.int32 2 ∧ entry .imulh 0x03 Shape.int32 ∧ entry .imad 0x04 Shape.int32 2 ∧
    entry .iminReg 0x05 Shape.packed ∧ entry .iminImm 0x14 Shape.int32 ∧ entry .imaxReg 0x06 Shape.packed ∧ entry .imaxImm 0x15 Shape.int32 ∧
    entry .iabs 0x07 [.s8, .s16, .s32] 2) ∧
  (∀ (f : Fields) (s : State) (r : Run), s.run = some r → f.ty ∈ Shape.packed →
  let a := fun t k => elem f.ty (val s r f.opa t) k
  let b := fun t k => elem f.ty (val s r f.opb t) k
  let m := fun k => elem f.ty (immWord r f) k
  elementwise (.iaddReg f) f s r (f.opx.getLsbD 0) (fun t k => a t k + b t k) ∧
  elementwise (.iaddImm f) f s r (f.opx.getLsbD 0) (fun t k => a t k + m k) ∧
  elementwise (.isubReg f) f s r (f.opx.getLsbD 0) (fun t k => a t k - b t k) ∧
  elementwise (.isubImm f) f s r (f.opx.getLsbD 0) (fun t k => a t k - m k) ∧
  elementwise (.imulReg f) f s r (f.opx.getLsbD 0) (fun t k => a t k * b t k) ∧
  elementwise (.imulImm f) f s r (f.opx.getLsbD 0) (fun t k => a t k * m k) ∧
  elementwise (.iminReg f) f s r false (fun t k => min (a t k) (b t k)) ∧
  elementwise (.iminImm f) f s r false (fun t k => min (a t k) (m k)) ∧
  elementwise (.imaxReg f) f s r false (fun t k => max (a t k) (b t k)) ∧
  elementwise (.imaxImm f) f s r false (fun t k => max (a t k) (m k)) ∧
  elementwise (.iabs f) f s r (f.opx.getLsbD 0) (fun t k => ((a t k).natAbs : Int))) ∧
  (∀ (f : Fields) (s : State) (r : Run), s.run = some r → f.ty ∈ Shape.int32 →
  let a := fun t => asInt f.ty.signed (val s r f.opa t)
  let b := fun t => asInt f.ty.signed (val s r f.opb t)
  let c := fun t => asInt f.ty.signed (val s r f.opc t)
  wordwise (.imulh f) f s r false (fun t => (a t * b t) / 2 ^ 32) ∧
  wordwise (.imad f) f s r (f.opx.getLsbD 0) (fun t => a t * b t + c t))

/-- R97, R98: ADDC and SUBB write the wrapped sum or difference, then the carry or borrow into the predicate they read; IADDW and
IMADW work on pairs; their opcodes, TYPEs and predicate codes. -/
def Obligations.CarriesAndPairs : Prop :=
  (entry .addc 0x08 [.n32] ∧ entry .subb 0x09 [.n32] ∧ entry .iaddw 0x0A [.s64, .n64] 2 ∧ entry .imadw 0x0B [.s64, .n64] 2 ∧
    ∀ f : Fields, (Instr.addc f).wellFormed = true ∨ (Instr.subb f).wellFormed = true → f.opc.toNat < 64) ∧
  (∀ (f : Fields) (s : State) (r : Run), s.run = some r → canWrite s r f.dst.toNat (active r f) →
  let a := val s r f.opa
  let b := val s r f.opb
  let p := fun t => (r.work.preds.getD (f.opc.toNat % 64) 0).getLsbD t
  (∃ r1 r2, completes (.addc f) s r2 ∧
    wroteReg (noteReads s (.addc f) r) f.dst.toNat (active r f) (fun t => a t + b t + BitVec.ofNat 32 (p t).toNat) 0 r1 ∧
    wrotePred r1 (f.opc.toNat % 64) (active r f) (fun t => decide (2 ^ 32 ≤ (a t).toNat + (b t).toNat + (p t).toNat)) r2) ∧
  (∃ r1 r2, completes (.subb f) s r2 ∧
    wroteReg (noteReads s (.subb f) r) f.dst.toNat (active r f) (fun t => a t - b t - BitVec.ofNat 32 (p t).toNat) 0 r1 ∧
    wrotePred r1 (f.opc.toNat % 64) (active r f) (fun t => decide ((a t).toNat < (b t).toNat + (p t).toNat)) r2)) ∧
  (∀ (f : Fields) (s : State) (r : Run), s.run = some r → f.ty = .s64 ∨ f.ty = .n64 →
  pairwise (.iaddw f) f s r (f.opx.getLsbD 0)
    (fun t => asInt f.ty.signed (pairVal s r f.opa t) + asInt f.ty.signed (pairVal s r f.opb t)) ∧
  pairwise (.imadw f) f s r (f.opx.getLsbD 0)
    (fun t => asInt f.ty.signed (val s r f.opa t) * asInt f.ty.signed (val s r f.opb t) + asInt f.ty.signed (pairVal s r f.opc t)))

/-- R99, R100: IDOT4 of integers, ISAD, POPC and CLZ. -/
def Obligations.PackedSumsAndCounts : Prop :=
  (entry .popc 0x0E [.none] ∧ entry .clz 0x0F [.none]) ∧
  (∀ (f : Fields) (s : State) (r : Run), s.run = some r → f.ty = .s8 ∨ f.ty = .n8 →
  let a := fun t k => elem f.ty (val s r f.opa t) k
  let b := fun t k => elem f.ty (val s r f.opb t) k
  wordwise (.idot4 f) f s r (f.opx.getLsbD 0)
    (fun t => asInt f.ty.signed (val s r f.opc t) + (a t 0 * b t 0 + a t 1 * b t 1 + a t 2 * b t 2 + a t 3 * b t 3)) ∧
  writesWord (.isad f) f f.dst s r
    (fun t => val s r f.opc t + BitVec.ofNat 32 ((a t 0 - b t 0).natAbs + (a t 1 - b t 1).natAbs + (a t 2 - b t 2).natAbs + (a t 3 - b t 3).natAbs)) 0) ∧
  (∀ (f : Fields) (s : State) (r : Run), s.run = some r →
  let a := val s r f.opa
  writesWord (.popc f) f f.dst s r (fun t => BitVec.ofNat 32 (ones (a t))) 0 ∧
  (∃ v, writesWord (.clz f) f f.dst s r v 0 ∧ ∀ t, t < threads → (active r f).getLsbD t = true →
    (v t).toNat ≤ 32 ∧ (∀ k, k < 32 → 32 ≤ k + (v t).toNat → (a t).getLsbD k = false) ∧
    ((v t).toNat < 32 → (a t).getLsbD (31 - (v t).toNat) = true)))

/-- R101, R102: AND, OR, XOR, TERN, and the shifts, the amount clamped to 32; their opcodes and TYPE. -/
def Obligations.LogicAndShifts : Prop :=
  (entry .andReg 0x20 [.none] ∧ entry .andImm 0x16 [.none] ∧ entry .orReg 0x21 [.none] ∧ entry .orImm 0x17 [.none] ∧
    entry .xorReg 0x22 [.none] ∧ entry .xorImm 0x18 [.none] ∧ (∀ f : Fields, (Instr.tern f).opcode = some (0x23, f)) ∧
    entry .shlReg 0x24 [.none] ∧ entry .shlImm 0x19 [.none] ∧ entry .shrReg 0x25 [.none] ∧ entry .shrImm 0x1A [.none] ∧
    entry .sarReg 0x26 [.none] ∧ entry .sarImm 0x1B [.none] ∧ entry .fshlReg 0x27 [.none] ∧ entry .fshlImm 0x1C [.none] ∧
    entry .fshrReg 0x28 [.none] ∧ entry .fshrImm 0x1D [.none]) ∧
  (∀ (f : Fields) (s : State) (r : Run), s.run = some r →
  let a := val s r f.opa
  let b := val s r f.opb
  let c := val s r f.opc
  let m := immWord r f
  writesWord (.andReg f) f f.dst s r (fun t => a t &&& b t) 0 ∧ writesWord (.andImm f) f f.dst s r (fun t => a t &&& m) 0 ∧
  writesWord (.orReg f) f f.dst s r (fun t => a t ||| b t) 0 ∧ writesWord (.orImm f) f f.dst s r (fun t => a t ||| m) 0 ∧
  writesWord (.xorReg f) f f.dst s r (fun t => a t ^^^ b t) 0 ∧ writesWord (.xorImm f) f f.dst s r (fun t => a t ^^^ m) 0 ∧
  ∃ v, writesWord (.tern f) f f.dst s r v 0 ∧ ∀ t, t < threads → (active r f).getLsbD t = true → ∀ k, k < 32 →
    (v t).getLsbD k = f.tt.getLsbD (4 * ((a t).getLsbD k).toNat + 2 * ((b t).getLsbD k).toNat + ((c t).getLsbD k).toNat)) ∧
  (∀ (f : Fields) (s : State) (r : Run), s.run = some r →
  let a := val s r f.opa
  let b := val s r f.opb
  let c := val s r f.opc
  let m := immWord r f
  let n := fun x : Word => min x.toNat 32
  let lo := fun t => laneAt (partLanes s r f.opa 0) t
  let hi := fun t => laneAt (partLanes s r f.opa 1) t
  writesWord (.shlReg f) f f.dst s r (fun t => a t <<< n (b t)) 0 ∧ writesWord (.shlImm f) f f.dst s r (fun t => a t <<< n m) 0 ∧
  writesWord (.shrReg f) f f.dst s r (fun t => a t >>> n (b t)) 0 ∧ writesWord (.shrImm f) f f.dst s r (fun t => a t >>> n m) 0 ∧
  writesWord (.sarReg f) f f.dst s r (fun t => (a t).sshiftRight (n (b t))) 0 ∧
  writesWord (.sarImm f) f f.dst s r (fun t => (a t).sshiftRight (n m)) 0 ∧
  writesWord (.fshlReg f) f f.dst s r (fun t => ((a t ++ b t) <<< n (c t)).extractLsb' 32 32) 0 ∧
  writesWord (.fshlImm f) f f.dst s r (fun t => ((hi t ++ lo t) <<< n m).extractLsb' 32 32) 0 ∧
  writesWord (.fshrReg f) f f.dst s r (fun t => ((a t ++ b t) >>> n (c t)).extractLsb' 0 32) 0 ∧
  writesWord (.fshrImm f) f f.dst s r (fun t => ((hi t ++ lo t) >>> n m).extractLsb' 0 32) 0)

/-- R103: BREV, BFX, BFI and PERM; their opcodes and TYPEs. -/
def Obligations.BitFields : Prop :=
  (entry .brev 0x29 [.none] ∧ entry .bfxReg 0x2A [.s32, .n32] ∧ entry .bfxImm 0x1E [.s32, .n32] ∧ entry .bfiReg 0x2B [.none] ∧
    entry .bfiImm 0x1F [.none] ∧ entry .perm 0x2C [.none]) ∧
  ∀ (f : Fields) (s : State) (r : Run), s.run = some r →
  let a := val s r f.opa
  let b := val s r f.opb
  let c := val s r f.opc
  let m := immWord r f
  let d := fun t => laneAt (regLanes r.work f.dst.toNat) t
  let on := fun t => t < threads ∧ (active r f).getLsbD t = true
  (∃ v, writesWord (.brev f) f f.dst s r v 0 ∧ ∀ t, on t → ∀ k, k < 32 → (v t).getLsbD k = (a t).getLsbD (31 - k)) ∧
  (∃ v, writesWord (.bfxReg f) f f.dst s r v 0 ∧ ∀ t, on t → ∀ k, k < 32 → (v t).getLsbD k = bfxBit f.ty.signed (a t) (b t) k) ∧
  (∃ v, writesWord (.bfxImm f) f f.dst s r v 0 ∧ ∀ t, on t → ∀ k, k < 32 → (v t).getLsbD k = bfxBit f.ty.signed (a t) m k) ∧
  (∃ v, writesWord (.bfiReg f) f f.dst s r v 0 ∧ ∀ t, on t → ∀ k, k < 32 → (v t).getLsbD k = bfiBit (a t) (b t) (c t) k) ∧
  (∃ v, writesWord (.bfiImm f) f f.dst s r v 0 ∧ ∀ t, on t → ∀ k, k < 32 → (v t).getLsbD k = bfiBit (a t) (d t) m k) ∧
  writesWord (.perm f) f f.dst s r
    (fun t => permOf (a t) (b t) (c t) 3 ++ permOf (a t) (b t) (c t) 2 ++ permOf (a t) (b t) (c t) 1 ++ permOf (a t) (b t) (c t) 0) 0

/-- R104: the moves; their opcodes, TYPEs and predicate codes. -/
def Obligations.Moves : Prop :=
  (entry .sel 0x2D [.none] ∧ entry .mov 0x2E [.none, .n64] ∧ entry .movi 0x13 [.none, .s32, .n32, .f32] ∧ entry .p2v 0x2F [.none] ∧
    entry .v2p 0x33 [.none] ∧ (∀ f : Fields, (Instr.sel f).wellFormed = true → f.opc.toNat < 64) ∧
    (∀ f : Fields, (Instr.movi f).wellFormed = true → f.opa = 0) ∧
    ∀ f : Fields, (Instr.p2v f).wellFormed = true → f.opa.toNat < 64) ∧
  ∀ (f : Fields) (s : State) (r : Run), s.run = some r →
  let a := val s r f.opa
  let b := val s r f.opb
  let p := fun n t => (r.work.preds.getD n 0).getLsbD t
  writesWord (.sel f) f f.dst s r (fun t => if p (f.opc.toNat % 64) t then a t else b t) 0 ∧
  (f.ty ≠ .n64 → writesWord (.mov f) f f.dst s r a 0) ∧
  (f.ty = .n64 → writesPair (.mov f) f f.dst s r (pairVal s r f.opa) 0) ∧
  writesWord (.movi f) f f.dst s r (fun _ => immWord r f) 0 ∧
  (∃ v, writesWord (.p2v f) f f.dst s r v 0 ∧ ∀ t, t < threads → (active r f).getLsbD t = true →
    ∀ k, k < 32 → (v t).getLsbD k = (decide (f.opa.toNat + k ≤ 63) && p (f.opa.toNat + k) t)) ∧
  (f.dst.toNat < 64 → ∃ preds, completes (.v2p f) s
      { noteReads s (.v2p f) r with work := { (noteReads s (.v2p f) r).work with preds } } ∧ preds.length = r.work.preds.length ∧
    ∀ n t, n < 64 → n < preds.length → t < threads → (preds.getD n 0).getLsbD t =
      if (active r f).getLsbD t = true ∧ f.dst.toNat ≤ n ∧ n ≤ f.dst.toNat + 31 then (a t).getLsbD (n - f.dst.toNat) else p n t)

/-- R105, R106: ICMP, FCMP and PLOP; PLOP's opcode and operand codes. -/
def Obligations.ComparesAndPredicateLogic : Prop :=
  (∀ f : Fields, (Instr.plop f).opcode = some (0x32, f) ∧ ((Instr.plop f).wellFormed = true →
    f.opa.toNat < 64 ∧ f.opb.toNat < 64 ∧ f.opc.toNat < 64 ∧ f.mod.extractLsb' 8 2 = 0)) ∧
  ∀ (f : Fields) (s : State) (r : Run), s.run = some r →
  let a := val s r f.opa
  let b := val s r f.opb
  let p := fun (n : BitVec 8) t => (r.work.preds.getD (n.toNat % 64) 0).getLsbD t
  let cond := (f.opx.extractLsb' 0 3).toNat
  let c := fun t => f.ty.fmt.compare (modeDaz r.work.mode) cond (a t).toNat (b t).toNat
  (f.ty ∈ Shape.int32 → writesPred (.icmp f) f f.dst s r
    (fun t => combined f (p f.opc t) (compares cond (asInt f.ty.signed (a t)) (asInt f.ty.signed (b t)))) 0) ∧
  (f.ty = .s64 ∨ f.ty = .n64 → writesPred (.icmp f) f f.dst s r
    (fun t => combined f (p f.opc t)
      (compares cond (asInt f.ty.signed (pairVal s r f.opa t)) (asInt f.ty.signed (pairVal s r f.opb t)))) 0) ∧
  writesPred (.fcmp f) f f.dst s r (fun t => combined f (p f.opc t) (c t).1) (flagsOver (active r f) fun t => ⟨0, (c t).2⟩) ∧
  writesPred (.plop f) f f.dst s r
    (fun t => f.tt.getLsbD (4 * (p f.opa t).toNat + 2 * (p f.opb t).toNat + (p f.opc t).toNat)) 0

/-- R114 to R116: PICK, PGATH and SRED; the opcodes and forms of PICK and PGATH. -/
def Obligations.AcrossThreads : Prop :=
  (entry .pick 0x34 [.none] 4 ∧ entry .pgath 0x35 [.none] 5 ∧ ∀ f : Fields, (Instr.pgath f).wellFormed = true → f.opa.toNat < 64) ∧
  (∀ (f : Fields) (s : State) (r : Run), s.run = some r →
  let a := val s r f.opa
  let p := fun t => (r.work.preds.getD (f.opa.toNat % 64) 0).getLsbD t
  let on := fun t => t < threads ∧ (active r f).getLsbD t = true
  let form := (f.opx.extractLsb' 0 3).toNat
  let within : Mask := match r.msk with | none => active r f | some c => runMask r &&& val s r c (lowest r)
  writesWord (.pick f) f f.dst s r (fun t =>
    let k := pickSource (f.opx.extractLsb' 0 2).toNat t (val s r f.opb t).toNat
    if k < 32 ∧ within.getLsbD k = true then a k else a t) 0 ∧
  ∃ v, writesWord (.pgath f) f f.dst s r (fun _ => v) 0 ∧
    (form = 0 → (v = 1 ∨ v = 0) ∧ (v = 1 ↔ ∀ t, on t → p t = true)) ∧
    (form = 1 → (v = 1 ∨ v = 0) ∧ (v = 1 ↔ ∃ t, on t ∧ p t = true)) ∧
    (form = 2 → (v = 1 ∨ v = 0) ∧ (v = 1 ↔ ∀ t u, on t → on u → p t = p u)) ∧
    (form = 3 → ∀ t, t < threads → v.getLsbD t = ((active r f).getLsbD t && p t)) ∧
    (form = 4 → v.toNat = ((List.range threads).filter fun t => (active r f).getLsbD t && p t).length)) ∧
  (∀ (f : Fields) (s : State) (r : Run), s.run = some r →
  let a := val s r f.opa
  let on := fun t => t < threads ∧ (active r f).getLsbD t = true
  let ts := (List.range threads).filter fun t => (active r f).getLsbD t
  let op := (f.opx.extractLsb' 0 3).toNat
  (f.ty ∈ Shape.int32 → f.opx.getLsbD 3 = false → op ≤ 5 → ∃ v, writesWord (.sred f) f f.dst s r (fun _ => v) 0 ∧
    (op = 0 → v = (ts.map a).foldl (· + ·) 0) ∧
    (op = 1 → (∃ t, on t) → (∃ t, on t ∧ v = a t) ∧ ∀ t, on t → asInt f.ty.signed v ≤ asInt f.ty.signed (a t)) ∧
    (op = 2 → (∃ t, on t) → (∃ t, on t ∧ v = a t) ∧ ∀ t, on t → asInt f.ty.signed (a t) ≤ asInt f.ty.signed v) ∧
    (op = 3 → (∃ t, on t) → v = (ts.map a).foldl (· &&& ·) (BitVec.allOnes 32)) ∧
    (op = 4 → v = (ts.map a).foldl (· ||| ·) 0) ∧
    (op = 5 → v = (ts.map a).foldl (· ^^^ ·) 0)) ∧
  (f.ty = .f32 →
    let x := reduce s r f (ts.map fun t => (t, (a t).toNat))
    writesWord (.sred f) f f.dst s r (fun _ => BitVec.ofNat 32 x.bits) (flagsOver (active r f) fun _ => x)))

/-- R22 to R24, R117, R118, R158: REDL performs one element a step, then writes its result; its checks come first. An element that raises
an enabled exception traps before it is performed; one whose word has an error stops.
That a misaligned operand traps before one out of bounds is the model's choice, log 96. -/
def Obligations.LongReduction : Prop := ∀ (f : Fields) (s : State) (r : Run) (g : Workgroup), s.run = some r → wg? s (wgOf r.ref) = some g →
  let i := Instr.redl f
  let a := (val s r f.opa (lowest r)).toNat
  let n := (val s r f.opb (lowest r)).toNat
  let c := (val s r f.opc (lowest r)).toNat
  let outside := (n ≠ 0 ∧ g.scratch.size < a + 4 * n) ∨ g.scratch.size < c + 144 ∨ (g.frozen = true ∧ c < g.scratch.persist)
  let s0 := redCleared s r f c
  let at_ := a + 4 * r.work.prog
  (a % 4 ≠ 0 ∨ c % 16 ≠ 0 → stops i s r (.trap 5 0 0)) ∧
  (a % 4 = 0 → c % 16 = 0 →
    (outside → stops i s r (.trap 7 0 0)) ∧
    (¬outside → ∃ w, wg? s0 (wgOf r.ref) = some w ∧
      (r.work.prog < n → ∀ e, scratchSeen s0 w at_ 4 = .error e → stops i s r e) ∧
      (g.scratch.bad = [] → w.scratch.bad = [] ∧
        (r.work.prog < n →
          let y := redElement s0 r f w.scratch c (bytesToNat (seen s0 w at_ 4))
          (enabledTrap r.work.mode y.2 = none → exec i s = .next (onward y.1 r y.2)) ∧
          (∀ d, enabledTrap r.work.mode y.2 = some d → stops i s r (.trap 0x13 d 0))) ∧
        (n ≤ r.work.prog → canWrite s0 r f.dst.toNat (runMask r) →
          let y := redResult s0 r f w.scratch c n
          ∃ r1, completesOn i s s0 r1 ∧ wroteReg (ended (noteReads s i r)) f.dst.toNat (runMask r) (fun _ => BitVec.ofNat 32 y.bits)
            (flagsOver (runMask r) fun _ => y) r1))))

/-- R117, R64: the slots of REDL's work area compute the index tree over the elements, with its flags. -/
def Obligations.LongReductionIsTheIndexTree : Prop := ∀ (op : Nat → Nat → Nat → Nat → Rounded) (xs : List Nat), xs.length < 2 ^ 32 →
  let w := redFold op xs
  (w.1.result op xs.length).map (fun y => (y.1, w.2 ||| y.2)) = indexTree op 33 0 (xs.zipIdx.map fun x => (x.2, x.1)) 0

/-- R107, R108: the FP32 arithmetic instructions round their exact value once.
The values of FEXP2 and FLOG2 rest on the model's choice of log 16 (100 bits of a 256-bit computation are rounded). -/
def Obligations.FloatArithmetic : Prop := ∀ (f : Fields) (s : State) (r : Run), s.run = some r →
  let c := fpCtx s r f
  let a := fun t => (val s r f.opa t).toNat
  let b := fun t => (val s r f.opb t).toNat
  let e := fun t => (val s r f.opc t).toNat
  let d := fun t => (laneAt (regLanes r.work f.dst.toNat) t).toNat
  let m := (immWord r f).toNat
  rounds (.faddReg f) f s r (fun t => fmtF32.add (c t) (a t) (b t)) ∧
  rounds (.faddImm f) f s r (fun t => fmtF32.add (c t) (a t) m) ∧
  rounds (.fmulReg f) f s r (fun t => fmtF32.mul (c t) (a t) (b t)) ∧
  rounds (.fmulImm f) f s r (fun t => fmtF32.mul (c t) (a t) m) ∧
  rounds (.ffmaReg f) f s r (fun t => fmtF32.fma (c t) (a t) (b t) (e t)) ∧
  rounds (.ffmaImm f) f s r (fun t => fmtF32.fma (c t) (a t) m (d t)) ∧
  rounds (.fminReg f) f s r (fun t => fmtF32.minMax (c t) false (a t) (b t)) ∧
  rounds (.fminImm f) f s r (fun t => fmtF32.minMax (c t) false (a t) m) ∧
  rounds (.fmaxReg f) f s r (fun t => fmtF32.minMax (c t) true (a t) (b t)) ∧
  rounds (.fmaxImm f) f s r (fun t => fmtF32.minMax (c t) true (a t) m) ∧
  rounds (.fdiv f) f s r (fun t => fmtF32.div (c t) (a t) (b t)) ∧
  rounds (.fsqrt f) f s r (fun t => fmtF32.sqrt (c t) (a t)) ∧
  rounds (.frcp f) f s r (fun t => fmtF32.div (c t) 0x3F800000 (a t)) ∧
  rounds (.frsq f) f s r (fun t => fmtF32.rsqrt (c t) (a t)) ∧
  rounds (.fexp2 f) f s r (fun t => fmtF32.exp2 (c t) (a t)) ∧
  rounds (.flog2 f) f s r (fun t => fmtF32.log2 (c t) (a t))

/-- R99, R109 to R113: packed pairs, the dot product of FP8 elements, conversions and Q16. -/
def Obligations.PackedFloatsAndConversions : Prop := ∀ (f : Fields) (s : State) (r : Run), s.run = some r →
  let c := fpCtx s r f
  let a := val s r f.opa
  let b := val s r f.opb
  let e := val s r f.opc
  let F := f.ty.fmt
  let src := Ty.ofCode (f.opx.extractLsb' 0 4)
  let cvt := fun t => convert (fctx s r f (f.opx.extractLsb' 4 2).toNat t) f.ty src
    (if src.wide then (pairVal s r f.opa t).toNat else (a t).toNat)
  let nibble := fun t => (e t).toNat / 256 % 8
  let code := fun t => qpack (fctx s r f 0 (32 * nibble t + t)) (a t).toNat (b t).toNat (e t).toNat
  rounds (.pradd f) f s r (fun t => halves s r f t fun x o => F.add x (half (a t) o) (half (b t) o)) ∧
  rounds (.prmul f) f s r (fun t => halves s r f t fun x o => F.mul x (half (a t) o) (half (b t) o)) ∧
  rounds (.prfma f) f s r (fun t => halves s r f t fun x o => F.fma x (half (a t) o) (half (b t) o) (half (e t) o)) ∧
  (f.ty.isFloat = true → rounds (.idot4 f) f s r (fun t => dot4 (c t) F (a t).toNat (b t).toNat (e t).toNat)) ∧
  (f.ty.wide = false → rounds (.cvt f) f s r cvt) ∧
  (f.ty.wide = true → writesPair (.cvt f) f f.dst s r (fun t => BitVec.ofNat 64 (cvt t).bits) (flagsOver (active r f) cvt)) ∧
  rounds (.qunpk f) f s r (fun t => qunpk (c t) F (a t).toNat (b t).toNat (e t).toNat) ∧
  (∃ v, writesWord (.qpack f) f f.dst s r v (flagsOver (active r f) fun t => ⟨0, (code t).2⟩) ∧
    ∀ t, t < threads → (active r f).getLsbD t = true → ∀ k, k < 32 → (v t).getLsbD k =
      if k / 4 = nibble t then (code t).1.testBit (k % 4) else (laneAt (regLanes r.work f.dst.toNat) t).getLsbD k) ∧
  rounds (.qscale f) f s r (fun t => qscale (fctx s r f 0 t) (a t).toNat (b t).toNat)

/-- R41 to R48: a value of a format is rounded to itself without a flag; any other is rounded as its mode says, with its overflow, its
subnormals and its flags; a sum, a product and a fused product and sum of finite values are their exact values rounded once, and an exact zero
takes its sign; a NaN result is canonical, or under NANP the first NaN source, quieted and fitted to the format. -/
def Obligations.RoundedResults : Prop :=
  (∀ (F : Fmt) (c : FCtx), F ∈ formats → 1 ≤ c.mode → c.mode ≤ 6 →
    (∀ w neg num exp, w < 2 ^ F.width → F.decode false w = .fin neg num exp → (c.ftz = false ∨ 2 ^ F.frac ≤ num ∨ num = 0) →
      F.round c neg num exp = ⟨w, 0⟩) ∧
    (∀ (neg : Bool) (num : Nat) (exp : Int), 0 < num → roundsTo F c neg (num * 2 ^ exp) (F.round c neg num exp)) ∧
    F.decode false (F.maxFinite false) = .fin false F.maxSig F.maxExp ∧
    ∀ a b e,
      let x := F.decode c.daz a
      let y := F.decode c.daz b
      let z := F.decode c.daz e
      let given := fun (v : ℚ) (out : Rounded) => v ≠ 0 → roundsTo F c (decide (v < 0)) |v| out
      (finite x → finite y →
        given (ratOf x + ratOf y) (F.add c a b) ∧ given (ratOf x * ratOf y) (F.mul c a b) ∧
        (ratOf x + ratOf y = 0 → F.add c a b =
          ⟨F.signBit (if ratOf x = 0 ∧ x.neg = y.neg then x.neg else decide (c.mode = 3)), 0⟩) ∧
        (ratOf x * ratOf y = 0 → F.mul c a b = ⟨F.signBit (x.neg != y.neg), 0⟩) ∧
        (finite z → given (ratOf x * ratOf y + ratOf z) (F.fma c a b e) ∧
          (ratOf x * ratOf y + ratOf z = 0 → F.fma c a b e =
            ⟨F.signBit (if ratOf z = 0 ∧ (x.neg != y.neg) = z.neg then z.neg else decide (c.mode = 3)), 0⟩))) ∧
      (x.isNan = true ∨ y.isNan = true →
        let fl := if x.isSnan = true ∨ y.isSnan = true then finv else 0
        F.add c a b = ⟨F.nanResult c.nanp [x, y], fl⟩ ∧ F.mul c a b = ⟨F.nanResult c.nanp [x, y], fl⟩) ∧
      (x.isNan = true ∨ y.isNan = true ∨ z.isNan = true → (F.fma c a b e).bits = F.nanResult c.nanp [x, y, z])) ∧
  (∀ (F : Fmt) (l : List Val), F.nanResult false l = F.canonical ∧ ((∀ v ∈ l, v.isNan = false) → F.nanResult true l = F.canonical)) ∧
  formats.map Fmt.canonical = [0x7FC00000, 0x7E00, 0x7FC0, 0x7E, 0x7F] ∧
  ∀ (F : Fmt) (pre post : List Val) (n s : Bool) (fr w : Nat), F ∈ formats → (∀ v ∈ pre, v.isNan = false) → 0 < w → fr < 2 ^ w →
    let z := F.nanResult true (pre ++ .nan n s fr w :: post)
    (F.inf = true → ∃ g, z = F.signBit n + (2 ^ F.expBits - 1) * 2 ^ F.frac + g ∧ g < 2 ^ F.frac ∧ g.testBit (F.frac - 1) = true ∧
      ∀ j, 1 ≤ j → j < F.frac → g.testBit (F.frac - 1 - j) = (decide (j < w) && fr.testBit (w - 1 - j))) ∧
    (F.inf = false → z = if n then 0xFF else 0x7F)

/-- R120, R121: BRA, BEOD and CALL name the threads that branch and their target, CALL after writing its link pair; BRX and RET check
every target, then branch to them.
That ADDR of a misaligned BRX or RET target's trap is the target is the model's inference, log 48. -/
def Obligations.Branches : Prop :=
  (∀ (f : Fields) (s : State) (r : Run), s.run = some r →
  let goes := fun (w : Run) (t : Mask) => { w with branch := .direct t (target r f) }
  let x := r.work.streams.getD (f.mod.extractLsb' 6 4).toNat Stream.unbound
  let flag := x.bound && x.eodf.getLsbD (f.mod.extractLsb' 3 3).toNat
  let link := f.mod.extractLsb' 2 8
  completes (.bra f) s (goes (noteReads s (.bra f) r) (active r f)) ∧
  completes (.beod f) s (goes (noteReads s (.beod f) r) (if flag ≠ f.mod.getLsbD 2 then active r f else 0)) ∧
  (canWritePair s r link.toNat (active r f) → ∃ r1,
    wrotePair (noteReads s (.call f) r) link.toNat (active r f) (fun _ => nextClause r) 0 r1 ∧ completes (.call f) s (goes r1 (active r f)))) ∧
  (∀ (f : Fields) (i : Instr) (s : State) (r : Run), s.run = some r → i = .brx f ∨ i = .ret f →
  ((∀ x ∈ pairTargets s r f, x.2.toNat % 8 = 0) →
    completes i s { noteReads s i r with branch := .indirect (pairTargets s r f) }) ∧
  ((∃ x ∈ pairTargets s r f, x.2.toNat % 8 ≠ 0) →
    ∃ x ∈ pairTargets s r f, x.2.toNat % 8 ≠ 0 ∧ exec i s = .next (stopRun s r (.trap 5 0 x.2.toNat))))

/-- R80, R122 to R124: REJOIN, EXIT, NOP and the two prefixes. A prefix's value stands until the next word.
That the trap of a prefix in the last place names the prefix's own word is the model's choice, log 51. -/
def Obligations.RejoinExitNopAndPrefixes : Prop := ∀ (f : Fields) (s : State) (r : Run), s.run = some r →
  let x := slotOf r.work r.slot
  completes (.rejoin f) s { noteReads s (.rejoin f) r with
    work := setSlot (noteReads s (.rejoin f) r).work r.slot { x with rjp := target r f } } ∧
  completes (.exit f) s { noteReads s (.exit f) r with exits := r.exits ||| active r f } ∧
  completes (.nop f) s (noteReads s (.nop f) r) ∧
  (r.idx + 1 < r.words.length →
    exec (.imx f) s = .next { s with run := some { r with imx := some f.off32, idx := r.idx + 1 } } ∧
    exec (.msk f) s = .next { s with run := some { r with msk := some f.opc, idx := r.idx + 1 } }) ∧
  (r.words.length ≤ r.idx + 1 →
    exec (.imx f) s = .next (stopRun s r (.trap 2 (r.idx + 1) 0)) ∧ exec (.msk f) s = .next (stopRun s r (.trap 2 (r.idx + 1) 0)))

/-- R26, R27: what a conditional branch leaves in the two slots and pushes; an entry of the stack is 32 bytes and reads back as its path. -/
def Obligations.ConditionalBranchAndStack : Prop :=
  (∀ (r : Run) (t : Mask) (dest : DWord), r.branch = .direct t dest →
  let x := slotOf r.work r.slot
  let y := slotOf r.work r.slot.other
  let need := if y.valid then 2 else 1
  (t = x.mask → branchPaths r = .ok ⟨{ x with pc := dest }, y, []⟩) ∧
  (t ≠ x.mask → t = 0 → branchPaths r = .ok ⟨{ x with pc := nextClause r }, y, []⟩) ∧
  (t ≠ x.mask → t ≠ 0 →
    (r.work.dsLim < r.work.dsDepth + need → branchPaths r = .error (.trap 9 0 0)) ∧
    (r.work.dsDepth + need ≤ r.work.dsLim → branchPaths r = .ok
      ⟨⟨true, false, nextClause r, x.mask &&& ~~~t, x.rjp, Config.noneAddr⟩, ⟨true, false, dest, t, x.rjp, Config.noneAddr⟩,
        (if y.valid then [stackEntry 0 y] else []) ++ [stackEntry 1 ⟨true, false, x.rjp, 0, x.rpc, Config.noneAddr⟩]⟩))) ∧
  (∀ (kind : Nat) (x : Slot), kind < 2 ^ 8 →
  (stackEntry kind x).length = 32 ∧ stackSlot (stackEntry kind x) = (kind, { x with valid := true, parked := false }))

/-- R121: after an indirect branch every thread of MASK stands in exactly one path, a slot's or one set aside, at the target it named, and
every thread of the other slot in exactly one, where it stood. -/
def Obligations.IndirectBranchPaths : Prop := ∀ (r : Run) (ts : List (Nat × DWord)) (p : Paths), r.branch = .indirect ts →
  let x := slotOf r.work r.slot
  let other := slotOf r.work r.slot.other
  ts.map Prod.fst = ((List.range threads).filter fun t => x.mask.getLsbD t) → (other.valid = true → other.mask &&& x.mask = 0) →
  branchPaths r = .ok p →
  let stacked := (p.pushes.map stackSlot).filterMap fun e => if e.1 = 0 then some e.2 else none
  let paths := p.x :: (if p.y.valid then [p.y] else []) ++ stacked
  (∀ z ∈ ts, (paths.filter fun y => y.mask.getLsbD z.1).map Slot.pc = [z.2]) ∧
  (other.valid = true → ∀ t, t < threads → other.mask.getLsbD t = true → (paths.filter fun y => y.mask.getLsbD t).map Slot.pc = [other.pc])

/-- R18, R125: GETSR writes a special register, and what each register of the swarm, its task and the module reads.
That MODE, PROG and RSV read the committed value within a clause that writes them is the model's choice, log 38; the stepping field of VER is log 4. -/
def Obligations.SpecialRegisterReads : Prop := ∀ (f : Fields) (s : State) (r : Run), s.run = some r →
  (f.sel.toNat ∉ [0x0F, 0x12, 0x13, 0x15, 0x16] →
    writesWord (.getsr f) f f.dst s r (fun _ => BitVec.ofNat 32 (specialReg s r f.sel.toNat)) 0) ∧
  (f.sel.toNat ∈ [0x0F, 0x12, 0x13, 0x15, 0x16] →
    writesPair (.getsr f) f f.dst s r (fun _ => BitVec.ofNat 64 (specialReg s r f.sel.toNat)) 0) ∧
  specialReg s r 0x00 = 3 + 3 * 2 ^ 8 + Config.stepping.toNat * 2 ^ 16 ∧ specialReg s r 0x01 = 0xFF ∧
  specialReg s r 0x0B = r.work.live.toNat ∧ specialReg s r 0x0C = (runMask r).toNat ∧ specialReg s r 0x0E = r.work.rmax ∧
  specialReg s r 0x0F = r.work.dsBase ∧ specialReg s r 0x10 = r.work.dsLim ∧ specialReg s r 0x11 = r.work.dsDepth ∧
  specialReg s r 0x13 = s.clkns ∧ specialReg s r 0x18 = s.fabric.current.gen ∧
  specialReg s r 0x02 = 7 + (if Config.cxlTier then 8 else 0) + 16 ∧ specialReg s r 0x03 = 768 + 8 * 2 ^ 16 + 32 * 2 ^ 20 ∧ specialReg s r 0x04 = 0 ∧
  specialReg s r 0x0A = r.work.ref.idx + 2 ^ 5 * r.work.lane + 2 ^ 8 * r.work.teamPos + 2 ^ 11 * r.work.team + (if r.work.inTeam then 2 ^ 15 else 0) ∧
  (∀ k, k < 8 → specialReg s r (0x20 + k) = ((coreAt s r.ref.core).counters.getD k ⟨0, 0⟩).count) ∧
  (∀ n k, s.fabric.modNum = some n → s.fabric.current.mods[k]? = some n → (∀ j, j < k → s.fabric.current.mods[j]? ≠ some n) →
    specialReg s r 0x19 = k) ∧
  ((∀ n, s.fabric.modNum = some n → n ∉ s.fabric.current.mods) → specialReg s r 0x19 = 0xFFFF) ∧
  (∀ w, swarm? s r.ref = some w → specialReg s r 0x08 = (w.mode ||| (w.shadow.setWidth 32 <<< 16)).toNat ∧
    specialReg s r 0x09 = w.prog ∧ specialReg s r 0x0D = w.rsv ∧ specialReg s r 0x12 = w.rstPc.toNat ∧
    specialReg s r 0x14 = w.wrapCause.toNat) ∧
  (∀ g t, wg? s (wgOf r.ref) = some g → g.task = some t →
    specialReg s r 0x15 = t.taskId.toNat ∧ specialReg s r 0x16 = t.coord.toNat) ∧
  (∀ g, wg? s (wgOf r.ref) = some g → g.task = none → specialReg s r 0x15 = 0 ∧ specialReg s r 0x16 = 0)

/-- R20, R21, R126: SETSR writes MODE alone; at its clause's completion MODE is the value and the task shadow is clear. -/
def Obligations.ModeWrites : Prop := ∀ (f : Fields) (s : State) (r : Run), s.run = some r →
  let v := val s r f.opa (lowest r)
  let reserved := v.extractLsb' 0 3 = 0 ∨ v.extractLsb' 0 3 = 7 ∨ v.getLsbD 7 = true ∨ v.extractLsb' 14 2 ≠ 0 ∨ v.extractLsb' 22 10 ≠ 0
  (srListed f.sel = true → f.sel ≠ 8 → exec (.setsr f) s = .next (stopRun s r (.trap 7 0 0))) ∧
  (f.sel = 8 → reserved → exec (.setsr f) s = .next (stopRun s r (.trap 4 (r.idx + 1) 0))) ∧
  (f.sel = 8 → ¬reserved → completes (.setsr f) s { noteReads s (.setsr f) r with effects := r.effects ++ [.mode v] }) ∧
  ∀ u w, swarm? u r.ref = some w → ∃ u1, applyEffect r.ref r.pc u (.mode v) = .ok u1 ∧ u1.mem = u.mem ∧
    swarm? u1 r.ref = some { w with mode := v, shadow := 0 } ∧ ∀ x, x ≠ r.ref → swarm? u1 x = swarm? u x

/-- R36, R127, R128: GROW, SHRINK and SETRESTART.
That a GROW.NB of no more than the reservation writes its predicate, where R36 gives it no effect, is the model's reading, log 38. -/
def Obligations.ReservationsAndRestart : Prop := ∀ (f : Fields) (s : State) (r : Run), s.run = some r →
  let n := f.imm18.toNat
  let nb := f.sel == 1
  let granted := n ≤ max r.grown r.work.rsv
  let g := noteReads s (.grow f) r
  let h := noteReads s (.shrink f) r
  let x := slotOf r.work r.slot
  (n ≤ rsvNow r → completes (.grow f) s (told g nb f.dst true)) ∧
  (rsvNow r < n → r.work.rmax < n → exec (.grow f) s = .next (stopRun s r (.trap 7 0 0))) ∧
  (rsvNow r < n → n ≤ r.work.rmax →
    (granted → completes (.grow f) s (told { g with effects := r.effects ++ [.rsv n] } nb f.dst true)) ∧
    (¬granted → nb = true → completes (.grow f) s (told g nb f.dst false)) ∧
    (¬granted → nb = false → exec (.grow f) s = .next (stopRun s r .wait))) ∧
  (runMask r ≠ r.work.live → exec (.shrink f) s = .next (stopRun s r (.trap 1 (r.idx + 1) 0)) ∧
    exec (.setrestart f) s = .next (stopRun s r (.trap 1 (r.idx + 1) 0))) ∧
  (runMask r = r.work.live →
    (rsvNow r ≤ n → completes (.shrink f) s h) ∧
    (n < rsvNow r → completes (.shrink f) s { h with
      effects := r.effects ++ [.rsv n]
      work := { h.work with regs := h.work.regs.mapIdx fun k v => if n ≤ k then none else v } }) ∧
    completes (.setrestart f) s { noteReads s (.setrestart f) r with
      work := { (noteReads s (.setrestart f) r).work with rstPc := target r f, rstRec := (x.rpc, x.rjp, r.work.dsDepth) } }) ∧
  -- what a GROW is granted: at its clause's issue the greatest raise of the clause that its lane has room for
  ∀ (w : Swarm) (ws : List DWord), grownAt s w ws = 0 ∨ (∃ x ∈ ws, opNat x = 0x5A ∧ (Fields.ofWord x).imm18.toNat = grownAt s w ws ∧
    w.rsv < grownAt s w ws ∧ grownAt s w ws ≤ w.rmax ∧ laneRsv s w.ref.core w.lane w.ref + grownAt s w ws ≤ 512)

/-- R129: TRAP and BKPT take their trap when a thread is active; the swarm of a clause outside a task is then stopped. -/
def Obligations.TrapInstructions : Prop := ∀ (f : Fields) (s : State) (r : Run), s.run = some r →
  let d := f.imm18.toNat % 256
  (active r f ≠ 0 → exec (.trap f) s = .next (stopRun s r (.trap 0x13 d 0)) ∧ exec (.bkpt f) s = .next (stopRun s r (.trap 0x14 d 0))) ∧
  (active r f = 0 → completes (.trap f) s (noteReads s (.trap f) r) ∧ completes (.bkpt f) s (noteReads s (.bkpt f) r)) ∧
  ∀ w, swarm? s r.ref = some w → r.ref.slice = false →
    let stopped := some (halted s { w with draining := none })
    swarm? (stopRun s r (.trap 0x14 d 0)) r.ref = stopped ∧
    (inTask s (wgOf r.ref) = false → swarm? (stopRun s r (.trap 0x13 d 0)) r.ref = stopped)

/-- R38, R39, R364, R365: taking a trap squashes the clause, changes no memory and no register, and either stops the swarm or marks how
its open task ends; the trap classes, and when a machine trap replays its task. Every machine trap of a task counts.
That of several traps the first that ends the task without replay decides, before any replay, is the model's choice, log 41. -/
def Obligations.TrapHandling : Prop :=
  (∀ (s : State) (r : SwarmRef) (i : TrapInfo) (w : Swarm) (g : Workgroup),
  r.slice = false → swarm? s r = some w → wg? s (wgOf r) = some g →
  let t := takeTrap s r i
  (∀ x, t.run = some x → x.ref ≠ r) ∧ (∀ x ∈ t.runs, x.ref ≠ r) ∧ (∀ a, memGet t.mem a = memGet s.mem a) ∧ t.backing = s.backing ∧
  (g.task = none ∨ trapClass i.code = .debug → swarm? t r = some (halted s w)) ∧
  (∀ k, g.task = some k → trapClass i.code ≠ .debug → swarm? t r = some w ∧
    ∃ h, wg? t (wgOf r) = some h ∧ h.scratch = g.scratch ∧ h.obuf = g.obuf ∧
      h.task = some { k with
        ending := some (taskEndBy s k r.seq i.code).1
        machineTraps := (taskEndBy s k r.seq i.code).2 })) ∧
  (∀ (s : State) (k : Task) (seq code : Nat), 1 ≤ code → code ≤ 0x14 →
  (trapClass code = .machine ↔ code ∈ [0x08, 0x0A, 0x0B, 0x0C, 0x0D]) ∧ (trapClass code = .unresolved ↔ code = 0x0E) ∧
  (trapClass code = .debug ↔ code = 0x14) ∧
  ((taskEndBy s k seq code).1 = .replay ↔ trapClass code = .machine ∧ k.nonReplayable = false ∧ divertedLaunch s seq = false ∧
    k.machineTraps < 2 ∧ k.attempt < 2 ∧ ∀ c, k.ending ≠ some (.noReplay c)) ∧
  (∀ c, k.ending = some (.noReplay c) → (taskEndBy s k seq code).1 = .noReplay c) ∧
  (taskEndBy s k seq code).2 = k.machineTraps + (if trapClass code = .machine then 1 else 0))

/-- R367, R368: a trap record has 64 bytes, each field at its place; with room in the ring it is written and the write index rises, without
room the lost count rises and the ring stays. -/
def Obligations.TrapRecords : Prop :=
  (∀ (s : State) (w : Swarm) (ctx seq : Nat) (i : TrapInfo), i.code < 2 ^ 8 → i.origin < 2 ^ 8 →
  i.origin ≠ 3 → i.detail < 2 ^ 16 → ctx < 2 ^ 16 → w.ref.core < 2 ^ 16 → seq < 2 ^ 32 → i.addr < 2 ^ 64 → i.prog < 2 ^ 64 →
  s.clkns < 2 ^ 64 → i.extra < 2 ^ 64 → swidOf w < 2 ^ 16 →
  let b := trapBytes s (some w) ctx seq i
  b.length = 64 ∧ recField b 0 1 = i.code ∧ recField b 1 1 = i.origin ∧ recField b 2 2 = i.detail ∧ recField b 4 2 = ctx ∧
  recField b 6 2 = w.ref.core ∧ recField b 8 2 = swidOf w ∧ recField b 10 1 = 0 ∧
  recField b 11 1 = trapFlags (wg? s (wgOf w.ref)) % 2 ^ 8 ∧ recField b 12 4 = seq ∧ recField b 16 8 = (taskIdOf s (wgOf w.ref)).toNat ∧
  recField b 24 8 = i.pc.toNat ∧ recField b 32 8 = i.addr ∧ recField b 40 8 = i.prog ∧ recField b 48 8 = s.clkns ∧
  recField b 56 8 = i.extra) ∧
  (∀ (s : State) (ctx base entries idx vec : Nat) (b : List Byte), Memory.wf s.host = true → b.length = 64 →
  (contextAt s ctx).trapArea = some (base, entries, idx, vec) → (contextAt s ctx).trapWrite < 2 ^ 32 →
  let c := contextAt s ctx
  let t := putRecord s ctx b
  let room := (c.trapWrite + 2 ^ 32 - c.trapRead) % 2 ^ 32 < entries
  let at_ := base + 64 * (c.trapWrite % entries)
  t.mem = s.mem ∧
  (room → (at_ + 64 ≤ idx ∨ idx + 8 ≤ at_) → memRead t.host at_ 64 = b ∧
    bytesToNat (memRead t.host idx 4) = (c.trapWrite + 1) % 2 ^ 32 ∧ t.msix = s.msix ++ [vec] ∧
    (contextAt t ctx).trapWrite = (c.trapWrite + 1) % 2 ^ 32 ∧
    ∀ a, (a < at_ ∨ at_ + 64 ≤ a) → (a < idx ∨ idx + 8 ≤ a) → memGet t.host a = memGet s.host a) ∧
  (¬room → t.msix = s.msix ∧ (contextAt t ctx).trapLost = min (2 ^ 32 - 1) (c.trapLost + 1) ∧
    ∀ a, (a < idx ∨ idx + 8 ≤ a) → memGet t.host a = memGet s.host a))

/-- R142, R158, R160 to R162, R167 to R169: LD and LDS write what their active threads read, and change no memory (a RED of the core's that
still waits is performed first, R234); a misaligned address, an offset outside the scratchpad, a word with an error and an entry of the
task's version that has failed (R329) trap. -/
def Obligations.Loads : Prop := ∀ (f : Fields) (s : State) (r : Run), s.run = some r → 1 ≤ accessSize f →
  let n := accessSize f
  let k := accessParts f
  let d := f.dst.toNat
  let on := active r f
  let a := address s r f
  (allActive r f (fun t => a t % n = 0 ∧ readable s r.ref (a t)) → noReds s r.ref.core → keptWrites s r.ref →
    ∃ l s1, loads s r f = .ok (l, s1) ∧ s1.mem = s.mem ∧ s1.backing = s.backing) ∧
  (∀ l s1, allActive r f (fun t => a t % n = 0) → loads s r f = .ok (l, s1) → canWriteRegs s1 (noteReads s (.ld f) r) d on k →
    let s2 := if f.opx.extractLsb' 0 2 = 1 ∧ on ≠ 0 then acquireAt s1 r.ref f.rnd.toNat else s1
    ∃ r1, completesOn (.ld f) s s2 r1 ∧ wroteRegs (noteReads s (.ld f) r) d on (partsOf k (loaded l)) r1) ∧
  (∀ e, allActive r f (fun t => a t % n = 0) → loads s r f = .error e → stops (.ld f) s r e) ∧
  (∀ t ts m pa, activeThreads r f = t :: ts → r.ref.slice = false → a t % n = 0 → noReds s r.ref.core → inTask s (wgOf r.ref) = true →
    translateData s (dieOf r.ref.core) (ctxOf s (wgOf r.ref)) (a t) false = .ok (m, pa) → m.remote = none →
    (coreAt s r.ref.core).l1 = [] → (coreAt s r.ref.core).wcb = [] → versionFailed s (wgOf r.ref) (a t) = true →
    stops (.ld f) s r (.trap 0x0C 0x0101 (a t))) ∧
  ∀ g, wg? s (wgOf r.ref) = some g →
    (allActive r f (fun t => a t % n = 0 ∧ a t + n ≤ g.scratch.size) → g.scratch.bad = [] → canWriteRegs s r d on k →
      let v := fun t => loadValue f (overCells (clauseScratch r) t (a t) (seen s g (a t) n))
      ∃ r1, completes (.lds f) s r1 ∧ wroteRegs (noteReads s (.lds f) r) d on (partsOf k v) r1) ∧
    ∀ t ts, activeThreads r f = t :: ts →
      (a t % n ≠ 0 → stops (.ld f) s r (.trap 5 0 (a t)) ∧ stops (.lds f) s r (.trap 5 0 (a t))) ∧
      (a t % n = 0 → g.scratch.size < a t + n → stops (.lds f) s r (.trap 7 0 0)) ∧
      (∀ e, a t % n = 0 → a t + n ≤ g.scratch.size → scratchSeen s g (a t) n = .error e → stops (.lds f) s r e)

/-- R38, R143, R160, R161, R167, R168: ST and STS leave their cells for the clause's completion; threads that name one address are
performed in a free order.
The order among threads that name one address is free: log 34. -/
def Obligations.Stores : Prop := ∀ (f : Fields) (s : State) (r : Run), s.run = some r → 1 ≤ accessSize f →
  let n := accessSize f
  let z := anyOrder s (fun c => c.2.1) (storeCells s r f)
  let after := fun (i : Instr) (e : Effect) => { noteReads s i r with effects := r.effects ++ [e] }
  (allActive r f (fun t => address s r f t % n = 0 ∧ storable s r.ref (address s r f t)) →
    completesOn (.st f) s z.2 (carried r f
      (after (.st f) (.st z.1 (f.opx.getLsbD 2) (releases r f (f.opx.extractLsb' 0 2 == 2)))))) ∧
  (∀ g, wg? s (wgOf r.ref) = some g →
    allActive r f (fun t => address s r f t % n = 0 ∧ address s r f t + n ≤ g.scratch.size ∧
      (g.frozen = true → g.scratch.persist ≤ address s r f t)) →
    completesOn (.sts f) s z.2 (after (.sts f) (.sts z.1))) ∧
  z.2 = { s with fresh := z.2.fresh } ∧ z.1.Perm (storeCells s r f) ∧
  (∀ t ts, activeThreads r f = t :: ts →
    (address s r f t % n ≠ 0 → stops (.st f) s r (.trap 5 0 (address s r f t))) ∧
    (address s r f t % n = 0 → ∀ e,
      translateData s (dieOf r.ref.core) (ctxOf s (wgOf r.ref)) (address s r f t) true = .error e → stops (.st f) s r e) ∧
    (∀ g, wg? s (wgOf r.ref) = some g →
      (address s r f t % n ≠ 0 → stops (.sts f) s r (.trap 5 0 (address s r f t))) ∧
      (address s r f t % n = 0 → (g.scratch.size < address s r f t + n ∨ (g.frozen = true ∧ address s r f t < g.scratch.persist)) →
        stops (.sts f) s r (.trap 7 0 0)))) ∧
  -- at the clause's completion the scratchpad holds each cell's bytes, the later cells over the earlier, and every other byte as before; what
  -- the ring of a bound stream register then holds is not said (R284)
  ∀ u g cells, wg? u (wgOf r.ref) = some g → ∃ u1 g1, applyEffect r.ref r.pc u (.sts cells) = .ok u1 ∧
    wg? u1 (wgOf r.ref) = some g1 ∧ u1.mem = u.mem ∧ ∀ o, ringEntry (ringsOf u (wgOf r.ref)) o = none → scratchByte g1.scratch o =
      cells.foldl (fun b c => if c.2.1 ≤ o ∧ o < c.2.1 + c.2.2.length then c.2.2.getD (o - c.2.1) 0 else b) (scratchByte g.scratch o)

/-- R24, R172, R173, R304: GATHER and SCATTER perform one element a step, and end with PROG 0; their checks come first.
That SCATTER marks its line at the element, where R242 marks a write at its clause's completion, is the model's choice, log 36. -/
def Obligations.IndexedAccesses : Prop := ∀ (f : Fields) (s : State) (r : Run) (g : Workgroup), s.run = some r → wg? s (wgOf r.ref) = some g →
  let arg := fun k => (laneAt (partLanes s r f.dst k) (lowest r)).toNat
  let e := f.ty.bits / 8
  let i := r.work.prog
  let a := (address s r f (lowest r) + bytesToNat (seen s g (arg 0 + 4 * i) 4) * (arg 3 % 2 ^ 16)) % 2 ^ 64
  let ends := fun x : Instr => completes x s (ended (noteReads s x r))
  let goes := fun (x : Instr) (s1 : State) => exec x s = .next (onward s1 r 0)
  let gather := Instr.gather f
  let scatter := Instr.scatter f
  0 < e → (arg 0 % 4 ≠ 0 ∨ arg 1 % e ≠ 0 → stops gather s r (.trap 5 0 0) ∧ stops scatter s r (.trap 5 0 0)) ∧
  (arg 0 % 4 = 0 → arg 1 % e = 0 → 65536 < arg 2 → stops gather s r (.trap 7 0 0) ∧ stops scatter s r (.trap 7 0 0)) ∧
  (arg 0 % 4 = 0 → arg 1 % e = 0 → arg 2 = 0 → ends gather ∧ ends scatter) ∧
  (arg 0 % 4 = 0 → arg 1 % e = 0 → 1 ≤ arg 2 → arg 2 ≤ 65536 →
    (g.scratch.size < arg 0 + 4 * arg 2 ∨ g.scratch.size < arg 1 + e * arg 2 → stops gather s r (.trap 7 0 0) ∧ stops scatter s r (.trap 7 0 0)) ∧
    (arg 0 + 4 * arg 2 ≤ g.scratch.size → arg 1 + e * arg 2 ≤ g.scratch.size →
      (g.frozen = true → arg 1 < g.scratch.persist → stops gather s r (.trap 7 0 0)) ∧
      (arg 2 ≤ i → ends scatter) ∧ (arg 2 ≤ i → (g.frozen = true → g.scratch.persist ≤ arg 1) → ends gather) ∧
      (i < arg 2 → g.scratch.bad = [] → a % e = 0 → (g.frozen = true → g.scratch.persist ≤ arg 1) → readable s r.ref a →
        keptWrites s r.ref → ∃ d sig s1, engineRead s (accessOf s r.ref) a e = .ok (d, sig, s1) ∧ s1.mem = s.mem ∧
          goes gather (scratchPut (modSwarm s1 r.ref fun w => receive w sig false 0) g.ref (arg 1 + i * e) d)) ∧
      (i < arg 2 → g.scratch.bad = [] → a % e ≠ 0 → (g.frozen = true → g.scratch.persist ≤ arg 1) →
        stops gather s r (.trap 5 0 a) ∧ stops scatter s r (.trap 5 0 a)) ∧
      (i < arg 2 → g.scratch.bad = [] → a % e = 0 → ∀ m pa, translateData s (dieOf r.ref.core) (ctxOf s (wgOf r.ref)) a true = .ok (m, pa) →
        (∀ s1, directWrite (markRel s r.ref pa) (accessOf s r.ref) a (seen s g (arg 1 + i * e) e) .clear = .ok s1 →
          let full := inTask s1 (wgOf r.ref) = true ∧ Config.versionBudget < coreVersionCount s1 r.ref.core
          (¬full → goes scatter s1) ∧ (full → stops scatter s r (.trap 0x0A 0 0))) ∧
        (inTask s (wgOf r.ref) = false → ∃ s1, goes scatter s1 ∧
          (pa % 64 = a % 64 → Memory.wf s.mem = true → s.announcements = [] →
            (∀ x ∈ (coreAt s r.ref.core).wcb, x.pa ≠ pa / 64 * 64) → ∀ b, memGet s1.mem b =
              if pa ≤ b ∧ b < pa + e then (seen s g (arg 1 + i * e) e).getD (b - pa) 0 else memGet s.mem b)))))

/-- R170, R305: a write performed at its home changes exactly its bytes. -/
def Obligations.PerformedWrites : Prop := ∀ (s : State) (pa : Nat) (bytes : List Byte) (rule : SigRule), Memory.wf s.mem = true →
  let t := performBytes s pa bytes rule
  Memory.wf t.mem = true ∧ t.backing = s.backing ∧ t.host = s.host ∧ t.swarms = s.swarms ∧ t.wgs = s.wgs ∧
  (∀ a, memGet t.mem a = if pa ≤ a ∧ a < pa + bytes.length then bytes.getD (a - pa) 0 else memGet s.mem a) ∧
  ∀ d, ∀ c ∈ (dieAt t d).copies, c ∈ (dieAt s d).copies ∧ (bytes ≠ [] → c.pa + 64 ≤ pa ∨ pa + bytes.length ≤ c.pa ∨ c.pa % 64 ≠ 0)

/-- R151, R169: a load that no L1 sector and no buffered store meets, outside a task, returns the home's bytes and changes no memory.
That an L1 sector is found by its task and address is the model's reading, log 9. -/
def Obligations.LoadsReadTheHome : Prop := ∀ (s : State) (a : Access) (home : Bool) (va n : Nat) (m : Mapping) (pa : Nat),
  translateData s a.die a.ctx va false = .ok (m, pa) → m.remote = none → sectorFault s pa = none → a.task = none → 0 < n → pa % 64 + n ≤ 64 →
  (∀ e ∈ (coreAt s a.ref.core).wcb, e.pa ≠ pa / 64 * 64) →
  (home = true ∨ ∀ x ∈ (coreAt s a.ref.core).l1, x.pa ≠ pa / 64 * 64) →
  ∃ sig s1, loadBytes s a home va n = .ok (memRead s.mem pa n, some sig, s1) ∧ s1.mem = s.mem

/-- R152, R164, R169, R234: what a store puts into its core's buffer is what that workgroup's next load of those bytes reads. -/
def Obligations.StoresAreSeenByTheirCore : Prop := ∀ (s u : State) (r : SwarmRef) (home : Bool) (id t va : Nat) (bytes : List Byte) (m : Mapping)
    (pa : Nat), r.slice = false → bytes ≠ [] →
  translate s (dieOf r.core) (ctxOf s (wgOf r)) va true = .ok (m, pa) → m.remote = none → pa % 64 + bytes.length ≤ 64 →
  (∀ e ∈ (coreAt s r.core).wcb, e.pa = pa / 64 * 64 → e.sent = false) →
  storeCell r home id s (t, va, bytes) = .ok u →
  ∀ h d sig v, loadBytes u (accessOf u r) h va bytes.length = .ok (d, sig, v) → d = bytes

/-- R161, R174, R175, R183 to R185: CPIN, CPOUT and FLUSH check their operands and leave their operation for the clause's completion;
PREFETCH changes no memory but the scrub log, which takes a mismatch it meets (R305); INVL1 invalidates L1 sectors. Without an active thread none has an effect.
The place of the check of a length of 0 is the model's choice, log 12; that nothing happens without an active thread is log 11; the sectors a range names are log 49. -/
def Obligations.CopiesPrefetchFlushInvalidate : Prop := ∀ (f : Fields) (s : State) (r : Run), s.run = some r →
  (activeThreads r f = [] → ∀ i ∈ [.cpin f, .cpout f, .flush f, .prefetch f, .invl1 f], completes i s (noteReads s i r)) ∧
  (∃ u, completesOn (.prefetch f) s u (noteReads s (.prefetch f) r) ∧
    (noReds s r.ref.core → (∀ d ∈ s.dies, d.scrubRing = none) → u.mem = s.mem ∧ u.backing = s.backing)) ∧
  ∀ t ts, activeThreads r f = t :: ts →
    let spad := (laneAt (partLanes s r f.dst 0) t).toNat
    let len := (laneAt (partLanes s r f.dst 1) t).toNat
    let va := address s r f t
    let lines := (val s r f.dst t).toNat
    let n := match r.imx with | some x => x.toNat | none => f.imm18.toNat
    let base := (pairVal s r f.opa t).toNat
    (∀ g, wg? s (wgOf r.ref) = some g → ∀ i k out, (i, k, out) ∈ [(.cpin f, AsyncKind.cpin va spad len, false), (.cpout f, .cpout va spad len, true)] →
      (len = 0 → completes i s (noteReads s i r)) ∧
      (len ≠ 0 → (spad % 64 ≠ 0 ∨ len % 64 ≠ 0 ∨ va % 64 ≠ 0) → exec i s = .next (stopRun s r (.trap 5 0 va))) ∧
      (len ≠ 0 → spad % 64 = 0 → len % 64 = 0 → va % 64 = 0 →
        (2 ^ 20 < len ∨ g.scratch.size < spad + len → exec i s = .next (stopRun s r (.trap 7 0 0))) ∧
        (len ≤ 2 ^ 20 → spad + len ≤ g.scratch.size → (∀ o ∈ sectorsOf len, translates s r.ref ((va + o) % 2 ^ 64) out) →
          let refused := inTask s (wgOf r.ref) = true ∧ copyImmediate s (accessOf s r.ref) k = true ∧
            ∃ l, launch? s r.ref.seq = some l ∧ l.desc.redund = true
          (refused → stops i s r (.trap 7 0x0101 0)) ∧ (¬refused → completes i s (leavesEffect s i r (.async k)))))) ∧
    (va % 256 = 0 → lines % 256 = 0 → completes (.flush f) s (leavesEffect s (.flush f) r (.async (.flush va lines)))) ∧
    (va % 256 ≠ 0 ∨ lines % 256 ≠ 0 → exec (.flush f) s = .next (stopRun s r (.trap 5 0 va))) ∧
    (f.sel = 0 → ∃ u, completesOn (.invl1 f) s u (noteReads s (.invl1 f) r) ∧ u.mem = s.mem ∧ (coreAt u r.ref.core).l1 = [] ∧
      (coreAt u r.ref.core).wcb = (coreAt s r.ref.core).wcb) ∧
    (f.sel ≠ 0 → n = 0 → exec (.invl1 f) s = .next (stopRun s r (.trap 1 (r.idx + 1) 0))) ∧
    (f.sel ≠ 0 → n ≠ 0 → (∀ k, k < n → translates s r.ref ((base / 64 * 64 + 64 * k) % 2 ^ 64) false) →
      let gone := fun p => ∃ k m pa, k < n ∧ m.onChip = none ∧
        translate s (dieOf r.ref.core) (ctxOf s (wgOf r.ref)) ((base / 64 * 64 + 64 * k) % 2 ^ 64) false = .ok (m, pa) ∧
        (p = pa / 64 * 64 ∨ (m.remote.isSome = true ∧ p = cellKey m (pa / 64 * 64)))
      ∃ u, completesOn (.invl1 f) s u (noteReads s (.invl1 f) r) ∧ u.mem = s.mem ∧
        (∀ x, x ∈ (coreAt u r.ref.core).l1 ↔ x ∈ (coreAt s r.ref.core).l1 ∧ ¬gone x.pa) ∧
        ∀ x, x ∈ (coreAt u r.ref.core).l1Cells ↔ x ∈ (coreAt s r.ref.core).l1Cells ∧ ¬gone x.pa)

/-- R163, R176 to R179: ATOM and ATOMV give each thread the word's old value and leave the new words for the clause's completion; RED
leaves its requests; a word's new value by operation.
The order in which threads that name one word are performed is free: log 34. That the REDs and copies before an atomic are performed as it
executes is the model's choice, logs 33 and 40. -/
def Obligations.Atomics : Prop :=
  (∀ (f : Fields) (i : Instr) (versioned : Bool) (s : State) (r : Run), s.run = some r → (i, versioned) ∈ [(.atom f, false), (.atomv f, true)] →
    ∀ reqs s0 s1 trial trial2 olds cells r1,
      let m := active r f
      let inside := versioned && inTask s (wgOf r.ref)
      let ord := (f.opx.extractLsb' 4 2).toNat
      let rels := releases r f (decide (2 ≤ ord))
      (m = 0 ∨ versioned = true ∨ inTask s (wgOf r.ref) = false ∨ ∀ l, launch? s r.ref.seq = some l → l.desc.redund = false) →
      atomicReqs s r f m = .ok (reqs, s0) → reqs.foldlM (fun s x => settleHome s r.ref x.2.va) s0 = .ok s1 → applyEffects s1 r = .ok trial →
      (if (∃ x ∈ rels, inside = false ∨ x < 4) ∧ m ≠ 0 then settleSwarm trial r.ref (outer rels && !inside) = .ok trial2
        else trial2 = trial) →
      runAtomics trial2 r.ref inside reqs = .ok (olds, cells) →
      writeLoaded s1 (noteReads s i r) f.dst (atomParts f) m olds = .ok r1 →
      let acq := ord = 1 ∨ ord = 3
      let s2 := atomicSigs s1 r.ref reqs (decide acq) f.rnd.toNat
      completesOn i s (if acq ∧ m ≠ 0 then acquireAt s2 r.ref f.rnd.toNat else s2)
        (carried r f { r1 with effects := r1.effects ++ [.atom cells versioned rels] })) ∧
  (∀ (f : Fields) (s : State) (r : Run), s.run = some r → ∀ reqs s1,
    (active r f = 0 ∨ inTask s (wgOf r.ref) = false ∨ ∀ l, launch? s r.ref.seq = some l → l.desc.redund = false) →
    atomicReqs s r f (active r f) = .ok (reqs, s1) →
    completesOn (.red f) s s1 (carried r f (leavesEffect s (.red f) r
      (.red (reqs.map Prod.snd) (releases r f ((f.opx.extractLsb' 4 2).toNat == 2)))))) ∧
  -- one thread's read-modify-write of a word that no buffered store meets
  (∀ (s : State) (r : SwarmRef) (t : Nat) (q : AtomicReq) (m : Mapping) (pa : Nat), s.announcements = [] →
    translateData s (dieOf r.core) (ctxOf s (wgOf r)) q.va true = .ok (m, pa) → sectorFault s pa = none → pa % 64 + q.ty.bits / 8 ≤ 64 →
    (∀ e ∈ (coreAt s r.core).wcb, e.pa ≠ pa / 64 * 64) →
    let n := q.ty.bits / 8
    let old := bytesToNat (memRead s.mem pa n)
    runAtomics s r false [(t, q)] = .ok ([(t, old)], [(q.va, natToBytes n (atomicNew q.ty q.op old q.operand))])) ∧
  ∀ (ty : Ty) (old v : Nat), ty ∈ [.s32, .n32, .s64, .n64] → old < 2 ^ ty.bits → v < 2 ^ ty.bits →
    let w := ty.bits
    let x := fun n : Nat => asInt ty.signed (BitVec.ofNat w n)
    atomicNew ty 0 old v = (old + v) % 2 ^ w ∧ x (atomicNew ty 1 old v) = min (x old) (x v) ∧ x (atomicNew ty 2 old v) = max (x old) (x v) ∧
    atomicNew ty 3 old v = old &&& v ∧ atomicNew ty 4 old v = old ||| v ∧ atomicNew ty 5 old v = old ^^^ v ∧ atomicNew ty 6 old v = v ∧
    (∀ new, new < 2 ^ w → atomicNew ty 7 old (v + new * 2 ^ w) = if old = v then new else old) ∧
    atomicNew ty 8 old v = (if v ≤ old then 0 else old + 1) ∧ atomicNew ty 9 old v = if old = 0 ∨ v < old then v else old - 1

/-- R180 to R182: the fences and WAITC.
That FENCE.AR has its swarm's earlier REDs and copies performed at once is the model's choice, log 40. -/
def Obligations.FencesAndWaits : Prop := ∀ (f : Fields) (s : State) (r : Run), s.run = some r →
  let sc := f.rnd.toNat
  let w := noteReads s (.fence f) r
  let marked := if f.sel.getLsbD 1 then { w with work := { w.work with pendRel := r.work.pendRel ++ [sc] } } else w
  (f.sel ≠ 3 → completesOn (.fence f) s (if f.sel.getLsbD 0 then acquireAt s r.ref sc else s) marked) ∧
  (f.sel = 3 →
    (∀ u, settleSwarm s r.ref false = .ok u →
      completesOn (.fence f) s (acquireAt u r.ref sc) { marked with effects := marked.effects ++ [.settle false] }) ∧
    (∀ e, settleSwarm s r.ref false = .error e → stops (.fence f) s r .wait)) ∧
  ((∀ x ∈ s.atomics, x.ref ≠ r.ref) → (∀ x ∈ s.asyncs, x.ref ≠ r.ref) → settleSwarm s r.ref false = .ok s) ∧
  completes (.fencex f) s (leavesEffect s (.fencex f) r (.fencex (f.imm18.extractLsb' 0 7))) ∧
  completes (.waitc f) s (noteReads s (.waitc f) r) ∧
  (acquireAt s r.ref sc).mem = s.mem ∧ (sc < 4 → acquireAt s r.ref sc = s) ∧
  ∀ x, swarm? s r.ref = some x → 4 ≤ sc → sc < 8 → x.received.length = 4 →
    let k := sc - 4
    let got := x.received.getD k 0
    (∀ y, y ∈ (coreAt (acquireAt s r.ref sc) r.ref.core).l1 ↔ y ∈ (coreAt s r.ref.core).l1 ∧
      ¬(got.getLsbD (y.pa / 256 % 512) = true ∧ got.getLsbD (y.pa / 256 / 512 % 512) = true)) ∧
    ∃ y, swarm? (acquireAt s r.ref sc) r.ref = some y ∧ y.received.getD k 0 = 0 ∧ y.relAcc = x.relAcc.modify k (· ||| got)

/-- R186 to R190: QINIT, QPUSH, QPOP and TBAR. While an earlier effect of its clause still keeps it from completing, a QPUSH or QPOP that
has an entry waits (R189). -/
def Obligations.QueuesAndBarriers : Prop := ∀ (f : Fields) (s : State) (r : Run) (g : Workgroup), s.run = some r → wg? s (wgOf r.ref) = some g →
  let q := hiveAt s r.ref.core f.sel.toNat
  let cap := f.imm18.toNat % 2 ^ 8 + 1
  let width := f.imm18.toNat / 2 ^ 8 % 4
  let nb := f.imm18.getLsbD 6
  let pD := (f.imm18.extractLsb' 0 6).setWidth 8
  let parts := 2 ^ q.width
  let words := ((List.range threads).map fun t => (List.range parts).map fun k =>
    if (active r f).getLsbD t then laneAt (partLanes s r f.opa k) t else 0).flatten
  let entry := fun k t => BitVec.ofNat 32 (bytesToNat
    (((seen s g (q.base + q.head % q.cap * (128 * 2 ^ q.width)) (128 * 2 ^ q.width)).drop (4 * (t * parts + k))).take 4))
  (activeThreads r f = [] → completes (.qinit f) s (noteReads s (.qinit f) r) ∧
    ∀ i ∈ [.qpush f, .qpop f], ∃ u, completesOn i s u (noteReads s i r) ∧ u.mem = s.mem) ∧
  (∀ t ts, activeThreads r f = t :: ts →
    let base := (val s r f.opa t).toNat
    (q.owner = none ∨ q.owner = some (wgOf r.ref) → base % 128 = 0 → base + cap * (128 * 2 ^ width) ≤ g.scratch.size → g.scratch.persist ≤ base →
      completes (.qinit f) s (leavesEffect s (.qinit f) r (.qinit f.sel.toNat base cap width (f.imm18.toNat / 2 ^ 10 % 64)))) ∧
    (q.owner ≠ none → q.owner ≠ some (wgOf r.ref) → exec (.qinit f) s = .next (stopRun s r (.trap 0x11 0 0)))) ∧
  (activeThreads r f ≠ [] →
    (q.pushRes.contains r.ref = true ∨ queueReady q r.ref true = true →
      (applyEffects s r = .error .wait → stops (.qpush f) s r .wait) ∧
      (applyEffects s r ≠ .error .wait →
        completes (.qpush f) s (told (leavesEffect s (.qpush f) r (.qpush f.sel.toNat words)) nb pD true))) ∧
    (q.pushRes.contains r.ref = false → queueReady q r.ref true = false →
      (nb = true → completes (.qpush f) s (told (noteReads s (.qpush f) r) nb pD false)) ∧
      (nb = false → exec (.qpush f) s = .next (stopRun s r .wait))) ∧
    (q.popRes.contains r.ref = true ∨ queueReady q r.ref false = true → applyEffects s r = .error .wait → stops (.qpop f) s r .wait) ∧
    (q.popRes.contains r.ref = true ∨ queueReady q r.ref false = true → applyEffects s r ≠ .error .wait → g.scratch.bad = [] →
      canWriteRegs s r f.dst.toNat (active r f) parts → ∃ r1, wroteRegs (noteReads s (.qpop f) r) f.dst.toNat (active r f) ((List.range parts).map entry) r1 ∧
        completes (.qpop f) s (told { r1 with effects := r1.effects ++ [.qpop f.sel.toNat] } nb pD true)) ∧
    (q.popRes.contains r.ref = false → queueReady q r.ref false = false →
      (nb = true → completes (.qpop f) s (told (noteReads s (.qpop f) r) nb pD false)) ∧
      (nb = false → exec (.qpop f) s = .next (stopRun s r .wait)))) ∧
  (runMask r = r.work.live → (f.rnd = 2 → r.work.inTeam = true) →
    completes (.tbar f) s (leavesEffect s (.tbar f) r (.tbar f.rnd.toNat (f.imm18.extractLsb' 0 4).toNat))) ∧
  (runMask r ≠ r.work.live ∨ (f.rnd = 2 ∧ r.work.inTeam = false) → exec (.tbar f) s = .next (stopRun s r (.trap 1 (r.idx + 1) 0)))

/-- R186 to R188: an entry that is pushed into a hive queue is what the head's reader finds when it is the oldest; entries leave in the order
they came. -/
def Obligations.HiveQueuesAreFirstInFirstOut : Prop := ∀ (s : State) (r : SwarmRef) (q : Nat) (words : List Word) (g : Workgroup),
  let x := hiveAt s r.core q
  let size := 128 * 2 ^ x.width
  let t := commitPush s r q words
  let y := hiveAt t r.core q
  wg? s (wgOf r) = some g → q < (coreAt s r.core).queues.length → 0 < x.cap → x.head < x.cap → x.tail = (x.head + x.pushers.length) % x.cap →
  x.pushers.length < x.cap → 4 * words.length = size → (∀ n, n < x.cap * size → ringEntry (ringsOf s (wgOf r)) (x.base + n) = none) →
  y.pushers = x.pushers ++ [r.idx] ∧ y.head = x.head ∧ y.tail = (y.head + y.pushers.length) % y.cap ∧
  (hiveAt (commitPop t r q) r.core q).pushers = y.pushers.drop 1 ∧ (hiveAt (commitPop t r q) r.core q).head = (y.head + 1) % y.cap ∧
  ∃ h, wg? t (wgOf r) = some h ∧
    (∀ k, k < words.length → BitVec.ofNat 32 (scratchWord h.scratch (x.base + (x.head + x.pushers.length) % x.cap * size + 4 * k)) = words.getD k 0) ∧
    ∀ j k, j < x.pushers.length → k < size → scratchByte h.scratch (x.base + (x.head + j) % x.cap * size + k) =
      scratchByte g.scratch (x.base + (x.head + j) % x.cap * size + k)

/-- R313 to R316: PROPOSE and DOCRD complete with the replies that are there, or wait for the others; RECYCLE leaves its requests.
The order in which requests to one cell go out is free: log 34; what a proposal's release performs is the model's reading, log 88. -/
def Obligations.CellInstructions : Prop := ∀ (f : Fields) (s : State) (r : Run), s.run = some r →
  (∀ i doc, (i, doc) ∈ [(.propose f, false), (.docrd f, true)] →
    (activeThreads r f = [] → completes i s (noteReads s i r)) ∧
    (∀ e, cellCourse s r f i doc = .error e → exec i s = .next (stopRun s r e)) ∧
    ∀ st, cellCourse s r f i doc = .ok st → (st.ids = [] → completesOn i s st.s st.r) ∧
      (st.ids ≠ [] → exec i s = .next (parkRun st.s st.r (.cellWait st.ids)))) ∧
  (∀ t ts, activeThreads r f = t :: ts → address s r f t % 64 ≠ 0 → ∀ i ∈ [.propose f, .docrd f, .recycle f],
    exec i s = .next (stopRun s r (.trap 5 0 (address s r f t)))) ∧
  (activeThreads r f = [] → completes (.recycle f) s (noteReads s (.recycle f) r)) ∧
  (∀ t ts m pa, activeThreads r f = t :: ts → cellTarget s r.ref (address s r f t) = .ok (m, pa) → m.writable = false →
    stops (.recycle f) s r (.trap 7 0x0504 (address s r f t))) ∧
  (activeThreads r f ≠ [] →
    allActive r f (fun t => ∃ m pa, cellTarget s r.ref (address s r f t) = .ok (m, pa) ∧ m.writable = true) →
    let one := fun t => (address s r f t, (val s r f.dst t).toNat % 2 ^ 16, proposerId s r t)
    let noted := Effect.proposed ((activeThreads r f).map fun t => ((one t).1, (one t).2.1, [], (one t).2.2))
    (comparedRequest s r.ref = false → completes (.recycle f) s { noteReads s (.recycle f) r with
      effects := r.effects ++ [noted, .recycle ((activeThreads r f).map one)] }) ∧
    (comparedRequest s r.ref = true → ∃ u ids, exec (.recycle f) s = .next (parkRun u { noteReads s (.recycle f) r with
        effects := r.effects ++ [noted] } (.cellWait ids)) ∧ ids.length = (activeThreads r f).length ∧ u.mem = s.mem ∧ u.runs = s.runs ∧
      ∀ id ∈ ids, ∃ x ∈ u.cellWaits, x.id = id ∧ x.ref = some r.ref ∧ ∃ t ∈ activeThreads r f,
        x.thread = t ∧ x.va = address s r f t ∧ x.req = .recycle ((one t).2.1) ((one t).2.2)))

/-- R311: the rows of a decide-once cell. -/
def Obligations.CellRows : Prop := ∀ (s : State) (pa inc : Nat) (value : List Byte) (ident : BitVec 128) (sig : Option (BitVec 512)) (scope : Nat),
  Memory.wf s.mem = true → sectorFault s pa = none → value.length = 56 → inc < 2 ^ 16 →
  let b := cellSector s pa
  let same := fun u : State => ∀ a, memGet u.mem a = memGet s.mem a
  let p := cellRow s pa (.propose inc value ident sig scope)
  let d := cellRow s pa (.docrd inc scope)
  let c := cellRow s pa (.recycle inc ident)
  let others := fun u : State => ∀ a, a < pa / 64 * 64 ∨ pa / 64 * 64 + 64 ≤ a → memGet u.mem a = memGet s.mem a
  (2 ≤ stateOf b → ∀ x ∈ [p, d, c], x.1.trap = some (7, 0x0503) ∧ same x.2) ∧
  (stateOf b < 2 → inc ≠ incOf b → ∀ x ∈ [p, d], x.1 = ⟨0x12, none, none, none, false⟩ ∧ same x.2) ∧
  (stateOf b = 0 → inc = incOf b →
    bytesToNat ((cellSector p.2 pa).take 8) = inc + 2 ^ 16 + (ident.extractLsb' 30 5).toNat * 2 ^ 38 +
      (ident.extractLsb' 35 5).toNat * 2 ^ 43 + (ident.extractLsb' 112 16).toNat * 2 ^ 48 ∧
    p.1 = ⟨0, some value, sig, none, true⟩ ∧ others p.2 ∧ incOf (cellSector p.2 pa) = inc ∧ stateOf (cellSector p.2 pa) = 1 ∧
    (cellSector p.2 pa).drop 8 = value ∧ (metaOf p.2 pa).ident = ident ∧ (metaOf p.2 pa).cellSig = sig ∧
    d.1 = ⟨2, none, none, none, false⟩ ∧ same d.2) ∧
  (stateOf b = 1 → inc = incOf b →
    p.1 = ⟨if (metaOf s pa).ident = ident then 0 else 1, some (b.drop 8), (metaOf s pa).cellSig, none, false⟩ ∧ same p.2 ∧
    d.1 = ⟨1, some (b.drop 8), (metaOf s pa).cellSig, none, false⟩ ∧ same d.2 ∧
    others c.2 ∧ incOf (cellSector c.2 pa) = (inc + 1) % 2 ^ 16 ∧ stateOf (cellSector c.2 pa) = 0 ∧
    (∀ k, 3 ≤ k → k < 64 → (cellSector c.2 pa).getD k 0 = 0) ∧ (metaOf c.2 pa).ident = 0 ∧ (metaOf c.2 pa).cellSig = none) ∧
  (stateOf b = 0 ∨ (stateOf b = 1 ∧ inc ≠ incOf b) → same c.2)

/-- R194 to R197, R208 to R211: RESV, RELS, CPOB, and the accumulator names.
That a tile under a DRAIN is held is the model's choice, log 50; that a name freed earlier in the clause counts as unmapped is log 89; that
CPOB checks a length of 0 before the alignment, and its operands in this order, is log 12. That .NB reports 0 while the free tiles are owed
to swarms that wait is an inference from R209, where a freed tile goes to the longest waiter (log 50). -/
def Obligations.MatrixNames : Prop := ∀ (f : Fields) (s : State) (r : Run) (g : Workgroup), s.run = some r → wg? s (wgOf r.ref) = some g →
  let n := f.dst.toNat
  let a := (val s r f.opa (lowest r)).toNat
  let base := a % 2 ^ 8
  let granules := a / 2 ^ 8 % 2 ^ 8 + 1
  let off := fun c : BitVec 8 => if f.ty = .q16 then (val s r c (lowest r)).toNat % 2 ^ 18 else 0
  let apart := ∀ y, some y ∈ recordsNow g r → y.base + y.granules ≤ base ∨ base + granules ≤ y.base
  let live := (recordsNow g r).getD n none
  let nb := f.opx.getLsbD 0
  let free := (List.range 64).filter fun k => (tileAt s r.ref.core k).owner.isNone && !(tilesTaken s r.ref.core).contains k
  let ahead := if nb then ((s.swarms.filter fun x => x.ref.core = r.ref.core && x.ref ≠ r.ref && waitsForTile x).map (tilesOwed s)).sum else 0
  let held := ∃ t, tileOf s (wgOf r.ref) n = some t ∧ tileBusy s (wgOf r.ref) t [r.ref] true = true
  (live = none → base + granules ≤ g.obufGranules → apart → off f.opc % 4 = 0 →
    completes (.resv f) s (leavesEffect s (.resv f) r (.resv n base granules f.ty (off f.opb) (off f.opc)))) ∧
  (live ≠ none → stops (.resv f) s r (.trap 7 0x0302 0)) ∧
  (live = none → g.obufGranules < base + granules → stops (.resv f) s r (.trap 7 0x0304 0)) ∧
  (live = none → base + granules ≤ g.obufGranules → ¬apart → stops (.resv f) s r (.trap 7 0x0303 0)) ∧
  (live = none → base + granules ≤ g.obufGranules → apart → off f.opc % 4 ≠ 0 → stops (.resv f) s r (.trap 5 0 0)) ∧
  completes (.rels f) s (leavesEffect s (.rels f) r (.rels n)) ∧
  (nameNow s r n ≠ none → completes (.accalloc f) s (told (noteReads s (.accalloc f) r) nb f.opa true)) ∧
  (nameNow s r n = none →
    (∀ k ks, free = k :: ks → ahead < free.length →
      completes (.accalloc f) s (told (leavesEffect s (.accalloc f) r (.accMap n k)) nb f.opa true)) ∧
    (free.length ≤ ahead → nb = true → completes (.accalloc f) s (told (noteReads s (.accalloc f) r) nb f.opa false)) ∧
    (free = [] → nb = false → stops (.accalloc f) s r .wait)) ∧
  (¬held → completes (.accfree f) s (leavesEffect s (.accfree f) r (.accFree n))) ∧
  (held → stops (.accfree f) s r .wait) ∧
  (nb = true → completes (.acczero f) s (leavesEffect s (.acczero f) r .accZeroExc)) ∧
  (nb = false → nameNow s r n = none → stops (.acczero f) s r (.trap 7 0x0311 0)) ∧
  (nb = false → nameNow s r n ≠ none →
    (¬held → completes (.acczero f) s (leavesEffect s (.acczero f) r (.accZero n))) ∧ (held → stops (.acczero f) s r .wait)) ∧
  (activeThreads r f = [] → completes (.cpob f) s (noteReads s (.cpob f) r)) ∧
  ∀ t ts, activeThreads r f = t :: ts →
    let src := if nb then (laneAt (partLanes s r f.opa 0) t).toNat else (pairVal s r f.opa t).toNat
    let dst := (val s r f.opb t).toNat
    let len := (val s r f.opc t).toNat
    (len = 0 → completes (.cpob f) s (noteReads s (.cpob f) r)) ∧
    (len ≠ 0 → (src % 64 ≠ 0 ∨ dst % 64 ≠ 0 ∨ len % 64 ≠ 0) → stops (.cpob f) s r (.trap 5 0 src)) ∧
    (len ≠ 0 → src % 64 = 0 → dst % 64 = 0 → len % 64 = 0 →
      (live = none → stops (.cpob f) s r (.trap 7 0x0301 0)) ∧
      ∀ q, live = some q →
        (1024 * q.granules < dst + len → stops (.cpob f) s r (.trap 7 0x0304 0)) ∧
        (dst + len ≤ 1024 * q.granules →
          (nb = true → g.scratch.size < src + len → stops (.cpob f) s r (.trap 7 0 0)) ∧
          ((nb = true → src + len ≤ g.scratch.size) → (nb = false → ∀ o ∈ sectorsOf len, translates s r.ref ((src + o) % 2 ^ 64) false) →
            completes (.cpob f) s (leavesEffect s (.cpob f) r (.async (.cpob n nb src (1024 * q.base + dst) len))))))

/-- R209, R210: a mapped name stands for a tile of zeros that its workgroup owns; an unmapped one for none, and its tile is free. -/
def Obligations.AccumulatorNamesMapTiles : Prop := ∀ (s : State) (g : WgRef) (n k : Nat) (w : Workgroup),
  wg? s g = some w → n < w.names.length → k < (coreAt s g.core).tiles.length →
  let t := mapTile s g n k
  let u := unmapName s g n
  tileOf t g n = some k ∧ (tileAt t g.core k).owner = some g ∧ (tileAt t g.core k).elems = List.replicate 2048 0 ∧
  (∀ j, j ≠ n → tileOf t g j = tileOf s g j) ∧ (∀ j, j ≠ k → tileAt t g.core j = tileAt s g.core j) ∧ t.mem = s.mem ∧
  (tileOf s g n = some k → tileOf u g n = none ∧ (tileAt u g.core k).owner = none ∧ u.mem = s.mem ∧ ∀ j, j ≠ n → tileOf u g j = tileOf s g j)

/-- R150, R200, R201, R212 to R214: ACCRD and ACCWR; the arrival at an MMA or MMAW, with its operands read.
That accepted MMAs of the tile are finished first is the model's choice, log 43; that a tile under a DRAIN is held, log 50; that the access
which finds a tile's error loses it, log 80. -/
def Obligations.MatrixElements : Prop := ∀ (f : Fields) (s : State) (r : Run) (g : Workgroup), s.run = some r → wg? s (wgOf r.ref) = some g →
  let n := f.dst.toNat
  let reads := f.opx.extractLsb' 0 2 ≠ 2
  let wr := Instr.accwr f
  let rd := Instr.accrd f
  let result := fun tile : Tile => writesWord rd f f.opa s r (fun t =>
    let e := elementAt (f.opx.extractLsb' 0 2 == 1) t (val s r f.opb t)
    tile.elems.getD (64 * e.1 + e.2) 0) 0
  let written := completes wr s (leavesEffect s wr r (.accWrite n ((activeThreads r f).map fun t =>
    let e := elementAt (f.opx.getLsbD 0) t (val s r f.opa t)
    (e.1, e.2, val s r f.opb t))))
  (reads → ∀ tile, tileNow s r n false = .ok tile → result tile) ∧
  (¬reads → r.effects = [] →
    writesWord rd f f.opa s r (fun _ => BitVec.ofNat 32 (min (2 ^ 32 - 1) (g.exc.getD n 0 + g.excShadow.getD n 0))) 0) ∧
  (∀ tile, tileNow s r n true = .ok tile → written) ∧
  (r.effects = [] →
    (∀ k, tileOf s (wgOf r.ref) n = some k →
      let busy := fun write => tileBusy s (wgOf r.ref) k [r.ref] write
      let lost := (tileAt s r.ref.core k).lost || (tileAt s r.ref.core k).bad
      (busy true = true → stops wr s r .wait) ∧ (reads → busy false = true → stops rd s r .wait) ∧
      (lost = true → (busy true = false → stops wr s r (.trap 0x0C 0x0004 n)) ∧ (reads → busy false = false → stops rd s r (.trap 0x0C 0x0004 n))) ∧
      (lost = false → (busy true = false → written) ∧
        (reads → busy false = false → result (tileAt (finishOn s r.ref.core k) r.ref.core k)))) ∧
    (tileOf s (wgOf r.ref) n = none → stops wr s r (.trap 7 0x0311 0) ∧ (reads → stops rd s r (.trap 7 0x0311 0)))) ∧
  ∀ wide i, (wide, i) ∈ [(false, Instr.mma f), (true, .mmaw f)] →
    (r.idx + 1 < r.words.length → exec i s = .next { s with run := some (pastWord (arrived s r f wide)) }) ∧
    (r.words.length ≤ r.idx + 1 →
      exec i s = .next { s with run := none, runs := s.runs ++ [{ pastWord (arrived s r f wide) with phase := .arrived }] })

/-- R150, R161, R215 to R218, R304: DRAIN checks its operands, performs one row a step, and completes after its last row. A row goes to the
scratchpad, to memory, or in a task to the task's version; it changes no byte of memory but its own.
That R or C of 0 is checked so is the model's choice, log 90; that a tile another DRAIN uses is held, log 50; that accepted MMAs of the tile
are finished first, log 43; that the access which finds a tile's error loses it, log 80. -/
def Obligations.Drain : Prop := ∀ (f : Fields) (s : State) (r : Run) (g : Workgroup), s.run = some r → wg? s (wgOf r.ref) = some g →
  let i := Instr.drain f
  let out := f.opx.extractLsb' 0 2
  let spad := f.opx.getLsbD 2
  let dst := if spad then (laneAt (partLanes s r f.opa 0) (lowest r)).toNat else (pairVal s r f.opa (lowest r)).toNat
  let pitch := (val s r f.opb (lowest r)).toNat
  let c := (val s r f.opc (lowest r)).toNat
  let rows := c % 2 ^ 6
  let cols := c / 2 ^ 8 % 2 ^ 7
  let e := addSize f.ty (out == 2)
  let aligned := dst % e = 0 ∧ pitch % e = 0 ∧ (out = 2 → dst % 16 = 0 ∧ pitch % 16 = 0)
  let fits := spad = true → dst + (rows - 1) * pitch + cols * e ≤ g.scratch.size ∧ (g.frozen = true → g.scratch.persist ≤ dst)
  let held := ∃ t, tileOf s (wgOf r.ref) f.dst.toNat = some t ∧ tileBusy s (wgOf r.ref) t [r.ref] false = true
  (32 < rows ∨ 64 < cols → stops i s r (.trap 7 0x0313 0)) ∧
  (rows ≤ 32 → cols ≤ 64 →
    (¬aligned → stops i s r (.trap 5 0 dst)) ∧
    (aligned → rows ≠ 0 → cols ≠ 0 → ¬fits → stops i s r (.trap 7 0 0)) ∧
    (aligned → rows = 0 ∨ cols = 0 ∨ fits →
      (held → stops i s r .wait) ∧
      (¬held →
        (rows = 0 ∨ cols = 0 ∨ rows ≤ r.work.prog → completes i s (ended (noteReads s i r))) ∧
        (r.work.prog < rows → cols ≠ 0 →
          let row := drainRow s r f g ⟨dst, pitch, rows, cols⟩
          let goes := fun u : State => exec i s = .next (onward (modSwarm u r.ref fun w => { w with draining := some f.dst.toNat }) r 0)
          let n := cols * e
          let dest := (dst + r.work.prog * pitch) % 2 ^ 64
          let place := fun (a : Nat) (x : Mapping × Nat) => translateData s (dieOf r.ref.core) (ctxOf s (wgOf r.ref)) a true = .ok x
          let first := fun b : Nat => if b < dest then dest else b
          let alone := ∀ x ∈ s.asyncs, x.ref ≠ r.ref
          let physical := fun (o : Nat) (pa : Nat) => ∃ m, place (first ((dest + o) / 64 * 64)) (m, pa)
          (∀ x, row = .error x → stops i s r x) ∧
          (tileOf s (wgOf r.ref) f.dst.toNat = none → stops i s r (.trap 7 0x0311 0)) ∧
          ∀ k, tileOf s (wgOf r.ref) f.dst.toNat = some k →
            let lost := (tileAt s r.ref.core k).lost || (tileAt s r.ref.core k).bad
            let words := ((tileAt (finishOn s r.ref.core k) r.ref.core k).elems.drop (64 * r.work.prog)).take cols
            (lost = true → stops i s r (.trap 0x0C 0x0004 f.dst.toNat)) ∧
            (lost = false → spad = true → g.scratch.bad = [] → alone → ∃ u, row = .ok u ∧ goes u ∧ u.mem = s.mem ∧
              (out = 0 → f.ty = .f32 ∨ f.ty = .s32 → ringsOf s (wgOf r.ref) = [] → (wg? u (wgOf r.ref)).map Workgroup.scratch =
                some (scratchWrite g.scratch (dst + r.work.prog * pitch) (words.map fun x => natToBytes 4 x.toNat).flatten))) ∧
            (lost = false → spad = false → alone → (∀ b ∈ sectorsTouched dest n, ∃ m pa, place (first b) (m, pa) ∧ sectorFault s pa = none) →
              (inTask s (wgOf r.ref) = true ∧ row = .error (.trap 0x0A 0 0)) ∨
              ∃ u, row = .ok u ∧ goes u ∧
                (Memory.wf s.mem = true → s.announcements = [] → (coreAt s r.ref.core).wcb = [] →
                  (∀ a, (inTask s (wgOf r.ref) = true ∨ ∀ o pa, o < n → physical o pa → a ≠ pa / 64 * 64 + (dest + o) % 64) →
                    memGet u.mem a = memGet s.mem a) ∧
                  (inTask s (wgOf r.ref) = false → out = 0 → f.ty = .f32 ∨ f.ty = .s32 →
                    (tileAt (finishOn s r.ref.core k) r.ref.core k).elems.length = 2048 →
                    (∀ o o' pa pa', o < n → o' < n → physical o pa → physical o' pa' → pa / 64 = pa' / 64 → (dest + o) / 64 = (dest + o') / 64) →
                    ∀ o pa, o < n → physical o pa → memGet u.mem (pa / 64 * 64 + (dest + o) % 64) =
                      (words.getD (o / 4) 0).extractLsb' (8 * (o % 4)) 8)))))))

/-- R277, R281, R285, R289 to R293: WBIND, WRESET, FGSTART, FGWAIT and SPUSH.
That a binding is seen by its clause's later words, and that a failed register traps first, are the model's reading, log 49; that FGWAIT.STOP
completes without waiting is log 42. -/
def Obligations.Streams : Prop := ∀ (f : Fields) (s : State) (r : Run) (g : Workgroup), s.run = some r → wg? s (wgOf r.ref) = some g →
  let spad := f.imm18.getLsbD 0
  let app := f.imm18.getLsbD 1
  let k := f.sel.toNat
  let x := (streamsBefore s r).getD k Stream.unbound
  let kept := app && x.bound
  let at_ := if spad then (laneAt (partLanes s r f.opa 0) (lowest r)).toNat else (pairVal s r f.opa (lowest r)).toNat
  let j := f.dst.toNat % 16
  let y := pushTarget s r j
  let eod := f.opx.extractLsb' 0 4
  let words := (List.range threads).map fun t => if r.ref.slice then val s r f.opa 0 else if (active r f).getLsbD t then val s r f.opa t else 0
  let runs := sliceRuns s r
  let busy := sliceTaken s r
  let w := noteReads s (.fgwait f) r
  (x.failed = true → stops (.wbind f) s r (.trap 0x0C 0x0008 0)) ∧
  (x.failed = false → at_ % 64 ≠ 0 → stops (.wbind f) s r (.trap 5 0 at_)) ∧
  (x.failed = false → at_ % 64 = 0 →
    (spad = true → g.scratch.size < at_ + 64 → stops (.wbind f) s r (.trap 7 0 0)) ∧
    ∀ b u, (spad = true ∧ at_ + 64 ≤ g.scratch.size ∧ scratchSeen s g at_ 64 = .ok b ∧ u = s) ∨
        (spad = false ∧ descriptorBytes s r f g = .ok (b, u)) →
      let d := walkDesc b
      let clear := d.ring + 128 * d.depth ≤ g.scratch.size ∧ g.scratch.persist ≤ d.ring ∧ ringTaken s r k d.ring (128 * d.depth) = false
      (descMisaligned d kept = true → stops (.wbind f) s r (.trap 5 0 0)) ∧
      (descMisaligned d kept = false → descInvalid b d kept = true → stops (.wbind f) s r (.trap 7 0x0411 0)) ∧
      (descMisaligned d kept = false → descInvalid b d kept = false →
        (kept = false → ¬clear → stops (.wbind f) s r (.trap 7 0x0412 0)) ∧
        (kept = true → x.next ≠ none → stops (.wbind f) s r (.trap 0x11 0x0404 0)) ∧
        ((kept = false → clear) → (kept = true → x.next = none) →
          completesOn (.wbind f) s u (leavesEffect s (.wbind f) r (.bind (.bind k d app)))))) ∧
  completes (.wreset f) s (leavesEffect s (.wreset f) r (.bind (if f.sel = 0x10 then .resetAll else .reset k))) ∧
  (g.sliceEntry = Config.noneAddr → stops (.fgstart f) s r (.trap 1 (r.idx + 1) 0)) ∧
  (g.sliceEntry ≠ Config.noneAddr → busy = true → stops (.fgstart f) s r (.trap 0x11 0x0405 0)) ∧
  (g.sliceEntry ≠ Config.noneAddr → busy = false → completes (.fgstart f) s (leavesEffect s (.fgstart f) r
    (.fgstart ((List.range 4).map fun q => laneAt (partLanes s r f.opa q) (lowest r))))) ∧
  (f.sel = 0 → (runs = true → stops (.fgwait f) s r .wait) ∧ (runs = false → completes (.fgwait f) s w)) ∧
  (f.sel = 1 → completes (.fgwait f) s (leavesEffect s (.fgwait f) r .fgstop)) ∧
  (f.sel = 2 → completes (.fgwait f) s (told w true f.dst !runs)) ∧
  (activeThreads r f = [] → completes (.spush f) s (noteReads s (.spush f) r)) ∧
  (activeThreads r f ≠ [] →
    (y.bound = false ∨ y.desc.push = false ∨ y.ended = true ∨ 2 ^ y.desc.ndim ≤ eod.toNat → stops (.spush f) s r (.trap 0x11 0x0404 0)) ∧
    (y.bound = true → y.desc.push = true → y.ended = false → eod.toNat < 2 ^ y.desc.ndim →
      (y.depth ≤ y.entries.length → stops (.spush f) s r .wait) ∧
      (y.entries.length < y.depth → completes (.spush f) s (leavesEffect s (.spush f) r (.spush j words eod (f.opx.getLsbD 4))))))

/-- R276, R279, R293: what SPUSH writes is what a reader finds when the entries before it have been taken, with its flags; they keep their
words. -/
def Obligations.StreamsAreFirstInFirstOut : Prop := ∀ (s : State) (r : SwarmRef) (k : Nat) (words : List Word) (eod : BitVec 4) (last : Bool)
    (w : Swarm) (g : Workgroup), swarm? s (ownerOf r) = some w → wg? s (wgOf r) = some g →
  let x := w.streams.getD k Stream.unbound
  k < w.streams.length → x.bound = true → x.entries.length < x.depth → words.length = 32 →
  ∃ v h, swarm? (commitSpush s r k words eod last) (ownerOf r) = some v ∧ wg? (commitSpush s r k words eod last) (wgOf r) = some h ∧
    let y := v.streams.getD k Stream.unbound
    let slot := fun n => x.ring + 128 * ((x.head + n) % x.depth)
    y.entries = x.entries ++ [⟨eod, none⟩] ∧ y.head = x.head ∧ (last = false → y.ended = x.ended) ∧
    (last = true → x.next = none → y.ended = true) ∧
    (∀ d, last = true → x.next = some d → y.desc = { d with ring := x.ring, depth := x.depth } ∧ y.next = none ∧ y.ended = false) ∧
    (popMany x.entries.length y).entries = [⟨eod, none⟩] ∧ (popMany x.entries.length y).head = x.head + x.entries.length ∧
    (popEntry (popMany x.entries.length y)).eodf = eod.setWidth 8 ∧
    (∀ t, t < threads → BitVec.ofNat 32 (scratchWord h.scratch (slot x.entries.length + 4 * t)) = words.getD t 0) ∧
    ∀ n b, n < x.entries.length → b < 128 → scratchByte h.scratch (slot n + b) = scratchByte g.scratch (slot n + b)

/-- R347, R350 to R354: FETCH waits for its workgroup's task; COMMIT, ABANDON, WRAPRET; ENQ reserves its command's place.
That a FETCH arrives as it executes, and that its clause waits in flight with its effects until the fetch completes, is the model's choice,
log 13; that ENQ takes its place at execution is log 52. -/
def Obligations.Tasks : Prop := ∀ (f : Fields) (s : State) (r : Run), s.run = some r →
  let d := f.dst.toNat
  let whole := runMask r = r.work.live
  let open_ := inTask s (wgOf r.ref)
  let place := fun q => enqPlace q
  let turned := divertedLaunch s r.ref.seq
  (¬whole → ∀ i ∈ [.fetch f, .commit f, .abandon f, .wrapret f], stops i s r (.trap 1 (r.idx + 1) 0)) ∧
  (whole →
    (turned = true → stops (.fetch f) s r (.trap 0x11 0x0601 0)) ∧
    (∀ e, turned = false → enabledTrap r.work.mode r.raised = some e → stops (.fetch f) s r (.trap 0x13 e 0)) ∧
    (∀ w, turned = false → swarm? s r.ref = some w → canWritePair s r d (runMask r) → w.deferred = [] →
      enabledTrap r.work.mode r.raised = none →
      ∃ u x, exec (.fetch f) s = .next (settleWg u (wgOf r.ref)) ∧ u.run = none ∧ u.runs = s.runs ++ [x] ∧ u.mem = s.mem ∧ u.wgs = s.wgs ∧
        x.ref = r.ref ∧ x.phase = .fetching d (f.imm18.extractLsb' 0 6).toNat ∧ x.idx = r.idx + 1 ∧ x.words = r.words ∧
        x.effects = r.effects ∧ x.writes = r.writes ∧
        swarm? u r.ref = some { w with endArrived := if open_ then some (w.endArrived.getD .commit) else w.endArrived, rerun := false }) ∧
    (∀ i k, (i, k) ∈ [(Instr.commit f, if f.sel = 1 then EndKind.partialCommit else .commit), (.abandon f, .abandon)] →
      (open_ = true → completes i s (leavesEffect s i r (.endArrive k))) ∧ (open_ = false → completes i s (noteReads s i r))) ∧
    (r.work.diverted = true → completes (.wrapret f) s (leavesEffect s (.wrapret f) r .wrapret)) ∧
    (r.work.diverted = false → stops (.wrapret f) s r (.trap 0x11 0x0604 0))) ∧
  (activeThreads r f = [] → completes (.enq f) s (noteReads s (.enq f) r)) ∧
  ∀ t ts, activeThreads r f = t :: ts →
    let va := address s r f t
    let q? := fun u : State => enqTarget u (ctxOf u (wgOf r.ref)) (laneAt (partLanes s r f.dst 0) t)
    (va % 64 ≠ 0 → stops (.enq f) s r (.trap 5 0 va)) ∧
    ∀ b u, va % 64 = 0 → threadLoad s r.ref true false 0 va 64 = .ok (b, u) →
      let cmd := overCells (clauseStores r) t va b
      let op := recField cmd 0 2
      (q? u = none → stops (.enq f) s r (.trap 7 0x0602 0)) ∧
      ∀ q, q? u = some q →
        (op ≠ 1 → op ≠ 2 → stops (.enq f) s r (.trap 7 0x0603 0)) ∧
        (op = 1 ∨ op = 2 → canWrite u r (d + 1) (runMask r) →
          ∃ r1, wroteReg (noteReads s (.enq f) r) (d + 1) (runMask r) (fun _ => BitVec.ofNat 32 (place q)) 0 r1 ∧
            let r2 := told r1 true (f.opx.setWidth 8) (decide (place q < 2))
            completesOn (.enq f) s (enqReserve u q.num (place q))
              (if place q < 2 then { r2 with effects := r2.effects ++ [.enq q.num cmd (place q == 1)] } else r2))

/-- R403, R412: RGET, RPUT and MCAST leave a transfer, CRED a contribution, for their clause's completion, or trap.
The order of the checks is the model's choice, log 53; that CRED waits for the area at execution is log 44. -/
def Obligations.FabricTransfers : Prop := ∀ (f : Fields) (s : State) (r : Run) (g : Workgroup), s.run = some r → wg? s (wgOf r.ref) = some g →
  let mods := s.fabric.current.mods
  let redundant := inTask s (wgOf r.ref) = true ∧ ∃ l, launch? s r.ref.seq = some l ∧ l.desc.redund = true
  (activeThreads r f = [] → ∀ i ∈ [.rget f, .rput f, .mcast f, .cred f], completes i s (noteReads s i r)) ∧
  ∀ t ts, activeThreads r f = t :: ts →
    let arg := fun k => (laneAt (partLanes s r f.dst k) t).toNat
    let spad := arg 0
    let len := arg 1
    let first := arg 2 % 2 ^ 16
    let far := address s r f t
    (∀ i get rel many, (i, get, rel, many) ∈
        [(.rget f, true, false, false), (.rput f, false, f.opx.getLsbD 0, false), (.mcast f, false, false, true)] →
      let count := if many then arg 3 % 2 ^ 16 else 1
      (len = 0 → completes i s (noteReads s i r)) ∧
      (len ≠ 0 → (spad % 64 ≠ 0 ∨ len % 64 ≠ 0 ∨ far % 64 ≠ 0) → stops i s r (.trap 5 0 far)) ∧
      (len ≠ 0 → spad % 64 = 0 → len % 64 = 0 → far % 64 = 0 →
        (2 ^ 20 < len → stops i s r (.trap 7 0x0805 0)) ∧
        (len ≤ 2 ^ 20 → g.scratch.size < spad + len → stops i s r (.trap 7 0 0)) ∧
        (len ≤ 2 ^ 20 → spad + len ≤ g.scratch.size →
          (ownRank s = none → stops i s r (.trap 7 0x0802 0)) ∧
          (ownRank s ≠ none → (count = 0 ∨ mods.length < first + count) → stops i s r (.trap 7 0x0801 0)) ∧
          (ownRank s ≠ none → count ≠ 0 → first + count ≤ mods.length →
            (get = false → redundant → stops i s r (.trap 7 0x0101 0)) ∧
            (get = true ∨ ¬redundant →
              completes i s (leavesEffect s i r (.transfer ⟨get, rel, spad, len, far, (mods.drop first).take count⟩))))))) ∧
    (arg 1 = 0 → completes (.cred f) s (noteReads s (.cred f) r)) ∧
    (arg 1 ≠ 0 → far % 64 ≠ 0 → stops (.cred f) s r (.trap 5 0 far)) ∧
    (arg 1 ≠ 0 → far % 64 = 0 → ownRank s = none → stops (.cred f) s r (.trap 7 0x0802 0)) ∧
    (arg 1 ≠ 0 → far % 64 = 0 → ownRank s ≠ none → redundant → stops (.cred f) s r (.trap 7 0x0101 0)) ∧
    ∀ b sig u, arg 1 ≠ 0 → far % 64 = 0 → ownRank s ≠ none → ¬redundant → engineRead s (accessOf s r.ref) far 64 = .ok (b, sig, u) →
      let q : CredReq := ⟨far, b, (f.opx.extractLsb' 0 2).toNat, f.ty, f.opx.getLsbD 2, f.opx.getLsbD 3, arg 0, arg 1⟩
      let ok := descOk q.op b = true ∧ q.first + q.count ≤ chunkCount b
      let mine := openedCreds u r
      let joins := fun (desc : List Byte) (op : Nat) (ty : Ty) (sw : Bool) =>
        (credDiffers desc op ty sw q = true → stops (.cred f) s r (.trap 7 0x0806 0)) ∧
        (credDiffers desc op ty sw q = false → completesOn (.cred f) s u (leavesEffect s (.cred f) r (.cred q)))
      (descSrc b % 64 ≠ 0 ∨ descDst b % 64 ≠ 0 → stops (.cred f) s r (.trap 7 0x0805 0)) ∧
      (¬ok → stops (.cred f) s r (.trap 7 0x0805 0)) ∧
      (∀ c, ok → collective? u (descCid b) = some c → joins c.desc c.op c.ty c.sw) ∧
      (ok → collective? u (descCid b) = none →
        (∀ x, (mine.find? fun x => descCid x.body = descCid b) = some x → joins x.body x.op x.ty x.sw) ∧
        ((∀ x ∈ mine, descCid x.body ≠ descCid b) →
          (areaFits u (mine ++ [q]) = false → stops (.cred f) s r .wait) ∧
          (areaFits u (mine ++ [q]) = true → completesOn (.cred f) s u (leavesEffect s (.cred f) r (.cred q)))))

/-- R402, R416, R418, R420: GENFENCE, SNAP and JOIN, of the fabric engine's owner.
The order of the other checks is the model's choice, log 53; the shadow pool is log 54. -/
def Obligations.FabricControl : Prop := ∀ (f : Fields) (s : State) (r : Run), s.run = some r →
  let at_ := (pairVal s r f.opa (lowest r)).toNat
  (inTask s (wgOf r.ref) = true → ∀ i ∈ [.genfence f, .snap f, .join f], stops i s r (.trap 7 0x0803 0)) ∧
  (inTask s (wgOf r.ref) = false → ¬owns s r → ∀ i ∈ [.genfence f, .snap f, .join f], stops i s r (.trap 7 0x0804 0)) ∧
  (owns s r →
    (∀ e, readTable s r.ref at_ = .error e → stops (.genfence f) s r e) ∧
    (∀ m u, readTable s r.ref at_ = .ok (m, u) →
      let now := u.fabric.current
      let follows := m.gen = (now.gen + 1) % 2 ^ 16
      (m = now → answers (.genfence f) f s u r 0 []) ∧
      (m ≠ now → (¬follows ∨ ∃ x, u.fabric.fence = some x ∧ x.next ≠ m) → answers (.genfence f) f s u r 2 []) ∧
      (m ≠ now → follows → (∀ x, u.fabric.fence = some x → x.next = m) → waitsAtFence (.genfence f) f s u r none m)) ∧
    (at_ % 64 ≠ 0 → stops (.join f) s r (.trap 5 0 at_)) ∧
    (∀ b u, at_ % 64 = 0 → homeBytes s r.ref at_ 64 = .ok (b, u) →
      let ok := recField b 8 8 % 32 = 0 ∧ (∀ x ∈ b.drop 28, x = 0) ∧ 0 < recField b 16 4 ∧ recField b 16 4 ≤ 65536
      (¬ok → stops (.join f) s r (.trap 7 0x0805 0)) ∧
      (ok → ownRank u ≠ none → answers (.join f) f s u r 4 []) ∧
      ∀ m v, ok → ownRank u = none → readTable u r.ref (recField b 0 8) = .ok (m, v) →
        let ahead := (m.gen + 2 ^ 16 - v.fabric.current.gen) % 2 ^ 16
        (rankIn m v.fabric.modNum = none → answers (.join f) f s v r 1 []) ∧
        (rankIn m v.fabric.modNum ≠ none → (ahead = 0 ∨ 32767 < ahead ∨ ∃ x, v.fabric.fence = some x ∧ x.next ≠ m) → answers (.join f) f s v r 2 []) ∧
        (rankIn m v.fabric.modNum ≠ none → 0 < ahead → ahead ≤ 32767 → (∀ x, v.fabric.fence = some x → x.next = m) →
          ∀ l x, homeBytes v r.ref (recField b 8 8) (32 * recField b 16 4) = .ok (l, x) →
            let fit := ∀ k, k < recField b 16 4 → 64 ≤ recField l (32 * k + 24) 4 ∧ recField l (32 * k + 24) 4 ≤ 2 ^ 20 ∧
              recField l (32 * k + 24) 4 % 64 = 0
            (¬fit → stops (.join f) s r (.trap 7 0x0805 0)) ∧ (fit → waitsAtFence (.join f) f s x r (some (at_, l)) m))) ∧
    (f.sel = 1 → let id := f.imm18.toNat % 64
      (id ∈ viewIds s r → answers (.snap f) f s s r 0 [.snapEnd id]) ∧ (id ∉ viewIds s r → answers (.snap f) f s s r 1 [])) ∧
    (f.sel ≠ 1 → at_ % 32 ≠ 0 → stops (.snap f) s r (.trap 5 0 at_)) ∧
    (∀ b u, f.sel ≠ 1 → at_ % 32 = 0 → homeBytes s r.ref at_ 32 = .ok (b, u) →
      let range := recField b 0 8
      let len := recField b 8 8
      let alias_ := recField b 16 8
      let id := recField b 24 1
      let pool := (contextAt u (ctxOf u (wgOf r.ref))).shadowPool
      (viewOk b = false → stops (.snap f) s r (.trap 7 0x0805 0)) ∧
      (viewOk b = true → range % 65536 = 0 ∧ len % 65536 = 0 ∧ 0 < len ∧ len ≤ 2 ^ 40 ∧ alias_ % 65536 = 0 ∧ id < 64) ∧
      (viewOk b = true → viewPages u r range len alias_ = .ok () →
        (id ∈ viewIds u r → answers (.snap f) f s u r 1 []) ∧
        (id ∉ viewIds u r → pool = none → answers (.snap f) f s u r 2 []) ∧
        (id ∉ viewIds u r → pool ≠ none → answers (.snap f) f s u r 0 [.snap id range len alias_]))))

/-- R309, R311, R317: whatever the order in which proposals and reads of one incarnation reach a cell, at most one decides it, every value
that is ever replied is that one's, and once a value has been replied, every later reply carries it. -/
def Obligations.CellsDecideOnce : Prop := ∀ (s : State) (pa inc : Nat) (qs : List CellReq),
  Memory.wf s.mem = true → sectorFault s pa = none → inc < 2 ^ 16 → incOf (cellSector s pa) = inc → stateOf (cellSector s pa) < 2 →
  (∀ q ∈ qs, asks inc q) →
  let out := (cellCourseAt s pa qs).1
  (out.filter CellReply.new).length ≤ 1 ∧
  (stateOf (cellSector s pa) = 1 → out.filter CellReply.new = []) ∧
  (∀ x ∈ out, ∀ y ∈ out, ∀ u v, x.value = some u → y.value = some v → u = v) ∧
  (∀ (i j : Nat) (x y : CellReply) (u : List Byte), out[i]? = some x → out[j]? = some y → i ≤ j → x.value = some u → y.value = some u) ∧
  (∀ (i : Nat) (x : CellReply), out[i]? = some x → x.new = true → ∃ value ident sig scope,
    qs[i]? = some (.propose inc value ident sig scope) ∧ x.value = some value ∧ ∀ (j : Nat) (y : CellReply), i < j → out[j]? = some y →
      (∀ v sg sc, qs[j]? = some (.propose inc v ident sg sc) → y.status = 0) ∧
      (∀ v id sg sc, id ≠ ident → qs[j]? = some (.propose inc v id sg sc) → y.status = 1)) ∧
  ∀ x ∈ out, x.trap = none ∧ x.status ≠ 0x12

/-- R7, R67, R74: a step runs the instruction that its clause's next word decodes to, in the machine as it stands once time has passed and
what follows of itself has settled; a clause's words are those that memory holds at the program counter's physical address.
Which agent moves next is the model's choice, log 2; where the word does not execute (a launch that overruns, a long instruction that a
pre-emption stops, a word that waits for its clause's FETCH, log 13, an operand that cannot be corrected) other statements say what happens. -/
def Obligations.StepRunsTheDecodedInstruction : Prop :=
  (∀ (s : State) (r : Run) (w : DWord) (i : Instr),
    let z := settled (tick s)
    (tick s).launches.find? (overrunDue (tick s)) = none → z.run = some r → r.words[r.idx]? = some w → decodeWord w = .ok i →
    i.isInstruction = true → passesOver r = false → stopsHere z r = false → operandStop z r i = none →
    (locked r = true ∨ (dueEvent z = none ∧ ∀ m rest, z.agenda = m :: rest → m.patient = true)) → step s = exec i z) ∧
  (∀ (s : State) (w : Swarm) (rest : List Move) (k : SlotId) (run : Run) (x : DWord) (i : Instr),
    let z := settled (tick s)
    let t := { z with agenda := rest }
    let u := issueClause t w.ref
    let now := { run with work := { run.work with waitFrom := none } }
    (tick s).launches.find? (overrunDue (tick s)) = none → z.run = none → z.agenda = .issue w.ref :: rest → dueEvent z = none →
    swarm? t w.ref = some w → mayIssue t w = true → divertsNow t w = false → w.deferred = [] → w.pendFetch = none →
    choose t w = (k, .issue run) → run.words[run.idx]? = some x → decodeWord x = .ok i → i.isInstruction = true →
    passesOver now = false → stopsHere u now = false → operandStop u now i = none →
    u.run = some now ∧ step s = exec i u ∧
    fetchWord t (dieOf w.ref.core) (ctxOf t (wgOf w.ref)) run.pc = .ok run.header ∧ run.pc = (slotOf w k).pc ∧
    fetchWords t (dieOf w.ref.core) (ctxOf t (wgOf w.ref)) run.pc (hdrCount run.header) = .ok run.words) ∧
  (∀ (s : State) (die ctx : Nat) (pc : DWord) (m : Mapping) (pa : Nat), pc.toNat % 8 = 0 → pa % 8 = 0 →
    translate s die ctx pc.toNat false = .ok (m, pa) → m.onChip = none → m.remote = none → sectorFault s pa = none →
    fetchWord s die ctx pc = .ok (BitVec.ofNat 64 (bytesToNat (memRead s.mem pa 8)))) ∧
  (∀ (s : State) (r : Run), s.run = some r → (settled (tick s)).run = some r) ∧
  (∀ s : State, (tick s).run = s.run ∧ (tick s).runs = s.runs ∧ (tick s).agenda = s.agenda ∧ (tick s).swarms = s.swarms ∧ (tick s).wgs = s.wgs ∧
    (tick s).mem = s.mem ∧ (tick s).queues = s.queues ∧ (tick s).fabric = { s.fabric with counters := (tick s).fabric.counters } ∧
    (∀ d, dieAt (tick s) d = { dieAt s d with counters := (dieAt (tick s) d).counters }) ∧ ∀ k, (coreAt (tick s) k).tiles = (coreAt s k).tiles)

/-- R74, R83: every instruction's word decodes to that instruction with every operand, whatever its operands, and from bytes in memory
order; every word that decodes is the word of what it decodes to. -/
def Obligations.EncodingRoundTrip : Prop :=
  (∀ i : Instr, i.isInstruction = true → ∃ w, encode i = some w ∧ decodeWord w = .ok i ∧
    ∀ rest, decode (natToBytes 8 w.toNat ++ rest) = some (.ok i, rest)) ∧
  (∀ (w : DWord) (i : Instr), decodeWord w = .ok i → encode i = some w ∧ i.isInstruction = true) ∧
  (∀ (i : Instr) (w : DWord) (n : Nat), encode i = some w → decodeTableWord n w.toNat = some i)

/-- R74, R75, R83: words written out from the encodings decode to their instructions. -/
def Obligations.DecodedWords : Prop :=
  decodeTableWord 64 0x0003010200300080 = some (.iaddReg ⟨3, 1, 2, 0, 3, 0, false, 0, 1, 0⟩) ∧
  decodeTableWord 64 0x5000000005002001 = some (.bra ⟨0, 0, 0, 5, 0, 0, true, 0, 0, 1⟩) ∧
  decodeTableWord 64 0x6008040040710000 = some (.ld ⟨8, 4, 0, 0x40, 7, 4, false, 0, 0, 0⟩) ∧
  decodeTableWord 64 0x8A03141617B14000 = some (.drain ⟨3, 0x14, 0x16, 0x17, 0xB, 5, false, 0, 0, 0⟩) ∧
  decodeTableWord 64 0xA30A040040008000 = some (.enq ⟨10, 4, 0, 0x40, 0, 2, false, 0, 0, 0⟩) ∧
  decodeTableWord 64 0x9500000000000000 = none ∧
  decodeTableWord 64 0xB402140000000000 = some (.genfence ⟨2, 0x14, 0, 0, 0, 0, false, 0, 0, 0⟩) ∧
  decodeTableWord 64 0xF011F8FC00000000 = none

/-- Every step keeps every memory in its canonical form: the bytes of the homes, behind the L2s, of the host, of the operand buffers, and
of saved launches.
The canonical form of an unlisted byte is log 1. -/
def Obligations.MemoryStaysCanonical : Prop := ∀ s t : State, s.memOk = true → step s = .next t → t.memOk = true

/-- R328, R401: the machine after reset has no membership and no rank; its launch sequences start at 1; it has no swarm, launch, queue or
mapping; its memories are in canonical form.
How a program is placed (withFetchWord) is the model's choice, log 21. -/
def Obligations.ResetState : Prop :=
  State.reset.memOk = true ∧ State.reset.fabric.current = ⟨0, 0, []⟩ ∧ State.reset.fabric.fence = none ∧ ownRank State.reset = none ∧
  State.reset.nextSeq = 1 ∧ State.reset.swarms = [] ∧ State.reset.launches = [] ∧ State.reset.queues = [] ∧ State.reset.run = none ∧
  (∀ d ∈ State.reset.dies, d.tlb = []) ∧ (∀ n w, (State.reset.withFetchWord n w).memOk = true)

/-- R22, R23, R26, R27, R29, R30, R34, R38, R67, R123: a clause with an enabled exception traps at its completion; one whose words left no
effect on others gives its swarm the registers, the predicates and the next program counter of the clause, frees what it read last, merges
its flags, and changes nothing else of the machine's memories, workgroups, fabric, tiles, caches or queues. A branch gives the slots its
paths and pushes its entries at DSBASE + 32 × DSDEPTH, or stops the clause; EXIT takes its threads from LIVE and from the slot, which empties
with the last of them, takes the PATH on top of the stack, or ends the swarm. Effects take place in program order, all of them, or the clause
stops and none stands.
Which of several enabled flags traps is the model's choice, log 14. -/
def Obligations.ClauseCompletion : Prop := ∀ (s : State) (r : Run) (w : Swarm),
  (∀ k, k < 6 → r.raised.getLsbD k = true → r.work.mode.getLsbD (8 + k) = true → (∀ j, j < k → ¬(r.raised.getLsbD j = true ∧ r.work.mode.getLsbD (8 + j) = true)) →
    completeRun s r = stopRun s r (.trap 0x13 (0x100 + k) 0)) ∧
  (completing s r w → r.effects = [] → r.exits = 0 → r.branch = .none →
    ∃ u v, completeRun s r = u ∧ swarm? u r.ref = some v ∧
      (∀ k, k < r.work.regs.length → v.regs.getD k none = if k ∈ r.frees then none else r.work.regs.getD k none) ∧
      v.preds = r.work.preds ∧ v.rstPc = r.work.rstPc ∧ v.prog = r.work.prog ∧ v.rsv = w.rsv ∧ v.live = w.live ∧ v.dsDepth = w.dsDepth ∧
      slotOf v r.slot = { slotOf w r.slot with pc := nextClause r } ∧ slotOf v r.slot.other = slotOf w r.slot.other ∧
      (inTask s (wgOf r.ref) = false → v.mode = w.mode ||| (r.raised.setWidth 32 <<< 16) ∧ v.shadow = w.shadow) ∧
      (inTask s (wgOf r.ref) = true → v.mode = w.mode ∧ v.shadow = w.shadow ||| r.raised) ∧
      v.relAcc = w.relAcc ∧ v.inflight = w.inflight ∧ v.progFlags = r.work.progFlags ∧ v.draining = none ∧ v.mismatches = 0 ∧
      (∀ k t, (k, t) ∈ v.regErrs ↔ (k, t) ∈ w.regErrs ∧ (r.work.regs.getD k none).isSome = true ∧ k ∉ r.frees ∧
        ∀ x ∈ r.writes, x.1 = k → x.2.1.getLsbD t = false) ∧
      sameMemory s u ∧ u.wgs = s.wgs ∧ u.fabric = s.fabric ∧ u.launches = s.launches ∧ u.versions = s.versions ∧ u.announcements = s.announcements ∧
      (∀ k, (coreAt u k).tiles = (coreAt s k).tiles ∧ (coreAt u k).l1 = (coreAt s k).l1 ∧ (coreAt u k).wcb = (coreAt s k).wcb ∧
        (coreAt u k).queues = (coreAt s k).queues) ∧
      (∀ x, u.run = some x → x.ref ≠ r.ref) ∧ ∀ q w', q ≠ r.ref → swarm? s q = some w' → w'.sched ≠ .held → w'.sched ≠ .halted → swarm? u q = some w') ∧
  -- branches
  (∀ e, completing s r w → branchPaths r = .error e → completeRun s r = stopRun s r e) ∧
  (∀ p, completing s r w → r.effects = [] → branchPaths r = .ok p →
    (p.pushes = [] → r.exits = 0 ∨ p.x.mask &&& ~~~r.exits ≠ 0 → ∃ u v, completeRun s r = u ∧ swarm? u r.ref = some v ∧ sameMemory s u ∧
      slotOf v r.slot = { p.x with mask := p.x.mask &&& ~~~r.exits } ∧ slotOf v r.slot.other = slotOf w r.slot.other ∧
      v.live = w.live &&& ~~~r.exits ∧ v.dsDepth = w.dsDepth) ∧
    (p.pushes ≠ [] → r.exits = 0 →
      let at_ := fun k => translate s (dieOf r.ref.core) (ctxOf s (wgOf r.ref)) (w.dsBase + 32 * (w.dsDepth + k)) true
      (∀ e, at_ 0 = .error e → completeRun s r = stopRun s r e) ∧
      ∀ pa : Nat → Nat, (∀ k, k < p.pushes.length → ∃ m, at_ k = .ok (m, pa k)) →
        (∀ j k, j < p.pushes.length → k < p.pushes.length → j ≠ k → pa j + 32 ≤ pa k ∨ pa k + 32 ≤ pa j) → Memory.wf s.mem = true →
        ∃ u v, completeRun s r = u ∧ swarm? u r.ref = some v ∧ slotOf v r.slot = p.x ∧ slotOf v r.slot.other = p.y ∧ v.live = w.live ∧
          v.dsDepth = w.dsDepth + p.pushes.length ∧ u.backing = s.backing ∧ u.host = s.host ∧
          (∀ k e, p.pushes[k]? = some e → memRead u.mem (pa k) 32 = e) ∧
          ∀ a, (∀ k, k < p.pushes.length → a < pa k ∨ pa k + 32 ≤ a) → memGet u.mem a = memGet s.mem a)) ∧
  -- the exit of all the slot's threads
  (completing s r w → r.effects = [] → r.branch = .none → r.exits ≠ 0 → (slotOf w r.slot).mask &&& ~~~r.exits = 0 →
    let y := slotOf w r.slot.other
    let top := translate s (dieOf r.ref.core) (ctxOf s (wgOf r.ref)) (w.dsBase + 32 * (w.dsDepth - 1)) false
    let u := completeRun s r
    (w.dsDepth = 0 → y.valid = true → ∃ v, swarm? u r.ref = some v ∧ sameMemory s u ∧ slotOf v r.slot = Slot.empty ∧
      slotOf v r.slot.other = y ∧ v.live = w.live &&& ~~~r.exits ∧ v.dsDepth = 0) ∧
    (w.dsDepth = 0 → y.valid = false → ∀ v, swarm? u r.ref = some v → v.sched = .done) ∧
    (∀ e, w.dsDepth ≠ 0 → top = .error e → u = stopRun s r e) ∧
    ∀ m pa e, w.dsDepth ≠ 0 → y.running = true → top = .ok (m, pa) → stackSlot (memRead s.mem pa 32) = (0, e) →
      ∃ v, swarm? u r.ref = some v ∧ sameMemory s u ∧ slotOf v r.slot = e ∧ slotOf v r.slot.other = y ∧ v.live = w.live &&& ~~~r.exits ∧
        v.dsDepth = w.dsDepth - 1) ∧
  -- effects
  (completing s r w → r.exits = 0 → r.branch = .none → (∀ e ∈ r.effects, ∀ k, e ≠ .endArrive k) →
    (inTask s (wgOf r.ref) = false ∨ ∀ e ∈ r.effects, e.versioned = false) →
    let s1 := modSwarm (dropRun s r.ref) r.ref fun v =>
      { setSlot (setSlot (mergeRun r v) r.slot { slotOf w r.slot with pc := nextClause r }) r.slot.other (slotOf w r.slot.other) with
        mismatches := 0
        lastSlot := r.slot }
    (∀ e, r.effects.foldlM (applyEffect r.ref r.pc) s1 = .error e → completeRun s r = stopRun s r e) ∧
    ∀ u, r.effects.foldlM (applyEffect r.ref r.pc) s1 = .ok u →
      (∀ v, swarm? u r.ref = some v → slotMarks v = slotMarks w ∧ v.deferred = [] ∧ v.sliceBinds = []) →
      let t := completeRun s r
      sameMemory u t ∧ t.wgs = u.wgs ∧ t.versions = u.versions ∧ t.fabric = u.fabric ∧ t.queues = u.queues ∧ t.atomics = u.atomics ∧
        t.asyncs = u.asyncs ∧ t.cellWaits = u.cellWaits ∧ t.announcements = u.announcements)

/-- R28, R131 to R139, R148, R150, R152, R157: the events of a core's scheduler and arrays: parking, waiting, filling a lane, swaps, teams,
scoreboards, drowsy banks, refresh, temperature, ageing entries.
What time counts for a team is the model's choice, log 56; when a team enters is log 86. -/
def Obligations.SchedulerEvents : Prop :=
  (∀ (s : State) (r : SwarmRef) (w v : Swarm) (k : SlotId), swarm? s r = some w → mayIssue s w = true → choose s w = (k, .park) →
    (slotOf w k).parked = false →
    let w1 := setSlot w k { slotOf w k with parked := true }
    reconverge (putSwarm s w1) w1 = .ok v → v.over = false → exec (.reconvergencePark r) s = .next (putSwarm (putSwarm s w1) v)) ∧
  (∀ (s : State) (r : SwarmRef) (w : Swarm), swarm? s r = some w → w.sched = .waiting → conditionMet s w = true →
    ∃ t, exec (.waitConditionMet r) s = .next t ∧ swarm? t r = some { w with sched := .ready, since := s.cycle } ∧ otherSwarms s t [r] ∧
      sameMemory s t) ∧
  (∀ (l : List Choice) (x : Choice), bestOf l = some x → x ∈ l ∧ ∀ y ∈ l, y.before x = false) ∧
  (∀ (s : State) (core lane : Nat) (x : Choice) (w : Swarm), (∀ y ∈ laneSwarms s core lane, y.sched ≠ .active ∧ y.inTeam = false) →
    bestOf (choices s core lane) = some x → swarm? s x.ref = some w → w.sched = .ready →
    ∃ t, exec (.activeSlotFill core lane) s = .next t ∧ swarm? t x.ref = some { w with sched := .active, since := s.cycle } ∧
      otherSwarms s t [x.ref] ∧ sameMemory s t) ∧
  (∀ (s : State) (core lane : Nat) (x : Choice) (w y : Swarm), bestOf ((choices s core lane).filter fun x => x.since + 1024 ≤ s.cycle) = some x →
    x.team = none → swarm? s x.ref = some w → w.sched = .ready → occupants s core lane = [y] → swarm? s y.ref = some y → y.ref ≠ x.ref →
    y.sched = .active → atBoundary s y.ref = true → arrivedRun s y.ref = false →
    pinned s y = false →
    ∃ t, exec (.forcedSwap core lane) s = .next t ∧ swarm? t x.ref = some { w with sched := .active, since := s.cycle } ∧
      swarm? t y.ref = some { y with sched := if s.runs.any (fun z => z.ref = y.ref) then .waiting else .ready, since := s.cycle, leftLane := s.cycle } ∧
      otherSwarms s t [x.ref, y.ref] ∧ sameMemory s t) ∧
  (∀ (s : State) (w : Swarm), w.ref.slice = false →
    (laneClaimed s w.ref.core w.lane = true → mayIssue s w = false) ∧
    (bestOf ((choices s w.ref.core w.lane).filter fun x => x.since + 1024 ≤ s.cycle) ≠ none → pinned s w = false → mayIssue s w = false)) ∧
  (∀ (s : State) (g : WgRef) (team : Nat), teamReady s g team = true → teamActive s g team = false →
    (∀ w ∈ liveTeam s g team, laneFree s w.ref.core w.lane = true ∧
      ∃ x, bestOf (choices s w.ref.core w.lane) = some x ∧ x.team = some (g, team)) →
    ∃ t, exec (.teamEntry g team) s = .next t ∧ sameMemory s t ∧ otherSwarms s t ((liveTeam s g team).map Swarm.ref) ∧
      ∀ w ∈ liveTeam s g team, swarm? s w.ref = some w → ∃ v, swarm? t w.ref = some v ∧
        v = { w with sched := .active, since := s.cycle, leftLane := v.leftLane }) ∧
  (∀ (s : State) (r : SwarmRef) (w : Swarm) (x : Run) (xs : List Run), swarm? s r = some w →
    (s.run.toList ++ s.runs).filter (fun y => y.ref = r) = x :: xs → ∃ t, exec (.scoreboardRebuild r) s = .next t ∧ t.mem = s.mem ∧
      (∀ y, t.run = some y → y.ref ≠ r) ∧ (∀ y ∈ t.runs, y.ref ≠ r) ∧
      (w.mismatches < 2 → swarm? t r = some { w with mismatches := w.mismatches + 1 } ∧ otherSwarms s t [r]) ∧
      (2 ≤ w.mismatches → ∃ u, t = takeTrap u r ⟨0x0C, 0x0001, 0, x.pc, 0, w.prog, 0⟩ ∧ swarm? u r = some { w with mismatches := 0 })) ∧
  (∀ (s : State) (core lane bank : Nat), bank < 8 → lane < (coreAt s core).drowsy.length →
    (∀ w ∈ laneSwarms s core lane, (banksOf w).getLsbD bank = true → w.sched ≠ .active ∧ w.leftLane + 512 ≤ s.cycle) →
    ((coreAt s core).bankUse.getD lane []).getD bank 0 + 512 ≤ s.cycle →
    ∃ t, exec (.bankDrowsy core lane bank) s = .next t ∧ ((coreAt t core).drowsy.getD lane 0).getLsbD bank = true ∧ t.swarms = s.swarms ∧
      sameMemory s t) ∧
  (∀ (s : State) (core bank : Nat) (bad : List Nat),
    let p := periodOf (coreAt s core) s.cycle
    bank < 16 → bank * p / 16 ≤ s.cycle % p → s.cycle % p < bank * p / 16 + 48 →
    ∃ t, exec (.accRefreshSlot core bank bad) s = .next t ∧ t.swarms = s.swarms ∧ sameMemory s t ∧ (coreAt t core).refreshPeriod = p ∧
      ∀ j, j < 64 → j < (coreAt s core).tiles.length → (tileAt t core j).elems = (tileAt s core j).elems ∧
        (tileAt t core j).owner = (tileAt s core j).owner ∧
        ((tileAt t core j).lost = true ↔ (tileAt s core j).lost = true ∨ (j / 4 = bank ∧ (j ∈ bad ∨ (tileAt s core j).bad = true)))) ∧
  (∀ (s : State) (core : Nat) (hot : Bool), (coreAt s core).hot ≠ hot →
    ∃ t, exec (.junctionTemperatureChange core hot) s = .next t ∧ (coreAt t core).hot = hot ∧ t.swarms = s.swarms ∧ sameMemory s t ∧
      (coreAt t core).nextPeriod = some (if hot then 2048 else 4096, (s.cycle / 4096 + 1) * 4096)) ∧
  (∀ (s : State) (core sector : Nat) (e : WcbEntry),
    ((coreAt s core).wcb.find? fun e => e.pa = sector && !e.sent && e.firstWrite + 4096 ≤ s.cycle) = some e →
    (∀ g, e.task = some g → exec (.wcEntryAgeDrain core sector) s = .next (drainEntry s core e)) ∧
    (e.task = none → ∃ t, exec (.wcEntryAgeDrain core sector) s = .next t ∧ t.swarms = s.swarms ∧ sameMemory s t ∧
      t.announcements = s.announcements ++ [⟨sector, e.data, e.mask, none, some core⟩] ∧
      (coreAt t core).wcb = (coreAt s core).wcb.map fun x => if x = e then { x with sent := true } else x))

/-- R175, R178, R184, R197, R273, R278, R291, R299, R300, R311: the engines' operations after their clauses, announcements, die copies, cell
requests at their homes, walks and slice contexts.
When buffered stores and results reach their place are the model's choices, logs 33 and 43; that a whole RED, and a whole copy, is performed
in one event, where R301 performs one request per cycle, is the model's choice, logs 39 and 82. -/
def Obligations.EngineEvents : Prop :=
  (∀ (s : State) (id : Nat) (x : Async) (t : State), (s.asyncs.find? fun y => y.id = id) = some x → engineHeld s x.ref id = false →
    (∀ y ∈ s.asyncs.takeWhile (fun y => y ≠ x), sameBytes x y = false) → performAsync s x = .ok t →
    (∀ va spad len, x.kind = .cpin va spad len ∨ x.kind = .cpout va spad len → exec (.copyComplete id) s = .next t) ∧
    (∀ n sp src dst len, x.kind = .cpob n sp src dst len → exec (.cpobComplete id) s = .next t) ∧
    (∀ va len, x.kind = .flush va len → exec (.flushComplete id) s = .next t) ∧
    (∀ y ∈ t.asyncs, y.id ≠ id)) ∧
  (∀ (s : State) (x : Async) (g : Workgroup), wg? s (wgOf x.ref) = some g →
    let a := accessOf s x.ref
    (∀ va spad pa, x.kind = .cpin va spad 64 → plainAt s a va pa false → pa % 64 = 0 → g.frozen = false →
      ∃ t h, performAsync s x = .ok t ∧ sameMemory s t ∧ wg? t (wgOf x.ref) = some h ∧
        ∀ k, ringEntry (ringsOf s (wgOf x.ref)) k = none →
          scratchByte h.scratch k = if spad ≤ k ∧ k < spad + 64 then memGet s.mem (pa + (k - spad)) else scratchByte g.scratch k) ∧
    (∀ va spad pa b, x.kind = .cpout va spad 64 → scratchSeen s g spad 64 = .ok b → plainAt s a va pa true → va % 64 = 0 → pa % 64 = 0 → s.announcements = [] →
      (∀ e ∈ (coreAt s x.ref.core).wcb, e.pa ≠ pa) → Memory.wf s.mem = true →
      ∃ t, performAsync s x = .ok t ∧ t.wgs = s.wgs ∧ t.backing = s.backing ∧
        ∀ k, memGet t.mem k = if pa ≤ k ∧ k < pa + 64 then b.getD (k - pa) 0 else memGet s.mem k) ∧
    (∀ n src dst b, x.kind = .cpob n true src dst 64 → scratchSeen s g src 64 = .ok b → Memory.wf g.obuf = true →
      ∃ t h, performAsync s x = .ok t ∧ sameMemory s t ∧ wg? t (wgOf x.ref) = some h ∧ h.scratch = g.scratch ∧
        ∀ k, memGet h.obuf k = if dst ≤ k ∧ k < dst + 64 then b.getD (k - dst) 0 else memGet g.obuf k) ∧
    (∀ va m pa, x.kind = .flush va 256 → translate s a.die a.ctx va false = .ok (m, pa) → m.onChip = none → s.announcements = [] →
      (coreAt s x.ref.core).wcb = [] → pa / 256 ∈ s.dirty → Memory.wf s.backing = true →
      ∃ t, performAsync s x = .ok t ∧ t.mem = s.mem ∧ pa / 256 ∉ t.dirty ∧
        (keyContext s (256 * (pa / 256)) = none →
          ∀ b, memGet t.backing b = if b / 256 = pa / 256 then memGet s.mem b else memGet s.backing b) ∧
        (∀ c, keyContext s (256 * (pa / 256)) = some c →
          let text := Config.cipher c (pa / 256) (memRead s.mem (256 * (pa / 256)) 256)
          t.backing = memWrite s.backing (256 * (pa / 256)) text ∧
          (pa / 256, c, Config.integrityTag c (pa / 256) text) ∈ t.lineTags))) ∧
  (∀ (s : State) (id : Nat) (x : AtomicWait) (t : State), (s.atomics.find? fun y => y.id = id) = some x → engineHeld s x.ref id = false →
    (∀ y ∈ s.atomics.takeWhile (fun y => y ≠ x), y.ref = x.ref → ∀ q ∈ x.reqs, ∀ pa, requestPa s x q = some pa → sameHome s y pa = false) →
    performRed s x = .ok t → exec (.atomicUnitRequest id) s = .next t ∧ ∀ y ∈ t.atomics, y.id ≠ id) ∧
  (∀ (s : State) (x : AtomicWait) (q : AtomicReq) (pa : Nat), x.reqs = [q] → plainAt s (accessOf s x.ref) q.va pa true → s.announcements = [] →
    (∀ e ∈ (coreAt s x.ref.core).wcb, e.pa ≠ pa / 64 * 64) → Memory.wf s.mem = true →
    let n := q.ty.bits / 8
    let new := natToBytes n (atomicNew q.ty q.op (bytesToNat (memRead s.mem pa n)) q.operand)
    ∃ t, performRed s x = .ok t ∧ t.wgs = s.wgs ∧
      ∀ b, memGet t.mem b = if pa ≤ b ∧ b < pa + n then new.getD (b - pa) 0 else memGet s.mem b) ∧
  (∀ (s : State) (a : Announcement) (rest : List Announcement), s.announcements = a :: rest → Memory.wf s.mem = true →
    ∃ t, exec .announcementDelivery s = .next t ∧ a ∉ t.announcements ∧ t.host = s.host ∧
      ∀ b, memGet t.mem b = if b / 64 = a.pa / 64 ∧ a.mask.getLsbD (b % 64) = true then a.data.getD (b % 64) 0 else memGet s.mem b) ∧
  (∀ (s : State) (id d : Nat) (f : CopyFetch), (s.dies.findIdx? fun d => d.fetches.any fun f => f.id = id) = some d →
    ((dieAt s d).fetches.find? fun f => f.id = id) = some f →
    ∃ t, exec (.sectorFetchReply id) s = .next t ∧ sameMemory s t ∧ t.swarms = s.swarms ∧
      (f.count = (metaOf s f.pa).announced → ⟨f.pa, f.data, f.sig⟩ ∈ (dieAt t d).copies ∧ ∀ y ∈ (dieAt t d).fetches, y.id ≠ id) ∧
      (f.count ≠ (metaOf s f.pa).announced → (dieAt t d).copies = (dieAt s d).copies)) ∧
  (∀ (s : State) (id : Nat) (x : CellWait) (r : SwarmRef), (s.cellWaits.find? fun y => y.id = id) = some x →
    (∀ y ∈ s.cellWaits.takeWhile (fun y => y ≠ x), y.ref ≠ some r ∨ y.pa ≠ x.pa ∨ y.home ≠ x.home) →
    x.packet = none → x.ref = some r → snapshotHolds s x.pa x.req = false → (x.req.key = none ∨ comparedRequest s r = false) → x.home = none →
    let y := cellRow s x.pa x.req
    exec (.cellRequestAtHome id) s = .next (answerWaits y.2 [x] y.1)) ∧
  (∀ (s : State) (r : SwarmRef) (k : Nat) (w : Swarm) (g : Workgroup), swarm? s r = some w → wg? s (wgOf r) = some g →
    let x := w.streams.getD k Stream.unbound
    let slot := x.ring + 128 * ((x.head + x.entries.length) % x.depth)
    r.slice = false → w.sched ≠ .done → k < w.streams.length → x.bound = true → x.failed = false → x.desc.push = false → x.ended = false →
    x.entries.length < x.depth → engineHeld s r (walkName k) = false → x.desc.scratch = true →
    (∀ t, t < threads → walkAddr x.desc x.pos t + 4 ≤ g.scratch.size ∧ eccBad g.scratch.bad (walkAddr x.desc x.pos t) 4 = false) →
    ∃ u v h, exec (.walkEntryGenerate r k) s = .next u ∧ sameMemory s u ∧ swarm? u r = some v ∧ wg? u (wgOf r) = some h ∧
      v.streams.getD k Stream.unbound = appended x ⟨walkEod x.desc x.pos, none⟩ ∧ v.regs = w.regs ∧
      ∀ t, t < threads → scratchWord h.scratch (slot + 4 * t) = scratchWord g.scratch (walkAddr x.desc x.pos t)) ∧
  (∀ (s : State) (cluster : Nat) (w : Swarm), (s.swarms.filter fun w => clusterOf w.ref.core = cluster && w.sched = .waiting && waitsForSlice w) = [w] →
    swarm? s w.ref = some w → slicesIn s cluster < 64 → canGo s w = true →
    ∃ t, exec (.sliceContextGrant cluster) s = .next t ∧ sameMemory s t ∧ swarm? t w.ref = some { w with sched := .ready, since := s.cycle } ∧
      otherSwarms s t [w.ref])

/-- R60 to R63, R198 to R207, R214, R222: the engine accepts a complete arrival with its operands as they stand, writes the result into the rows of
its mask, and reclaims tiles when every holder waits; INT8 sums wrap.
When a result lands is the model's choice, log 43; what a reclaim waits for is log 57; that the acceptance which finds a tile's error loses
it, and which trap disagreeing members take beside a DONE one, is log 80; which bytes of A masked rows consume is log 96. -/
def Obligations.MatrixEvents : Prop :=
  (∀ (s : State) (r : SwarmRef) (w : Swarm) (g : Workgroup) (x : Run) (a : Arrival), swarm? s r = some w → wg? s (wgOf r) = some g →
    w.inTeam = false → w.sched ≠ .done → (s.runs.find? fun y => y.ref = r && y.phase = .arrived) = some x → x.arrival = some a →
    (∀ k, tileOf s g.ref a.acc = some k → tileBusy s g.ref k [r] true = false) →
    (∀ q y, g.records.getD a.record none = some q → y ∈ s.asyncs → y.path = 3 → y.ref = r → obufMeets s g.ref (mmaReads a q) y = true →
      exec (.mmaAccept r) s = .next s) ∧
    (s.asyncs = [] → g.records.getD a.record none = none → exec (.mmaAccept r) s = .next (stopRun s x (.trap 7 0x0301 0))) ∧
    ∀ q, s.asyncs = [] → g.records.getD a.record none = some q →
      (q.atype ≠ a.ty → exec (.mmaAccept r) s = .next (stopRun s x (.trap 7 0x0306 0))) ∧
      (q.atype = a.ty → ¬(∀ b ∈ mmaReads a q, b.1 + b.2 ≤ 1024 * (q.base + q.granules)) →
        exec (.mmaAccept r) s = .next (stopRun s x (.trap 7 0x0305 0))) ∧
      (q.atype = a.ty → (∀ b ∈ mmaReads a q, b.1 + b.2 ≤ 1024 * (q.base + q.granules)) →
        (tileOf s g.ref a.acc = none → exec (.mmaAccept r) s = .next (stopRun s x (.trap 7 0x0311 0))) ∧
        ∀ k, tileOf s g.ref a.acc = some k →
          ((tileAt s g.ref.core k).lost = true ∨ (tileAt s g.ref.core k).bad = true →
            exec (.mmaAccept r) s = .next (stopRun s x (.trap 0x0C 0x0004 a.acc))) ∧
          ((tileAt s g.ref.core k).lost = false → (tileAt s g.ref.core k).bad = false →
            (∃ b ∈ mmaReads a q, eccBad g.obufBad b.1 b.2 = true) →
            exec (.mmaAccept r) s = .next (stopRun s x (.trap 0x0C 0x0003 0)))) ∧
      ∀ k, q.atype = a.ty → (∀ b ∈ mmaReads a q, b.1 + b.2 ≤ 1024 * (q.base + q.granules) ∧ eccBad g.obufBad b.1 b.2 = false) →
        tileOf s g.ref a.acc = some k → (tileAt s g.ref.core k).lost = false → (tileAt s g.ref.core k).bad = false → s.mmas = [] →
        let m := captureMma s g g.obuf a q k [x]
        let u := modSwarm (countCore { s with nextId := s.nextId + 1, mmas := [m] } g.ref.core 0x0D g.ctx) r fun w =>
          { w with inflight := w.inflight.modify 3 (· ++ [⟨s.nextId, false⟩]) }
        (∀ v, commitRun u x = .ok v → exec (.mmaAccept r) s = .next v) ∧
        (∀ e, commitRun u x = .error e → exec (.mmaAccept r) s = .next (if e = .wait then s else stopRun s x e)) ∧
        m.acc = a.acc ∧ m.tile = k ∧ m.rows = a.rows ∧ m.discarded = false ∧
        (a.ty ≠ .q16 → m.aBytes = memRead g.obuf (1024 * q.base + 2048 * a.tile) 2048) ∧
        (a.ty = .q16 → m.aBytes = memRead g.obuf (1024 * q.base + 1024 * a.tile) 1024 ∧
          m.scales = memRead g.obuf (1024 * q.base + q.scoff + 32 * a.tile) 32)) ∧
  -- a team: every live member arrives, with one key; the lowest decides, each gives its quarters, and all their clauses complete
  (∀ (s : State) (r : SwarmRef) (w : Swarm) (g : Workgroup), swarm? s r = some w → wg? s (wgOf r) = some g → w.inTeam = true →
    let live := liveTeam s g.ref w.team
    let find := fun m : Swarm => s.runs.find? fun y => y.ref = m.ref && y.phase = .arrived
    let xs := live.filterMap find
    let stopAt := fun e : Stop => exec (.mmaAccept r) s = .next (xs.foldl (fun u x => stopRun u x e) s)
    let away := ∃ m ∈ teamOf s g.ref w.team, m.sched = .done ∧ ∃ q, q < 4 ∧ q % g.teamSize = m.teamPos
    ((∃ m ∈ live, find m = none) → exec (.mmaAccept r) s = .next s) ∧
    ((∀ m ∈ live, find m ≠ none) → (∀ x ∈ xs, x.arrival ≠ none) →
      ((∃ x ∈ xs, ∃ y ∈ xs, x.arrival.map Arrival.key ≠ y.arrival.map Arrival.key) → stopAt (.trap 1 0x0201 0)) ∧
      ((∀ x ∈ xs, ∀ y ∈ xs, x.arrival.map Arrival.key = y.arrival.map Arrival.key) → live ≠ [] → away → stopAt (.trap 7 0x0312 0)) ∧
      ∀ (d : Swarm) (z : Run) (a : Arrival) (q : Reservation) (k : Nat),
        (∀ x ∈ xs, ∀ y ∈ xs, x.arrival.map Arrival.key = y.arrival.map Arrival.key) → ¬away → d ∈ live →
        (∀ m ∈ live, m.ref ≠ d.ref → d.teamPos < m.teamPos) → find d = some z → z.arrival = some a →
        tileOf s g.ref a.acc = some k → tileBusy s g.ref k (live.map Swarm.ref) true = false → s.asyncs = [] → s.mmas = [] →
        g.records.getD a.record none = some q → q.atype = a.ty →
        (∀ b ∈ mmaReads a q, b.1 + b.2 ≤ 1024 * (q.base + q.granules) ∧ eccBad g.obufBad b.1 b.2 = false) →
        (tileAt s g.ref.core k).lost = false → (tileAt s g.ref.core k).bad = false →
        let m := captureMma s g g.obuf a q k xs
        let u := countCore { s with nextId := s.nextId + 1, mmas := [m] } g.ref.core 0x0D g.ctx
        (∀ v, completeMembers s.nextId u xs = .ok v → exec (.mmaAccept r) s = .next v) ∧
        (∀ x e, completeMembers s.nextId u xs = .error (x, e) → exec (.mmaAccept r) s = .next (if e = .wait then s else stopRun s x e)) ∧
        m.members = xs.map Run.ref ∧ m.acc = a.acc ∧ m.tile = k ∧ m.rows = a.rows ∧
        ∀ x ∈ xs, ∀ b, x.arrival = some b → ∀ p ∈ b.quarters, p.1 < 4 →
          (∀ y ∈ xs, ∀ c, y.arrival = some c → ∀ p' ∈ c.quarters, p'.1 = p.1 → p' = p) → m.quarters.getD p.1 [] = p.2)) ∧
  (∀ (s : State) (id : Nat) (m : AcceptedMma), (s.mmas.find? fun y => y.id = id) = some m → m.discarded = false →
    (∀ y ∈ s.mmas, y.wg.core = m.wg.core → y.tile = m.tile → y.discarded = false → id ≤ y.id) →
    m.tile < (coreAt s m.wg.core).tiles.length → (tileAt s m.wg.core m.tile).elems.length = 2048 →
    ∃ t, exec (.mmaResultWrite id) s = .next t ∧ sameMemory s t ∧ (∀ y ∈ t.mmas, y.id ≠ id) ∧
      (∀ j, j ≠ m.tile → tileAt t m.wg.core j = tileAt s m.wg.core j) ∧
      ∀ i n, i < 32 → n < 64 →
        let old := (tileAt s m.wg.core m.tile).elems.getD (64 * i + n) 0
        (tileAt t m.wg.core m.tile).elems.getD (64 * i + n) 0 = if m.rows.getLsbD i then (mmaNew m i n old).1 else old) ∧
  (∀ (m : AcceptedMma) (i n : Nat) (old : Word), m.ty = .s8 →
    (mmaNew m i n old).2 = [] ∧
    (mmaNew m i n old).1.toInt = Int.bmod (old.toInt + ((List.range 64).map fun k => readInt true 8 (aBits m i k) * readInt true 8 (bBits m k n)).sum)
      (2 ^ 32)) ∧
  -- other formats: the groups of 16 products are summed, each sum rounded once, and added to the element with a second rounding
  (∀ (m : AcceptedMma) (i n : Nat) (old : Word), m.ty ≠ .s8 →
    let steps := fun (count : Nat) (terms : Nat → List (Val × Val)) => ∃ acc sum : Nat → Nat, acc 0 = old.toNat ∧
      (mmaNew m i n old).1 = BitVec.ofNat 32 (acc count) ∧
      ∀ g, g < count → groupSumIs (terms g) (sum g) ∧ acc (g + 1) = (fmtF32.add FCtx.engine (acc g) (sum g)).bits
    (m.wide = false → steps (mmaK m.ty / 16) fun g => (List.range 16).map fun k => mmaPairAt m i n (16 * g + k)) ∧
    (m.wide = true → m.ty = .f32 → steps 6 fun g =>
      mmawTerms (mmawPasses.getD g (0, 0)) ((List.range 16).map fun k => mmaPairAt m i n k)) ∧
    (m.ty ≠ .q16 → ∀ k, mmaPairAt m i n k = (m.ty.fmt.decode false (aBits m i k), m.tyB.fmt.decode false (bBits m k n))) ∧
    (m.ty = .q16 → finite (fmtF32.decode false (m.supers.getD i 0).toNat) → ∀ k, finite (mmaPairAt m i n k).1 ∧
      ratOf (mmaPairAt m i n k).1 = ratOf (fmtF32.decode false (m.supers.getD i 0).toNat) * (q16c (aBits m i k) * bytesAt m.scales i 1 : Int) / 2 ^ 15 ∧
      (mmaPairAt m i n k).2 = m.tyB.fmt.decode false (bBits m k n))) ∧
  ∀ (s : State) (core n0 : Nat) (g : WgRef) (l : Launch),
    let tiles := (coreAt s core).tiles
    let holders := (tiles.filterMap Tile.owner).eraseDups
    g.core = core → (∀ x ∈ tiles, x.owner ≠ none) → (∀ h ∈ holders, ∃ w ∈ swarmsOf s h, waitsForTile w = true) → g ∈ holders →
    divertedLaunch s g.seq = false → (∀ h ∈ holders, h ≠ g → divertedLaunch s h.seq = false → h.seq < g.seq) →
    tileOf s g n0 ≠ none → drainUnderWay s g = false → onlyMmas s g = true → launch? s g.seq = some l →
    ∃ t, exec (.accumulatorReclaim core) s = .next t ∧ sameMemory s t ∧ (∀ n, tileOf t g n = none) ∧
      (∀ k, (tileAt t core k).owner ≠ some g) ∧ (∀ k, (tileAt s core k).owner ≠ some g → tileAt t core k = tileAt s core k) ∧
      launch? t g.seq = some { l with reclaims := l.reclaims + 1, flags := l.flags ||| 1 }

/-- R23, R243, R244, R347 to R349, R371, R372: outside redundant mode, the end of a task as a commit or an abandonment, its replay and its end
without replay; R376: the timeout of a tie-breaking run. -/
def Obligations.TaskEvents : Prop :=
  (∀ (s : State) (g : WgRef) (w : Workgroup) (k : Task) (l : Launch), wg? s g = some w → w.task = some k → w.twin.twin = none →
    launch? s g.seq = some l → l.desc.vmap = 0 → taskIsOver s g = true → commitHeld s (primaryOf s g) = false → s.announcements = [] →
    (∀ e ∈ (coreAt s g.core).wcb, e.task ≠ some g) → ∃ t l', exec (.taskEnd g) s = .next t ∧ launch? t g.seq = some l' ∧
      (outcomeOf s g = .abandon → t.mem = s.mem ∧ (k.tile, 3) ∈ l'.codes ∧ (∀ v ∈ t.versions, v.wg = g → v.parked ≠ none) ∧
        ∀ r y, swarm? s r = some y → wgOf r = g → r.slice = false → y.sched ≠ .done → ∃ v, swarm? t r = some v ∧ v.mode = y.entryMode) ∧
      (∀ sw va d m rmw mp pa, outcomeOf s g ≠ .abandon → versionOps s g = [.store sw va d m rmw] → k.releases = [] → k.enqs = [] →
        (∀ v ∈ s.versions, v.wg = g → v.parked = none → v.failed = []) → translate s (dieOf g.core) (ctxOf s g) va true = .ok (mp, pa) →
        Memory.wf s.mem = true →
        (k.tile, (outcomeOf s g).code) ∈ l'.codes ∧ (∀ v ∈ t.versions, v.wg = g → v.parked ≠ none) ∧
        (∀ b, memGet t.mem b = if b / 64 = pa / 64 ∧ m.getLsbD (b % 64) = true then d.getD (b % 64) 0 else memGet s.mem b) ∧
        ∀ r y, swarm? s r = some y → wgOf r = g → r.slice = false → y.sched ≠ .done →
          ∃ v, swarm? t r = some v ∧ v.mode = y.mode ||| (y.shadow.setWidth 32 <<< 16))) ∧
  (∀ (s : State) (g : WgRef) (w : Workgroup) (k : Task) (l : Launch), wg? s g = some w → w.task = some k → w.twin.twin = none →
    launch? s g.seq = some l → quiet s g = true → restartWaits s [g] = none → (k.records.map StartRecord.idx).Nodup →
    (∀ x ∈ k.records, swarm? s ⟨g.seq, g.core, x.idx, false⟩ ≠ none) →
    (k.ending = some .replay → ∃ t h, exec (.taskReplay g) s = .next t ∧ wg? t g = some h ∧
      h.task = some { k with ending := none, attempt := k.attempt + 1, enqs := [], releases := [], cellOps := [] } ∧ h.barriers = [] ∧
      launch? t g.seq = some { l with replays := l.replays + 1 } ∧ (∀ v ∈ t.versions, v.wg = g → v.parked ≠ none) ∧
      ((∀ x ∈ k.records, x.stack = []) → t.mem = s.mem) ∧
      ∀ x ∈ k.records, ∃ v, swarm? t ⟨g.seq, g.core, x.idx, false⟩ = some v ∧ v.slotA = x.slotA ∧ v.slotB.valid = false ∧ v.live = x.live ∧
        v.dsDepth = x.dsDepth ∧ v.rsv = x.rsv ∧ v.mode = x.entryMode ∧ v.shadow = 0 ∧ v.prog = 0) ∧
    (∀ code, k.ending = some (.noReplay code) → w.twin.tieBreak = false → l.desc.vmap = 0 → k.records ≠ [] →
      (∀ x ∈ swarmsOf s g, x.stopped = false) →
      ∃ t h l', exec (.trapWithoutReplay g) s = .next t ∧ wg? t g = some h ∧ h.task = none ∧ launch? t g.seq = some l' ∧ (k.tile, code) ∈ l'.codes ∧
        (∀ v ∈ t.versions, v.wg = g → v.parked ≠ none) ∧ ((∀ x ∈ k.records, x.stack = []) → t.mem = s.mem) ∧
        (l.cause = 0 → (∀ x ∈ k.records, x.dsDepth ≤ 4) → ∀ x ∈ k.records, ∃ v, swarm? t ⟨g.seq, g.core, x.idx, false⟩ = some v ∧
          v.slotA = { x.slotA with pc := x.fetchPc } ∧ v.slotB.valid = false ∧ v.live = x.live ∧ v.mode = x.entryMode ∧ v.prog = 0))) ∧
  (∀ (s : State) (g : WgRef) (k : Task) (l : Launch) (z : TieTile), (wg? s g).bind Workgroup.task = some k → launch? s g.seq = some l →
    (l.ties.find? fun z => z.tile = k.tile && (z.primary = g || z.twin = g)) = some z → z.dispatched = false → z.since + 10 ^ 6 ≤ s.clkns →
    disagreeing s z.primary ++ disagreeing s z.twin ≠ [] →
    ∃ t, exec (.tiebreakTimeout g) s = .next t ∧ t.mem = s.mem ∧
      (∀ x ∈ disagreeing s z.primary ++ disagreeing s z.twin, x ∉ t.cellWaits) ∧
      ∀ l', launch? t g.seq = some l' → ∀ y ∈ l'.ties, y.tile ≠ k.tile)

/-- R17, R330 to R343, R355, R358, R360, R377 to R379, R383: the doorbell, the commands, mapping, placement, completion, diversion, overrun,
the watchdog, pre-emption, restore, and the activation of a firmware image.
Firmware's placement policy is the model's choice, log 61; when a launch counts as started is log 70; commands that cannot be read are log 23,
where rings and read indices lie is log 31, the lines that a SIGNAL marks are log 22, and the end of a launch not yet placed is log 97. -/
def Obligations.LaunchEvents : Prop :=
  (∀ (s : State) (q index : Nat) (x : WorkQueue), queue? s q = some x →
    ∃ t y, exec (.doorbellWrite q index) s = .next t ∧ sameMemory s t ∧ t.swarms = s.swarms ∧ queue? t q = some y ∧ y.widx = index % 2 ^ 32) ∧
  (∀ (s : State) (q : Nat) (x : WorkQueue), queue? s q = some x → x.mapped = true → x.taken ≠ x.widx → x.num = q →
    let c := commandAt s x x.taken
    (c.opcode ≠ 1 → c.opcode ≠ 2 → x.open_ = [] → x.ridx = x.taken → x.taken < 2 ^ 32 →
      ∃ t y, exec (.nopCommand q) s = .next t ∧ queue? t q = some y ∧ y.taken = (x.taken + 1) % 2 ^ 32 ∧ y.ridx = (x.taken + 1) % 2 ^ 32 ∧
        t.mem = (ringWrite s x.ridxAddr (natToBytes 4 ((x.taken + 1) % 2 ^ 32))).mem ∧
        (Config.deviceAddress x.ridxAddr = false →
          t.host = memWrite s.host x.ridxAddr (natToBytes 4 ((x.taken + 1) % 2 ^ 32)) ∧ t.mem = s.mem) ∧
        t.msix = s.msix ++ if c.notify then [x.vector] else []) ∧
    (∀ b r, c.opcode = 1 → mayStart x c = true → engineHeld s hubRef (queueName q) = false → launchReads s x c = .ok (b, r) →
      let bad := r.isNone || recordBad (r.getD [])
      let binds := streamRecords (r.getD [])
      (admission b (launchDesc b) bad binds = none →
        ∃ t, exec (.launch q) s = .next t ∧ sameMemory s t ∧ t.launches = s.launches ++ [newLaunch s x c (launchDesc b) binds]) ∧
      (∀ st res, admission b (launchDesc b) bad binds = some (st, res) →
        ∃ t, exec (.launch q) s = .next t ∧ ∃ l ∈ t.launches, l.id = s.nextId ∧ l.status = st ∧ l.resource = res ∧ l.live = false)) ∧
    (∀ u, c.opcode = 2 → mayStart x c = true → engineHeld s hubRef (queueName q) = false → c.addr % 8 = 0 →
      writeAny s x.ctx c.addr (natToBytes 8 c.value) (.replace (BitVec.allOnes 512)) = .ok u → u.queues = s.queues →
      ∃ t y, exec (.signal q) s = .next t ∧ t.mem = u.mem ∧ queue? t q = some y ∧ y.taken = (x.taken + 1) % 2 ^ 32)) ∧
  (∀ (s : State) (q : Nat) (x : WorkQueue), queue? s q = some x → 0 < x.extCount → ringUsed x < x.entries →
    let at_ := x.ring + 64 * (x.widx % x.entries)
    let b := memRead s.mem (x.extBase + 64 * (x.extHead % x.extEntries)) 64
    ∃ t y, exec (.extensionRefill q) s = .next t ∧ t.mem = (ringWrite s at_ b).mem ∧
      (Config.deviceAddress at_ = false → t.host = memWrite s.host at_ b ∧ t.mem = s.mem) ∧
      queue? t q = some y ∧ y.extCount = x.extCount - 1 ∧ y.extHead = (x.extHead + 1) % x.extEntries ∧ y.widx = (x.widx + 1) % 2 ^ 32) ∧
  (∀ s : State, (∀ q ∈ s.queues, q.removing = false) → ∃ t, exec .mappingEvaluation s = .next t ∧ sameMemory s t ∧ t.swarms = s.swarms ∧
    t.wgs = s.wgs ∧ ∀ q, s.queues = [q] → q.mapped = false → t.queues = [{ q with mapped := true }]) ∧
  (∀ (s : State) (id : Nat) (l : Launch) (ps : List (Nat × Nat × Nat × Nat)), (s.launches.find? fun l => l.id = id && l.state = .waiting) = some l →
    s.powered = true → (queue? s l.queue).any WorkQueue.mapped = true → activating s = false → placesFor s l = some ps →
    ∃ t, exec (.launchPlacement id) s = .next t ∧ sameMemory s t ∧ t.nextSeq = s.nextSeq + 1 ∧
      (∃ l' ∈ t.launches, l'.id = id ∧ l'.state = .resident ∧ l'.seq = s.nextSeq) ∧
      t.swarms.length = s.swarms.length + ps.length * l.desc.swarms ∧
      ∀ w ∈ t.swarms.drop s.swarms.length, w.ref.seq = s.nextSeq ∧ w.live = 0xFFFFFFFF ∧
        w.slotA = ⟨true, false, l.desc.entry, 0xFFFFFFFF, BitVec.allOnes 64, BitVec.allOnes 64⟩ ∧ w.slotB.valid = false ∧ w.dsDepth = 0 ∧
        (∀ n, n < 128 → ∀ t, t < threads → laneAt (regLanes w n) t = 0 ∧ w.regs.getD n none = none) ∧ (∀ n, w.preds.getD n 0 = 0) ∧
        w.mode = l.desc.mode ∧ w.rsv = l.desc.rinit ∧ w.rmax = l.desc.rmaxv ∧ w.sched = .ready) ∧
  (∀ (s : State) (id : Nat) (l : Launch), (s.launches.find? fun l => l.id = id) = some l →
    (l.state = .resident → launch? s l.seq = some l → (∀ g ∈ s.wgs, g.ref.seq = l.seq → g.ended = true) → s.versions = [] →
      s.announcements = [] → (∀ c ∈ s.cores, c.wcb = []) → l.desc.crec = 0 → l.unwritten = [] → engineHeld s hubRef (recordName id) = false →
      overrunDue s l = false →
      ∃ t, exec (.launchComplete id) s = .next t ∧ ((∀ q ∈ s.queues, Config.deviceAddress q.ridxAddr = false) → t.mem = s.mem) ∧
        ∃ l' ∈ t.launches, l'.id = id ∧ l'.state = .completed ∧
        l'.status = if l.cause = 0 then 0 else if l.cause = 2 then 0x85 else 1) ∧
    (l.state = .resident → l.desc.wrapup ≠ Config.noneAddr → l.cause = 0 → l.cancelled = false → l.desc.deadline ≠ 0 →
      l.desc.deadline - 1000 * l.desc.budget ≤ s.clkns → allEnded s l.seq = false →
      ∃ t, exec (.diversion id) s = .next t ∧ t.mem = s.mem ∧ ∃ l' ∈ t.launches, l'.id = id ∧ l'.cause = 1 ∧ l'.overrunAt = l.desc.deadline) ∧
    (l.live = true →
      (l.cause = 0 → l.desc.deadline ≠ 0 → l.desc.deadline ≤ s.clkns → (l.state = .resident → allEnded s l.seq = false) →
        ∃ t, exec (.deadlineOverrun id) s = .next t ∧ ∃ l' ∈ t.launches, l'.id = id ∧ l'.status = 0x10 ∧ l'.live = false) ∧
      (l.expired = false → (contextAt s l.ctx).watchdog ≠ 0 → (contextAt s l.ctx).watchdog ≤ l.watchdog →
        ∃ t, exec (.watchdogExpiry id) s = .next t ∧ ∃ l' ∈ t.launches, l'.id = id ∧ l'.expired = true ∧
          if l.state = .waiting ∨ l.desc.wrapup = Config.noneAddr then l'.status = 0x85 ∧ l'.live = false else l'.cancelled = true)) ∧
    (canSave s l = true →
      ∃ t, exec (.preemption id) s = .next t ∧ (∃ l' ∈ t.launches, l'.id = id ∧ l'.state = .saved ∧ l'.saved ≠ none) ∧
        (∀ w ∈ t.swarms, ∀ g ∈ s.wgs, g.ref.seq = l.seq → wgOf w.ref ≠ g.ref) ∧ ∀ g ∈ t.wgs, g.ref.seq ≠ l.seq)) ∧
  (∀ (s : State) (id : Nat) (l : Launch) (x : Saved) (ps : List (WgRef × Nat × Nat × Nat)),
    (s.launches.find? fun l => l.id = id && l.state = .saved) = some l → l.saved = some x → s.powered = true →
    (queue? s l.queue).any WorkQueue.mapped = true → activating s = false → unitsFree s x = true → x.layout ≤ s.fwLayout →
    s.fwLayout ≤ x.layout + 2 → restorePlaces s x = some ps →
    ∃ t, exec (.contextRestore id) s = .next t ∧ sameMemory s t ∧ t.swarms.length = s.swarms.length + x.swarms.length ∧
      t.wgs.length = s.wgs.length + x.wgs.length ∧ ∃ l' ∈ t.launches, l'.id = id ∧ l'.state = .resident ∧ l'.saved = none) ∧
  (∀ (s : State) (v : Nat), s.fwPending = some v → activating s = true → (∀ l ∈ s.launches, l.state ≠ .resident) →
    exec .deferredActivation s = .next { s with fwLayout := v, fwPending := none })

/-- R322 to R327, R381, R382: translations and page requests, their answers, holds that try again, migration, snapshot granules and
views, the scrubber.
The page size is the model's choice, log 17; which translations are kept is log 18; the reply of an ended view is log 24; when a group is sent
is log 30; faults while requests are disabled are log 63; the passes of an E1-compatible migration are log 64. -/
def Obligations.PageEvents : Prop :=
  (∀ (s : State) (die ctx va : Nat) (a : Nat × Nat × Bool), die < s.dies.length →
    ((dieAt s die).ats.find? fun x => x.1 = ctx && x.2.1 = pageOf va) = some a →
    (∀ m : Mapping, m.ctx = ctx → m.va ≤ pageOf va → pageOf va + 4096 ≤ m.va + m.len →
      ∃ t, exec (.atsTranslationCompletion die ctx va (some m)) s = .next t ∧ sameMemory s t ∧ tlbFind t die ctx (pageOf va) = some m ∧
        ∀ d, ∀ h ∈ (dieAt s d).holds, h.ctx = ctx → m.va ≤ h.page → h.page < m.va + m.len → h.why = .fault →
          tlbFind t d ctx (pageOf va) = some m ∧
          (h.queued = true → h.engine = none → ∀ w, swarm? s h.ref = some w → w.sched = .held → ∃ v, swarm? t h.ref = some v ∧ v.sched = .ready)) ∧
    ∃ t, exec (.atsTranslationCompletion die ctx va none) s = .next t ∧ sameMemory s t ∧ t.swarms = s.swarms ∧
      ((contextAt s ctx).pageRequests = true → (∀ p ∈ s.pageRequests, ¬(p.ctx = ctx ∧ p.page = pageOf va)) →
        s.pageRequests.length < min Config.tagEntries s.prAllocation → requestGroup s ctx ≠ none →
        ∃ p ∈ t.pageRequests, p.ctx = ctx ∧ p.page = pageOf va ∧ p.write = a.2.2 ∧
          ((∀ d, ∀ b ∈ (if d = die then (dieAt s d).ats.erase a else (dieAt s d).ats), b.1 ≠ ctx) → p.last = true))) ∧
  (∀ (s : State) (die : Nat) (h : Hold), (dieAt s die).holds = [h] → h.why = .fault → h.queued = true → h.since + 4096 ≤ s.cycle →
    atsPending s h.ctx h.page = false → (∀ p ∈ s.pageRequests, ¬(p.ctx = h.ctx ∧ p.page = h.page)) →
    (s.dies.map fun (d : Die) => d.ats.length).sum < Config.atsLimit →
    ∃ t, exec (.pageRequestRetry die) s = .next t ∧ sameMemory s t ∧ t.swarms = s.swarms ∧
      (dieAt t die).ats = (dieAt s die).ats ++ [(h.ctx, h.page, h.write)] ∧ (dieAt t die).holds = [{ h with since := s.cycle }]) ∧
  (∀ (s : State) (die : Nat) (h : Hold) (w : Swarm), h ∈ (dieAt s die).holds → h.queued = false → h.why ≠ .regs → h.since + 4096 ≤ s.cycle →
    h.engine = none → swarm? s h.ref = some w → w.sched = .held →
    ∃ t, exec (.holdRetry die) s = .next t ∧ sameMemory s t ∧ h ∉ (dieAt t die).holds ∧ ∃ v, swarm? t h.ref = some v ∧ v.sched = .ready) ∧
  (∀ (s : State) (ctx group : Nat) (p : PageRequest), p ∈ s.pageRequests → p.ctx = ctx → p.group = group → p.last = true →
    (∃ t, exec (.pageRequestResponse ctx group .success) s = .next t ∧ sameMemory s t ∧ t.swarms = s.swarms ∧
      ∀ x ∈ t.pageRequests, ¬(x.ctx = ctx ∧ x.group = group)) ∧
    (∀ (h : Hold) (w : Swarm), (s.pageRequests.filter fun (x : PageRequest) => x.ctx = ctx && x.group = group) = [p] →
      waitingFor s ctx p.page = [h] → h.engine = none → h.ref.slice = false → swarm? s h.ref = some w →
      let u := { s with pageRequests := s.pageRequests.filter fun x => x ≠ p }
      exec (.pageRequestResponse ctx group .invalidRequest) s =
        .next (takeTrap (releaseHold u h) h.ref ⟨6, 0x0701, 0, (slotOf w (choose u w).1).pc, h.addr, w.prog, 0⟩)) ∧
    ((∀ x ∈ s.pageRequests, x.ctx = ctx → waitingFor s ctx x.page = []) →
      ∃ t, exec (.pageRequestResponse ctx group .responseFailure) s = .next t ∧ sameMemory s t ∧ (∀ x ∈ t.pageRequests, x.ctx ≠ ctx) ∧
        (contextAt t ctx).pageRequests = false)) ∧
  (∀ (s : State) (ctx va len old new : Nat),
    let of_ := fun (m : Migration) => m.ctx = ctx ∧ m.va = va ∧ m.len = len
    let outside := fun (a : Nat) (s t : State) => ∀ b, (b < a ∨ a + len ≤ b) → memGet t.mem b = memGet s.mem b
    let fresh_ := ∀ p ∈ s.precopies, ¬(p.ctx = ctx ∧ p.va = va ∧ p.len = len ∧ p.newPa = new)
    ((∀ m ∈ s.migrating, ¬of_ m) → s.memOk = true → old % 64 = 0 → new % 64 = 0 → len % 64 = 0 → (old + len ≤ new ∨ new + len ≤ old) → fresh_ →
      ∃ t, exec (.migration ctx va len (.e1Pass old new)) s = .next t ∧ memRead t.mem new len = memRead s.mem old len ∧ outside new s t ∧
        t.migrating = s.migrating ∧ t.swarms = s.swarms ∧ ⟨ctx, va, len, old, new, []⟩ ∈ t.precopies) ∧
    ((∀ m ∈ s.migrating, ¬of_ m) →
      (∃ t, exec (.migration ctx va len (.mark old)) s = .next t ∧ t.migrating = s.migrating ++ [⟨ctx, va, len, old, none⟩] ∧
        (∀ d ∈ t.dies, ∀ m ∈ d.tlb, m.ctx = ctx → m.va + m.len ≤ va ∨ va + len ≤ m.va) ∧
        (s.announcements = [] → (∀ c ∈ s.cores, c.wcb = []) → (∀ x ∈ s.atomics, ctxOf s (wgOf x.ref) ≠ ctx) →
          (∀ x ∈ s.asyncs, ctxOf s (wgOf x.ref) ≠ ctx) → t.mem = s.mem)) ∧
      (∃ t, exec (.migration ctx va len .release) s = .next t ∧ sameMemory s t ∧
        ∀ d ∈ s.dies, ∀ h ∈ d.holds, h.why = .migrate → h.queued = true → h.ctx = ctx → va ≤ h.addr → h.addr < va + len → h.engine = none →
          ∀ w, swarm? s h.ref = some w → w.sched = .held → ∃ v, swarm? t h.ref = some v ∧ v.sched = .ready)) ∧
    (s.migrating = [⟨ctx, va, len, old, none⟩] → s.memOk = true → s.announcements = [] → old % 64 = 0 → new % 64 = 0 → len % 64 = 0 →
      (old + len ≤ new ∨ new + len ≤ old) → fresh_ → cellsPending s old len = false →
      ∃ t, exec (.migration ctx va len (.copy new)) s = .next t ∧ memRead t.mem new len = memRead s.mem old len ∧ outside new s t ∧
        t.migrating = [⟨ctx, va, len, old, some new⟩] ∧ t.swarms = s.swarms) ∧
    (s.migrating = [⟨ctx, va, len, old, some new⟩] → exec (.migration ctx va len (.writeFrame new)) s = .next { s with migrating := [] })) ∧
  (∀ (s : State) (ctx view granule shadow : Nat) (v : View), (s.views.find? fun (v : View) => v.ctx = ctx && v.id = view) = some v →
    v.granules[granule]? = some .copying → (∀ o ∈ sectorOffsets 65536, liveFrame s ctx (v.range + 65536 * granule + o) ≠ none) →
    ∃ t, exec (.granuleCopyComplete ctx view granule shadow) s = .next t ∧
      (t.views.find? fun (v : View) => v.ctx = ctx && v.id = view) = some { v with granules := v.granules.set granule (.split shadow) } ∧
      (s.memOk = true → shadow % 64 = 0 →
        (∀ b, (b < shadow ∨ shadow + 65536 ≤ b) → memGet t.mem b = memGet s.mem b) ∧
        ((∀ o ∈ sectorOffsets 65536, ∀ pa, liveFrame s ctx (v.range + 65536 * granule + o) = some pa → pa + 64 ≤ shadow ∨ shadow + 65536 ≤ pa) →
          ∀ o ∈ sectorOffsets 65536, ∀ pa, liveFrame s ctx (v.range + 65536 * granule + o) = some pa →
            memRead t.mem (shadow + o) 64 = memRead s.mem pa 64))) ∧
  (∀ (s : State) (ctx : Nat) (v : View) (since : Nat), (s.views.filter fun (v : View) => v.ctx = ctx && !v.granules.isEmpty) = [v] →
    v.starved = some since → since + 10 ^ 7 ≤ s.clkns →
    ∃ t, exec (.viewEnded ctx) s = .next t ∧ sameMemory s t ∧ t.replies = s.replies ++ [3, v.id] ∧ ∀ x ∈ t.views, x.ctx = ctx → x.granules = []) ∧
  (∀ (s : State) (die line : Nat) (found : List (Nat × Nat)), let u := found.foldl (meetError die line) s
    (homeDie s (256 * line) ≠ die → exec (.scrubVisit die line found) s = .next s) ∧
    (homeDie s (256 * line) = die → (∀ k, 1 ≤ k → k ≤ 5 → findings u line k = []) → exec (.scrubVisit die line found) s = .next u) ∧
    (∀ k d, homeDie s (256 * line) = die → die < s.dies.length → k < 4 → (metaOf u (256 * line + 64 * k)).bad = some (0x0C, d) →
      (dieAt s die).scrubRing = none →
      ∃ t n, exec (.scrubVisit die line found) s = .next t ∧ sameMemory s t ∧ t.swarms = s.swarms ∧
        (metaOf t (256 * line + 64 * k)).bad = some (0x0C, d) ∧ (line, 2, n) ∈ (dieAt t die).scrubCounts ∧ 1 ≤ n) ∧
    (∀ k, k < 4 → found = [(k, 2)] → (metaOf s (256 * line + 64 * k)).bad = none → (metaOf u (256 * line + 64 * k)).bad = some (0x0C, 0x0102)) ∧
    (∀ base, homeDie s (256 * line) = die → die < s.dies.length → (dieAt s die).scrubRing = some base → Memory.wf s.mem = true →
      (256 * line + 256 ≤ base ∨ base + 4096 ≤ 256 * line) → findings u line 2 ≠ [] →
      (∀ k, 1 ≤ k → k ≤ 5 → k ≠ 2 → findings u line k = []) → (∀ c ∈ (dieAt s die).scrubCounts, c.1 ≠ line) →
      ∃ t, exec (.scrubVisit die line found) s = .next t ∧ t.swarms = s.swarms ∧ (dieAt t die).scrubNext = (dieAt s die).scrubNext + 1 ∧
        memRead t.mem (base + 16 * ((dieAt s die).scrubNext % 256)) 16 = scrubEntry s line 2 1 (findings u line 2)))

/-- R356, R363, R401: module reset, clock, power and time; R132, R365, R367, R380, R383, R384: the mailbox's requests about contexts,
launches, counters and stopped swarms, the registers, and the debugger. A request replies 0 when taken and 1 when refused (log 24).
Replies as numbers in a list are the model's choice, log 24; the lines the suspect map's writes mark are log 22; what survives a reset is
log 66. -/
def Obligations.ModuleEvents : Prop :=
  (∀ (s : State) (planes : List Nat), ∃ t, exec (.moduleReset planes) s = .next t ∧ t.clkns = s.clkns ∧ t.host = s.host ∧ t.mem = [] ∧
    t.swarms = [] ∧ t.launches = [] ∧ t.queues = [] ∧ t.run = none ∧ t.nextSeq = 1 ∧ t.fabric.current = ⟨0, 0, []⟩ ∧ t.fabric.ports.length = 36 ∧
    (∀ n, n < 144 → planes = List.replicate 36 n → t.fabric.modNum = some n ∧ ∀ p ∈ t.fabric.ports, p.up = true) ∧
    ((∀ n, n < 144 → planes ≠ List.replicate 36 n) → t.fabric.modNum = none ∧ ∀ p ∈ t.fabric.ports, p.up = false)) ∧
  (∀ (s : State) (mhz : Nat), mhz % 100 = 0 → 1200 ≤ mhz → mhz ≤ 3300 → exec (.thermalThrottle mhz) s = .next { s with mhz }) ∧
  (∀ s : State, s.launches = [] → exec .thermalShutdown s = .next { s with powered := false }) ∧
  (∀ s : State, ∃ t, exec .thermalShutdown s = .next t ∧ t.powered = false ∧ ∀ l ∈ t.launches, l.live = false) ∧
  (∀ (s : State) (n : Int),
    (1000000 < n → exec (.ptpMessage n) s = .next { s with
      clkns := s.clkns + n.toNat, launches := s.launches.map (countWatchdog s n.toNat), slew := 0, synced := true }) ∧
    (n < -1000000 → exec (.ptpMessage n) s = .next { s with slew := n, synced := true, replies := s.replies ++ [4] }) ∧
    (-1000000 ≤ n → n ≤ 1000000 → exec (.ptpMessage n) s = .next { s with slew := n, synced := true })) ∧
  (∀ s : State, exec .syncLoss s = .next { s with synced := false, slew := 0 }) ∧
  (∀ (s : State) (n : Nat), let ok := 1200 ≤ n ∧ n ≤ 3600 ∧ n % 50 = 0
    (ok → exec (.mailboxPowerCap n) s = .next { s with powerCap := n, replies := s.replies ++ [0] }) ∧
    (¬ok → exec (.mailboxPowerCap n) s = .next { s with replies := s.replies ++ [1] })) ∧
  (∀ (s : State) (q : Nat) (d : List Byte), let x := queueOf s q d
    (queueOk s x d = false → exec (.mailboxInstallQueue q d) s = .next { s with replies := s.replies ++ [1] }) ∧
    (queueOk s x d = true → d.length = 64 ∧ x.ring % 4096 = 0 ∧ 64 ≤ x.entries ∧ x.entries ≤ 65536 ∧ 1 ≤ x.ctx ∧ x.ctx ≤ 4095 ∧
      ∃ t y, exec (.mailboxInstallQueue q d) s = .next t ∧ sameMemory s t ∧ t.swarms = s.swarms ∧ t.replies = s.replies ++ [0] ∧
        queue? t q = some y ∧ y.ring = x.ring ∧ y.entries = x.entries ∧ y.ctx = x.ctx ∧ y.widx = 0 ∧ y.ridx = 0)) ∧
  (∀ (s : State) (q : Nat) (x : WorkQueue),
    (queue? s q = none → exec (.mailboxRemoveQueue q) s = .next { s with replies := s.replies ++ [1] }) ∧
    (s.queues = [x] → x.num = q → x.mapped = false → s.launches = [] → s.kills = [] → s.fabric.owner = none → s.killList = [] →
      s.fabric.notices = [] →
      ∃ t, exec (.mailboxRemoveQueue q) s = .next t ∧ t.queues = [] ∧ t.replies = s.replies ++ [0] ∧ t.swarms = s.swarms ∧ sameMemory s t)) ∧
  (∀ (s : State) (id : Nat) (l : Launch), (s.launches.find? fun (l : Launch) => l.id = id && l.live) = some l → l.state = .waiting →
    ∃ t, exec (.mailboxCancelLaunch id) s = .next t ∧ ∃ x ∈ t.launches, x.id = id ∧ x.status = 0x85 ∧ x.live = false) ∧
  (∀ (s : State) (id : Nat), let ok := ∃ l ∈ s.launches, l.id = id ∧ l.state = .resident ∧ l.cause = 0
    (ok → exec (.mailboxPreempt id) s = .next { s with
      replies := s.replies ++ [0], launches := s.launches.map fun l => if l.id = id then { l with stopping := true } else l }) ∧
    (¬ok → exec (.mailboxPreempt id) s = .next { s with replies := s.replies ++ [1] })) ∧
  (∀ (s : State) (ctx : Nat), (∀ k ∈ s.kills, k.ctx ≠ ctx) →
    ∃ t, exec (.mailboxKillContext ctx) s = .next t ∧ (∀ q ∈ t.queues, q.ctx ≠ ctx) ∧ ∀ l ∈ t.launches, l.ctx = ctx → l.state = .completed) ∧
  (∀ (s : State) (r : SwarmRef) (w : Swarm) (e : SwarmEdit), swarm? s r = some w →
    (w.stopped = false → exec (.mailboxResumeSwarm r e) s = .next { s with replies := s.replies ++ [1] }) ∧
    (w.stopped = true → (∀ l, launch? s r.seq = some l → l.cause = 0) →
      ∃ t v, exec (.mailboxResumeSwarm r e) s = .next t ∧ sameMemory s t ∧ t.replies = s.replies ++ [0] ∧
        (∀ q x, q ≠ r → swarm? s q = some x → x.sched ≠ .held → x.sched ≠ .halted → swarm? t q = some x) ∧
        swarm? t r = some v ∧ v.sched = .ready ∧ v.stopped = false ∧ edited w.slotA e.slotA v.slotA ∧ edited w.slotB e.slotB v.slotB ∧
        v.live = e.live.getD w.live ∧ v.prog = e.prog.getD w.prog ∧ v.dsDepth = e.dsDepth.getD w.dsDepth ∧
        v.mode = (e.mode.filter fun m => !modeReserved m).getD w.mode ∧
        v.rsv = (e.rsv.filter fun n => n ≤ w.rmax && growFits s w n).getD w.rsv ∧
        v.rstPc = (e.restart.map Prod.fst).getD w.rstPc ∧ v.rstRec = (e.restart.map Prod.snd).getD w.rstRec ∧ v.wrapCause = e.wrapCause.getD w.wrapCause ∧
        (e.unbind = [] → e.bind = [] → v.streams = w.streams) ∧
        (∀ b, e.bind = [b] → b.reg < w.streams.length → descMisaligned (walkDesc b.desc) false = false →
          descInvalid b.desc (walkDesc b.desc) false = false → b.next = none → b.entries.length ≤ (walkDesc b.desc).depth → b.pos.length = 4 →
          let x := v.streams.getD b.reg Stream.unbound
          x.bound = true ∧ x.desc = walkDesc b.desc ∧ x.pos = b.pos ∧ x.eodf = b.eodf ∧ x.ended = b.ended ∧
            x.entries = b.entries.map fun y => ⟨y.1, y.2⟩) ∧
        (∀ k m, e.preds = [(k, m)] → k < w.preds.length → v.preds.getD k 0 = m) ∧
        (∀ n k x, e.regs = [(n, k, x)] → e.unbind = [] → n < w.rmax → k < threads → (w.regs.getD n none).isSome = true →
          laneAt (regLanes v n) k = x))) ∧
  (∀ (s : State) (n : Nat),
    exec (.mailboxFirmwareImage n false) s = .next { s with replies := s.replies ++ [1] } ∧
    (s.launches = [] → exec (.mailboxFirmwareImage n true) s = .next { s with fwPending := some n, replies := s.replies ++ [0] })) ∧
  (∀ (s : State) (ctx base entries idx vec : Nat),
    let ok := 1 ≤ ctx ∧ ctx ≤ 4095 ∧ base % 4096 = 0 ∧ ∃ k, 6 ≤ k ∧ k ≤ 16 ∧ entries = 2 ^ k
    (ok → ∃ t, exec (.mailboxTrapArea ctx base entries idx vec) s = .next t ∧ sameMemory s t ∧ t.replies = s.replies ++ [0] ∧
      (contextAt t ctx).trapArea = some (base, entries, idx, vec) ∧ (contextAt t ctx).trapWrite = 0 ∧ (contextAt t ctx).trapRead = 0 ∧
      (contextAt t ctx).trapLost = 0) ∧
    (¬ok → exec (.mailboxTrapArea ctx base entries idx vec) s = .next { s with replies := s.replies ++ [1] })) ∧
  (∀ (s : State) (ctx n : Nat), 1 ≤ ctx → ctx ≤ 4095 →
    ∃ t, exec (.trapReadIndexWrite ctx n) s = .next t ∧ sameMemory s t ∧ (contextAt t ctx).trapRead = n % 2 ^ 32) ∧
  (∀ (s : State) (ctx n : Nat), let ok := n = 0 ∨ 10 ^ 6 ≤ n ∧ n ≤ 2 ^ 40
    (ok → ∃ t, exec (.mailboxWatchdogLimit ctx n) s = .next t ∧ sameMemory s t ∧ t.replies = s.replies ++ [0] ∧ (contextAt t ctx).watchdog = n) ∧
    (¬ok → exec (.mailboxWatchdogLimit ctx n) s = .next { s with replies := s.replies ++ [1] })) ∧
  (∀ (s : State) (ctx : Nat),
    (∃ t, exec (.mailboxReenablePageRequests ctx) s = .next t ∧ sameMemory s t ∧ (contextAt t ctx).pageRequests = true) ∧
    (∃ t, exec (.keyInstall ctx) s = .next t ∧ sameMemory s t ∧ (contextAt t ctx).key = true)) ∧
  (∀ (s : State) (n k : Nat) (sel : Word) (die : Die) (c : Counter),
    (k < 16 → s.fabric.counters[k]? = some c → ∃ t, exec (.mailboxCounterSelect .fabric k sel) s = .next t ∧ sameMemory s t ∧
      t.replies = s.replies ++ [0] ∧ t.fabric.counters[k]? = some { c with sel := selectorFor fabricSource sel }) ∧
    (n < 4 → k < 16 → s.dies[n]? = some die → die.counters[k]? = some c → ∃ t, exec (.mailboxCounterSelect (.die n) k sel) s = .next t ∧
      sameMemory s t ∧ t.replies = s.replies ++ [0] ∧ (dieAt t n).counters[k]? = some { c with sel := selectorFor dieSource sel }) ∧
    (16 ≤ k → exec (.mailboxCounterSelect .fabric k sel) s = .next { s with replies := s.replies ++ [1] }) ∧
    (s.fabric.counters[k]? = some c →
      exec (.mailboxCounterRead .fabric k) s = .next { s with replies := s.replies ++ [c.count] })) ∧
  (∀ (s : State) (ctx tag : Nat) (b : List Byte),
    (tableOf b = none → exec (.mailboxBindFabricOwner ctx tag b) s = .next { s with replies := s.replies ++ [1] }) ∧
    (∀ m, tableOf b = some m → fabricIdle s = true → tag < 2 ^ 16 → 8 + 2 * m.mods.length ≤ b.length →
      ∃ t, exec (.mailboxBindFabricOwner ctx tag b) s = .next t ∧ t.replies = s.replies ++ [0] ∧
        t.fabric.owner = some (ctx, tag) ∧ t.fabric.current = m ∧ (s.fabric.owner ≠ some (ctx, tag) → t.fabric.closed = [] ∧ t.fabric.early = []) ∧
        (s.fabric.suspectMap = none ∨ s.fabric.owner = some (ctx, tag) → sameMemory s t ∧ t.swarms = s.swarms))) ∧
  (∀ (s : State) (ms : List Nat), (∀ m ∈ ms, m < 144) → ∃ t, exec (.mailboxWatchList ms) s = .next t ∧ sameMemory s t ∧ t.fabric.watch = ms) ∧
  (∀ (s : State) (a n : Nat),
    (a % 4 = 0 → s.fabric.owner = none → exec (.mailboxSuspectMap a) s = .next { s with
      fabric := { s.fabric with suspectMap := some a, mapStale := (List.range 8).map fun k => (k, false) }, replies := s.replies ++ [0] }) ∧
    (∀ ctx tag u, a % 4 = 0 → s.fabric.owner = some (ctx, tag) →
      (List.range 8).foldlM (fun v k => writeAny v ctx (a + 4 * k) (natToBytes 4 (suspectWord s k)) (.replace (BitVec.allOnes 512))) s = .ok u →
      ∃ t, exec (.mailboxSuspectMap a) s = .next t ∧ t.mem = u.mem ∧ t.fabric.suspectMap = some a ∧ t.fabric.mapStale = [] ∧
        t.replies = s.replies ++ [0]) ∧
    (a % 4 ≠ 0 → exec (.mailboxSuspectMap a) s = .next { s with replies := s.replies ++ [1] }) ∧
    (s.fabric.collectives = [] → s.fabric.early = [] →
      exec (.mailboxCollectiveArea a n) s = .next { s with fabric := { s.fabric with area := some (a, n) }, replies := s.replies ++ [0] })) ∧
  (∀ (s : State) (offset : Nat) (v : DWord), exec (.registerWriteIgnored offset v) s = .next s) ∧
  (∀ (s : State) (r : SwarmRef) (w : Swarm), swarm? s r = some w → r.slice = false →
    (w.sched ≠ .done → w.sched ≠ .halted → ∃ t v, exec (.debugHalt r) s = .next t ∧ sameMemory s t ∧ swarm? t r = some v ∧ v.sched = .halted ∧
      v.slotA = w.slotA ∧ v.slotB = w.slotB ∧ v.regs = w.regs ∧ v.preds = w.preds) ∧
    (w.sched = .halted → w.stopped = false → (∀ l, launch? s r.seq = some l → l.cause = 0) →
      exec (.debugResume r) s = .next (modSwarm s r fun w => { w with sched := w.haltedFrom, since := s.cycle, freeFrom := s.cycle })))

/-- R380, R394 to R412, R414, R415, R417 to R420, R426: the admission of packets, and what each event of the fabric engine does: flits,
transfers, contributions, cell requests, heartbeats, fences, kill notices, stripes, ports.
Payload layouts and the form of a re-request are the model's choice, log 20; what a port keeps after a malformed packet is log 27; the room
that an early contribution takes is log 55; when a missed heartbeat is noted is log 68. -/
def Obligations.FabricEvents : Prop :=
  (∀ (s : State) (p : Packet), heldEntry s p = none → ∀ i ∈ checkedPackets p,
    let now := s.fabric.current
    ((now.mods = [] ∨ p.gen ≠ now.gen ∧ fenceGen s ≠ some p.gen) → exec i s = .next (countFabric s 0x80 0)) ∧
    (now.mods ≠ [] → p.gen ≠ now.gen → fenceGen s = some p.gen →
      exec i s = .next { s with fabric := { s.fabric with heldPackets := s.fabric.heldPackets ++ [(0, p)] } }) ∧
    (now.mods ≠ [] → p.gen = now.gen → p.jobtag ∈ s.killList → exec i s = .next s)) ∧
  (∀ (s : State) (p : Packet) (ctx : Nat), heldEntry s p = none → admissionOf s p = .admitted ctx →
    (p.src ≠ ownMod s → let answered := fabricRead s ctx p.addr (recField p.payload 0 4)
      (∀ b u, p.bad = [] → answered = .ok (some b, u) →
        ∃ t q, exec (.rgetRequest p) s = .next t ∧ sameMemory s t ∧ sends s t q ∧ q.op = 2 ∧ q.dst = p.src ∧ q.cid = p.cid ∧ q.last = p.last ∧
          q.addr = recField p.payload 4 8 ∧ q.payload = b) ∧
      (p.bad ≠ [] ∨ (∃ u, answered = .ok (none, u)) ∨ (∃ c d a, answered = .error (.trap c d a)) →
        ∃ t q, exec (.rgetRequest p) s = .next t ∧ sameMemory s t ∧ sends s t q ∧ q.op = 4 ∧ q.dst = p.src ∧ q.cid = p.cid ∧ q.ident = true ∧
          q.last = true)) ∧
    (∀ tr g, transferOf s p = some tr → wg? s (wgOf tr.ref) = some g → tr.req.get = true → tr.failed = none → p.bad = [] →
      p.payload.length % 64 = 0 → p.payload.length ≤ tr.remaining →
      (∀ k, k < p.payload.length / 64 → scratchCheck g (tr.req.spad + p.addr + 64 * k) 64 true = .ok ()) →
      ∃ t v, exec (.rgetData p) s = .next t ∧ sameMemory s t ∧ wg? t (wgOf tr.ref) = some v ∧
        (∀ j, j < p.payload.length → ringEntry (ringsOf s (wgOf tr.ref)) (tr.req.spad + p.addr + j) = none →
          scratchByte v.scratch (tr.req.spad + p.addr + j) = p.payload.getD j 0) ∧
        (p.payload.length = tr.remaining → ∀ x ∈ t.fabric.transfers, x.id ≠ tr.id) ∧
        (p.payload.length < tr.remaining → ∃ x ∈ t.fabric.transfers, x.id = tr.id ∧ x.remaining = tr.remaining - p.payload.length)) ∧
    (let rule := if p.ident then SigRule.replace (writtenBy s p.src ||| linesOf s ctx p.addr p.payload.length) else .clear
     let sector := fun (x : Bool × State) (k : Nat) =>
       if k ∈ p.bad then Except.ok (true, x.2)
       else match writeAny x.2 ctx (p.addr + 64 * k) ((p.payload.drop (64 * k)).take 64) rule with
         | .ok v => .ok (x.1, v)
         | .error (.trap ..) => .ok (true, x.2)
         | .error e => .error e
     ∀ refused u, (p.last = true → earlierHeld s p = false) → (List.range (p.payload.length / 64)).foldlM sector (false, s) = .ok (refused, u) →
      ∃ t, exec (.rputData p) s = .next t ∧ t.mem = u.mem ∧ t.sectors = u.sectors ∧ (p.src ≠ ownMod s → t.swarms = s.swarms) ∧
        (p.last = true ∨ refused = true → p.src ≠ ownMod s →
          ∃ q, sends s t q ∧ q.op = 4 ∧ q.dst = p.src ∧ q.cid = p.cid ∧ q.ident = refused ∧ q.last = true)) ∧
    (∀ tr, transferOf s p = some tr → tr.req.get = false → tr.failed = none → (p.ident = true → p.last = true) →
      ∃ t, exec (.acknowledgement p) s = .next t ∧ sameMemory s t ∧
        ((∀ m ∈ tr.waiting, m = p.src) → ∀ x ∈ t.fabric.transfers, x.id ≠ tr.id) ∧
        ((∃ m ∈ tr.waiting, m ≠ p.src) → ∃ x ∈ t.fabric.transfers, x.id = tr.id ∧ p.src ∉ x.waiting ∧
          x.failed = if p.ident then some (7, 0x0807) else none)) ∧
    (∀ c, collective? s p.cid = some c → c.sw = false → ∀ ch, c.chunks[p.chunk]? = some ch → ch.done = false → ch.failed = false →
      (∀ x ∈ ch.parts, x.1 ≠ p.srank) → p.srank < s.fabric.current.mods.length → p.bad ≠ [] → ch.retries < 2 → p.src ≠ ownMod s →
      ∃ t q, exec (.contribution p) s = .next t ∧ sends s t q ∧ q.op = 4 ∧ q.dst = p.src ∧ q.cid = p.cid ∧ q.chunk = p.chunk ∧
        q.ident = true ∧ q.last = false) ∧
    (∀ c, collective? s p.cid = some c → c.sw = false → ∀ ch, c.chunks[p.chunk]? = some ch → ch.done = false → ch.failed = false → p.bad = [] →
      ((∃ x ∈ ch.parts, x.1 = p.srank) → exec (.contribution p) s = .next s) ∧
      (s.fabric.current.mods.length ≤ p.srank → exec (.contribution p) s = .next s) ∧
      ((∀ x ∈ ch.parts, x.1 ≠ p.srank) → p.srank < s.fabric.current.mods.length → ch.parts.length + 1 < s.fabric.current.mods.length →
        ∃ t v x, exec (.contribution p) s = .next t ∧ sameMemory s t ∧ t.swarms = s.swarms ∧ collective? t p.cid = some v ∧
          v.chunks[p.chunk]? = some x ∧ x.done = false ∧ x.parts = ch.parts ++ [(p.srank, p.payload.take (chunkAt c.op c.desc p.chunk).2)])) ∧
    (collective? s p.cid = none → (∃ c ∈ s.fabric.closed, c.cid = p.cid) → exec (.contribution p) s = .next s) ∧
    (collective? s p.cid = none → (∀ c ∈ s.fabric.closed, c.cid ≠ p.cid) → (∀ q ∈ s.fabric.early, q.cid ≠ p.cid) →
      areaUsed s + 32 + p.payload.length ≤ (s.fabric.area.map Prod.snd).getD 0 →
      exec (.contribution p) s = .next { s with fabric := { s.fabric with early := s.fabric.early ++ [p] } }) ∧
    (∀ c ch u, collective? s p.cid = some c → c.sw = true → c.chunks[p.chunk]? = some ch → ch.done = false → ch.failed = false → p.bad = [] →
      writeChunk s c p.chunk p.payload = .ok u → exec (.switchResult p) s = .next (countFabric u 0x87 c.ctx)) ∧
    (∀ m pa, translateAny s ctx p.addr false = .ok (m, pa) → m.cell = true → p.addr % 64 = 0 → p.bad = [] →
      ∃ t x, exec (.cellRequest p) s = .next t ∧ sameMemory s t ∧ t.swarms = s.swarms ∧ t.cellWaits = s.cellWaits ++ [x] ∧ x.pa = pa ∧
        x.req = cellOfPayload p.payload ∧ x.packet = some p) ∧
    (p.bad = [] → ∃ t, exec (.cellReply p) s = .next t ∧ t = answerRemote s p.cid (replyOfPayload p.payload) ∧
      ∀ c ∈ t.fabric.remoteCells, c.wire ≠ p.cid) ∧
    (let n := recField p.payload 0 4
     (servingView s ctx p.addr n = false → p.src ≠ ownMod s → ∃ t q, exec (.stripeRequest p) s = .next t ∧ sameMemory s t ∧ sends s t q ∧
        q.op = 0x0F ∧ q.dst = p.src ∧ q.cid = p.cid ∧ q.ident = true ∧ q.payload = []) ∧
     ∀ b, servingView s ctx p.addr n = true → 0 < n → n ≤ 4096 → p.src ≠ ownMod s → readAny s ctx p.addr n = .ok b →
        ∃ t q, exec (.stripeRequest p) s = .next t ∧ sameMemory s t ∧ sends s t q ∧ q.op = 0x0F ∧ q.dst = p.src ∧ q.cid = p.cid ∧
          q.ident = false ∧ q.last = true ∧ q.addr = 0 ∧ q.payload = b.take 4096) ∧
    (∀ r x, s.fabric.reel = some r → r.stripes[p.cid]? = some x → x.state = 1 ∨ x.state = 4 → x.peer = p.src →
      (p.ident = true ∨ p.bad ≠ [] → exec (.stripeData p) s = .next (settleReel (retryStripe s p.cid))) ∧
      (∀ c d a, p.ident = false → p.bad = [] → fabricWrite s r.ctx (x.dsta + p.addr) p.payload = .error (.trap c d a) →
        exec (.stripeData p) s = .next (putStripe s p.cid { x with state := 2 })) ∧
      ∀ u, p.ident = false → p.bad = [] → fabricWrite s r.ctx (x.dsta + p.addr) p.payload = .ok u →
      let v := markRange u r.ref (x.dsta + p.addr) p.payload.length
      (x.len ≤ x.got + p.payload.length →
        exec (.stripeData p) s = .next (countFabric (putStripe v p.cid { x with got := x.got + p.payload.length, state := 3 }) 0x88 r.ctx)) ∧
      (x.got + p.payload.length < x.len →
        exec (.stripeData p) s = .next (putStripe v p.cid { x with got := x.got + p.payload.length, asked := some s.clkns })))) ∧
  (∀ (s : State) (id : Nat) (tr : Transfer), (s.fabric.transfers.find? fun (x : Transfer) => x.id = id) = some tr → tr.started = true →
    tr.sentAt + 10 ^ 6 ≤ s.clkns →
    ∃ t, exec (.transferAckTimeout id) s = .next t ∧ t = endTransfer s id (some (7, 0x0809)) ∧ ∀ x ∈ t.fabric.transfers, x.id ≠ id) ∧
  (∀ (s : State) (wire : Nat) (c : RemoteCell), (s.fabric.remoteCells.find? fun (c : RemoteCell) => c.wire = wire) = some c →
    (c.module ∉ s.fabric.current.mods ∨ c.sentAt + 10 ^ 6 ≤ s.clkns) →
    ∃ t, exec (.cellReplyTimeout wire) s = .next t ∧ t = answerRemote s wire (plainReply cellLost) ∧ ∀ x ∈ t.fabric.remoteCells, x.wire ≠ wire) ∧
  (∀ (s : State) (port src : Nat), ∃ t, exec (.heartbeat port src) s = .next t ∧ t.swarms = s.swarms ∧ src ∉ t.fabric.suspected ∧
    (∃ p ∈ t.fabric.peers, p.num = src) ∧ ∀ p ∈ t.fabric.peers, p.num = src → p.heard = s.clkns ∧ port ∉ p.down) ∧
  (∀ (s : State) (m : Nat), m ∈ s.fabric.current.mods ++ s.fabric.watch → some m ≠ s.fabric.modNum → m ≠ ownMod s →
    s.fabric.beatAt + 20000 ≤ s.clkns → s.fabric.mapStale = [] → s.fabric.resends = [] → s.fabric.statuses = [] →
    ∃ t, exec .heartbeatTimer s = .next t ∧ sameMemory s t ∧ t.swarms = s.swarms ∧ t.fabric.beatAt = s.clkns ∧
      (∀ k ∈ upPorts s, ∃ q, (k, q) ∈ t.fabric.outbox ∧ q.op = 0x0A ∧ q.dst = m) ∧
      ∀ p ∈ s.fabric.peers, ∀ k, missDue s p k = true → ∀ x ∈ t.fabric.peers, x.num = p.num → k ∈ x.down) ∧
  (∀ (s : State) (m port : Nat) (p : Peer), (s.fabric.peers.find? fun (p : Peer) => p.num = m) = some p →
    (m ∈ s.fabric.current.mods → p.heard + 100000 ≤ s.clkns →
      ∃ t, exec (.suspicionTimeout m) s = .next t ∧ t.swarms = s.swarms ∧ m ∈ t.fabric.suspected) ∧
    (missDue s p port = true → ∃ t, exec (.heartbeatMiss m port) s = .next t ∧ sameMemory s t ∧ ∀ x ∈ t.fabric.peers, x.num = m → port ∈ x.down) ∧
    ((∀ q ∈ s.fabric.peers, q.num = m → missDue s q port = false) → exec (.heartbeatMiss m port) s = .next s)) ∧
  (∀ (s : State) (port src gen : Nat), (port, src, gen) ∉ s.fabric.markers →
    let all := s.fabric.markers ++ [(port, src, gen)]
    (s.fabric.fence = none → exec (.fenceMarker port src gen) s = .next { s with fabric := { s.fabric with markers := all } }) ∧
    ∀ fe, s.fabric.fence = some fe →
      let missing := fun q m => q ∈ upPorts s ∧ m ∈ fe.next.mods ∧ m ≠ ownMod s ∧ (q, m, fe.next.gen) ∉ all
      ((∃ q m, missing q m) → exec (.fenceMarker port src gen) s = .next { s with fabric := { s.fabric with markers := all } }) ∧
      ((∀ q m, ¬missing q m) → ∃ t, exec (.fenceMarker port src gen) s = .next t ∧ t.fabric.current = fe.next ∧ t.fabric.fence = none)) ∧
  (∀ (s : State) (fe : Fence), s.fabric.fence = some fe →
    (s.clkns < fe.started + 10 ^ 7 → exec .fenceTimeout s = .next s) ∧
    (fe.started + 10 ^ 7 ≤ s.clkns →
      ∃ t, exec .fenceTimeout s = .next t ∧ t.fabric.fence = none ∧ t.fabric.current = s.fabric.current ∧ t.mem = s.mem)) ∧
  (∀ (s : State) (src tag : Nat), s.fabric.notices = [] →
    (s.kills = [] → s.killList.length < Config.killTags → tag ∉ s.killList → src ≠ ownMod s →
      ∃ t q, exec (.killNotice src tag) s = .next t ∧ sameMemory s t ∧ t.swarms = s.swarms ∧ t.killList = s.killList ++ [tag] ∧ sends s t q ∧
        q.op = 0x0D ∧ q.dst = src ∧ q.jobtag = tag) ∧
    ∀ k, s.kills = [k] → k.entered = true → k.tag = tag → k.waiting = [src] →
      ∃ t, exec (.killAck src tag) s = .next t ∧ sameMemory s t ∧ t.kills = [] ∧ t.killList = s.killList.erase tag ∧
        ∀ c ∈ t.contexts, c.num ≠ k.ctx) ∧
  (∀ (s : State) (k : Nat) (r : Reel) (x : Stripe) (since m : Nat), s.fabric.reel = some r → r.stripes[k]? = some x → x.state = 1 →
    x.asked = some since → since + 10 ^ 6 ≤ s.clkns → x.alt ≠ 0xFFFF → s.fabric.current.mods[x.alt]? = some m → m ≠ ownMod s →
    (∀ j y, j ≠ k → r.stripes[j]? = some y → y.state = 2 ∨ y.state = 3) →
    ∃ t v y q, exec (.stripeTimeout k) s = .next t ∧ sameMemory s t ∧ t.fabric.reel = some v ∧ v.stripes[k]? = some y ∧ y.state = 4 ∧
      y.asked = some s.clkns ∧ y.got = 0 ∧ y.peer = m ∧ sends s t q ∧ q.op = 0x0E ∧ q.dst = m ∧ q.cid = k ∧ q.addr = x.srcv) ∧
  (∀ (s : State) (port : Nat) (flit : List Byte) (p : Port), s.fabric.ports[port]? = some p → p.up = true → flit.length = 256 →
    let h := recField flit 0 4
    let kind := h / 2 ^ 24 % 16
    let intact := crc32 (flit.take 252) = recField flit 252 4
    (¬intact → s.fabric.fence = none → ∃ t q, exec (.flitReceive port flit) s = .next t ∧ sameMemory s t ∧ t.agenda = s.agenda ∧
      t.fabric.ports[port]? = some q ∧ q.failures = p.failures + 1 ∧ q.rxSeq = p.rxSeq ∧ q.up = decide (p.failures + 1 < 16)) ∧
    (intact → kind = 1 → h % 2 ^ 12 ≠ p.rxSeq → exec (.flitReceive port flit) s = .next s) ∧
    (intact → kind = 1 → h % 2 ^ 12 = p.rxSeq →
      let out := unpack s port 256 (p.rx ++ (flit.drop 4).take 248)
      ∃ t q, exec (.flitReceive port flit) s = .next t ∧ sameMemory s t ∧ t.swarms = s.swarms ∧ t.fabric.ports[port]? = some q ∧
        q.failures = 0 ∧ q.rxSeq = (p.rxSeq + 1) % 2 ^ 12 ∧ q.rx = out.2 ∧
        t.agenda = s.agenda ++ ((out.1.filterMap id).flatten.map Move.event))) ∧
  ∀ (s : State) (port : Nat) (p : Port), s.fabric.ports[port]? = some p → p.up = false →
    (s.fabric.modNum = none → exec (.portUp port) s = .next s) ∧
    (s.fabric.modNum ≠ none → port < 36 →
      ∃ t q, exec (.portUp port) s = .next t ∧ sameMemory s t ∧ t.swarms = s.swarms ∧ t.fabric.ports[port]? = some q ∧ q.up = true ∧
        q.failures = 0 ∧ (∀ x ∈ t.fabric.planeWaits, x.1 ≠ port) ∧
        ∀ y, (port, y) ∈ s.fabric.planeWaits → y.dst ≠ ownMod s → (port, y) ∈ t.fabric.outbox)
end

