-- ==== Sys2Proof/Laws/State.lean ====
section
/-! SUPPORT. One lemma for each field of State and each of its updates: what an update of one field leaves of the others, by rfl; and the same
for the updates of a swarm and of a clause in flight. -/

namespace Sys2Proof.Machine

/-! modSwarm changes swarms alone. -/

@[simp] theorem modSwarm_agenda (s : State) (r : SwarmRef) (f : Swarm → Swarm) : (modSwarm s r f).agenda = s.agenda := rfl
@[simp] theorem modSwarm_run (s : State) (r : SwarmRef) (f : Swarm → Swarm) : (modSwarm s r f).run = s.run := rfl
@[simp] theorem modSwarm_runs (s : State) (r : SwarmRef) (f : Swarm → Swarm) : (modSwarm s r f).runs = s.runs := rfl
@[simp] theorem modSwarm_fresh (s : State) (r : SwarmRef) (f : Swarm → Swarm) : (modSwarm s r f).fresh = s.fresh := rfl
@[simp] theorem modSwarm_nextId (s : State) (r : SwarmRef) (f : Swarm → Swarm) : (modSwarm s r f).nextId = s.nextId := rfl
@[simp] theorem modSwarm_wgs (s : State) (r : SwarmRef) (f : Swarm → Swarm) : (modSwarm s r f).wgs = s.wgs := rfl
@[simp] theorem modSwarm_cores (s : State) (r : SwarmRef) (f : Swarm → Swarm) : (modSwarm s r f).cores = s.cores := rfl
@[simp] theorem modSwarm_dies (s : State) (r : SwarmRef) (f : Swarm → Swarm) : (modSwarm s r f).dies = s.dies := rfl
@[simp] theorem modSwarm_mem (s : State) (r : SwarmRef) (f : Swarm → Swarm) : (modSwarm s r f).mem = s.mem := rfl
@[simp] theorem modSwarm_backing (s : State) (r : SwarmRef) (f : Swarm → Swarm) : (modSwarm s r f).backing = s.backing := rfl
@[simp] theorem modSwarm_dirty (s : State) (r : SwarmRef) (f : Swarm → Swarm) : (modSwarm s r f).dirty = s.dirty := rfl
@[simp] theorem modSwarm_lineTags (s : State) (r : SwarmRef) (f : Swarm → Swarm) : (modSwarm s r f).lineTags = s.lineTags := rfl
@[simp] theorem modSwarm_keyed (s : State) (r : SwarmRef) (f : Swarm → Swarm) : (modSwarm s r f).keyed = s.keyed := rfl
@[simp] theorem modSwarm_l2Tags (s : State) (r : SwarmRef) (f : Swarm → Swarm) : (modSwarm s r f).l2Tags = s.l2Tags := rfl
@[simp] theorem modSwarm_host (s : State) (r : SwarmRef) (f : Swarm → Swarm) : (modSwarm s r f).host = s.host := rfl
@[simp] theorem modSwarm_sectors (s : State) (r : SwarmRef) (f : Swarm → Swarm) : (modSwarm s r f).sectors = s.sectors := rfl
@[simp] theorem modSwarm_announcements (s : State) (r : SwarmRef) (f : Swarm → Swarm) : (modSwarm s r f).announcements = s.announcements := rfl
@[simp] theorem modSwarm_asyncs (s : State) (r : SwarmRef) (f : Swarm → Swarm) : (modSwarm s r f).asyncs = s.asyncs := rfl
@[simp] theorem modSwarm_atomics (s : State) (r : SwarmRef) (f : Swarm → Swarm) : (modSwarm s r f).atomics = s.atomics := rfl
@[simp] theorem modSwarm_cellWaits (s : State) (r : SwarmRef) (f : Swarm → Swarm) : (modSwarm s r f).cellWaits = s.cellWaits := rfl
@[simp] theorem modSwarm_mmas (s : State) (r : SwarmRef) (f : Swarm → Swarm) : (modSwarm s r f).mmas = s.mmas := rfl
@[simp] theorem modSwarm_versions (s : State) (r : SwarmRef) (f : Swarm → Swarm) : (modSwarm s r f).versions = s.versions := rfl
@[simp] theorem modSwarm_launches (s : State) (r : SwarmRef) (f : Swarm → Swarm) : (modSwarm s r f).launches = s.launches := rfl
@[simp] theorem modSwarm_nextSeq (s : State) (r : SwarmRef) (f : Swarm → Swarm) : (modSwarm s r f).nextSeq = s.nextSeq := rfl
@[simp] theorem modSwarm_queues (s : State) (r : SwarmRef) (f : Swarm → Swarm) : (modSwarm s r f).queues = s.queues := rfl
@[simp] theorem modSwarm_contexts (s : State) (r : SwarmRef) (f : Swarm → Swarm) : (modSwarm s r f).contexts = s.contexts := rfl
@[simp] theorem modSwarm_pageRequests (s : State) (r : SwarmRef) (f : Swarm → Swarm) : (modSwarm s r f).pageRequests = s.pageRequests := rfl
@[simp] theorem modSwarm_prAllocation (s : State) (r : SwarmRef) (f : Swarm → Swarm) : (modSwarm s r f).prAllocation = s.prAllocation := rfl
@[simp] theorem modSwarm_killList (s : State) (r : SwarmRef) (f : Swarm → Swarm) : (modSwarm s r f).killList = s.killList := rfl
@[simp] theorem modSwarm_kills (s : State) (r : SwarmRef) (f : Swarm → Swarm) : (modSwarm s r f).kills = s.kills := rfl
@[simp] theorem modSwarm_migrating (s : State) (r : SwarmRef) (f : Swarm → Swarm) : (modSwarm s r f).migrating = s.migrating := rfl
@[simp] theorem modSwarm_precopies (s : State) (r : SwarmRef) (f : Swarm → Swarm) : (modSwarm s r f).precopies = s.precopies := rfl
@[simp] theorem modSwarm_views (s : State) (r : SwarmRef) (f : Swarm → Swarm) : (modSwarm s r f).views = s.views := rfl
@[simp] theorem modSwarm_ocm (s : State) (r : SwarmRef) (f : Swarm → Swarm) : (modSwarm s r f).ocm = s.ocm := rfl
@[simp] theorem modSwarm_farRanges (s : State) (r : SwarmRef) (f : Swarm → Swarm) : (modSwarm s r f).farRanges = s.farRanges := rfl
@[simp] theorem modSwarm_clkns (s : State) (r : SwarmRef) (f : Swarm → Swarm) : (modSwarm s r f).clkns = s.clkns := rfl
@[simp] theorem modSwarm_cycle (s : State) (r : SwarmRef) (f : Swarm → Swarm) : (modSwarm s r f).cycle = s.cycle := rfl
@[simp] theorem modSwarm_mhz (s : State) (r : SwarmRef) (f : Swarm → Swarm) : (modSwarm s r f).mhz = s.mhz := rfl
@[simp] theorem modSwarm_synced (s : State) (r : SwarmRef) (f : Swarm → Swarm) : (modSwarm s r f).synced = s.synced := rfl
@[simp] theorem modSwarm_slew (s : State) (r : SwarmRef) (f : Swarm → Swarm) : (modSwarm s r f).slew = s.slew := rfl
@[simp] theorem modSwarm_powerCap (s : State) (r : SwarmRef) (f : Swarm → Swarm) : (modSwarm s r f).powerCap = s.powerCap := rfl
@[simp] theorem modSwarm_powered (s : State) (r : SwarmRef) (f : Swarm → Swarm) : (modSwarm s r f).powered = s.powered := rfl
@[simp] theorem modSwarm_fwLayout (s : State) (r : SwarmRef) (f : Swarm → Swarm) : (modSwarm s r f).fwLayout = s.fwLayout := rfl
@[simp] theorem modSwarm_fwPending (s : State) (r : SwarmRef) (f : Swarm → Swarm) : (modSwarm s r f).fwPending = s.fwPending := rfl
@[simp] theorem modSwarm_msix (s : State) (r : SwarmRef) (f : Swarm → Swarm) : (modSwarm s r f).msix = s.msix := rfl
@[simp] theorem modSwarm_replies (s : State) (r : SwarmRef) (f : Swarm → Swarm) : (modSwarm s r f).replies = s.replies := rfl
@[simp] theorem modSwarm_machineChecks (s : State) (r : SwarmRef) (f : Swarm → Swarm) : (modSwarm s r f).machineChecks = s.machineChecks := rfl
@[simp] theorem modSwarm_lastFetch (s : State) (r : SwarmRef) (f : Swarm → Swarm) : (modSwarm s r f).lastFetch = s.lastFetch := rfl
@[simp] theorem modSwarm_foragerErrors (s : State) (r : SwarmRef) (f : Swarm → Swarm) : (modSwarm s r f).foragerErrors = s.foragerErrors := rfl
@[simp] theorem modSwarm_fabric (s : State) (r : SwarmRef) (f : Swarm → Swarm) : (modSwarm s r f).fabric = s.fabric := rfl

/-! putSwarm changes swarms alone. -/

@[simp] theorem putSwarm_agenda (s : State) (w : Swarm) : (putSwarm s w).agenda = s.agenda := rfl
@[simp] theorem putSwarm_run (s : State) (w : Swarm) : (putSwarm s w).run = s.run := rfl
@[simp] theorem putSwarm_runs (s : State) (w : Swarm) : (putSwarm s w).runs = s.runs := rfl
@[simp] theorem putSwarm_fresh (s : State) (w : Swarm) : (putSwarm s w).fresh = s.fresh := rfl
@[simp] theorem putSwarm_nextId (s : State) (w : Swarm) : (putSwarm s w).nextId = s.nextId := rfl
@[simp] theorem putSwarm_wgs (s : State) (w : Swarm) : (putSwarm s w).wgs = s.wgs := rfl
@[simp] theorem putSwarm_cores (s : State) (w : Swarm) : (putSwarm s w).cores = s.cores := rfl
@[simp] theorem putSwarm_dies (s : State) (w : Swarm) : (putSwarm s w).dies = s.dies := rfl
@[simp] theorem putSwarm_mem (s : State) (w : Swarm) : (putSwarm s w).mem = s.mem := rfl
@[simp] theorem putSwarm_backing (s : State) (w : Swarm) : (putSwarm s w).backing = s.backing := rfl
@[simp] theorem putSwarm_dirty (s : State) (w : Swarm) : (putSwarm s w).dirty = s.dirty := rfl
@[simp] theorem putSwarm_lineTags (s : State) (w : Swarm) : (putSwarm s w).lineTags = s.lineTags := rfl
@[simp] theorem putSwarm_keyed (s : State) (w : Swarm) : (putSwarm s w).keyed = s.keyed := rfl
@[simp] theorem putSwarm_l2Tags (s : State) (w : Swarm) : (putSwarm s w).l2Tags = s.l2Tags := rfl
@[simp] theorem putSwarm_host (s : State) (w : Swarm) : (putSwarm s w).host = s.host := rfl
@[simp] theorem putSwarm_sectors (s : State) (w : Swarm) : (putSwarm s w).sectors = s.sectors := rfl
@[simp] theorem putSwarm_announcements (s : State) (w : Swarm) : (putSwarm s w).announcements = s.announcements := rfl
@[simp] theorem putSwarm_asyncs (s : State) (w : Swarm) : (putSwarm s w).asyncs = s.asyncs := rfl
@[simp] theorem putSwarm_atomics (s : State) (w : Swarm) : (putSwarm s w).atomics = s.atomics := rfl
@[simp] theorem putSwarm_cellWaits (s : State) (w : Swarm) : (putSwarm s w).cellWaits = s.cellWaits := rfl
@[simp] theorem putSwarm_mmas (s : State) (w : Swarm) : (putSwarm s w).mmas = s.mmas := rfl
@[simp] theorem putSwarm_versions (s : State) (w : Swarm) : (putSwarm s w).versions = s.versions := rfl
@[simp] theorem putSwarm_launches (s : State) (w : Swarm) : (putSwarm s w).launches = s.launches := rfl
@[simp] theorem putSwarm_nextSeq (s : State) (w : Swarm) : (putSwarm s w).nextSeq = s.nextSeq := rfl
@[simp] theorem putSwarm_queues (s : State) (w : Swarm) : (putSwarm s w).queues = s.queues := rfl
@[simp] theorem putSwarm_contexts (s : State) (w : Swarm) : (putSwarm s w).contexts = s.contexts := rfl
@[simp] theorem putSwarm_pageRequests (s : State) (w : Swarm) : (putSwarm s w).pageRequests = s.pageRequests := rfl
@[simp] theorem putSwarm_prAllocation (s : State) (w : Swarm) : (putSwarm s w).prAllocation = s.prAllocation := rfl
@[simp] theorem putSwarm_killList (s : State) (w : Swarm) : (putSwarm s w).killList = s.killList := rfl
@[simp] theorem putSwarm_kills (s : State) (w : Swarm) : (putSwarm s w).kills = s.kills := rfl
@[simp] theorem putSwarm_migrating (s : State) (w : Swarm) : (putSwarm s w).migrating = s.migrating := rfl
@[simp] theorem putSwarm_precopies (s : State) (w : Swarm) : (putSwarm s w).precopies = s.precopies := rfl
@[simp] theorem putSwarm_views (s : State) (w : Swarm) : (putSwarm s w).views = s.views := rfl
@[simp] theorem putSwarm_ocm (s : State) (w : Swarm) : (putSwarm s w).ocm = s.ocm := rfl
@[simp] theorem putSwarm_farRanges (s : State) (w : Swarm) : (putSwarm s w).farRanges = s.farRanges := rfl
@[simp] theorem putSwarm_clkns (s : State) (w : Swarm) : (putSwarm s w).clkns = s.clkns := rfl
@[simp] theorem putSwarm_cycle (s : State) (w : Swarm) : (putSwarm s w).cycle = s.cycle := rfl
@[simp] theorem putSwarm_mhz (s : State) (w : Swarm) : (putSwarm s w).mhz = s.mhz := rfl
@[simp] theorem putSwarm_synced (s : State) (w : Swarm) : (putSwarm s w).synced = s.synced := rfl
@[simp] theorem putSwarm_slew (s : State) (w : Swarm) : (putSwarm s w).slew = s.slew := rfl
@[simp] theorem putSwarm_powerCap (s : State) (w : Swarm) : (putSwarm s w).powerCap = s.powerCap := rfl
@[simp] theorem putSwarm_powered (s : State) (w : Swarm) : (putSwarm s w).powered = s.powered := rfl
@[simp] theorem putSwarm_fwLayout (s : State) (w : Swarm) : (putSwarm s w).fwLayout = s.fwLayout := rfl
@[simp] theorem putSwarm_fwPending (s : State) (w : Swarm) : (putSwarm s w).fwPending = s.fwPending := rfl
@[simp] theorem putSwarm_msix (s : State) (w : Swarm) : (putSwarm s w).msix = s.msix := rfl
@[simp] theorem putSwarm_replies (s : State) (w : Swarm) : (putSwarm s w).replies = s.replies := rfl
@[simp] theorem putSwarm_machineChecks (s : State) (w : Swarm) : (putSwarm s w).machineChecks = s.machineChecks := rfl
@[simp] theorem putSwarm_lastFetch (s : State) (w : Swarm) : (putSwarm s w).lastFetch = s.lastFetch := rfl
@[simp] theorem putSwarm_foragerErrors (s : State) (w : Swarm) : (putSwarm s w).foragerErrors = s.foragerErrors := rfl
@[simp] theorem putSwarm_fabric (s : State) (w : Swarm) : (putSwarm s w).fabric = s.fabric := rfl

/-! modSwarms changes swarms alone. -/

@[simp] theorem modSwarms_agenda (s : State) (g : WgRef) (f : Swarm → Swarm) : (modSwarms s g f).agenda = s.agenda := rfl
@[simp] theorem modSwarms_run (s : State) (g : WgRef) (f : Swarm → Swarm) : (modSwarms s g f).run = s.run := rfl
@[simp] theorem modSwarms_runs (s : State) (g : WgRef) (f : Swarm → Swarm) : (modSwarms s g f).runs = s.runs := rfl
@[simp] theorem modSwarms_fresh (s : State) (g : WgRef) (f : Swarm → Swarm) : (modSwarms s g f).fresh = s.fresh := rfl
@[simp] theorem modSwarms_nextId (s : State) (g : WgRef) (f : Swarm → Swarm) : (modSwarms s g f).nextId = s.nextId := rfl
@[simp] theorem modSwarms_wgs (s : State) (g : WgRef) (f : Swarm → Swarm) : (modSwarms s g f).wgs = s.wgs := rfl
@[simp] theorem modSwarms_cores (s : State) (g : WgRef) (f : Swarm → Swarm) : (modSwarms s g f).cores = s.cores := rfl
@[simp] theorem modSwarms_dies (s : State) (g : WgRef) (f : Swarm → Swarm) : (modSwarms s g f).dies = s.dies := rfl
@[simp] theorem modSwarms_mem (s : State) (g : WgRef) (f : Swarm → Swarm) : (modSwarms s g f).mem = s.mem := rfl
@[simp] theorem modSwarms_backing (s : State) (g : WgRef) (f : Swarm → Swarm) : (modSwarms s g f).backing = s.backing := rfl
@[simp] theorem modSwarms_dirty (s : State) (g : WgRef) (f : Swarm → Swarm) : (modSwarms s g f).dirty = s.dirty := rfl
@[simp] theorem modSwarms_lineTags (s : State) (g : WgRef) (f : Swarm → Swarm) : (modSwarms s g f).lineTags = s.lineTags := rfl
@[simp] theorem modSwarms_keyed (s : State) (g : WgRef) (f : Swarm → Swarm) : (modSwarms s g f).keyed = s.keyed := rfl
@[simp] theorem modSwarms_l2Tags (s : State) (g : WgRef) (f : Swarm → Swarm) : (modSwarms s g f).l2Tags = s.l2Tags := rfl
@[simp] theorem modSwarms_host (s : State) (g : WgRef) (f : Swarm → Swarm) : (modSwarms s g f).host = s.host := rfl
@[simp] theorem modSwarms_sectors (s : State) (g : WgRef) (f : Swarm → Swarm) : (modSwarms s g f).sectors = s.sectors := rfl
@[simp] theorem modSwarms_announcements (s : State) (g : WgRef) (f : Swarm → Swarm) : (modSwarms s g f).announcements = s.announcements := rfl
@[simp] theorem modSwarms_asyncs (s : State) (g : WgRef) (f : Swarm → Swarm) : (modSwarms s g f).asyncs = s.asyncs := rfl
@[simp] theorem modSwarms_atomics (s : State) (g : WgRef) (f : Swarm → Swarm) : (modSwarms s g f).atomics = s.atomics := rfl
@[simp] theorem modSwarms_cellWaits (s : State) (g : WgRef) (f : Swarm → Swarm) : (modSwarms s g f).cellWaits = s.cellWaits := rfl
@[simp] theorem modSwarms_mmas (s : State) (g : WgRef) (f : Swarm → Swarm) : (modSwarms s g f).mmas = s.mmas := rfl
@[simp] theorem modSwarms_versions (s : State) (g : WgRef) (f : Swarm → Swarm) : (modSwarms s g f).versions = s.versions := rfl
@[simp] theorem modSwarms_launches (s : State) (g : WgRef) (f : Swarm → Swarm) : (modSwarms s g f).launches = s.launches := rfl
@[simp] theorem modSwarms_nextSeq (s : State) (g : WgRef) (f : Swarm → Swarm) : (modSwarms s g f).nextSeq = s.nextSeq := rfl
@[simp] theorem modSwarms_queues (s : State) (g : WgRef) (f : Swarm → Swarm) : (modSwarms s g f).queues = s.queues := rfl
@[simp] theorem modSwarms_contexts (s : State) (g : WgRef) (f : Swarm → Swarm) : (modSwarms s g f).contexts = s.contexts := rfl
@[simp] theorem modSwarms_pageRequests (s : State) (g : WgRef) (f : Swarm → Swarm) : (modSwarms s g f).pageRequests = s.pageRequests := rfl
@[simp] theorem modSwarms_prAllocation (s : State) (g : WgRef) (f : Swarm → Swarm) : (modSwarms s g f).prAllocation = s.prAllocation := rfl
@[simp] theorem modSwarms_killList (s : State) (g : WgRef) (f : Swarm → Swarm) : (modSwarms s g f).killList = s.killList := rfl
@[simp] theorem modSwarms_kills (s : State) (g : WgRef) (f : Swarm → Swarm) : (modSwarms s g f).kills = s.kills := rfl
@[simp] theorem modSwarms_migrating (s : State) (g : WgRef) (f : Swarm → Swarm) : (modSwarms s g f).migrating = s.migrating := rfl
@[simp] theorem modSwarms_precopies (s : State) (g : WgRef) (f : Swarm → Swarm) : (modSwarms s g f).precopies = s.precopies := rfl
@[simp] theorem modSwarms_views (s : State) (g : WgRef) (f : Swarm → Swarm) : (modSwarms s g f).views = s.views := rfl
@[simp] theorem modSwarms_ocm (s : State) (g : WgRef) (f : Swarm → Swarm) : (modSwarms s g f).ocm = s.ocm := rfl
@[simp] theorem modSwarms_farRanges (s : State) (g : WgRef) (f : Swarm → Swarm) : (modSwarms s g f).farRanges = s.farRanges := rfl
@[simp] theorem modSwarms_clkns (s : State) (g : WgRef) (f : Swarm → Swarm) : (modSwarms s g f).clkns = s.clkns := rfl
@[simp] theorem modSwarms_cycle (s : State) (g : WgRef) (f : Swarm → Swarm) : (modSwarms s g f).cycle = s.cycle := rfl
@[simp] theorem modSwarms_mhz (s : State) (g : WgRef) (f : Swarm → Swarm) : (modSwarms s g f).mhz = s.mhz := rfl
@[simp] theorem modSwarms_synced (s : State) (g : WgRef) (f : Swarm → Swarm) : (modSwarms s g f).synced = s.synced := rfl
@[simp] theorem modSwarms_slew (s : State) (g : WgRef) (f : Swarm → Swarm) : (modSwarms s g f).slew = s.slew := rfl
@[simp] theorem modSwarms_powerCap (s : State) (g : WgRef) (f : Swarm → Swarm) : (modSwarms s g f).powerCap = s.powerCap := rfl
@[simp] theorem modSwarms_powered (s : State) (g : WgRef) (f : Swarm → Swarm) : (modSwarms s g f).powered = s.powered := rfl
@[simp] theorem modSwarms_fwLayout (s : State) (g : WgRef) (f : Swarm → Swarm) : (modSwarms s g f).fwLayout = s.fwLayout := rfl
@[simp] theorem modSwarms_fwPending (s : State) (g : WgRef) (f : Swarm → Swarm) : (modSwarms s g f).fwPending = s.fwPending := rfl
@[simp] theorem modSwarms_msix (s : State) (g : WgRef) (f : Swarm → Swarm) : (modSwarms s g f).msix = s.msix := rfl
@[simp] theorem modSwarms_replies (s : State) (g : WgRef) (f : Swarm → Swarm) : (modSwarms s g f).replies = s.replies := rfl
@[simp] theorem modSwarms_machineChecks (s : State) (g : WgRef) (f : Swarm → Swarm) : (modSwarms s g f).machineChecks = s.machineChecks := rfl
@[simp] theorem modSwarms_lastFetch (s : State) (g : WgRef) (f : Swarm → Swarm) : (modSwarms s g f).lastFetch = s.lastFetch := rfl
@[simp] theorem modSwarms_foragerErrors (s : State) (g : WgRef) (f : Swarm → Swarm) : (modSwarms s g f).foragerErrors = s.foragerErrors := rfl
@[simp] theorem modSwarms_fabric (s : State) (g : WgRef) (f : Swarm → Swarm) : (modSwarms s g f).fabric = s.fabric := rfl

/-! modWg changes wgs alone. -/

@[simp] theorem modWg_agenda (s : State) (g : WgRef) (f : Workgroup → Workgroup) : (modWg s g f).agenda = s.agenda := rfl
@[simp] theorem modWg_run (s : State) (g : WgRef) (f : Workgroup → Workgroup) : (modWg s g f).run = s.run := rfl
@[simp] theorem modWg_runs (s : State) (g : WgRef) (f : Workgroup → Workgroup) : (modWg s g f).runs = s.runs := rfl
@[simp] theorem modWg_fresh (s : State) (g : WgRef) (f : Workgroup → Workgroup) : (modWg s g f).fresh = s.fresh := rfl
@[simp] theorem modWg_nextId (s : State) (g : WgRef) (f : Workgroup → Workgroup) : (modWg s g f).nextId = s.nextId := rfl
@[simp] theorem modWg_swarms (s : State) (g : WgRef) (f : Workgroup → Workgroup) : (modWg s g f).swarms = s.swarms := rfl
@[simp] theorem modWg_cores (s : State) (g : WgRef) (f : Workgroup → Workgroup) : (modWg s g f).cores = s.cores := rfl
@[simp] theorem modWg_dies (s : State) (g : WgRef) (f : Workgroup → Workgroup) : (modWg s g f).dies = s.dies := rfl
@[simp] theorem modWg_mem (s : State) (g : WgRef) (f : Workgroup → Workgroup) : (modWg s g f).mem = s.mem := rfl
@[simp] theorem modWg_backing (s : State) (g : WgRef) (f : Workgroup → Workgroup) : (modWg s g f).backing = s.backing := rfl
@[simp] theorem modWg_dirty (s : State) (g : WgRef) (f : Workgroup → Workgroup) : (modWg s g f).dirty = s.dirty := rfl
@[simp] theorem modWg_lineTags (s : State) (g : WgRef) (f : Workgroup → Workgroup) : (modWg s g f).lineTags = s.lineTags := rfl
@[simp] theorem modWg_keyed (s : State) (g : WgRef) (f : Workgroup → Workgroup) : (modWg s g f).keyed = s.keyed := rfl
@[simp] theorem modWg_l2Tags (s : State) (g : WgRef) (f : Workgroup → Workgroup) : (modWg s g f).l2Tags = s.l2Tags := rfl
@[simp] theorem modWg_host (s : State) (g : WgRef) (f : Workgroup → Workgroup) : (modWg s g f).host = s.host := rfl
@[simp] theorem modWg_sectors (s : State) (g : WgRef) (f : Workgroup → Workgroup) : (modWg s g f).sectors = s.sectors := rfl
@[simp] theorem modWg_announcements (s : State) (g : WgRef) (f : Workgroup → Workgroup) : (modWg s g f).announcements = s.announcements := rfl
@[simp] theorem modWg_asyncs (s : State) (g : WgRef) (f : Workgroup → Workgroup) : (modWg s g f).asyncs = s.asyncs := rfl
@[simp] theorem modWg_atomics (s : State) (g : WgRef) (f : Workgroup → Workgroup) : (modWg s g f).atomics = s.atomics := rfl
@[simp] theorem modWg_cellWaits (s : State) (g : WgRef) (f : Workgroup → Workgroup) : (modWg s g f).cellWaits = s.cellWaits := rfl
@[simp] theorem modWg_mmas (s : State) (g : WgRef) (f : Workgroup → Workgroup) : (modWg s g f).mmas = s.mmas := rfl
@[simp] theorem modWg_versions (s : State) (g : WgRef) (f : Workgroup → Workgroup) : (modWg s g f).versions = s.versions := rfl
@[simp] theorem modWg_launches (s : State) (g : WgRef) (f : Workgroup → Workgroup) : (modWg s g f).launches = s.launches := rfl
@[simp] theorem modWg_nextSeq (s : State) (g : WgRef) (f : Workgroup → Workgroup) : (modWg s g f).nextSeq = s.nextSeq := rfl
@[simp] theorem modWg_queues (s : State) (g : WgRef) (f : Workgroup → Workgroup) : (modWg s g f).queues = s.queues := rfl
@[simp] theorem modWg_contexts (s : State) (g : WgRef) (f : Workgroup → Workgroup) : (modWg s g f).contexts = s.contexts := rfl
@[simp] theorem modWg_pageRequests (s : State) (g : WgRef) (f : Workgroup → Workgroup) : (modWg s g f).pageRequests = s.pageRequests := rfl
@[simp] theorem modWg_prAllocation (s : State) (g : WgRef) (f : Workgroup → Workgroup) : (modWg s g f).prAllocation = s.prAllocation := rfl
@[simp] theorem modWg_killList (s : State) (g : WgRef) (f : Workgroup → Workgroup) : (modWg s g f).killList = s.killList := rfl
@[simp] theorem modWg_kills (s : State) (g : WgRef) (f : Workgroup → Workgroup) : (modWg s g f).kills = s.kills := rfl
@[simp] theorem modWg_migrating (s : State) (g : WgRef) (f : Workgroup → Workgroup) : (modWg s g f).migrating = s.migrating := rfl
@[simp] theorem modWg_precopies (s : State) (g : WgRef) (f : Workgroup → Workgroup) : (modWg s g f).precopies = s.precopies := rfl
@[simp] theorem modWg_views (s : State) (g : WgRef) (f : Workgroup → Workgroup) : (modWg s g f).views = s.views := rfl
@[simp] theorem modWg_ocm (s : State) (g : WgRef) (f : Workgroup → Workgroup) : (modWg s g f).ocm = s.ocm := rfl
@[simp] theorem modWg_farRanges (s : State) (g : WgRef) (f : Workgroup → Workgroup) : (modWg s g f).farRanges = s.farRanges := rfl
@[simp] theorem modWg_clkns (s : State) (g : WgRef) (f : Workgroup → Workgroup) : (modWg s g f).clkns = s.clkns := rfl
@[simp] theorem modWg_cycle (s : State) (g : WgRef) (f : Workgroup → Workgroup) : (modWg s g f).cycle = s.cycle := rfl
@[simp] theorem modWg_mhz (s : State) (g : WgRef) (f : Workgroup → Workgroup) : (modWg s g f).mhz = s.mhz := rfl
@[simp] theorem modWg_synced (s : State) (g : WgRef) (f : Workgroup → Workgroup) : (modWg s g f).synced = s.synced := rfl
@[simp] theorem modWg_slew (s : State) (g : WgRef) (f : Workgroup → Workgroup) : (modWg s g f).slew = s.slew := rfl
@[simp] theorem modWg_powerCap (s : State) (g : WgRef) (f : Workgroup → Workgroup) : (modWg s g f).powerCap = s.powerCap := rfl
@[simp] theorem modWg_powered (s : State) (g : WgRef) (f : Workgroup → Workgroup) : (modWg s g f).powered = s.powered := rfl
@[simp] theorem modWg_fwLayout (s : State) (g : WgRef) (f : Workgroup → Workgroup) : (modWg s g f).fwLayout = s.fwLayout := rfl
@[simp] theorem modWg_fwPending (s : State) (g : WgRef) (f : Workgroup → Workgroup) : (modWg s g f).fwPending = s.fwPending := rfl
@[simp] theorem modWg_msix (s : State) (g : WgRef) (f : Workgroup → Workgroup) : (modWg s g f).msix = s.msix := rfl
@[simp] theorem modWg_replies (s : State) (g : WgRef) (f : Workgroup → Workgroup) : (modWg s g f).replies = s.replies := rfl
@[simp] theorem modWg_machineChecks (s : State) (g : WgRef) (f : Workgroup → Workgroup) : (modWg s g f).machineChecks = s.machineChecks := rfl
@[simp] theorem modWg_lastFetch (s : State) (g : WgRef) (f : Workgroup → Workgroup) : (modWg s g f).lastFetch = s.lastFetch := rfl
@[simp] theorem modWg_foragerErrors (s : State) (g : WgRef) (f : Workgroup → Workgroup) : (modWg s g f).foragerErrors = s.foragerErrors := rfl
@[simp] theorem modWg_fabric (s : State) (g : WgRef) (f : Workgroup → Workgroup) : (modWg s g f).fabric = s.fabric := rfl

/-! modTask changes wgs alone. -/

@[simp] theorem modTask_agenda (s : State) (g : WgRef) (f : Task → Task) : (modTask s g f).agenda = s.agenda := rfl
@[simp] theorem modTask_run (s : State) (g : WgRef) (f : Task → Task) : (modTask s g f).run = s.run := rfl
@[simp] theorem modTask_runs (s : State) (g : WgRef) (f : Task → Task) : (modTask s g f).runs = s.runs := rfl
@[simp] theorem modTask_fresh (s : State) (g : WgRef) (f : Task → Task) : (modTask s g f).fresh = s.fresh := rfl
@[simp] theorem modTask_nextId (s : State) (g : WgRef) (f : Task → Task) : (modTask s g f).nextId = s.nextId := rfl
@[simp] theorem modTask_swarms (s : State) (g : WgRef) (f : Task → Task) : (modTask s g f).swarms = s.swarms := rfl
@[simp] theorem modTask_cores (s : State) (g : WgRef) (f : Task → Task) : (modTask s g f).cores = s.cores := rfl
@[simp] theorem modTask_dies (s : State) (g : WgRef) (f : Task → Task) : (modTask s g f).dies = s.dies := rfl
@[simp] theorem modTask_mem (s : State) (g : WgRef) (f : Task → Task) : (modTask s g f).mem = s.mem := rfl
@[simp] theorem modTask_backing (s : State) (g : WgRef) (f : Task → Task) : (modTask s g f).backing = s.backing := rfl
@[simp] theorem modTask_dirty (s : State) (g : WgRef) (f : Task → Task) : (modTask s g f).dirty = s.dirty := rfl
@[simp] theorem modTask_lineTags (s : State) (g : WgRef) (f : Task → Task) : (modTask s g f).lineTags = s.lineTags := rfl
@[simp] theorem modTask_keyed (s : State) (g : WgRef) (f : Task → Task) : (modTask s g f).keyed = s.keyed := rfl
@[simp] theorem modTask_l2Tags (s : State) (g : WgRef) (f : Task → Task) : (modTask s g f).l2Tags = s.l2Tags := rfl
@[simp] theorem modTask_host (s : State) (g : WgRef) (f : Task → Task) : (modTask s g f).host = s.host := rfl
@[simp] theorem modTask_sectors (s : State) (g : WgRef) (f : Task → Task) : (modTask s g f).sectors = s.sectors := rfl
@[simp] theorem modTask_announcements (s : State) (g : WgRef) (f : Task → Task) : (modTask s g f).announcements = s.announcements := rfl
@[simp] theorem modTask_asyncs (s : State) (g : WgRef) (f : Task → Task) : (modTask s g f).asyncs = s.asyncs := rfl
@[simp] theorem modTask_atomics (s : State) (g : WgRef) (f : Task → Task) : (modTask s g f).atomics = s.atomics := rfl
@[simp] theorem modTask_cellWaits (s : State) (g : WgRef) (f : Task → Task) : (modTask s g f).cellWaits = s.cellWaits := rfl
@[simp] theorem modTask_mmas (s : State) (g : WgRef) (f : Task → Task) : (modTask s g f).mmas = s.mmas := rfl
@[simp] theorem modTask_versions (s : State) (g : WgRef) (f : Task → Task) : (modTask s g f).versions = s.versions := rfl
@[simp] theorem modTask_launches (s : State) (g : WgRef) (f : Task → Task) : (modTask s g f).launches = s.launches := rfl
@[simp] theorem modTask_nextSeq (s : State) (g : WgRef) (f : Task → Task) : (modTask s g f).nextSeq = s.nextSeq := rfl
@[simp] theorem modTask_queues (s : State) (g : WgRef) (f : Task → Task) : (modTask s g f).queues = s.queues := rfl
@[simp] theorem modTask_contexts (s : State) (g : WgRef) (f : Task → Task) : (modTask s g f).contexts = s.contexts := rfl
@[simp] theorem modTask_pageRequests (s : State) (g : WgRef) (f : Task → Task) : (modTask s g f).pageRequests = s.pageRequests := rfl
@[simp] theorem modTask_prAllocation (s : State) (g : WgRef) (f : Task → Task) : (modTask s g f).prAllocation = s.prAllocation := rfl
@[simp] theorem modTask_killList (s : State) (g : WgRef) (f : Task → Task) : (modTask s g f).killList = s.killList := rfl
@[simp] theorem modTask_kills (s : State) (g : WgRef) (f : Task → Task) : (modTask s g f).kills = s.kills := rfl
@[simp] theorem modTask_migrating (s : State) (g : WgRef) (f : Task → Task) : (modTask s g f).migrating = s.migrating := rfl
@[simp] theorem modTask_precopies (s : State) (g : WgRef) (f : Task → Task) : (modTask s g f).precopies = s.precopies := rfl
@[simp] theorem modTask_views (s : State) (g : WgRef) (f : Task → Task) : (modTask s g f).views = s.views := rfl
@[simp] theorem modTask_ocm (s : State) (g : WgRef) (f : Task → Task) : (modTask s g f).ocm = s.ocm := rfl
@[simp] theorem modTask_farRanges (s : State) (g : WgRef) (f : Task → Task) : (modTask s g f).farRanges = s.farRanges := rfl
@[simp] theorem modTask_clkns (s : State) (g : WgRef) (f : Task → Task) : (modTask s g f).clkns = s.clkns := rfl
@[simp] theorem modTask_cycle (s : State) (g : WgRef) (f : Task → Task) : (modTask s g f).cycle = s.cycle := rfl
@[simp] theorem modTask_mhz (s : State) (g : WgRef) (f : Task → Task) : (modTask s g f).mhz = s.mhz := rfl
@[simp] theorem modTask_synced (s : State) (g : WgRef) (f : Task → Task) : (modTask s g f).synced = s.synced := rfl
@[simp] theorem modTask_slew (s : State) (g : WgRef) (f : Task → Task) : (modTask s g f).slew = s.slew := rfl
@[simp] theorem modTask_powerCap (s : State) (g : WgRef) (f : Task → Task) : (modTask s g f).powerCap = s.powerCap := rfl
@[simp] theorem modTask_powered (s : State) (g : WgRef) (f : Task → Task) : (modTask s g f).powered = s.powered := rfl
@[simp] theorem modTask_fwLayout (s : State) (g : WgRef) (f : Task → Task) : (modTask s g f).fwLayout = s.fwLayout := rfl
@[simp] theorem modTask_fwPending (s : State) (g : WgRef) (f : Task → Task) : (modTask s g f).fwPending = s.fwPending := rfl
@[simp] theorem modTask_msix (s : State) (g : WgRef) (f : Task → Task) : (modTask s g f).msix = s.msix := rfl
@[simp] theorem modTask_replies (s : State) (g : WgRef) (f : Task → Task) : (modTask s g f).replies = s.replies := rfl
@[simp] theorem modTask_machineChecks (s : State) (g : WgRef) (f : Task → Task) : (modTask s g f).machineChecks = s.machineChecks := rfl
@[simp] theorem modTask_lastFetch (s : State) (g : WgRef) (f : Task → Task) : (modTask s g f).lastFetch = s.lastFetch := rfl
@[simp] theorem modTask_foragerErrors (s : State) (g : WgRef) (f : Task → Task) : (modTask s g f).foragerErrors = s.foragerErrors := rfl
@[simp] theorem modTask_fabric (s : State) (g : WgRef) (f : Task → Task) : (modTask s g f).fabric = s.fabric := rfl

/-! modCore changes cores alone. -/

@[simp] theorem modCore_agenda (s : State) (n : Nat) (f : Core → Core) : (modCore s n f).agenda = s.agenda := by unfold modCore; split <;> rfl
@[simp] theorem modCore_run (s : State) (n : Nat) (f : Core → Core) : (modCore s n f).run = s.run := by unfold modCore; split <;> rfl
@[simp] theorem modCore_runs (s : State) (n : Nat) (f : Core → Core) : (modCore s n f).runs = s.runs := by unfold modCore; split <;> rfl
@[simp] theorem modCore_fresh (s : State) (n : Nat) (f : Core → Core) : (modCore s n f).fresh = s.fresh := by unfold modCore; split <;> rfl
@[simp] theorem modCore_nextId (s : State) (n : Nat) (f : Core → Core) : (modCore s n f).nextId = s.nextId := by unfold modCore; split <;> rfl
@[simp] theorem modCore_swarms (s : State) (n : Nat) (f : Core → Core) : (modCore s n f).swarms = s.swarms := by unfold modCore; split <;> rfl
@[simp] theorem modCore_wgs (s : State) (n : Nat) (f : Core → Core) : (modCore s n f).wgs = s.wgs := by unfold modCore; split <;> rfl
@[simp] theorem modCore_dies (s : State) (n : Nat) (f : Core → Core) : (modCore s n f).dies = s.dies := by unfold modCore; split <;> rfl
@[simp] theorem modCore_mem (s : State) (n : Nat) (f : Core → Core) : (modCore s n f).mem = s.mem := by unfold modCore; split <;> rfl
@[simp] theorem modCore_backing (s : State) (n : Nat) (f : Core → Core) : (modCore s n f).backing = s.backing := by unfold modCore; split <;> rfl
@[simp] theorem modCore_dirty (s : State) (n : Nat) (f : Core → Core) : (modCore s n f).dirty = s.dirty := by unfold modCore; split <;> rfl
@[simp] theorem modCore_lineTags (s : State) (n : Nat) (f : Core → Core) : (modCore s n f).lineTags = s.lineTags := by unfold modCore; split <;> rfl
@[simp] theorem modCore_keyed (s : State) (n : Nat) (f : Core → Core) : (modCore s n f).keyed = s.keyed := by unfold modCore; split <;> rfl
@[simp] theorem modCore_l2Tags (s : State) (n : Nat) (f : Core → Core) : (modCore s n f).l2Tags = s.l2Tags := by unfold modCore; split <;> rfl
@[simp] theorem modCore_host (s : State) (n : Nat) (f : Core → Core) : (modCore s n f).host = s.host := by unfold modCore; split <;> rfl
@[simp] theorem modCore_sectors (s : State) (n : Nat) (f : Core → Core) : (modCore s n f).sectors = s.sectors := by unfold modCore; split <;> rfl
@[simp] theorem modCore_announcements (s : State) (n : Nat) (f : Core → Core) : (modCore s n f).announcements = s.announcements := by unfold modCore; split <;> rfl
@[simp] theorem modCore_asyncs (s : State) (n : Nat) (f : Core → Core) : (modCore s n f).asyncs = s.asyncs := by unfold modCore; split <;> rfl
@[simp] theorem modCore_atomics (s : State) (n : Nat) (f : Core → Core) : (modCore s n f).atomics = s.atomics := by unfold modCore; split <;> rfl
@[simp] theorem modCore_cellWaits (s : State) (n : Nat) (f : Core → Core) : (modCore s n f).cellWaits = s.cellWaits := by unfold modCore; split <;> rfl
@[simp] theorem modCore_mmas (s : State) (n : Nat) (f : Core → Core) : (modCore s n f).mmas = s.mmas := by unfold modCore; split <;> rfl
@[simp] theorem modCore_versions (s : State) (n : Nat) (f : Core → Core) : (modCore s n f).versions = s.versions := by unfold modCore; split <;> rfl
@[simp] theorem modCore_launches (s : State) (n : Nat) (f : Core → Core) : (modCore s n f).launches = s.launches := by unfold modCore; split <;> rfl
@[simp] theorem modCore_nextSeq (s : State) (n : Nat) (f : Core → Core) : (modCore s n f).nextSeq = s.nextSeq := by unfold modCore; split <;> rfl
@[simp] theorem modCore_queues (s : State) (n : Nat) (f : Core → Core) : (modCore s n f).queues = s.queues := by unfold modCore; split <;> rfl
@[simp] theorem modCore_contexts (s : State) (n : Nat) (f : Core → Core) : (modCore s n f).contexts = s.contexts := by unfold modCore; split <;> rfl
@[simp] theorem modCore_pageRequests (s : State) (n : Nat) (f : Core → Core) : (modCore s n f).pageRequests = s.pageRequests := by unfold modCore; split <;> rfl
@[simp] theorem modCore_prAllocation (s : State) (n : Nat) (f : Core → Core) : (modCore s n f).prAllocation = s.prAllocation := by unfold modCore; split <;> rfl
@[simp] theorem modCore_killList (s : State) (n : Nat) (f : Core → Core) : (modCore s n f).killList = s.killList := by unfold modCore; split <;> rfl
@[simp] theorem modCore_kills (s : State) (n : Nat) (f : Core → Core) : (modCore s n f).kills = s.kills := by unfold modCore; split <;> rfl
@[simp] theorem modCore_migrating (s : State) (n : Nat) (f : Core → Core) : (modCore s n f).migrating = s.migrating := by unfold modCore; split <;> rfl
@[simp] theorem modCore_precopies (s : State) (n : Nat) (f : Core → Core) : (modCore s n f).precopies = s.precopies := by unfold modCore; split <;> rfl
@[simp] theorem modCore_views (s : State) (n : Nat) (f : Core → Core) : (modCore s n f).views = s.views := by unfold modCore; split <;> rfl
@[simp] theorem modCore_ocm (s : State) (n : Nat) (f : Core → Core) : (modCore s n f).ocm = s.ocm := by unfold modCore; split <;> rfl
@[simp] theorem modCore_farRanges (s : State) (n : Nat) (f : Core → Core) : (modCore s n f).farRanges = s.farRanges := by unfold modCore; split <;> rfl
@[simp] theorem modCore_clkns (s : State) (n : Nat) (f : Core → Core) : (modCore s n f).clkns = s.clkns := by unfold modCore; split <;> rfl
@[simp] theorem modCore_cycle (s : State) (n : Nat) (f : Core → Core) : (modCore s n f).cycle = s.cycle := by unfold modCore; split <;> rfl
@[simp] theorem modCore_mhz (s : State) (n : Nat) (f : Core → Core) : (modCore s n f).mhz = s.mhz := by unfold modCore; split <;> rfl
@[simp] theorem modCore_synced (s : State) (n : Nat) (f : Core → Core) : (modCore s n f).synced = s.synced := by unfold modCore; split <;> rfl
@[simp] theorem modCore_slew (s : State) (n : Nat) (f : Core → Core) : (modCore s n f).slew = s.slew := by unfold modCore; split <;> rfl
@[simp] theorem modCore_powerCap (s : State) (n : Nat) (f : Core → Core) : (modCore s n f).powerCap = s.powerCap := by unfold modCore; split <;> rfl
@[simp] theorem modCore_powered (s : State) (n : Nat) (f : Core → Core) : (modCore s n f).powered = s.powered := by unfold modCore; split <;> rfl
@[simp] theorem modCore_fwLayout (s : State) (n : Nat) (f : Core → Core) : (modCore s n f).fwLayout = s.fwLayout := by unfold modCore; split <;> rfl
@[simp] theorem modCore_fwPending (s : State) (n : Nat) (f : Core → Core) : (modCore s n f).fwPending = s.fwPending := by unfold modCore; split <;> rfl
@[simp] theorem modCore_msix (s : State) (n : Nat) (f : Core → Core) : (modCore s n f).msix = s.msix := by unfold modCore; split <;> rfl
@[simp] theorem modCore_replies (s : State) (n : Nat) (f : Core → Core) : (modCore s n f).replies = s.replies := by unfold modCore; split <;> rfl
@[simp] theorem modCore_machineChecks (s : State) (n : Nat) (f : Core → Core) : (modCore s n f).machineChecks = s.machineChecks := by unfold modCore; split <;> rfl
@[simp] theorem modCore_lastFetch (s : State) (n : Nat) (f : Core → Core) : (modCore s n f).lastFetch = s.lastFetch := by unfold modCore; split <;> rfl
@[simp] theorem modCore_foragerErrors (s : State) (n : Nat) (f : Core → Core) : (modCore s n f).foragerErrors = s.foragerErrors := by unfold modCore; split <;> rfl
@[simp] theorem modCore_fabric (s : State) (n : Nat) (f : Core → Core) : (modCore s n f).fabric = s.fabric := by unfold modCore; split <;> rfl

/-! modLaunch changes launches alone. -/

@[simp] theorem modLaunch_agenda (s : State) (n : Nat) (f : Launch → Launch) : (modLaunch s n f).agenda = s.agenda := rfl
@[simp] theorem modLaunch_run (s : State) (n : Nat) (f : Launch → Launch) : (modLaunch s n f).run = s.run := rfl
@[simp] theorem modLaunch_runs (s : State) (n : Nat) (f : Launch → Launch) : (modLaunch s n f).runs = s.runs := rfl
@[simp] theorem modLaunch_fresh (s : State) (n : Nat) (f : Launch → Launch) : (modLaunch s n f).fresh = s.fresh := rfl
@[simp] theorem modLaunch_nextId (s : State) (n : Nat) (f : Launch → Launch) : (modLaunch s n f).nextId = s.nextId := rfl
@[simp] theorem modLaunch_swarms (s : State) (n : Nat) (f : Launch → Launch) : (modLaunch s n f).swarms = s.swarms := rfl
@[simp] theorem modLaunch_wgs (s : State) (n : Nat) (f : Launch → Launch) : (modLaunch s n f).wgs = s.wgs := rfl
@[simp] theorem modLaunch_cores (s : State) (n : Nat) (f : Launch → Launch) : (modLaunch s n f).cores = s.cores := rfl
@[simp] theorem modLaunch_dies (s : State) (n : Nat) (f : Launch → Launch) : (modLaunch s n f).dies = s.dies := rfl
@[simp] theorem modLaunch_mem (s : State) (n : Nat) (f : Launch → Launch) : (modLaunch s n f).mem = s.mem := rfl
@[simp] theorem modLaunch_backing (s : State) (n : Nat) (f : Launch → Launch) : (modLaunch s n f).backing = s.backing := rfl
@[simp] theorem modLaunch_dirty (s : State) (n : Nat) (f : Launch → Launch) : (modLaunch s n f).dirty = s.dirty := rfl
@[simp] theorem modLaunch_lineTags (s : State) (n : Nat) (f : Launch → Launch) : (modLaunch s n f).lineTags = s.lineTags := rfl
@[simp] theorem modLaunch_keyed (s : State) (n : Nat) (f : Launch → Launch) : (modLaunch s n f).keyed = s.keyed := rfl
@[simp] theorem modLaunch_l2Tags (s : State) (n : Nat) (f : Launch → Launch) : (modLaunch s n f).l2Tags = s.l2Tags := rfl
@[simp] theorem modLaunch_host (s : State) (n : Nat) (f : Launch → Launch) : (modLaunch s n f).host = s.host := rfl
@[simp] theorem modLaunch_sectors (s : State) (n : Nat) (f : Launch → Launch) : (modLaunch s n f).sectors = s.sectors := rfl
@[simp] theorem modLaunch_announcements (s : State) (n : Nat) (f : Launch → Launch) : (modLaunch s n f).announcements = s.announcements := rfl
@[simp] theorem modLaunch_asyncs (s : State) (n : Nat) (f : Launch → Launch) : (modLaunch s n f).asyncs = s.asyncs := rfl
@[simp] theorem modLaunch_atomics (s : State) (n : Nat) (f : Launch → Launch) : (modLaunch s n f).atomics = s.atomics := rfl
@[simp] theorem modLaunch_cellWaits (s : State) (n : Nat) (f : Launch → Launch) : (modLaunch s n f).cellWaits = s.cellWaits := rfl
@[simp] theorem modLaunch_mmas (s : State) (n : Nat) (f : Launch → Launch) : (modLaunch s n f).mmas = s.mmas := rfl
@[simp] theorem modLaunch_versions (s : State) (n : Nat) (f : Launch → Launch) : (modLaunch s n f).versions = s.versions := rfl
@[simp] theorem modLaunch_nextSeq (s : State) (n : Nat) (f : Launch → Launch) : (modLaunch s n f).nextSeq = s.nextSeq := rfl
@[simp] theorem modLaunch_queues (s : State) (n : Nat) (f : Launch → Launch) : (modLaunch s n f).queues = s.queues := rfl
@[simp] theorem modLaunch_contexts (s : State) (n : Nat) (f : Launch → Launch) : (modLaunch s n f).contexts = s.contexts := rfl
@[simp] theorem modLaunch_pageRequests (s : State) (n : Nat) (f : Launch → Launch) : (modLaunch s n f).pageRequests = s.pageRequests := rfl
@[simp] theorem modLaunch_prAllocation (s : State) (n : Nat) (f : Launch → Launch) : (modLaunch s n f).prAllocation = s.prAllocation := rfl
@[simp] theorem modLaunch_killList (s : State) (n : Nat) (f : Launch → Launch) : (modLaunch s n f).killList = s.killList := rfl
@[simp] theorem modLaunch_kills (s : State) (n : Nat) (f : Launch → Launch) : (modLaunch s n f).kills = s.kills := rfl
@[simp] theorem modLaunch_migrating (s : State) (n : Nat) (f : Launch → Launch) : (modLaunch s n f).migrating = s.migrating := rfl
@[simp] theorem modLaunch_precopies (s : State) (n : Nat) (f : Launch → Launch) : (modLaunch s n f).precopies = s.precopies := rfl
@[simp] theorem modLaunch_views (s : State) (n : Nat) (f : Launch → Launch) : (modLaunch s n f).views = s.views := rfl
@[simp] theorem modLaunch_ocm (s : State) (n : Nat) (f : Launch → Launch) : (modLaunch s n f).ocm = s.ocm := rfl
@[simp] theorem modLaunch_farRanges (s : State) (n : Nat) (f : Launch → Launch) : (modLaunch s n f).farRanges = s.farRanges := rfl
@[simp] theorem modLaunch_clkns (s : State) (n : Nat) (f : Launch → Launch) : (modLaunch s n f).clkns = s.clkns := rfl
@[simp] theorem modLaunch_cycle (s : State) (n : Nat) (f : Launch → Launch) : (modLaunch s n f).cycle = s.cycle := rfl
@[simp] theorem modLaunch_mhz (s : State) (n : Nat) (f : Launch → Launch) : (modLaunch s n f).mhz = s.mhz := rfl
@[simp] theorem modLaunch_synced (s : State) (n : Nat) (f : Launch → Launch) : (modLaunch s n f).synced = s.synced := rfl
@[simp] theorem modLaunch_slew (s : State) (n : Nat) (f : Launch → Launch) : (modLaunch s n f).slew = s.slew := rfl
@[simp] theorem modLaunch_powerCap (s : State) (n : Nat) (f : Launch → Launch) : (modLaunch s n f).powerCap = s.powerCap := rfl
@[simp] theorem modLaunch_powered (s : State) (n : Nat) (f : Launch → Launch) : (modLaunch s n f).powered = s.powered := rfl
@[simp] theorem modLaunch_fwLayout (s : State) (n : Nat) (f : Launch → Launch) : (modLaunch s n f).fwLayout = s.fwLayout := rfl
@[simp] theorem modLaunch_fwPending (s : State) (n : Nat) (f : Launch → Launch) : (modLaunch s n f).fwPending = s.fwPending := rfl
@[simp] theorem modLaunch_msix (s : State) (n : Nat) (f : Launch → Launch) : (modLaunch s n f).msix = s.msix := rfl
@[simp] theorem modLaunch_replies (s : State) (n : Nat) (f : Launch → Launch) : (modLaunch s n f).replies = s.replies := rfl
@[simp] theorem modLaunch_machineChecks (s : State) (n : Nat) (f : Launch → Launch) : (modLaunch s n f).machineChecks = s.machineChecks := rfl
@[simp] theorem modLaunch_lastFetch (s : State) (n : Nat) (f : Launch → Launch) : (modLaunch s n f).lastFetch = s.lastFetch := rfl
@[simp] theorem modLaunch_foragerErrors (s : State) (n : Nat) (f : Launch → Launch) : (modLaunch s n f).foragerErrors = s.foragerErrors := rfl
@[simp] theorem modLaunch_fabric (s : State) (n : Nat) (f : Launch → Launch) : (modLaunch s n f).fabric = s.fabric := rfl

/-! modLaunchId changes launches alone. -/

@[simp] theorem modLaunchId_agenda (s : State) (n : Nat) (f : Launch → Launch) : (modLaunchId s n f).agenda = s.agenda := rfl
@[simp] theorem modLaunchId_run (s : State) (n : Nat) (f : Launch → Launch) : (modLaunchId s n f).run = s.run := rfl
@[simp] theorem modLaunchId_runs (s : State) (n : Nat) (f : Launch → Launch) : (modLaunchId s n f).runs = s.runs := rfl
@[simp] theorem modLaunchId_fresh (s : State) (n : Nat) (f : Launch → Launch) : (modLaunchId s n f).fresh = s.fresh := rfl
@[simp] theorem modLaunchId_nextId (s : State) (n : Nat) (f : Launch → Launch) : (modLaunchId s n f).nextId = s.nextId := rfl
@[simp] theorem modLaunchId_swarms (s : State) (n : Nat) (f : Launch → Launch) : (modLaunchId s n f).swarms = s.swarms := rfl
@[simp] theorem modLaunchId_wgs (s : State) (n : Nat) (f : Launch → Launch) : (modLaunchId s n f).wgs = s.wgs := rfl
@[simp] theorem modLaunchId_cores (s : State) (n : Nat) (f : Launch → Launch) : (modLaunchId s n f).cores = s.cores := rfl
@[simp] theorem modLaunchId_dies (s : State) (n : Nat) (f : Launch → Launch) : (modLaunchId s n f).dies = s.dies := rfl
@[simp] theorem modLaunchId_mem (s : State) (n : Nat) (f : Launch → Launch) : (modLaunchId s n f).mem = s.mem := rfl
@[simp] theorem modLaunchId_backing (s : State) (n : Nat) (f : Launch → Launch) : (modLaunchId s n f).backing = s.backing := rfl
@[simp] theorem modLaunchId_dirty (s : State) (n : Nat) (f : Launch → Launch) : (modLaunchId s n f).dirty = s.dirty := rfl
@[simp] theorem modLaunchId_lineTags (s : State) (n : Nat) (f : Launch → Launch) : (modLaunchId s n f).lineTags = s.lineTags := rfl
@[simp] theorem modLaunchId_keyed (s : State) (n : Nat) (f : Launch → Launch) : (modLaunchId s n f).keyed = s.keyed := rfl
@[simp] theorem modLaunchId_l2Tags (s : State) (n : Nat) (f : Launch → Launch) : (modLaunchId s n f).l2Tags = s.l2Tags := rfl
@[simp] theorem modLaunchId_host (s : State) (n : Nat) (f : Launch → Launch) : (modLaunchId s n f).host = s.host := rfl
@[simp] theorem modLaunchId_sectors (s : State) (n : Nat) (f : Launch → Launch) : (modLaunchId s n f).sectors = s.sectors := rfl
@[simp] theorem modLaunchId_announcements (s : State) (n : Nat) (f : Launch → Launch) : (modLaunchId s n f).announcements = s.announcements := rfl
@[simp] theorem modLaunchId_asyncs (s : State) (n : Nat) (f : Launch → Launch) : (modLaunchId s n f).asyncs = s.asyncs := rfl
@[simp] theorem modLaunchId_atomics (s : State) (n : Nat) (f : Launch → Launch) : (modLaunchId s n f).atomics = s.atomics := rfl
@[simp] theorem modLaunchId_cellWaits (s : State) (n : Nat) (f : Launch → Launch) : (modLaunchId s n f).cellWaits = s.cellWaits := rfl
@[simp] theorem modLaunchId_mmas (s : State) (n : Nat) (f : Launch → Launch) : (modLaunchId s n f).mmas = s.mmas := rfl
@[simp] theorem modLaunchId_versions (s : State) (n : Nat) (f : Launch → Launch) : (modLaunchId s n f).versions = s.versions := rfl
@[simp] theorem modLaunchId_nextSeq (s : State) (n : Nat) (f : Launch → Launch) : (modLaunchId s n f).nextSeq = s.nextSeq := rfl
@[simp] theorem modLaunchId_queues (s : State) (n : Nat) (f : Launch → Launch) : (modLaunchId s n f).queues = s.queues := rfl
@[simp] theorem modLaunchId_contexts (s : State) (n : Nat) (f : Launch → Launch) : (modLaunchId s n f).contexts = s.contexts := rfl
@[simp] theorem modLaunchId_pageRequests (s : State) (n : Nat) (f : Launch → Launch) : (modLaunchId s n f).pageRequests = s.pageRequests := rfl
@[simp] theorem modLaunchId_prAllocation (s : State) (n : Nat) (f : Launch → Launch) : (modLaunchId s n f).prAllocation = s.prAllocation := rfl
@[simp] theorem modLaunchId_killList (s : State) (n : Nat) (f : Launch → Launch) : (modLaunchId s n f).killList = s.killList := rfl
@[simp] theorem modLaunchId_kills (s : State) (n : Nat) (f : Launch → Launch) : (modLaunchId s n f).kills = s.kills := rfl
@[simp] theorem modLaunchId_migrating (s : State) (n : Nat) (f : Launch → Launch) : (modLaunchId s n f).migrating = s.migrating := rfl
@[simp] theorem modLaunchId_precopies (s : State) (n : Nat) (f : Launch → Launch) : (modLaunchId s n f).precopies = s.precopies := rfl
@[simp] theorem modLaunchId_views (s : State) (n : Nat) (f : Launch → Launch) : (modLaunchId s n f).views = s.views := rfl
@[simp] theorem modLaunchId_ocm (s : State) (n : Nat) (f : Launch → Launch) : (modLaunchId s n f).ocm = s.ocm := rfl
@[simp] theorem modLaunchId_farRanges (s : State) (n : Nat) (f : Launch → Launch) : (modLaunchId s n f).farRanges = s.farRanges := rfl
@[simp] theorem modLaunchId_clkns (s : State) (n : Nat) (f : Launch → Launch) : (modLaunchId s n f).clkns = s.clkns := rfl
@[simp] theorem modLaunchId_cycle (s : State) (n : Nat) (f : Launch → Launch) : (modLaunchId s n f).cycle = s.cycle := rfl
@[simp] theorem modLaunchId_mhz (s : State) (n : Nat) (f : Launch → Launch) : (modLaunchId s n f).mhz = s.mhz := rfl
@[simp] theorem modLaunchId_synced (s : State) (n : Nat) (f : Launch → Launch) : (modLaunchId s n f).synced = s.synced := rfl
@[simp] theorem modLaunchId_slew (s : State) (n : Nat) (f : Launch → Launch) : (modLaunchId s n f).slew = s.slew := rfl
@[simp] theorem modLaunchId_powerCap (s : State) (n : Nat) (f : Launch → Launch) : (modLaunchId s n f).powerCap = s.powerCap := rfl
@[simp] theorem modLaunchId_powered (s : State) (n : Nat) (f : Launch → Launch) : (modLaunchId s n f).powered = s.powered := rfl
@[simp] theorem modLaunchId_fwLayout (s : State) (n : Nat) (f : Launch → Launch) : (modLaunchId s n f).fwLayout = s.fwLayout := rfl
@[simp] theorem modLaunchId_fwPending (s : State) (n : Nat) (f : Launch → Launch) : (modLaunchId s n f).fwPending = s.fwPending := rfl
@[simp] theorem modLaunchId_msix (s : State) (n : Nat) (f : Launch → Launch) : (modLaunchId s n f).msix = s.msix := rfl
@[simp] theorem modLaunchId_replies (s : State) (n : Nat) (f : Launch → Launch) : (modLaunchId s n f).replies = s.replies := rfl
@[simp] theorem modLaunchId_machineChecks (s : State) (n : Nat) (f : Launch → Launch) : (modLaunchId s n f).machineChecks = s.machineChecks := rfl
@[simp] theorem modLaunchId_lastFetch (s : State) (n : Nat) (f : Launch → Launch) : (modLaunchId s n f).lastFetch = s.lastFetch := rfl
@[simp] theorem modLaunchId_foragerErrors (s : State) (n : Nat) (f : Launch → Launch) : (modLaunchId s n f).foragerErrors = s.foragerErrors := rfl
@[simp] theorem modLaunchId_fabric (s : State) (n : Nat) (f : Launch → Launch) : (modLaunchId s n f).fabric = s.fabric := rfl

/-! modQueue changes queues alone. -/

@[simp] theorem modQueue_agenda (s : State) (q : Nat) (f : WorkQueue → WorkQueue) : (modQueue s q f).agenda = s.agenda := rfl
@[simp] theorem modQueue_run (s : State) (q : Nat) (f : WorkQueue → WorkQueue) : (modQueue s q f).run = s.run := rfl
@[simp] theorem modQueue_runs (s : State) (q : Nat) (f : WorkQueue → WorkQueue) : (modQueue s q f).runs = s.runs := rfl
@[simp] theorem modQueue_fresh (s : State) (q : Nat) (f : WorkQueue → WorkQueue) : (modQueue s q f).fresh = s.fresh := rfl
@[simp] theorem modQueue_nextId (s : State) (q : Nat) (f : WorkQueue → WorkQueue) : (modQueue s q f).nextId = s.nextId := rfl
@[simp] theorem modQueue_swarms (s : State) (q : Nat) (f : WorkQueue → WorkQueue) : (modQueue s q f).swarms = s.swarms := rfl
@[simp] theorem modQueue_wgs (s : State) (q : Nat) (f : WorkQueue → WorkQueue) : (modQueue s q f).wgs = s.wgs := rfl
@[simp] theorem modQueue_cores (s : State) (q : Nat) (f : WorkQueue → WorkQueue) : (modQueue s q f).cores = s.cores := rfl
@[simp] theorem modQueue_dies (s : State) (q : Nat) (f : WorkQueue → WorkQueue) : (modQueue s q f).dies = s.dies := rfl
@[simp] theorem modQueue_mem (s : State) (q : Nat) (f : WorkQueue → WorkQueue) : (modQueue s q f).mem = s.mem := rfl
@[simp] theorem modQueue_backing (s : State) (q : Nat) (f : WorkQueue → WorkQueue) : (modQueue s q f).backing = s.backing := rfl
@[simp] theorem modQueue_dirty (s : State) (q : Nat) (f : WorkQueue → WorkQueue) : (modQueue s q f).dirty = s.dirty := rfl
@[simp] theorem modQueue_lineTags (s : State) (q : Nat) (f : WorkQueue → WorkQueue) : (modQueue s q f).lineTags = s.lineTags := rfl
@[simp] theorem modQueue_keyed (s : State) (q : Nat) (f : WorkQueue → WorkQueue) : (modQueue s q f).keyed = s.keyed := rfl
@[simp] theorem modQueue_l2Tags (s : State) (q : Nat) (f : WorkQueue → WorkQueue) : (modQueue s q f).l2Tags = s.l2Tags := rfl
@[simp] theorem modQueue_host (s : State) (q : Nat) (f : WorkQueue → WorkQueue) : (modQueue s q f).host = s.host := rfl
@[simp] theorem modQueue_sectors (s : State) (q : Nat) (f : WorkQueue → WorkQueue) : (modQueue s q f).sectors = s.sectors := rfl
@[simp] theorem modQueue_announcements (s : State) (q : Nat) (f : WorkQueue → WorkQueue) : (modQueue s q f).announcements = s.announcements := rfl
@[simp] theorem modQueue_asyncs (s : State) (q : Nat) (f : WorkQueue → WorkQueue) : (modQueue s q f).asyncs = s.asyncs := rfl
@[simp] theorem modQueue_atomics (s : State) (q : Nat) (f : WorkQueue → WorkQueue) : (modQueue s q f).atomics = s.atomics := rfl
@[simp] theorem modQueue_cellWaits (s : State) (q : Nat) (f : WorkQueue → WorkQueue) : (modQueue s q f).cellWaits = s.cellWaits := rfl
@[simp] theorem modQueue_mmas (s : State) (q : Nat) (f : WorkQueue → WorkQueue) : (modQueue s q f).mmas = s.mmas := rfl
@[simp] theorem modQueue_versions (s : State) (q : Nat) (f : WorkQueue → WorkQueue) : (modQueue s q f).versions = s.versions := rfl
@[simp] theorem modQueue_launches (s : State) (q : Nat) (f : WorkQueue → WorkQueue) : (modQueue s q f).launches = s.launches := rfl
@[simp] theorem modQueue_nextSeq (s : State) (q : Nat) (f : WorkQueue → WorkQueue) : (modQueue s q f).nextSeq = s.nextSeq := rfl
@[simp] theorem modQueue_contexts (s : State) (q : Nat) (f : WorkQueue → WorkQueue) : (modQueue s q f).contexts = s.contexts := rfl
@[simp] theorem modQueue_pageRequests (s : State) (q : Nat) (f : WorkQueue → WorkQueue) : (modQueue s q f).pageRequests = s.pageRequests := rfl
@[simp] theorem modQueue_prAllocation (s : State) (q : Nat) (f : WorkQueue → WorkQueue) : (modQueue s q f).prAllocation = s.prAllocation := rfl
@[simp] theorem modQueue_killList (s : State) (q : Nat) (f : WorkQueue → WorkQueue) : (modQueue s q f).killList = s.killList := rfl
@[simp] theorem modQueue_kills (s : State) (q : Nat) (f : WorkQueue → WorkQueue) : (modQueue s q f).kills = s.kills := rfl
@[simp] theorem modQueue_migrating (s : State) (q : Nat) (f : WorkQueue → WorkQueue) : (modQueue s q f).migrating = s.migrating := rfl
@[simp] theorem modQueue_precopies (s : State) (q : Nat) (f : WorkQueue → WorkQueue) : (modQueue s q f).precopies = s.precopies := rfl
@[simp] theorem modQueue_views (s : State) (q : Nat) (f : WorkQueue → WorkQueue) : (modQueue s q f).views = s.views := rfl
@[simp] theorem modQueue_ocm (s : State) (q : Nat) (f : WorkQueue → WorkQueue) : (modQueue s q f).ocm = s.ocm := rfl
@[simp] theorem modQueue_farRanges (s : State) (q : Nat) (f : WorkQueue → WorkQueue) : (modQueue s q f).farRanges = s.farRanges := rfl
@[simp] theorem modQueue_clkns (s : State) (q : Nat) (f : WorkQueue → WorkQueue) : (modQueue s q f).clkns = s.clkns := rfl
@[simp] theorem modQueue_cycle (s : State) (q : Nat) (f : WorkQueue → WorkQueue) : (modQueue s q f).cycle = s.cycle := rfl
@[simp] theorem modQueue_mhz (s : State) (q : Nat) (f : WorkQueue → WorkQueue) : (modQueue s q f).mhz = s.mhz := rfl
@[simp] theorem modQueue_synced (s : State) (q : Nat) (f : WorkQueue → WorkQueue) : (modQueue s q f).synced = s.synced := rfl
@[simp] theorem modQueue_slew (s : State) (q : Nat) (f : WorkQueue → WorkQueue) : (modQueue s q f).slew = s.slew := rfl
@[simp] theorem modQueue_powerCap (s : State) (q : Nat) (f : WorkQueue → WorkQueue) : (modQueue s q f).powerCap = s.powerCap := rfl
@[simp] theorem modQueue_powered (s : State) (q : Nat) (f : WorkQueue → WorkQueue) : (modQueue s q f).powered = s.powered := rfl
@[simp] theorem modQueue_fwLayout (s : State) (q : Nat) (f : WorkQueue → WorkQueue) : (modQueue s q f).fwLayout = s.fwLayout := rfl
@[simp] theorem modQueue_fwPending (s : State) (q : Nat) (f : WorkQueue → WorkQueue) : (modQueue s q f).fwPending = s.fwPending := rfl
@[simp] theorem modQueue_msix (s : State) (q : Nat) (f : WorkQueue → WorkQueue) : (modQueue s q f).msix = s.msix := rfl
@[simp] theorem modQueue_replies (s : State) (q : Nat) (f : WorkQueue → WorkQueue) : (modQueue s q f).replies = s.replies := rfl
@[simp] theorem modQueue_machineChecks (s : State) (q : Nat) (f : WorkQueue → WorkQueue) : (modQueue s q f).machineChecks = s.machineChecks := rfl
@[simp] theorem modQueue_lastFetch (s : State) (q : Nat) (f : WorkQueue → WorkQueue) : (modQueue s q f).lastFetch = s.lastFetch := rfl
@[simp] theorem modQueue_foragerErrors (s : State) (q : Nat) (f : WorkQueue → WorkQueue) : (modQueue s q f).foragerErrors = s.foragerErrors := rfl
@[simp] theorem modQueue_fabric (s : State) (q : Nat) (f : WorkQueue → WorkQueue) : (modQueue s q f).fabric = s.fabric := rfl

/-! modContext changes contexts alone. -/

@[simp] theorem modContext_agenda (s : State) (n : Nat) (f : Context → Context) : (modContext s n f).agenda = s.agenda := by unfold modContext; split <;> rfl
@[simp] theorem modContext_run (s : State) (n : Nat) (f : Context → Context) : (modContext s n f).run = s.run := by unfold modContext; split <;> rfl
@[simp] theorem modContext_runs (s : State) (n : Nat) (f : Context → Context) : (modContext s n f).runs = s.runs := by unfold modContext; split <;> rfl
@[simp] theorem modContext_fresh (s : State) (n : Nat) (f : Context → Context) : (modContext s n f).fresh = s.fresh := by unfold modContext; split <;> rfl
@[simp] theorem modContext_nextId (s : State) (n : Nat) (f : Context → Context) : (modContext s n f).nextId = s.nextId := by unfold modContext; split <;> rfl
@[simp] theorem modContext_swarms (s : State) (n : Nat) (f : Context → Context) : (modContext s n f).swarms = s.swarms := by unfold modContext; split <;> rfl
@[simp] theorem modContext_wgs (s : State) (n : Nat) (f : Context → Context) : (modContext s n f).wgs = s.wgs := by unfold modContext; split <;> rfl
@[simp] theorem modContext_cores (s : State) (n : Nat) (f : Context → Context) : (modContext s n f).cores = s.cores := by unfold modContext; split <;> rfl
@[simp] theorem modContext_dies (s : State) (n : Nat) (f : Context → Context) : (modContext s n f).dies = s.dies := by unfold modContext; split <;> rfl
@[simp] theorem modContext_mem (s : State) (n : Nat) (f : Context → Context) : (modContext s n f).mem = s.mem := by unfold modContext; split <;> rfl
@[simp] theorem modContext_backing (s : State) (n : Nat) (f : Context → Context) : (modContext s n f).backing = s.backing := by unfold modContext; split <;> rfl
@[simp] theorem modContext_dirty (s : State) (n : Nat) (f : Context → Context) : (modContext s n f).dirty = s.dirty := by unfold modContext; split <;> rfl
@[simp] theorem modContext_lineTags (s : State) (n : Nat) (f : Context → Context) : (modContext s n f).lineTags = s.lineTags := by unfold modContext; split <;> rfl
@[simp] theorem modContext_keyed (s : State) (n : Nat) (f : Context → Context) : (modContext s n f).keyed = s.keyed := by unfold modContext; split <;> rfl
@[simp] theorem modContext_l2Tags (s : State) (n : Nat) (f : Context → Context) : (modContext s n f).l2Tags = s.l2Tags := by unfold modContext; split <;> rfl
@[simp] theorem modContext_host (s : State) (n : Nat) (f : Context → Context) : (modContext s n f).host = s.host := by unfold modContext; split <;> rfl
@[simp] theorem modContext_sectors (s : State) (n : Nat) (f : Context → Context) : (modContext s n f).sectors = s.sectors := by unfold modContext; split <;> rfl
@[simp] theorem modContext_announcements (s : State) (n : Nat) (f : Context → Context) : (modContext s n f).announcements = s.announcements := by unfold modContext; split <;> rfl
@[simp] theorem modContext_asyncs (s : State) (n : Nat) (f : Context → Context) : (modContext s n f).asyncs = s.asyncs := by unfold modContext; split <;> rfl
@[simp] theorem modContext_atomics (s : State) (n : Nat) (f : Context → Context) : (modContext s n f).atomics = s.atomics := by unfold modContext; split <;> rfl
@[simp] theorem modContext_cellWaits (s : State) (n : Nat) (f : Context → Context) : (modContext s n f).cellWaits = s.cellWaits := by unfold modContext; split <;> rfl
@[simp] theorem modContext_mmas (s : State) (n : Nat) (f : Context → Context) : (modContext s n f).mmas = s.mmas := by unfold modContext; split <;> rfl
@[simp] theorem modContext_versions (s : State) (n : Nat) (f : Context → Context) : (modContext s n f).versions = s.versions := by unfold modContext; split <;> rfl
@[simp] theorem modContext_launches (s : State) (n : Nat) (f : Context → Context) : (modContext s n f).launches = s.launches := by unfold modContext; split <;> rfl
@[simp] theorem modContext_nextSeq (s : State) (n : Nat) (f : Context → Context) : (modContext s n f).nextSeq = s.nextSeq := by unfold modContext; split <;> rfl
@[simp] theorem modContext_queues (s : State) (n : Nat) (f : Context → Context) : (modContext s n f).queues = s.queues := by unfold modContext; split <;> rfl
@[simp] theorem modContext_pageRequests (s : State) (n : Nat) (f : Context → Context) : (modContext s n f).pageRequests = s.pageRequests := by unfold modContext; split <;> rfl
@[simp] theorem modContext_prAllocation (s : State) (n : Nat) (f : Context → Context) : (modContext s n f).prAllocation = s.prAllocation := by unfold modContext; split <;> rfl
@[simp] theorem modContext_killList (s : State) (n : Nat) (f : Context → Context) : (modContext s n f).killList = s.killList := by unfold modContext; split <;> rfl
@[simp] theorem modContext_kills (s : State) (n : Nat) (f : Context → Context) : (modContext s n f).kills = s.kills := by unfold modContext; split <;> rfl
@[simp] theorem modContext_migrating (s : State) (n : Nat) (f : Context → Context) : (modContext s n f).migrating = s.migrating := by unfold modContext; split <;> rfl
@[simp] theorem modContext_precopies (s : State) (n : Nat) (f : Context → Context) : (modContext s n f).precopies = s.precopies := by unfold modContext; split <;> rfl
@[simp] theorem modContext_views (s : State) (n : Nat) (f : Context → Context) : (modContext s n f).views = s.views := by unfold modContext; split <;> rfl
@[simp] theorem modContext_ocm (s : State) (n : Nat) (f : Context → Context) : (modContext s n f).ocm = s.ocm := by unfold modContext; split <;> rfl
@[simp] theorem modContext_farRanges (s : State) (n : Nat) (f : Context → Context) : (modContext s n f).farRanges = s.farRanges := by unfold modContext; split <;> rfl
@[simp] theorem modContext_clkns (s : State) (n : Nat) (f : Context → Context) : (modContext s n f).clkns = s.clkns := by unfold modContext; split <;> rfl
@[simp] theorem modContext_cycle (s : State) (n : Nat) (f : Context → Context) : (modContext s n f).cycle = s.cycle := by unfold modContext; split <;> rfl
@[simp] theorem modContext_mhz (s : State) (n : Nat) (f : Context → Context) : (modContext s n f).mhz = s.mhz := by unfold modContext; split <;> rfl
@[simp] theorem modContext_synced (s : State) (n : Nat) (f : Context → Context) : (modContext s n f).synced = s.synced := by unfold modContext; split <;> rfl
@[simp] theorem modContext_slew (s : State) (n : Nat) (f : Context → Context) : (modContext s n f).slew = s.slew := by unfold modContext; split <;> rfl
@[simp] theorem modContext_powerCap (s : State) (n : Nat) (f : Context → Context) : (modContext s n f).powerCap = s.powerCap := by unfold modContext; split <;> rfl
@[simp] theorem modContext_powered (s : State) (n : Nat) (f : Context → Context) : (modContext s n f).powered = s.powered := by unfold modContext; split <;> rfl
@[simp] theorem modContext_fwLayout (s : State) (n : Nat) (f : Context → Context) : (modContext s n f).fwLayout = s.fwLayout := by unfold modContext; split <;> rfl
@[simp] theorem modContext_fwPending (s : State) (n : Nat) (f : Context → Context) : (modContext s n f).fwPending = s.fwPending := by unfold modContext; split <;> rfl
@[simp] theorem modContext_msix (s : State) (n : Nat) (f : Context → Context) : (modContext s n f).msix = s.msix := by unfold modContext; split <;> rfl
@[simp] theorem modContext_replies (s : State) (n : Nat) (f : Context → Context) : (modContext s n f).replies = s.replies := by unfold modContext; split <;> rfl
@[simp] theorem modContext_machineChecks (s : State) (n : Nat) (f : Context → Context) : (modContext s n f).machineChecks = s.machineChecks := by unfold modContext; split <;> rfl
@[simp] theorem modContext_lastFetch (s : State) (n : Nat) (f : Context → Context) : (modContext s n f).lastFetch = s.lastFetch := by unfold modContext; split <;> rfl
@[simp] theorem modContext_foragerErrors (s : State) (n : Nat) (f : Context → Context) : (modContext s n f).foragerErrors = s.foragerErrors := by unfold modContext; split <;> rfl
@[simp] theorem modContext_fabric (s : State) (n : Nat) (f : Context → Context) : (modContext s n f).fabric = s.fabric := by unfold modContext; split <;> rfl

/-! modDie changes dies alone. -/

@[simp] theorem modDie_agenda (s : State) (d : Nat) (f : Die → Die) : (modDie s d f).agenda = s.agenda := rfl
@[simp] theorem modDie_run (s : State) (d : Nat) (f : Die → Die) : (modDie s d f).run = s.run := rfl
@[simp] theorem modDie_runs (s : State) (d : Nat) (f : Die → Die) : (modDie s d f).runs = s.runs := rfl
@[simp] theorem modDie_fresh (s : State) (d : Nat) (f : Die → Die) : (modDie s d f).fresh = s.fresh := rfl
@[simp] theorem modDie_nextId (s : State) (d : Nat) (f : Die → Die) : (modDie s d f).nextId = s.nextId := rfl
@[simp] theorem modDie_swarms (s : State) (d : Nat) (f : Die → Die) : (modDie s d f).swarms = s.swarms := rfl
@[simp] theorem modDie_wgs (s : State) (d : Nat) (f : Die → Die) : (modDie s d f).wgs = s.wgs := rfl
@[simp] theorem modDie_cores (s : State) (d : Nat) (f : Die → Die) : (modDie s d f).cores = s.cores := rfl
@[simp] theorem modDie_mem (s : State) (d : Nat) (f : Die → Die) : (modDie s d f).mem = s.mem := rfl
@[simp] theorem modDie_backing (s : State) (d : Nat) (f : Die → Die) : (modDie s d f).backing = s.backing := rfl
@[simp] theorem modDie_dirty (s : State) (d : Nat) (f : Die → Die) : (modDie s d f).dirty = s.dirty := rfl
@[simp] theorem modDie_lineTags (s : State) (d : Nat) (f : Die → Die) : (modDie s d f).lineTags = s.lineTags := rfl
@[simp] theorem modDie_keyed (s : State) (d : Nat) (f : Die → Die) : (modDie s d f).keyed = s.keyed := rfl
@[simp] theorem modDie_l2Tags (s : State) (d : Nat) (f : Die → Die) : (modDie s d f).l2Tags = s.l2Tags := rfl
@[simp] theorem modDie_host (s : State) (d : Nat) (f : Die → Die) : (modDie s d f).host = s.host := rfl
@[simp] theorem modDie_sectors (s : State) (d : Nat) (f : Die → Die) : (modDie s d f).sectors = s.sectors := rfl
@[simp] theorem modDie_announcements (s : State) (d : Nat) (f : Die → Die) : (modDie s d f).announcements = s.announcements := rfl
@[simp] theorem modDie_asyncs (s : State) (d : Nat) (f : Die → Die) : (modDie s d f).asyncs = s.asyncs := rfl
@[simp] theorem modDie_atomics (s : State) (d : Nat) (f : Die → Die) : (modDie s d f).atomics = s.atomics := rfl
@[simp] theorem modDie_cellWaits (s : State) (d : Nat) (f : Die → Die) : (modDie s d f).cellWaits = s.cellWaits := rfl
@[simp] theorem modDie_mmas (s : State) (d : Nat) (f : Die → Die) : (modDie s d f).mmas = s.mmas := rfl
@[simp] theorem modDie_versions (s : State) (d : Nat) (f : Die → Die) : (modDie s d f).versions = s.versions := rfl
@[simp] theorem modDie_launches (s : State) (d : Nat) (f : Die → Die) : (modDie s d f).launches = s.launches := rfl
@[simp] theorem modDie_nextSeq (s : State) (d : Nat) (f : Die → Die) : (modDie s d f).nextSeq = s.nextSeq := rfl
@[simp] theorem modDie_queues (s : State) (d : Nat) (f : Die → Die) : (modDie s d f).queues = s.queues := rfl
@[simp] theorem modDie_contexts (s : State) (d : Nat) (f : Die → Die) : (modDie s d f).contexts = s.contexts := rfl
@[simp] theorem modDie_pageRequests (s : State) (d : Nat) (f : Die → Die) : (modDie s d f).pageRequests = s.pageRequests := rfl
@[simp] theorem modDie_prAllocation (s : State) (d : Nat) (f : Die → Die) : (modDie s d f).prAllocation = s.prAllocation := rfl
@[simp] theorem modDie_killList (s : State) (d : Nat) (f : Die → Die) : (modDie s d f).killList = s.killList := rfl
@[simp] theorem modDie_kills (s : State) (d : Nat) (f : Die → Die) : (modDie s d f).kills = s.kills := rfl
@[simp] theorem modDie_migrating (s : State) (d : Nat) (f : Die → Die) : (modDie s d f).migrating = s.migrating := rfl
@[simp] theorem modDie_precopies (s : State) (d : Nat) (f : Die → Die) : (modDie s d f).precopies = s.precopies := rfl
@[simp] theorem modDie_views (s : State) (d : Nat) (f : Die → Die) : (modDie s d f).views = s.views := rfl
@[simp] theorem modDie_ocm (s : State) (d : Nat) (f : Die → Die) : (modDie s d f).ocm = s.ocm := rfl
@[simp] theorem modDie_farRanges (s : State) (d : Nat) (f : Die → Die) : (modDie s d f).farRanges = s.farRanges := rfl
@[simp] theorem modDie_clkns (s : State) (d : Nat) (f : Die → Die) : (modDie s d f).clkns = s.clkns := rfl
@[simp] theorem modDie_cycle (s : State) (d : Nat) (f : Die → Die) : (modDie s d f).cycle = s.cycle := rfl
@[simp] theorem modDie_mhz (s : State) (d : Nat) (f : Die → Die) : (modDie s d f).mhz = s.mhz := rfl
@[simp] theorem modDie_synced (s : State) (d : Nat) (f : Die → Die) : (modDie s d f).synced = s.synced := rfl
@[simp] theorem modDie_slew (s : State) (d : Nat) (f : Die → Die) : (modDie s d f).slew = s.slew := rfl
@[simp] theorem modDie_powerCap (s : State) (d : Nat) (f : Die → Die) : (modDie s d f).powerCap = s.powerCap := rfl
@[simp] theorem modDie_powered (s : State) (d : Nat) (f : Die → Die) : (modDie s d f).powered = s.powered := rfl
@[simp] theorem modDie_fwLayout (s : State) (d : Nat) (f : Die → Die) : (modDie s d f).fwLayout = s.fwLayout := rfl
@[simp] theorem modDie_fwPending (s : State) (d : Nat) (f : Die → Die) : (modDie s d f).fwPending = s.fwPending := rfl
@[simp] theorem modDie_msix (s : State) (d : Nat) (f : Die → Die) : (modDie s d f).msix = s.msix := rfl
@[simp] theorem modDie_replies (s : State) (d : Nat) (f : Die → Die) : (modDie s d f).replies = s.replies := rfl
@[simp] theorem modDie_machineChecks (s : State) (d : Nat) (f : Die → Die) : (modDie s d f).machineChecks = s.machineChecks := rfl
@[simp] theorem modDie_lastFetch (s : State) (d : Nat) (f : Die → Die) : (modDie s d f).lastFetch = s.lastFetch := rfl
@[simp] theorem modDie_foragerErrors (s : State) (d : Nat) (f : Die → Die) : (modDie s d f).foragerErrors = s.foragerErrors := rfl
@[simp] theorem modDie_fabric (s : State) (d : Nat) (f : Die → Die) : (modDie s d f).fabric = s.fabric := rfl

/-! modFabric changes fabric alone. -/

@[simp] theorem modFabric_agenda (s : State) (f : Fabric → Fabric) : (modFabric s f).agenda = s.agenda := rfl
@[simp] theorem modFabric_run (s : State) (f : Fabric → Fabric) : (modFabric s f).run = s.run := rfl
@[simp] theorem modFabric_runs (s : State) (f : Fabric → Fabric) : (modFabric s f).runs = s.runs := rfl
@[simp] theorem modFabric_fresh (s : State) (f : Fabric → Fabric) : (modFabric s f).fresh = s.fresh := rfl
@[simp] theorem modFabric_nextId (s : State) (f : Fabric → Fabric) : (modFabric s f).nextId = s.nextId := rfl
@[simp] theorem modFabric_swarms (s : State) (f : Fabric → Fabric) : (modFabric s f).swarms = s.swarms := rfl
@[simp] theorem modFabric_wgs (s : State) (f : Fabric → Fabric) : (modFabric s f).wgs = s.wgs := rfl
@[simp] theorem modFabric_cores (s : State) (f : Fabric → Fabric) : (modFabric s f).cores = s.cores := rfl
@[simp] theorem modFabric_dies (s : State) (f : Fabric → Fabric) : (modFabric s f).dies = s.dies := rfl
@[simp] theorem modFabric_mem (s : State) (f : Fabric → Fabric) : (modFabric s f).mem = s.mem := rfl
@[simp] theorem modFabric_backing (s : State) (f : Fabric → Fabric) : (modFabric s f).backing = s.backing := rfl
@[simp] theorem modFabric_dirty (s : State) (f : Fabric → Fabric) : (modFabric s f).dirty = s.dirty := rfl
@[simp] theorem modFabric_lineTags (s : State) (f : Fabric → Fabric) : (modFabric s f).lineTags = s.lineTags := rfl
@[simp] theorem modFabric_keyed (s : State) (f : Fabric → Fabric) : (modFabric s f).keyed = s.keyed := rfl
@[simp] theorem modFabric_l2Tags (s : State) (f : Fabric → Fabric) : (modFabric s f).l2Tags = s.l2Tags := rfl
@[simp] theorem modFabric_host (s : State) (f : Fabric → Fabric) : (modFabric s f).host = s.host := rfl
@[simp] theorem modFabric_sectors (s : State) (f : Fabric → Fabric) : (modFabric s f).sectors = s.sectors := rfl
@[simp] theorem modFabric_announcements (s : State) (f : Fabric → Fabric) : (modFabric s f).announcements = s.announcements := rfl
@[simp] theorem modFabric_asyncs (s : State) (f : Fabric → Fabric) : (modFabric s f).asyncs = s.asyncs := rfl
@[simp] theorem modFabric_atomics (s : State) (f : Fabric → Fabric) : (modFabric s f).atomics = s.atomics := rfl
@[simp] theorem modFabric_cellWaits (s : State) (f : Fabric → Fabric) : (modFabric s f).cellWaits = s.cellWaits := rfl
@[simp] theorem modFabric_mmas (s : State) (f : Fabric → Fabric) : (modFabric s f).mmas = s.mmas := rfl
@[simp] theorem modFabric_versions (s : State) (f : Fabric → Fabric) : (modFabric s f).versions = s.versions := rfl
@[simp] theorem modFabric_launches (s : State) (f : Fabric → Fabric) : (modFabric s f).launches = s.launches := rfl
@[simp] theorem modFabric_nextSeq (s : State) (f : Fabric → Fabric) : (modFabric s f).nextSeq = s.nextSeq := rfl
@[simp] theorem modFabric_queues (s : State) (f : Fabric → Fabric) : (modFabric s f).queues = s.queues := rfl
@[simp] theorem modFabric_contexts (s : State) (f : Fabric → Fabric) : (modFabric s f).contexts = s.contexts := rfl
@[simp] theorem modFabric_pageRequests (s : State) (f : Fabric → Fabric) : (modFabric s f).pageRequests = s.pageRequests := rfl
@[simp] theorem modFabric_prAllocation (s : State) (f : Fabric → Fabric) : (modFabric s f).prAllocation = s.prAllocation := rfl
@[simp] theorem modFabric_killList (s : State) (f : Fabric → Fabric) : (modFabric s f).killList = s.killList := rfl
@[simp] theorem modFabric_kills (s : State) (f : Fabric → Fabric) : (modFabric s f).kills = s.kills := rfl
@[simp] theorem modFabric_migrating (s : State) (f : Fabric → Fabric) : (modFabric s f).migrating = s.migrating := rfl
@[simp] theorem modFabric_precopies (s : State) (f : Fabric → Fabric) : (modFabric s f).precopies = s.precopies := rfl
@[simp] theorem modFabric_views (s : State) (f : Fabric → Fabric) : (modFabric s f).views = s.views := rfl
@[simp] theorem modFabric_ocm (s : State) (f : Fabric → Fabric) : (modFabric s f).ocm = s.ocm := rfl
@[simp] theorem modFabric_farRanges (s : State) (f : Fabric → Fabric) : (modFabric s f).farRanges = s.farRanges := rfl
@[simp] theorem modFabric_clkns (s : State) (f : Fabric → Fabric) : (modFabric s f).clkns = s.clkns := rfl
@[simp] theorem modFabric_cycle (s : State) (f : Fabric → Fabric) : (modFabric s f).cycle = s.cycle := rfl
@[simp] theorem modFabric_mhz (s : State) (f : Fabric → Fabric) : (modFabric s f).mhz = s.mhz := rfl
@[simp] theorem modFabric_synced (s : State) (f : Fabric → Fabric) : (modFabric s f).synced = s.synced := rfl
@[simp] theorem modFabric_slew (s : State) (f : Fabric → Fabric) : (modFabric s f).slew = s.slew := rfl
@[simp] theorem modFabric_powerCap (s : State) (f : Fabric → Fabric) : (modFabric s f).powerCap = s.powerCap := rfl
@[simp] theorem modFabric_powered (s : State) (f : Fabric → Fabric) : (modFabric s f).powered = s.powered := rfl
@[simp] theorem modFabric_fwLayout (s : State) (f : Fabric → Fabric) : (modFabric s f).fwLayout = s.fwLayout := rfl
@[simp] theorem modFabric_fwPending (s : State) (f : Fabric → Fabric) : (modFabric s f).fwPending = s.fwPending := rfl
@[simp] theorem modFabric_msix (s : State) (f : Fabric → Fabric) : (modFabric s f).msix = s.msix := rfl
@[simp] theorem modFabric_replies (s : State) (f : Fabric → Fabric) : (modFabric s f).replies = s.replies := rfl
@[simp] theorem modFabric_machineChecks (s : State) (f : Fabric → Fabric) : (modFabric s f).machineChecks = s.machineChecks := rfl
@[simp] theorem modFabric_lastFetch (s : State) (f : Fabric → Fabric) : (modFabric s f).lastFetch = s.lastFetch := rfl
@[simp] theorem modFabric_foragerErrors (s : State) (f : Fabric → Fabric) : (modFabric s f).foragerErrors = s.foragerErrors := rfl

/-! modMeta changes sectors alone. -/

@[simp] theorem modMeta_agenda (s : State) (pa : Nat) (f : SectorMeta → SectorMeta) : (modMeta s pa f).agenda = s.agenda := by unfold modMeta; dsimp only; split <;> rfl
@[simp] theorem modMeta_run (s : State) (pa : Nat) (f : SectorMeta → SectorMeta) : (modMeta s pa f).run = s.run := by unfold modMeta; dsimp only; split <;> rfl
@[simp] theorem modMeta_runs (s : State) (pa : Nat) (f : SectorMeta → SectorMeta) : (modMeta s pa f).runs = s.runs := by unfold modMeta; dsimp only; split <;> rfl
@[simp] theorem modMeta_fresh (s : State) (pa : Nat) (f : SectorMeta → SectorMeta) : (modMeta s pa f).fresh = s.fresh := by unfold modMeta; dsimp only; split <;> rfl
@[simp] theorem modMeta_nextId (s : State) (pa : Nat) (f : SectorMeta → SectorMeta) : (modMeta s pa f).nextId = s.nextId := by unfold modMeta; dsimp only; split <;> rfl
@[simp] theorem modMeta_swarms (s : State) (pa : Nat) (f : SectorMeta → SectorMeta) : (modMeta s pa f).swarms = s.swarms := by unfold modMeta; dsimp only; split <;> rfl
@[simp] theorem modMeta_wgs (s : State) (pa : Nat) (f : SectorMeta → SectorMeta) : (modMeta s pa f).wgs = s.wgs := by unfold modMeta; dsimp only; split <;> rfl
@[simp] theorem modMeta_cores (s : State) (pa : Nat) (f : SectorMeta → SectorMeta) : (modMeta s pa f).cores = s.cores := by unfold modMeta; dsimp only; split <;> rfl
@[simp] theorem modMeta_dies (s : State) (pa : Nat) (f : SectorMeta → SectorMeta) : (modMeta s pa f).dies = s.dies := by unfold modMeta; dsimp only; split <;> rfl
@[simp] theorem modMeta_mem (s : State) (pa : Nat) (f : SectorMeta → SectorMeta) : (modMeta s pa f).mem = s.mem := by unfold modMeta; dsimp only; split <;> rfl
@[simp] theorem modMeta_backing (s : State) (pa : Nat) (f : SectorMeta → SectorMeta) : (modMeta s pa f).backing = s.backing := by unfold modMeta; dsimp only; split <;> rfl
@[simp] theorem modMeta_dirty (s : State) (pa : Nat) (f : SectorMeta → SectorMeta) : (modMeta s pa f).dirty = s.dirty := by unfold modMeta; dsimp only; split <;> rfl
@[simp] theorem modMeta_lineTags (s : State) (pa : Nat) (f : SectorMeta → SectorMeta) : (modMeta s pa f).lineTags = s.lineTags := by unfold modMeta; dsimp only; split <;> rfl
@[simp] theorem modMeta_keyed (s : State) (pa : Nat) (f : SectorMeta → SectorMeta) : (modMeta s pa f).keyed = s.keyed := by unfold modMeta; dsimp only; split <;> rfl
@[simp] theorem modMeta_l2Tags (s : State) (pa : Nat) (f : SectorMeta → SectorMeta) : (modMeta s pa f).l2Tags = s.l2Tags := by unfold modMeta; dsimp only; split <;> rfl
@[simp] theorem modMeta_host (s : State) (pa : Nat) (f : SectorMeta → SectorMeta) : (modMeta s pa f).host = s.host := by unfold modMeta; dsimp only; split <;> rfl
@[simp] theorem modMeta_announcements (s : State) (pa : Nat) (f : SectorMeta → SectorMeta) : (modMeta s pa f).announcements = s.announcements := by unfold modMeta; dsimp only; split <;> rfl
@[simp] theorem modMeta_asyncs (s : State) (pa : Nat) (f : SectorMeta → SectorMeta) : (modMeta s pa f).asyncs = s.asyncs := by unfold modMeta; dsimp only; split <;> rfl
@[simp] theorem modMeta_atomics (s : State) (pa : Nat) (f : SectorMeta → SectorMeta) : (modMeta s pa f).atomics = s.atomics := by unfold modMeta; dsimp only; split <;> rfl
@[simp] theorem modMeta_cellWaits (s : State) (pa : Nat) (f : SectorMeta → SectorMeta) : (modMeta s pa f).cellWaits = s.cellWaits := by unfold modMeta; dsimp only; split <;> rfl
@[simp] theorem modMeta_mmas (s : State) (pa : Nat) (f : SectorMeta → SectorMeta) : (modMeta s pa f).mmas = s.mmas := by unfold modMeta; dsimp only; split <;> rfl
@[simp] theorem modMeta_versions (s : State) (pa : Nat) (f : SectorMeta → SectorMeta) : (modMeta s pa f).versions = s.versions := by unfold modMeta; dsimp only; split <;> rfl
@[simp] theorem modMeta_launches (s : State) (pa : Nat) (f : SectorMeta → SectorMeta) : (modMeta s pa f).launches = s.launches := by unfold modMeta; dsimp only; split <;> rfl
@[simp] theorem modMeta_nextSeq (s : State) (pa : Nat) (f : SectorMeta → SectorMeta) : (modMeta s pa f).nextSeq = s.nextSeq := by unfold modMeta; dsimp only; split <;> rfl
@[simp] theorem modMeta_queues (s : State) (pa : Nat) (f : SectorMeta → SectorMeta) : (modMeta s pa f).queues = s.queues := by unfold modMeta; dsimp only; split <;> rfl
@[simp] theorem modMeta_contexts (s : State) (pa : Nat) (f : SectorMeta → SectorMeta) : (modMeta s pa f).contexts = s.contexts := by unfold modMeta; dsimp only; split <;> rfl
@[simp] theorem modMeta_pageRequests (s : State) (pa : Nat) (f : SectorMeta → SectorMeta) : (modMeta s pa f).pageRequests = s.pageRequests := by unfold modMeta; dsimp only; split <;> rfl
@[simp] theorem modMeta_prAllocation (s : State) (pa : Nat) (f : SectorMeta → SectorMeta) : (modMeta s pa f).prAllocation = s.prAllocation := by unfold modMeta; dsimp only; split <;> rfl
@[simp] theorem modMeta_killList (s : State) (pa : Nat) (f : SectorMeta → SectorMeta) : (modMeta s pa f).killList = s.killList := by unfold modMeta; dsimp only; split <;> rfl
@[simp] theorem modMeta_kills (s : State) (pa : Nat) (f : SectorMeta → SectorMeta) : (modMeta s pa f).kills = s.kills := by unfold modMeta; dsimp only; split <;> rfl
@[simp] theorem modMeta_migrating (s : State) (pa : Nat) (f : SectorMeta → SectorMeta) : (modMeta s pa f).migrating = s.migrating := by unfold modMeta; dsimp only; split <;> rfl
@[simp] theorem modMeta_precopies (s : State) (pa : Nat) (f : SectorMeta → SectorMeta) : (modMeta s pa f).precopies = s.precopies := by unfold modMeta; dsimp only; split <;> rfl
@[simp] theorem modMeta_views (s : State) (pa : Nat) (f : SectorMeta → SectorMeta) : (modMeta s pa f).views = s.views := by unfold modMeta; dsimp only; split <;> rfl
@[simp] theorem modMeta_ocm (s : State) (pa : Nat) (f : SectorMeta → SectorMeta) : (modMeta s pa f).ocm = s.ocm := by unfold modMeta; dsimp only; split <;> rfl
@[simp] theorem modMeta_farRanges (s : State) (pa : Nat) (f : SectorMeta → SectorMeta) : (modMeta s pa f).farRanges = s.farRanges := by unfold modMeta; dsimp only; split <;> rfl
@[simp] theorem modMeta_clkns (s : State) (pa : Nat) (f : SectorMeta → SectorMeta) : (modMeta s pa f).clkns = s.clkns := by unfold modMeta; dsimp only; split <;> rfl
@[simp] theorem modMeta_cycle (s : State) (pa : Nat) (f : SectorMeta → SectorMeta) : (modMeta s pa f).cycle = s.cycle := by unfold modMeta; dsimp only; split <;> rfl
@[simp] theorem modMeta_mhz (s : State) (pa : Nat) (f : SectorMeta → SectorMeta) : (modMeta s pa f).mhz = s.mhz := by unfold modMeta; dsimp only; split <;> rfl
@[simp] theorem modMeta_synced (s : State) (pa : Nat) (f : SectorMeta → SectorMeta) : (modMeta s pa f).synced = s.synced := by unfold modMeta; dsimp only; split <;> rfl
@[simp] theorem modMeta_slew (s : State) (pa : Nat) (f : SectorMeta → SectorMeta) : (modMeta s pa f).slew = s.slew := by unfold modMeta; dsimp only; split <;> rfl
@[simp] theorem modMeta_powerCap (s : State) (pa : Nat) (f : SectorMeta → SectorMeta) : (modMeta s pa f).powerCap = s.powerCap := by unfold modMeta; dsimp only; split <;> rfl
@[simp] theorem modMeta_powered (s : State) (pa : Nat) (f : SectorMeta → SectorMeta) : (modMeta s pa f).powered = s.powered := by unfold modMeta; dsimp only; split <;> rfl
@[simp] theorem modMeta_fwLayout (s : State) (pa : Nat) (f : SectorMeta → SectorMeta) : (modMeta s pa f).fwLayout = s.fwLayout := by unfold modMeta; dsimp only; split <;> rfl
@[simp] theorem modMeta_fwPending (s : State) (pa : Nat) (f : SectorMeta → SectorMeta) : (modMeta s pa f).fwPending = s.fwPending := by unfold modMeta; dsimp only; split <;> rfl
@[simp] theorem modMeta_msix (s : State) (pa : Nat) (f : SectorMeta → SectorMeta) : (modMeta s pa f).msix = s.msix := by unfold modMeta; dsimp only; split <;> rfl
@[simp] theorem modMeta_replies (s : State) (pa : Nat) (f : SectorMeta → SectorMeta) : (modMeta s pa f).replies = s.replies := by unfold modMeta; dsimp only; split <;> rfl
@[simp] theorem modMeta_machineChecks (s : State) (pa : Nat) (f : SectorMeta → SectorMeta) : (modMeta s pa f).machineChecks = s.machineChecks := by unfold modMeta; dsimp only; split <;> rfl
@[simp] theorem modMeta_lastFetch (s : State) (pa : Nat) (f : SectorMeta → SectorMeta) : (modMeta s pa f).lastFetch = s.lastFetch := by unfold modMeta; dsimp only; split <;> rfl
@[simp] theorem modMeta_foragerErrors (s : State) (pa : Nat) (f : SectorMeta → SectorMeta) : (modMeta s pa f).foragerErrors = s.foragerErrors := by unfold modMeta; dsimp only; split <;> rfl
@[simp] theorem modMeta_fabric (s : State) (pa : Nat) (f : SectorMeta → SectorMeta) : (modMeta s pa f).fabric = s.fabric := by unfold modMeta; dsimp only; split <;> rfl

/-! setSched changes swarms alone. -/

@[simp] theorem setSched_agenda (s : State) (r : SwarmRef) (x : Sched) : (setSched s r x).agenda = s.agenda := rfl
@[simp] theorem setSched_run (s : State) (r : SwarmRef) (x : Sched) : (setSched s r x).run = s.run := rfl
@[simp] theorem setSched_runs (s : State) (r : SwarmRef) (x : Sched) : (setSched s r x).runs = s.runs := rfl
@[simp] theorem setSched_fresh (s : State) (r : SwarmRef) (x : Sched) : (setSched s r x).fresh = s.fresh := rfl
@[simp] theorem setSched_nextId (s : State) (r : SwarmRef) (x : Sched) : (setSched s r x).nextId = s.nextId := rfl
@[simp] theorem setSched_wgs (s : State) (r : SwarmRef) (x : Sched) : (setSched s r x).wgs = s.wgs := rfl
@[simp] theorem setSched_cores (s : State) (r : SwarmRef) (x : Sched) : (setSched s r x).cores = s.cores := rfl
@[simp] theorem setSched_dies (s : State) (r : SwarmRef) (x : Sched) : (setSched s r x).dies = s.dies := rfl
@[simp] theorem setSched_mem (s : State) (r : SwarmRef) (x : Sched) : (setSched s r x).mem = s.mem := rfl
@[simp] theorem setSched_backing (s : State) (r : SwarmRef) (x : Sched) : (setSched s r x).backing = s.backing := rfl
@[simp] theorem setSched_dirty (s : State) (r : SwarmRef) (x : Sched) : (setSched s r x).dirty = s.dirty := rfl
@[simp] theorem setSched_lineTags (s : State) (r : SwarmRef) (x : Sched) : (setSched s r x).lineTags = s.lineTags := rfl
@[simp] theorem setSched_keyed (s : State) (r : SwarmRef) (x : Sched) : (setSched s r x).keyed = s.keyed := rfl
@[simp] theorem setSched_l2Tags (s : State) (r : SwarmRef) (x : Sched) : (setSched s r x).l2Tags = s.l2Tags := rfl
@[simp] theorem setSched_host (s : State) (r : SwarmRef) (x : Sched) : (setSched s r x).host = s.host := rfl
@[simp] theorem setSched_sectors (s : State) (r : SwarmRef) (x : Sched) : (setSched s r x).sectors = s.sectors := rfl
@[simp] theorem setSched_announcements (s : State) (r : SwarmRef) (x : Sched) : (setSched s r x).announcements = s.announcements := rfl
@[simp] theorem setSched_asyncs (s : State) (r : SwarmRef) (x : Sched) : (setSched s r x).asyncs = s.asyncs := rfl
@[simp] theorem setSched_atomics (s : State) (r : SwarmRef) (x : Sched) : (setSched s r x).atomics = s.atomics := rfl
@[simp] theorem setSched_cellWaits (s : State) (r : SwarmRef) (x : Sched) : (setSched s r x).cellWaits = s.cellWaits := rfl
@[simp] theorem setSched_mmas (s : State) (r : SwarmRef) (x : Sched) : (setSched s r x).mmas = s.mmas := rfl
@[simp] theorem setSched_versions (s : State) (r : SwarmRef) (x : Sched) : (setSched s r x).versions = s.versions := rfl
@[simp] theorem setSched_launches (s : State) (r : SwarmRef) (x : Sched) : (setSched s r x).launches = s.launches := rfl
@[simp] theorem setSched_nextSeq (s : State) (r : SwarmRef) (x : Sched) : (setSched s r x).nextSeq = s.nextSeq := rfl
@[simp] theorem setSched_queues (s : State) (r : SwarmRef) (x : Sched) : (setSched s r x).queues = s.queues := rfl
@[simp] theorem setSched_contexts (s : State) (r : SwarmRef) (x : Sched) : (setSched s r x).contexts = s.contexts := rfl
@[simp] theorem setSched_pageRequests (s : State) (r : SwarmRef) (x : Sched) : (setSched s r x).pageRequests = s.pageRequests := rfl
@[simp] theorem setSched_prAllocation (s : State) (r : SwarmRef) (x : Sched) : (setSched s r x).prAllocation = s.prAllocation := rfl
@[simp] theorem setSched_killList (s : State) (r : SwarmRef) (x : Sched) : (setSched s r x).killList = s.killList := rfl
@[simp] theorem setSched_kills (s : State) (r : SwarmRef) (x : Sched) : (setSched s r x).kills = s.kills := rfl
@[simp] theorem setSched_migrating (s : State) (r : SwarmRef) (x : Sched) : (setSched s r x).migrating = s.migrating := rfl
@[simp] theorem setSched_precopies (s : State) (r : SwarmRef) (x : Sched) : (setSched s r x).precopies = s.precopies := rfl
@[simp] theorem setSched_views (s : State) (r : SwarmRef) (x : Sched) : (setSched s r x).views = s.views := rfl
@[simp] theorem setSched_ocm (s : State) (r : SwarmRef) (x : Sched) : (setSched s r x).ocm = s.ocm := rfl
@[simp] theorem setSched_farRanges (s : State) (r : SwarmRef) (x : Sched) : (setSched s r x).farRanges = s.farRanges := rfl
@[simp] theorem setSched_clkns (s : State) (r : SwarmRef) (x : Sched) : (setSched s r x).clkns = s.clkns := rfl
@[simp] theorem setSched_cycle (s : State) (r : SwarmRef) (x : Sched) : (setSched s r x).cycle = s.cycle := rfl
@[simp] theorem setSched_mhz (s : State) (r : SwarmRef) (x : Sched) : (setSched s r x).mhz = s.mhz := rfl
@[simp] theorem setSched_synced (s : State) (r : SwarmRef) (x : Sched) : (setSched s r x).synced = s.synced := rfl
@[simp] theorem setSched_slew (s : State) (r : SwarmRef) (x : Sched) : (setSched s r x).slew = s.slew := rfl
@[simp] theorem setSched_powerCap (s : State) (r : SwarmRef) (x : Sched) : (setSched s r x).powerCap = s.powerCap := rfl
@[simp] theorem setSched_powered (s : State) (r : SwarmRef) (x : Sched) : (setSched s r x).powered = s.powered := rfl
@[simp] theorem setSched_fwLayout (s : State) (r : SwarmRef) (x : Sched) : (setSched s r x).fwLayout = s.fwLayout := rfl
@[simp] theorem setSched_fwPending (s : State) (r : SwarmRef) (x : Sched) : (setSched s r x).fwPending = s.fwPending := rfl
@[simp] theorem setSched_msix (s : State) (r : SwarmRef) (x : Sched) : (setSched s r x).msix = s.msix := rfl
@[simp] theorem setSched_replies (s : State) (r : SwarmRef) (x : Sched) : (setSched s r x).replies = s.replies := rfl
@[simp] theorem setSched_machineChecks (s : State) (r : SwarmRef) (x : Sched) : (setSched s r x).machineChecks = s.machineChecks := rfl
@[simp] theorem setSched_lastFetch (s : State) (r : SwarmRef) (x : Sched) : (setSched s r x).lastFetch = s.lastFetch := rfl
@[simp] theorem setSched_foragerErrors (s : State) (r : SwarmRef) (x : Sched) : (setSched s r x).foragerErrors = s.foragerErrors := rfl
@[simp] theorem setSched_fabric (s : State) (r : SwarmRef) (x : Sched) : (setSched s r x).fabric = s.fabric := rfl

/-! modRun changes runs alone. -/

@[simp] theorem modRun_agenda (s : State) (r : SwarmRef) (f : Run → Run) : (modRun s r f).agenda = s.agenda := rfl
@[simp] theorem modRun_run (s : State) (r : SwarmRef) (f : Run → Run) : (modRun s r f).run = s.run := rfl
@[simp] theorem modRun_fresh (s : State) (r : SwarmRef) (f : Run → Run) : (modRun s r f).fresh = s.fresh := rfl
@[simp] theorem modRun_nextId (s : State) (r : SwarmRef) (f : Run → Run) : (modRun s r f).nextId = s.nextId := rfl
@[simp] theorem modRun_swarms (s : State) (r : SwarmRef) (f : Run → Run) : (modRun s r f).swarms = s.swarms := rfl
@[simp] theorem modRun_wgs (s : State) (r : SwarmRef) (f : Run → Run) : (modRun s r f).wgs = s.wgs := rfl
@[simp] theorem modRun_cores (s : State) (r : SwarmRef) (f : Run → Run) : (modRun s r f).cores = s.cores := rfl
@[simp] theorem modRun_dies (s : State) (r : SwarmRef) (f : Run → Run) : (modRun s r f).dies = s.dies := rfl
@[simp] theorem modRun_mem (s : State) (r : SwarmRef) (f : Run → Run) : (modRun s r f).mem = s.mem := rfl
@[simp] theorem modRun_backing (s : State) (r : SwarmRef) (f : Run → Run) : (modRun s r f).backing = s.backing := rfl
@[simp] theorem modRun_dirty (s : State) (r : SwarmRef) (f : Run → Run) : (modRun s r f).dirty = s.dirty := rfl
@[simp] theorem modRun_lineTags (s : State) (r : SwarmRef) (f : Run → Run) : (modRun s r f).lineTags = s.lineTags := rfl
@[simp] theorem modRun_keyed (s : State) (r : SwarmRef) (f : Run → Run) : (modRun s r f).keyed = s.keyed := rfl
@[simp] theorem modRun_l2Tags (s : State) (r : SwarmRef) (f : Run → Run) : (modRun s r f).l2Tags = s.l2Tags := rfl
@[simp] theorem modRun_host (s : State) (r : SwarmRef) (f : Run → Run) : (modRun s r f).host = s.host := rfl
@[simp] theorem modRun_sectors (s : State) (r : SwarmRef) (f : Run → Run) : (modRun s r f).sectors = s.sectors := rfl
@[simp] theorem modRun_announcements (s : State) (r : SwarmRef) (f : Run → Run) : (modRun s r f).announcements = s.announcements := rfl
@[simp] theorem modRun_asyncs (s : State) (r : SwarmRef) (f : Run → Run) : (modRun s r f).asyncs = s.asyncs := rfl
@[simp] theorem modRun_atomics (s : State) (r : SwarmRef) (f : Run → Run) : (modRun s r f).atomics = s.atomics := rfl
@[simp] theorem modRun_cellWaits (s : State) (r : SwarmRef) (f : Run → Run) : (modRun s r f).cellWaits = s.cellWaits := rfl
@[simp] theorem modRun_mmas (s : State) (r : SwarmRef) (f : Run → Run) : (modRun s r f).mmas = s.mmas := rfl
@[simp] theorem modRun_versions (s : State) (r : SwarmRef) (f : Run → Run) : (modRun s r f).versions = s.versions := rfl
@[simp] theorem modRun_launches (s : State) (r : SwarmRef) (f : Run → Run) : (modRun s r f).launches = s.launches := rfl
@[simp] theorem modRun_nextSeq (s : State) (r : SwarmRef) (f : Run → Run) : (modRun s r f).nextSeq = s.nextSeq := rfl
@[simp] theorem modRun_queues (s : State) (r : SwarmRef) (f : Run → Run) : (modRun s r f).queues = s.queues := rfl
@[simp] theorem modRun_contexts (s : State) (r : SwarmRef) (f : Run → Run) : (modRun s r f).contexts = s.contexts := rfl
@[simp] theorem modRun_pageRequests (s : State) (r : SwarmRef) (f : Run → Run) : (modRun s r f).pageRequests = s.pageRequests := rfl
@[simp] theorem modRun_prAllocation (s : State) (r : SwarmRef) (f : Run → Run) : (modRun s r f).prAllocation = s.prAllocation := rfl
@[simp] theorem modRun_killList (s : State) (r : SwarmRef) (f : Run → Run) : (modRun s r f).killList = s.killList := rfl
@[simp] theorem modRun_kills (s : State) (r : SwarmRef) (f : Run → Run) : (modRun s r f).kills = s.kills := rfl
@[simp] theorem modRun_migrating (s : State) (r : SwarmRef) (f : Run → Run) : (modRun s r f).migrating = s.migrating := rfl
@[simp] theorem modRun_precopies (s : State) (r : SwarmRef) (f : Run → Run) : (modRun s r f).precopies = s.precopies := rfl
@[simp] theorem modRun_views (s : State) (r : SwarmRef) (f : Run → Run) : (modRun s r f).views = s.views := rfl
@[simp] theorem modRun_ocm (s : State) (r : SwarmRef) (f : Run → Run) : (modRun s r f).ocm = s.ocm := rfl
@[simp] theorem modRun_farRanges (s : State) (r : SwarmRef) (f : Run → Run) : (modRun s r f).farRanges = s.farRanges := rfl
@[simp] theorem modRun_clkns (s : State) (r : SwarmRef) (f : Run → Run) : (modRun s r f).clkns = s.clkns := rfl
@[simp] theorem modRun_cycle (s : State) (r : SwarmRef) (f : Run → Run) : (modRun s r f).cycle = s.cycle := rfl
@[simp] theorem modRun_mhz (s : State) (r : SwarmRef) (f : Run → Run) : (modRun s r f).mhz = s.mhz := rfl
@[simp] theorem modRun_synced (s : State) (r : SwarmRef) (f : Run → Run) : (modRun s r f).synced = s.synced := rfl
@[simp] theorem modRun_slew (s : State) (r : SwarmRef) (f : Run → Run) : (modRun s r f).slew = s.slew := rfl
@[simp] theorem modRun_powerCap (s : State) (r : SwarmRef) (f : Run → Run) : (modRun s r f).powerCap = s.powerCap := rfl
@[simp] theorem modRun_powered (s : State) (r : SwarmRef) (f : Run → Run) : (modRun s r f).powered = s.powered := rfl
@[simp] theorem modRun_fwLayout (s : State) (r : SwarmRef) (f : Run → Run) : (modRun s r f).fwLayout = s.fwLayout := rfl
@[simp] theorem modRun_fwPending (s : State) (r : SwarmRef) (f : Run → Run) : (modRun s r f).fwPending = s.fwPending := rfl
@[simp] theorem modRun_msix (s : State) (r : SwarmRef) (f : Run → Run) : (modRun s r f).msix = s.msix := rfl
@[simp] theorem modRun_replies (s : State) (r : SwarmRef) (f : Run → Run) : (modRun s r f).replies = s.replies := rfl
@[simp] theorem modRun_machineChecks (s : State) (r : SwarmRef) (f : Run → Run) : (modRun s r f).machineChecks = s.machineChecks := rfl
@[simp] theorem modRun_lastFetch (s : State) (r : SwarmRef) (f : Run → Run) : (modRun s r f).lastFetch = s.lastFetch := rfl
@[simp] theorem modRun_foragerErrors (s : State) (r : SwarmRef) (f : Run → Run) : (modRun s r f).foragerErrors = s.foragerErrors := rfl
@[simp] theorem modRun_fabric (s : State) (r : SwarmRef) (f : Run → Run) : (modRun s r f).fabric = s.fabric := rfl

/-! hostWrite changes host alone. -/

@[simp] theorem hostWrite_agenda (s : State) (a : Nat) (b : List Byte) : (hostWrite s a b).agenda = s.agenda := rfl
@[simp] theorem hostWrite_run (s : State) (a : Nat) (b : List Byte) : (hostWrite s a b).run = s.run := rfl
@[simp] theorem hostWrite_runs (s : State) (a : Nat) (b : List Byte) : (hostWrite s a b).runs = s.runs := rfl
@[simp] theorem hostWrite_fresh (s : State) (a : Nat) (b : List Byte) : (hostWrite s a b).fresh = s.fresh := rfl
@[simp] theorem hostWrite_nextId (s : State) (a : Nat) (b : List Byte) : (hostWrite s a b).nextId = s.nextId := rfl
@[simp] theorem hostWrite_swarms (s : State) (a : Nat) (b : List Byte) : (hostWrite s a b).swarms = s.swarms := rfl
@[simp] theorem hostWrite_wgs (s : State) (a : Nat) (b : List Byte) : (hostWrite s a b).wgs = s.wgs := rfl
@[simp] theorem hostWrite_cores (s : State) (a : Nat) (b : List Byte) : (hostWrite s a b).cores = s.cores := rfl
@[simp] theorem hostWrite_dies (s : State) (a : Nat) (b : List Byte) : (hostWrite s a b).dies = s.dies := rfl
@[simp] theorem hostWrite_mem (s : State) (a : Nat) (b : List Byte) : (hostWrite s a b).mem = s.mem := rfl
@[simp] theorem hostWrite_backing (s : State) (a : Nat) (b : List Byte) : (hostWrite s a b).backing = s.backing := rfl
@[simp] theorem hostWrite_dirty (s : State) (a : Nat) (b : List Byte) : (hostWrite s a b).dirty = s.dirty := rfl
@[simp] theorem hostWrite_lineTags (s : State) (a : Nat) (b : List Byte) : (hostWrite s a b).lineTags = s.lineTags := rfl
@[simp] theorem hostWrite_keyed (s : State) (a : Nat) (b : List Byte) : (hostWrite s a b).keyed = s.keyed := rfl
@[simp] theorem hostWrite_l2Tags (s : State) (a : Nat) (b : List Byte) : (hostWrite s a b).l2Tags = s.l2Tags := rfl
@[simp] theorem hostWrite_sectors (s : State) (a : Nat) (b : List Byte) : (hostWrite s a b).sectors = s.sectors := rfl
@[simp] theorem hostWrite_announcements (s : State) (a : Nat) (b : List Byte) : (hostWrite s a b).announcements = s.announcements := rfl
@[simp] theorem hostWrite_asyncs (s : State) (a : Nat) (b : List Byte) : (hostWrite s a b).asyncs = s.asyncs := rfl
@[simp] theorem hostWrite_atomics (s : State) (a : Nat) (b : List Byte) : (hostWrite s a b).atomics = s.atomics := rfl
@[simp] theorem hostWrite_cellWaits (s : State) (a : Nat) (b : List Byte) : (hostWrite s a b).cellWaits = s.cellWaits := rfl
@[simp] theorem hostWrite_mmas (s : State) (a : Nat) (b : List Byte) : (hostWrite s a b).mmas = s.mmas := rfl
@[simp] theorem hostWrite_versions (s : State) (a : Nat) (b : List Byte) : (hostWrite s a b).versions = s.versions := rfl
@[simp] theorem hostWrite_launches (s : State) (a : Nat) (b : List Byte) : (hostWrite s a b).launches = s.launches := rfl
@[simp] theorem hostWrite_nextSeq (s : State) (a : Nat) (b : List Byte) : (hostWrite s a b).nextSeq = s.nextSeq := rfl
@[simp] theorem hostWrite_queues (s : State) (a : Nat) (b : List Byte) : (hostWrite s a b).queues = s.queues := rfl
@[simp] theorem hostWrite_contexts (s : State) (a : Nat) (b : List Byte) : (hostWrite s a b).contexts = s.contexts := rfl
@[simp] theorem hostWrite_pageRequests (s : State) (a : Nat) (b : List Byte) : (hostWrite s a b).pageRequests = s.pageRequests := rfl
@[simp] theorem hostWrite_prAllocation (s : State) (a : Nat) (b : List Byte) : (hostWrite s a b).prAllocation = s.prAllocation := rfl
@[simp] theorem hostWrite_killList (s : State) (a : Nat) (b : List Byte) : (hostWrite s a b).killList = s.killList := rfl
@[simp] theorem hostWrite_kills (s : State) (a : Nat) (b : List Byte) : (hostWrite s a b).kills = s.kills := rfl
@[simp] theorem hostWrite_migrating (s : State) (a : Nat) (b : List Byte) : (hostWrite s a b).migrating = s.migrating := rfl
@[simp] theorem hostWrite_precopies (s : State) (a : Nat) (b : List Byte) : (hostWrite s a b).precopies = s.precopies := rfl
@[simp] theorem hostWrite_views (s : State) (a : Nat) (b : List Byte) : (hostWrite s a b).views = s.views := rfl
@[simp] theorem hostWrite_ocm (s : State) (a : Nat) (b : List Byte) : (hostWrite s a b).ocm = s.ocm := rfl
@[simp] theorem hostWrite_farRanges (s : State) (a : Nat) (b : List Byte) : (hostWrite s a b).farRanges = s.farRanges := rfl
@[simp] theorem hostWrite_clkns (s : State) (a : Nat) (b : List Byte) : (hostWrite s a b).clkns = s.clkns := rfl
@[simp] theorem hostWrite_cycle (s : State) (a : Nat) (b : List Byte) : (hostWrite s a b).cycle = s.cycle := rfl
@[simp] theorem hostWrite_mhz (s : State) (a : Nat) (b : List Byte) : (hostWrite s a b).mhz = s.mhz := rfl
@[simp] theorem hostWrite_synced (s : State) (a : Nat) (b : List Byte) : (hostWrite s a b).synced = s.synced := rfl
@[simp] theorem hostWrite_slew (s : State) (a : Nat) (b : List Byte) : (hostWrite s a b).slew = s.slew := rfl
@[simp] theorem hostWrite_powerCap (s : State) (a : Nat) (b : List Byte) : (hostWrite s a b).powerCap = s.powerCap := rfl
@[simp] theorem hostWrite_powered (s : State) (a : Nat) (b : List Byte) : (hostWrite s a b).powered = s.powered := rfl
@[simp] theorem hostWrite_fwLayout (s : State) (a : Nat) (b : List Byte) : (hostWrite s a b).fwLayout = s.fwLayout := rfl
@[simp] theorem hostWrite_fwPending (s : State) (a : Nat) (b : List Byte) : (hostWrite s a b).fwPending = s.fwPending := rfl
@[simp] theorem hostWrite_msix (s : State) (a : Nat) (b : List Byte) : (hostWrite s a b).msix = s.msix := rfl
@[simp] theorem hostWrite_replies (s : State) (a : Nat) (b : List Byte) : (hostWrite s a b).replies = s.replies := rfl
@[simp] theorem hostWrite_machineChecks (s : State) (a : Nat) (b : List Byte) : (hostWrite s a b).machineChecks = s.machineChecks := rfl
@[simp] theorem hostWrite_lastFetch (s : State) (a : Nat) (b : List Byte) : (hostWrite s a b).lastFetch = s.lastFetch := rfl
@[simp] theorem hostWrite_foragerErrors (s : State) (a : Nat) (b : List Byte) : (hostWrite s a b).foragerErrors = s.foragerErrors := rfl
@[simp] theorem hostWrite_fabric (s : State) (a : Nat) (b : List Byte) : (hostWrite s a b).fabric = s.fabric := rfl

/-! reply changes replies alone. -/

@[simp] theorem reply_agenda (s : State) (n : Nat) : (reply s n).agenda = s.agenda := rfl
@[simp] theorem reply_run (s : State) (n : Nat) : (reply s n).run = s.run := rfl
@[simp] theorem reply_runs (s : State) (n : Nat) : (reply s n).runs = s.runs := rfl
@[simp] theorem reply_fresh (s : State) (n : Nat) : (reply s n).fresh = s.fresh := rfl
@[simp] theorem reply_nextId (s : State) (n : Nat) : (reply s n).nextId = s.nextId := rfl
@[simp] theorem reply_swarms (s : State) (n : Nat) : (reply s n).swarms = s.swarms := rfl
@[simp] theorem reply_wgs (s : State) (n : Nat) : (reply s n).wgs = s.wgs := rfl
@[simp] theorem reply_cores (s : State) (n : Nat) : (reply s n).cores = s.cores := rfl
@[simp] theorem reply_dies (s : State) (n : Nat) : (reply s n).dies = s.dies := rfl
@[simp] theorem reply_mem (s : State) (n : Nat) : (reply s n).mem = s.mem := rfl
@[simp] theorem reply_backing (s : State) (n : Nat) : (reply s n).backing = s.backing := rfl
@[simp] theorem reply_dirty (s : State) (n : Nat) : (reply s n).dirty = s.dirty := rfl
@[simp] theorem reply_lineTags (s : State) (n : Nat) : (reply s n).lineTags = s.lineTags := rfl
@[simp] theorem reply_keyed (s : State) (n : Nat) : (reply s n).keyed = s.keyed := rfl
@[simp] theorem reply_l2Tags (s : State) (n : Nat) : (reply s n).l2Tags = s.l2Tags := rfl
@[simp] theorem reply_host (s : State) (n : Nat) : (reply s n).host = s.host := rfl
@[simp] theorem reply_sectors (s : State) (n : Nat) : (reply s n).sectors = s.sectors := rfl
@[simp] theorem reply_announcements (s : State) (n : Nat) : (reply s n).announcements = s.announcements := rfl
@[simp] theorem reply_asyncs (s : State) (n : Nat) : (reply s n).asyncs = s.asyncs := rfl
@[simp] theorem reply_atomics (s : State) (n : Nat) : (reply s n).atomics = s.atomics := rfl
@[simp] theorem reply_cellWaits (s : State) (n : Nat) : (reply s n).cellWaits = s.cellWaits := rfl
@[simp] theorem reply_mmas (s : State) (n : Nat) : (reply s n).mmas = s.mmas := rfl
@[simp] theorem reply_versions (s : State) (n : Nat) : (reply s n).versions = s.versions := rfl
@[simp] theorem reply_launches (s : State) (n : Nat) : (reply s n).launches = s.launches := rfl
@[simp] theorem reply_nextSeq (s : State) (n : Nat) : (reply s n).nextSeq = s.nextSeq := rfl
@[simp] theorem reply_queues (s : State) (n : Nat) : (reply s n).queues = s.queues := rfl
@[simp] theorem reply_contexts (s : State) (n : Nat) : (reply s n).contexts = s.contexts := rfl
@[simp] theorem reply_pageRequests (s : State) (n : Nat) : (reply s n).pageRequests = s.pageRequests := rfl
@[simp] theorem reply_prAllocation (s : State) (n : Nat) : (reply s n).prAllocation = s.prAllocation := rfl
@[simp] theorem reply_killList (s : State) (n : Nat) : (reply s n).killList = s.killList := rfl
@[simp] theorem reply_kills (s : State) (n : Nat) : (reply s n).kills = s.kills := rfl
@[simp] theorem reply_migrating (s : State) (n : Nat) : (reply s n).migrating = s.migrating := rfl
@[simp] theorem reply_precopies (s : State) (n : Nat) : (reply s n).precopies = s.precopies := rfl
@[simp] theorem reply_views (s : State) (n : Nat) : (reply s n).views = s.views := rfl
@[simp] theorem reply_ocm (s : State) (n : Nat) : (reply s n).ocm = s.ocm := rfl
@[simp] theorem reply_farRanges (s : State) (n : Nat) : (reply s n).farRanges = s.farRanges := rfl
@[simp] theorem reply_clkns (s : State) (n : Nat) : (reply s n).clkns = s.clkns := rfl
@[simp] theorem reply_cycle (s : State) (n : Nat) : (reply s n).cycle = s.cycle := rfl
@[simp] theorem reply_mhz (s : State) (n : Nat) : (reply s n).mhz = s.mhz := rfl
@[simp] theorem reply_synced (s : State) (n : Nat) : (reply s n).synced = s.synced := rfl
@[simp] theorem reply_slew (s : State) (n : Nat) : (reply s n).slew = s.slew := rfl
@[simp] theorem reply_powerCap (s : State) (n : Nat) : (reply s n).powerCap = s.powerCap := rfl
@[simp] theorem reply_powered (s : State) (n : Nat) : (reply s n).powered = s.powered := rfl
@[simp] theorem reply_fwLayout (s : State) (n : Nat) : (reply s n).fwLayout = s.fwLayout := rfl
@[simp] theorem reply_fwPending (s : State) (n : Nat) : (reply s n).fwPending = s.fwPending := rfl
@[simp] theorem reply_msix (s : State) (n : Nat) : (reply s n).msix = s.msix := rfl
@[simp] theorem reply_machineChecks (s : State) (n : Nat) : (reply s n).machineChecks = s.machineChecks := rfl
@[simp] theorem reply_lastFetch (s : State) (n : Nat) : (reply s n).lastFetch = s.lastFetch := rfl
@[simp] theorem reply_foragerErrors (s : State) (n : Nat) : (reply s n).foragerErrors = s.foragerErrors := rfl
@[simp] theorem reply_fabric (s : State) (n : Nat) : (reply s n).fabric = s.fabric := rfl

/-! noteKey changes keyed alone. -/

@[simp] theorem noteKey_agenda (s : State) (pa len : Nat) (c : Option Nat) : (noteKey s pa len c).agenda = s.agenda := rfl
@[simp] theorem noteKey_run (s : State) (pa len : Nat) (c : Option Nat) : (noteKey s pa len c).run = s.run := rfl
@[simp] theorem noteKey_runs (s : State) (pa len : Nat) (c : Option Nat) : (noteKey s pa len c).runs = s.runs := rfl
@[simp] theorem noteKey_fresh (s : State) (pa len : Nat) (c : Option Nat) : (noteKey s pa len c).fresh = s.fresh := rfl
@[simp] theorem noteKey_nextId (s : State) (pa len : Nat) (c : Option Nat) : (noteKey s pa len c).nextId = s.nextId := rfl
@[simp] theorem noteKey_swarms (s : State) (pa len : Nat) (c : Option Nat) : (noteKey s pa len c).swarms = s.swarms := rfl
@[simp] theorem noteKey_wgs (s : State) (pa len : Nat) (c : Option Nat) : (noteKey s pa len c).wgs = s.wgs := rfl
@[simp] theorem noteKey_cores (s : State) (pa len : Nat) (c : Option Nat) : (noteKey s pa len c).cores = s.cores := rfl
@[simp] theorem noteKey_dies (s : State) (pa len : Nat) (c : Option Nat) : (noteKey s pa len c).dies = s.dies := rfl
@[simp] theorem noteKey_mem (s : State) (pa len : Nat) (c : Option Nat) : (noteKey s pa len c).mem = s.mem := rfl
@[simp] theorem noteKey_backing (s : State) (pa len : Nat) (c : Option Nat) : (noteKey s pa len c).backing = s.backing := rfl
@[simp] theorem noteKey_dirty (s : State) (pa len : Nat) (c : Option Nat) : (noteKey s pa len c).dirty = s.dirty := rfl
@[simp] theorem noteKey_lineTags (s : State) (pa len : Nat) (c : Option Nat) : (noteKey s pa len c).lineTags = s.lineTags := rfl
@[simp] theorem noteKey_l2Tags (s : State) (pa len : Nat) (c : Option Nat) : (noteKey s pa len c).l2Tags = s.l2Tags := rfl
@[simp] theorem noteKey_host (s : State) (pa len : Nat) (c : Option Nat) : (noteKey s pa len c).host = s.host := rfl
@[simp] theorem noteKey_sectors (s : State) (pa len : Nat) (c : Option Nat) : (noteKey s pa len c).sectors = s.sectors := rfl
@[simp] theorem noteKey_announcements (s : State) (pa len : Nat) (c : Option Nat) : (noteKey s pa len c).announcements = s.announcements := rfl
@[simp] theorem noteKey_asyncs (s : State) (pa len : Nat) (c : Option Nat) : (noteKey s pa len c).asyncs = s.asyncs := rfl
@[simp] theorem noteKey_atomics (s : State) (pa len : Nat) (c : Option Nat) : (noteKey s pa len c).atomics = s.atomics := rfl
@[simp] theorem noteKey_cellWaits (s : State) (pa len : Nat) (c : Option Nat) : (noteKey s pa len c).cellWaits = s.cellWaits := rfl
@[simp] theorem noteKey_mmas (s : State) (pa len : Nat) (c : Option Nat) : (noteKey s pa len c).mmas = s.mmas := rfl
@[simp] theorem noteKey_versions (s : State) (pa len : Nat) (c : Option Nat) : (noteKey s pa len c).versions = s.versions := rfl
@[simp] theorem noteKey_launches (s : State) (pa len : Nat) (c : Option Nat) : (noteKey s pa len c).launches = s.launches := rfl
@[simp] theorem noteKey_nextSeq (s : State) (pa len : Nat) (c : Option Nat) : (noteKey s pa len c).nextSeq = s.nextSeq := rfl
@[simp] theorem noteKey_queues (s : State) (pa len : Nat) (c : Option Nat) : (noteKey s pa len c).queues = s.queues := rfl
@[simp] theorem noteKey_contexts (s : State) (pa len : Nat) (c : Option Nat) : (noteKey s pa len c).contexts = s.contexts := rfl
@[simp] theorem noteKey_pageRequests (s : State) (pa len : Nat) (c : Option Nat) : (noteKey s pa len c).pageRequests = s.pageRequests := rfl
@[simp] theorem noteKey_prAllocation (s : State) (pa len : Nat) (c : Option Nat) : (noteKey s pa len c).prAllocation = s.prAllocation := rfl
@[simp] theorem noteKey_killList (s : State) (pa len : Nat) (c : Option Nat) : (noteKey s pa len c).killList = s.killList := rfl
@[simp] theorem noteKey_kills (s : State) (pa len : Nat) (c : Option Nat) : (noteKey s pa len c).kills = s.kills := rfl
@[simp] theorem noteKey_migrating (s : State) (pa len : Nat) (c : Option Nat) : (noteKey s pa len c).migrating = s.migrating := rfl
@[simp] theorem noteKey_precopies (s : State) (pa len : Nat) (c : Option Nat) : (noteKey s pa len c).precopies = s.precopies := rfl
@[simp] theorem noteKey_views (s : State) (pa len : Nat) (c : Option Nat) : (noteKey s pa len c).views = s.views := rfl
@[simp] theorem noteKey_ocm (s : State) (pa len : Nat) (c : Option Nat) : (noteKey s pa len c).ocm = s.ocm := rfl
@[simp] theorem noteKey_farRanges (s : State) (pa len : Nat) (c : Option Nat) : (noteKey s pa len c).farRanges = s.farRanges := rfl
@[simp] theorem noteKey_clkns (s : State) (pa len : Nat) (c : Option Nat) : (noteKey s pa len c).clkns = s.clkns := rfl
@[simp] theorem noteKey_cycle (s : State) (pa len : Nat) (c : Option Nat) : (noteKey s pa len c).cycle = s.cycle := rfl
@[simp] theorem noteKey_mhz (s : State) (pa len : Nat) (c : Option Nat) : (noteKey s pa len c).mhz = s.mhz := rfl
@[simp] theorem noteKey_synced (s : State) (pa len : Nat) (c : Option Nat) : (noteKey s pa len c).synced = s.synced := rfl
@[simp] theorem noteKey_slew (s : State) (pa len : Nat) (c : Option Nat) : (noteKey s pa len c).slew = s.slew := rfl
@[simp] theorem noteKey_powerCap (s : State) (pa len : Nat) (c : Option Nat) : (noteKey s pa len c).powerCap = s.powerCap := rfl
@[simp] theorem noteKey_powered (s : State) (pa len : Nat) (c : Option Nat) : (noteKey s pa len c).powered = s.powered := rfl
@[simp] theorem noteKey_fwLayout (s : State) (pa len : Nat) (c : Option Nat) : (noteKey s pa len c).fwLayout = s.fwLayout := rfl
@[simp] theorem noteKey_fwPending (s : State) (pa len : Nat) (c : Option Nat) : (noteKey s pa len c).fwPending = s.fwPending := rfl
@[simp] theorem noteKey_msix (s : State) (pa len : Nat) (c : Option Nat) : (noteKey s pa len c).msix = s.msix := rfl
@[simp] theorem noteKey_replies (s : State) (pa len : Nat) (c : Option Nat) : (noteKey s pa len c).replies = s.replies := rfl
@[simp] theorem noteKey_machineChecks (s : State) (pa len : Nat) (c : Option Nat) : (noteKey s pa len c).machineChecks = s.machineChecks := rfl
@[simp] theorem noteKey_lastFetch (s : State) (pa len : Nat) (c : Option Nat) : (noteKey s pa len c).lastFetch = s.lastFetch := rfl
@[simp] theorem noteKey_foragerErrors (s : State) (pa len : Nat) (c : Option Nat) : (noteKey s pa len c).foragerErrors = s.foragerErrors := rfl
@[simp] theorem noteKey_fabric (s : State) (pa len : Nat) (c : Option Nat) : (noteKey s pa len c).fabric = s.fabric := rfl

/-! holdLine changes l2Tags alone. -/

@[simp] theorem holdLine_agenda (s : State) (n : Nat) : (holdLine s n).agenda = s.agenda := rfl
@[simp] theorem holdLine_run (s : State) (n : Nat) : (holdLine s n).run = s.run := rfl
@[simp] theorem holdLine_runs (s : State) (n : Nat) : (holdLine s n).runs = s.runs := rfl
@[simp] theorem holdLine_fresh (s : State) (n : Nat) : (holdLine s n).fresh = s.fresh := rfl
@[simp] theorem holdLine_nextId (s : State) (n : Nat) : (holdLine s n).nextId = s.nextId := rfl
@[simp] theorem holdLine_swarms (s : State) (n : Nat) : (holdLine s n).swarms = s.swarms := rfl
@[simp] theorem holdLine_wgs (s : State) (n : Nat) : (holdLine s n).wgs = s.wgs := rfl
@[simp] theorem holdLine_cores (s : State) (n : Nat) : (holdLine s n).cores = s.cores := rfl
@[simp] theorem holdLine_dies (s : State) (n : Nat) : (holdLine s n).dies = s.dies := rfl
@[simp] theorem holdLine_mem (s : State) (n : Nat) : (holdLine s n).mem = s.mem := rfl
@[simp] theorem holdLine_backing (s : State) (n : Nat) : (holdLine s n).backing = s.backing := rfl
@[simp] theorem holdLine_dirty (s : State) (n : Nat) : (holdLine s n).dirty = s.dirty := rfl
@[simp] theorem holdLine_lineTags (s : State) (n : Nat) : (holdLine s n).lineTags = s.lineTags := rfl
@[simp] theorem holdLine_keyed (s : State) (n : Nat) : (holdLine s n).keyed = s.keyed := rfl
@[simp] theorem holdLine_host (s : State) (n : Nat) : (holdLine s n).host = s.host := rfl
@[simp] theorem holdLine_sectors (s : State) (n : Nat) : (holdLine s n).sectors = s.sectors := rfl
@[simp] theorem holdLine_announcements (s : State) (n : Nat) : (holdLine s n).announcements = s.announcements := rfl
@[simp] theorem holdLine_asyncs (s : State) (n : Nat) : (holdLine s n).asyncs = s.asyncs := rfl
@[simp] theorem holdLine_atomics (s : State) (n : Nat) : (holdLine s n).atomics = s.atomics := rfl
@[simp] theorem holdLine_cellWaits (s : State) (n : Nat) : (holdLine s n).cellWaits = s.cellWaits := rfl
@[simp] theorem holdLine_mmas (s : State) (n : Nat) : (holdLine s n).mmas = s.mmas := rfl
@[simp] theorem holdLine_versions (s : State) (n : Nat) : (holdLine s n).versions = s.versions := rfl
@[simp] theorem holdLine_launches (s : State) (n : Nat) : (holdLine s n).launches = s.launches := rfl
@[simp] theorem holdLine_nextSeq (s : State) (n : Nat) : (holdLine s n).nextSeq = s.nextSeq := rfl
@[simp] theorem holdLine_queues (s : State) (n : Nat) : (holdLine s n).queues = s.queues := rfl
@[simp] theorem holdLine_contexts (s : State) (n : Nat) : (holdLine s n).contexts = s.contexts := rfl
@[simp] theorem holdLine_pageRequests (s : State) (n : Nat) : (holdLine s n).pageRequests = s.pageRequests := rfl
@[simp] theorem holdLine_prAllocation (s : State) (n : Nat) : (holdLine s n).prAllocation = s.prAllocation := rfl
@[simp] theorem holdLine_killList (s : State) (n : Nat) : (holdLine s n).killList = s.killList := rfl
@[simp] theorem holdLine_kills (s : State) (n : Nat) : (holdLine s n).kills = s.kills := rfl
@[simp] theorem holdLine_migrating (s : State) (n : Nat) : (holdLine s n).migrating = s.migrating := rfl
@[simp] theorem holdLine_precopies (s : State) (n : Nat) : (holdLine s n).precopies = s.precopies := rfl
@[simp] theorem holdLine_views (s : State) (n : Nat) : (holdLine s n).views = s.views := rfl
@[simp] theorem holdLine_ocm (s : State) (n : Nat) : (holdLine s n).ocm = s.ocm := rfl
@[simp] theorem holdLine_farRanges (s : State) (n : Nat) : (holdLine s n).farRanges = s.farRanges := rfl
@[simp] theorem holdLine_clkns (s : State) (n : Nat) : (holdLine s n).clkns = s.clkns := rfl
@[simp] theorem holdLine_cycle (s : State) (n : Nat) : (holdLine s n).cycle = s.cycle := rfl
@[simp] theorem holdLine_mhz (s : State) (n : Nat) : (holdLine s n).mhz = s.mhz := rfl
@[simp] theorem holdLine_synced (s : State) (n : Nat) : (holdLine s n).synced = s.synced := rfl
@[simp] theorem holdLine_slew (s : State) (n : Nat) : (holdLine s n).slew = s.slew := rfl
@[simp] theorem holdLine_powerCap (s : State) (n : Nat) : (holdLine s n).powerCap = s.powerCap := rfl
@[simp] theorem holdLine_powered (s : State) (n : Nat) : (holdLine s n).powered = s.powered := rfl
@[simp] theorem holdLine_fwLayout (s : State) (n : Nat) : (holdLine s n).fwLayout = s.fwLayout := rfl
@[simp] theorem holdLine_fwPending (s : State) (n : Nat) : (holdLine s n).fwPending = s.fwPending := rfl
@[simp] theorem holdLine_msix (s : State) (n : Nat) : (holdLine s n).msix = s.msix := rfl
@[simp] theorem holdLine_replies (s : State) (n : Nat) : (holdLine s n).replies = s.replies := rfl
@[simp] theorem holdLine_machineChecks (s : State) (n : Nat) : (holdLine s n).machineChecks = s.machineChecks := rfl
@[simp] theorem holdLine_lastFetch (s : State) (n : Nat) : (holdLine s n).lastFetch = s.lastFetch := rfl
@[simp] theorem holdLine_foragerErrors (s : State) (n : Nat) : (holdLine s n).foragerErrors = s.foragerErrors := rfl
@[simp] theorem holdLine_fabric (s : State) (n : Nat) : (holdLine s n).fabric = s.fabric := rfl

/-! A slot of a swarm. -/

@[simp] theorem setSlot_ref (w : Swarm) (k : SlotId) (x : Slot) : (setSlot w k x).ref = w.ref := by cases k <;> rfl
@[simp] theorem setSlot_lane (w : Swarm) (k : SlotId) (x : Slot) : (setSlot w k x).lane = w.lane := by cases k <;> rfl
@[simp] theorem setSlot_teamPos (w : Swarm) (k : SlotId) (x : Slot) : (setSlot w k x).teamPos = w.teamPos := by cases k <;> rfl
@[simp] theorem setSlot_team (w : Swarm) (k : SlotId) (x : Slot) : (setSlot w k x).team = w.team := by cases k <;> rfl
@[simp] theorem setSlot_inTeam (w : Swarm) (k : SlotId) (x : Slot) : (setSlot w k x).inTeam = w.inTeam := by cases k <;> rfl
@[simp] theorem setSlot_regs (w : Swarm) (k : SlotId) (x : Slot) : (setSlot w k x).regs = w.regs := by cases k <;> rfl
@[simp] theorem setSlot_regErrs (w : Swarm) (k : SlotId) (x : Slot) : (setSlot w k x).regErrs = w.regErrs := by cases k <;> rfl
@[simp] theorem setSlot_preds (w : Swarm) (k : SlotId) (x : Slot) : (setSlot w k x).preds = w.preds := by cases k <;> rfl
@[simp] theorem setSlot_streams (w : Swarm) (k : SlotId) (x : Slot) : (setSlot w k x).streams = w.streams := by cases k <;> rfl
@[simp] theorem setSlot_lastSlot (w : Swarm) (k : SlotId) (x : Slot) : (setSlot w k x).lastSlot = w.lastSlot := by cases k <;> rfl
@[simp] theorem setSlot_live (w : Swarm) (k : SlotId) (x : Slot) : (setSlot w k x).live = w.live := by cases k <;> rfl
@[simp] theorem setSlot_dsBase (w : Swarm) (k : SlotId) (x : Slot) : (setSlot w k x).dsBase = w.dsBase := by cases k <;> rfl
@[simp] theorem setSlot_dsLim (w : Swarm) (k : SlotId) (x : Slot) : (setSlot w k x).dsLim = w.dsLim := by cases k <;> rfl
@[simp] theorem setSlot_dsDepth (w : Swarm) (k : SlotId) (x : Slot) : (setSlot w k x).dsDepth = w.dsDepth := by cases k <;> rfl
@[simp] theorem setSlot_rsv (w : Swarm) (k : SlotId) (x : Slot) : (setSlot w k x).rsv = w.rsv := by cases k <;> rfl
@[simp] theorem setSlot_rmax (w : Swarm) (k : SlotId) (x : Slot) : (setSlot w k x).rmax = w.rmax := by cases k <;> rfl
@[simp] theorem setSlot_mode (w : Swarm) (k : SlotId) (x : Slot) : (setSlot w k x).mode = w.mode := by cases k <;> rfl
@[simp] theorem setSlot_shadow (w : Swarm) (k : SlotId) (x : Slot) : (setSlot w k x).shadow = w.shadow := by cases k <;> rfl
@[simp] theorem setSlot_entryMode (w : Swarm) (k : SlotId) (x : Slot) : (setSlot w k x).entryMode = w.entryMode := by cases k <;> rfl
@[simp] theorem setSlot_prog (w : Swarm) (k : SlotId) (x : Slot) : (setSlot w k x).prog = w.prog := by cases k <;> rfl
@[simp] theorem setSlot_progFlags (w : Swarm) (k : SlotId) (x : Slot) : (setSlot w k x).progFlags = w.progFlags := by cases k <;> rfl
@[simp] theorem setSlot_rstPc (w : Swarm) (k : SlotId) (x : Slot) : (setSlot w k x).rstPc = w.rstPc := by cases k <;> rfl
@[simp] theorem setSlot_rstRec (w : Swarm) (k : SlotId) (x : Slot) : (setSlot w k x).rstRec = w.rstRec := by cases k <;> rfl
@[simp] theorem setSlot_wrapCause (w : Swarm) (k : SlotId) (x : Slot) : (setSlot w k x).wrapCause = w.wrapCause := by cases k <;> rfl
@[simp] theorem setSlot_inflight (w : Swarm) (k : SlotId) (x : Slot) : (setSlot w k x).inflight = w.inflight := by cases k <;> rfl
@[simp] theorem setSlot_relAcc (w : Swarm) (k : SlotId) (x : Slot) : (setSlot w k x).relAcc = w.relAcc := by cases k <;> rfl
@[simp] theorem setSlot_received (w : Swarm) (k : SlotId) (x : Slot) : (setSlot w k x).received = w.received := by cases k <;> rfl
@[simp] theorem setSlot_pendRel (w : Swarm) (k : SlotId) (x : Slot) : (setSlot w k x).pendRel = w.pendRel := by cases k <;> rfl
@[simp] theorem setSlot_fenceOps (w : Swarm) (k : SlotId) (x : Slot) : (setSlot w k x).fenceOps = w.fenceOps := by cases k <;> rfl
@[simp] theorem setSlot_barrier (w : Swarm) (k : SlotId) (x : Slot) : (setSlot w k x).barrier = w.barrier := by cases k <;> rfl
@[simp] theorem setSlot_endArrived (w : Swarm) (k : SlotId) (x : Slot) : (setSlot w k x).endArrived = w.endArrived := by cases k <;> rfl
@[simp] theorem setSlot_rerun (w : Swarm) (k : SlotId) (x : Slot) : (setSlot w k x).rerun = w.rerun := by cases k <;> rfl
@[simp] theorem setSlot_pendFetch (w : Swarm) (k : SlotId) (x : Slot) : (setSlot w k x).pendFetch = w.pendFetch := by cases k <;> rfl
@[simp] theorem setSlot_deferred (w : Swarm) (k : SlotId) (x : Slot) : (setSlot w k x).deferred = w.deferred := by cases k <;> rfl
@[simp] theorem setSlot_sliceBinds (w : Swarm) (k : SlotId) (x : Slot) : (setSlot w k x).sliceBinds = w.sliceBinds := by cases k <;> rfl
@[simp] theorem setSlot_sched (w : Swarm) (k : SlotId) (x : Slot) : (setSlot w k x).sched = w.sched := by cases k <;> rfl
@[simp] theorem setSlot_since (w : Swarm) (k : SlotId) (x : Slot) : (setSlot w k x).since = w.since := by cases k <;> rfl
@[simp] theorem setSlot_waitFrom (w : Swarm) (k : SlotId) (x : Slot) : (setSlot w k x).waitFrom = w.waitFrom := by cases k <;> rfl
@[simp] theorem setSlot_waitFor (w : Swarm) (k : SlotId) (x : Slot) : (setSlot w k x).waitFor = w.waitFor := by cases k <;> rfl
@[simp] theorem setSlot_freeFrom (w : Swarm) (k : SlotId) (x : Slot) : (setSlot w k x).freeFrom = w.freeFrom := by cases k <;> rfl
@[simp] theorem setSlot_leftLane (w : Swarm) (k : SlotId) (x : Slot) : (setSlot w k x).leftLane = w.leftLane := by cases k <;> rfl
@[simp] theorem setSlot_draining (w : Swarm) (k : SlotId) (x : Slot) : (setSlot w k x).draining = w.draining := by cases k <;> rfl
@[simp] theorem setSlot_haltedFrom (w : Swarm) (k : SlotId) (x : Slot) : (setSlot w k x).haltedFrom = w.haltedFrom := by cases k <;> rfl
@[simp] theorem setSlot_stopped (w : Swarm) (k : SlotId) (x : Slot) : (setSlot w k x).stopped = w.stopped := by cases k <;> rfl
@[simp] theorem setSlot_diverted (w : Swarm) (k : SlotId) (x : Slot) : (setSlot w k x).diverted = w.diverted := by cases k <;> rfl
@[simp] theorem setSlot_mismatches (w : Swarm) (k : SlotId) (x : Slot) : (setSlot w k x).mismatches = w.mismatches := by cases k <;> rfl
@[simp] theorem slotOf_setSlot (w : Swarm) (k : SlotId) (x : Slot) : slotOf (setSlot w k x) k = x := by cases k <;> rfl
@[simp] theorem slotOf_setSlot_other (w : Swarm) (k : SlotId) (x : Slot) : slotOf (setSlot w k x) k.other = slotOf w k.other := by cases k <;> rfl

/-! A clause in flight. -/

@[simp] theorem setReg_ref (r : Run) (n : Nat) (m : Mask) (x : VReg) : (setReg r n m x).ref = r.ref := rfl
@[simp] theorem setReg_slot (r : Run) (n : Nat) (m : Mask) (x : VReg) : (setReg r n m x).slot = r.slot := rfl
@[simp] theorem setReg_pc (r : Run) (n : Nat) (m : Mask) (x : VReg) : (setReg r n m x).pc = r.pc := rfl
@[simp] theorem setReg_header (r : Run) (n : Nat) (m : Mask) (x : VReg) : (setReg r n m x).header = r.header := rfl
@[simp] theorem setReg_words (r : Run) (n : Nat) (m : Mask) (x : VReg) : (setReg r n m x).words = r.words := rfl
@[simp] theorem setReg_idx (r : Run) (n : Nat) (m : Mask) (x : VReg) : (setReg r n m x).idx = r.idx := rfl
@[simp] theorem setReg_imx (r : Run) (n : Nat) (m : Mask) (x : VReg) : (setReg r n m x).imx = r.imx := rfl
@[simp] theorem setReg_msk (r : Run) (n : Nat) (m : Mask) (x : VReg) : (setReg r n m x).msk = r.msk := rfl
@[simp] theorem setReg_effects (r : Run) (n : Nat) (m : Mask) (x : VReg) : (setReg r n m x).effects = r.effects := rfl
@[simp] theorem setReg_grown (r : Run) (n : Nat) (m : Mask) (x : VReg) : (setReg r n m x).grown = r.grown := rfl
@[simp] theorem setReg_raised (r : Run) (n : Nat) (m : Mask) (x : VReg) : (setReg r n m x).raised = r.raised := rfl
@[simp] theorem setReg_branch (r : Run) (n : Nat) (m : Mask) (x : VReg) : (setReg r n m x).branch = r.branch := rfl
@[simp] theorem setReg_exits (r : Run) (n : Nat) (m : Mask) (x : VReg) : (setReg r n m x).exits = r.exits := rfl
@[simp] theorem setReg_arrival (r : Run) (n : Nat) (m : Mask) (x : VReg) : (setReg r n m x).arrival = r.arrival := rfl
@[simp] theorem setReg_phase (r : Run) (n : Nat) (m : Mask) (x : VReg) : (setReg r n m x).phase = r.phase := rfl
@[simp] theorem writePred_ref (r : Run) (n : Nat) (m v : Mask) : (writePred r n m v).ref = r.ref := rfl
@[simp] theorem writePred_slot (r : Run) (n : Nat) (m v : Mask) : (writePred r n m v).slot = r.slot := rfl
@[simp] theorem writePred_pc (r : Run) (n : Nat) (m v : Mask) : (writePred r n m v).pc = r.pc := rfl
@[simp] theorem writePred_header (r : Run) (n : Nat) (m v : Mask) : (writePred r n m v).header = r.header := rfl
@[simp] theorem writePred_words (r : Run) (n : Nat) (m v : Mask) : (writePred r n m v).words = r.words := rfl
@[simp] theorem writePred_idx (r : Run) (n : Nat) (m v : Mask) : (writePred r n m v).idx = r.idx := rfl
@[simp] theorem writePred_imx (r : Run) (n : Nat) (m v : Mask) : (writePred r n m v).imx = r.imx := rfl
@[simp] theorem writePred_msk (r : Run) (n : Nat) (m v : Mask) : (writePred r n m v).msk = r.msk := rfl
@[simp] theorem writePred_effects (r : Run) (n : Nat) (m v : Mask) : (writePred r n m v).effects = r.effects := rfl
@[simp] theorem writePred_writes (r : Run) (n : Nat) (m v : Mask) : (writePred r n m v).writes = r.writes := rfl
@[simp] theorem writePred_grown (r : Run) (n : Nat) (m v : Mask) : (writePred r n m v).grown = r.grown := rfl
@[simp] theorem writePred_raised (r : Run) (n : Nat) (m v : Mask) : (writePred r n m v).raised = r.raised := rfl
@[simp] theorem writePred_branch (r : Run) (n : Nat) (m v : Mask) : (writePred r n m v).branch = r.branch := rfl
@[simp] theorem writePred_exits (r : Run) (n : Nat) (m v : Mask) : (writePred r n m v).exits = r.exits := rfl
@[simp] theorem writePred_frees (r : Run) (n : Nat) (m v : Mask) : (writePred r n m v).frees = r.frees := rfl
@[simp] theorem writePred_arrival (r : Run) (n : Nat) (m v : Mask) : (writePred r n m v).arrival = r.arrival := rfl
@[simp] theorem writePred_phase (r : Run) (n : Nat) (m v : Mask) : (writePred r n m v).phase = r.phase := rfl
@[simp] theorem raise_ref (r : Run) (f : BitVec 6) : (raise r f).ref = r.ref := by unfold raise; split <;> rfl
@[simp] theorem raise_slot (r : Run) (f : BitVec 6) : (raise r f).slot = r.slot := by unfold raise; split <;> rfl
@[simp] theorem raise_pc (r : Run) (f : BitVec 6) : (raise r f).pc = r.pc := by unfold raise; split <;> rfl
@[simp] theorem raise_header (r : Run) (f : BitVec 6) : (raise r f).header = r.header := by unfold raise; split <;> rfl
@[simp] theorem raise_words (r : Run) (f : BitVec 6) : (raise r f).words = r.words := by unfold raise; split <;> rfl
@[simp] theorem raise_idx (r : Run) (f : BitVec 6) : (raise r f).idx = r.idx := by unfold raise; split <;> rfl
@[simp] theorem raise_work (r : Run) (f : BitVec 6) : (raise r f).work = r.work := by unfold raise; split <;> rfl
@[simp] theorem raise_imx (r : Run) (f : BitVec 6) : (raise r f).imx = r.imx := by unfold raise; split <;> rfl
@[simp] theorem raise_msk (r : Run) (f : BitVec 6) : (raise r f).msk = r.msk := by unfold raise; split <;> rfl
@[simp] theorem raise_effects (r : Run) (f : BitVec 6) : (raise r f).effects = r.effects := by unfold raise; split <;> rfl
@[simp] theorem raise_writes (r : Run) (f : BitVec 6) : (raise r f).writes = r.writes := by unfold raise; split <;> rfl
@[simp] theorem raise_grown (r : Run) (f : BitVec 6) : (raise r f).grown = r.grown := by unfold raise; split <;> rfl
@[simp] theorem raise_branch (r : Run) (f : BitVec 6) : (raise r f).branch = r.branch := by unfold raise; split <;> rfl
@[simp] theorem raise_exits (r : Run) (f : BitVec 6) : (raise r f).exits = r.exits := by unfold raise; split <;> rfl
@[simp] theorem raise_frees (r : Run) (f : BitVec 6) : (raise r f).frees = r.frees := by unfold raise; split <;> rfl
@[simp] theorem raise_arrival (r : Run) (f : BitVec 6) : (raise r f).arrival = r.arrival := by unfold raise; split <;> rfl
@[simp] theorem raise_phase (r : Run) (f : BitVec 6) : (raise r f).phase = r.phase := by unfold raise; split <;> rfl
@[simp] theorem pastWord_ref (r : Run)  : (pastWord r ).ref = r.ref := rfl
@[simp] theorem pastWord_slot (r : Run)  : (pastWord r ).slot = r.slot := rfl
@[simp] theorem pastWord_pc (r : Run)  : (pastWord r ).pc = r.pc := rfl
@[simp] theorem pastWord_header (r : Run)  : (pastWord r ).header = r.header := rfl
@[simp] theorem pastWord_words (r : Run)  : (pastWord r ).words = r.words := rfl
@[simp] theorem pastWord_work (r : Run)  : (pastWord r ).work = r.work := rfl
@[simp] theorem pastWord_effects (r : Run)  : (pastWord r ).effects = r.effects := rfl
@[simp] theorem pastWord_writes (r : Run)  : (pastWord r ).writes = r.writes := rfl
@[simp] theorem pastWord_grown (r : Run)  : (pastWord r ).grown = r.grown := rfl
@[simp] theorem pastWord_raised (r : Run)  : (pastWord r ).raised = r.raised := rfl
@[simp] theorem pastWord_branch (r : Run)  : (pastWord r ).branch = r.branch := rfl
@[simp] theorem pastWord_exits (r : Run)  : (pastWord r ).exits = r.exits := rfl
@[simp] theorem pastWord_frees (r : Run)  : (pastWord r ).frees = r.frees := rfl
@[simp] theorem pastWord_arrival (r : Run)  : (pastWord r ).arrival = r.arrival := rfl
@[simp] theorem pastWord_phase (r : Run)  : (pastWord r ).phase = r.phase := rfl
@[simp] theorem noteReads_ref (s : State) (i : Instr) (r : Run) : (noteReads s i r).ref = r.ref := rfl
@[simp] theorem noteReads_slot (s : State) (i : Instr) (r : Run) : (noteReads s i r).slot = r.slot := rfl
@[simp] theorem noteReads_pc (s : State) (i : Instr) (r : Run) : (noteReads s i r).pc = r.pc := rfl
@[simp] theorem noteReads_header (s : State) (i : Instr) (r : Run) : (noteReads s i r).header = r.header := rfl
@[simp] theorem noteReads_words (s : State) (i : Instr) (r : Run) : (noteReads s i r).words = r.words := rfl
@[simp] theorem noteReads_idx (s : State) (i : Instr) (r : Run) : (noteReads s i r).idx = r.idx := rfl
@[simp] theorem noteReads_imx (s : State) (i : Instr) (r : Run) : (noteReads s i r).imx = r.imx := rfl
@[simp] theorem noteReads_msk (s : State) (i : Instr) (r : Run) : (noteReads s i r).msk = r.msk := rfl
@[simp] theorem noteReads_effects (s : State) (i : Instr) (r : Run) : (noteReads s i r).effects = r.effects := rfl
@[simp] theorem noteReads_writes (s : State) (i : Instr) (r : Run) : (noteReads s i r).writes = r.writes := rfl
@[simp] theorem noteReads_grown (s : State) (i : Instr) (r : Run) : (noteReads s i r).grown = r.grown := rfl
@[simp] theorem noteReads_raised (s : State) (i : Instr) (r : Run) : (noteReads s i r).raised = r.raised := rfl
@[simp] theorem noteReads_branch (s : State) (i : Instr) (r : Run) : (noteReads s i r).branch = r.branch := rfl
@[simp] theorem noteReads_exits (s : State) (i : Instr) (r : Run) : (noteReads s i r).exits = r.exits := rfl
@[simp] theorem noteReads_arrival (s : State) (i : Instr) (r : Run) : (noteReads s i r).arrival = r.arrival := rfl
@[simp] theorem noteReads_phase (s : State) (i : Instr) (r : Run) : (noteReads s i r).phase = r.phase := rfl
@[simp] theorem noteReads_work_ref (s : State) (i : Instr) (r : Run) : (noteReads s i r).work.ref = r.work.ref := rfl
@[simp] theorem setReg_work_ref (r : Run) (n : Nat) (m : Mask) (x : VReg) : (setReg r n m x).work.ref = r.work.ref := rfl
@[simp] theorem writePred_work_ref (r : Run) (n : Nat) (m v : Mask) : (writePred r n m v).work.ref = r.work.ref := rfl
@[simp] theorem noteReads_work_lane (s : State) (i : Instr) (r : Run) : (noteReads s i r).work.lane = r.work.lane := rfl
@[simp] theorem setReg_work_lane (r : Run) (n : Nat) (m : Mask) (x : VReg) : (setReg r n m x).work.lane = r.work.lane := rfl
@[simp] theorem writePred_work_lane (r : Run) (n : Nat) (m v : Mask) : (writePred r n m v).work.lane = r.work.lane := rfl
@[simp] theorem noteReads_work_teamPos (s : State) (i : Instr) (r : Run) : (noteReads s i r).work.teamPos = r.work.teamPos := rfl
@[simp] theorem setReg_work_teamPos (r : Run) (n : Nat) (m : Mask) (x : VReg) : (setReg r n m x).work.teamPos = r.work.teamPos := rfl
@[simp] theorem writePred_work_teamPos (r : Run) (n : Nat) (m v : Mask) : (writePred r n m v).work.teamPos = r.work.teamPos := rfl
@[simp] theorem noteReads_work_team (s : State) (i : Instr) (r : Run) : (noteReads s i r).work.team = r.work.team := rfl
@[simp] theorem setReg_work_team (r : Run) (n : Nat) (m : Mask) (x : VReg) : (setReg r n m x).work.team = r.work.team := rfl
@[simp] theorem writePred_work_team (r : Run) (n : Nat) (m v : Mask) : (writePred r n m v).work.team = r.work.team := rfl
@[simp] theorem noteReads_work_inTeam (s : State) (i : Instr) (r : Run) : (noteReads s i r).work.inTeam = r.work.inTeam := rfl
@[simp] theorem setReg_work_inTeam (r : Run) (n : Nat) (m : Mask) (x : VReg) : (setReg r n m x).work.inTeam = r.work.inTeam := rfl
@[simp] theorem writePred_work_inTeam (r : Run) (n : Nat) (m v : Mask) : (writePred r n m v).work.inTeam = r.work.inTeam := rfl
@[simp] theorem noteReads_work_regs (s : State) (i : Instr) (r : Run) : (noteReads s i r).work.regs = r.work.regs := rfl
@[simp] theorem writePred_work_regs (r : Run) (n : Nat) (m v : Mask) : (writePred r n m v).work.regs = r.work.regs := rfl
@[simp] theorem noteReads_work_regErrs (s : State) (i : Instr) (r : Run) : (noteReads s i r).work.regErrs = r.work.regErrs := rfl
@[simp] theorem setReg_work_regErrs (r : Run) (n : Nat) (m : Mask) (x : VReg) : (setReg r n m x).work.regErrs = r.work.regErrs := rfl
@[simp] theorem writePred_work_regErrs (r : Run) (n : Nat) (m v : Mask) : (writePred r n m v).work.regErrs = r.work.regErrs := rfl
@[simp] theorem noteReads_work_preds (s : State) (i : Instr) (r : Run) : (noteReads s i r).work.preds = r.work.preds := rfl
@[simp] theorem setReg_work_preds (r : Run) (n : Nat) (m : Mask) (x : VReg) : (setReg r n m x).work.preds = r.work.preds := rfl
@[simp] theorem setReg_work_streams (r : Run) (n : Nat) (m : Mask) (x : VReg) : (setReg r n m x).work.streams = r.work.streams := rfl
@[simp] theorem writePred_work_streams (r : Run) (n : Nat) (m v : Mask) : (writePred r n m v).work.streams = r.work.streams := rfl
@[simp] theorem noteReads_work_slotA (s : State) (i : Instr) (r : Run) : (noteReads s i r).work.slotA = r.work.slotA := rfl
@[simp] theorem setReg_work_slotA (r : Run) (n : Nat) (m : Mask) (x : VReg) : (setReg r n m x).work.slotA = r.work.slotA := rfl
@[simp] theorem writePred_work_slotA (r : Run) (n : Nat) (m v : Mask) : (writePred r n m v).work.slotA = r.work.slotA := rfl
@[simp] theorem noteReads_work_slotB (s : State) (i : Instr) (r : Run) : (noteReads s i r).work.slotB = r.work.slotB := rfl
@[simp] theorem setReg_work_slotB (r : Run) (n : Nat) (m : Mask) (x : VReg) : (setReg r n m x).work.slotB = r.work.slotB := rfl
@[simp] theorem writePred_work_slotB (r : Run) (n : Nat) (m v : Mask) : (writePred r n m v).work.slotB = r.work.slotB := rfl
@[simp] theorem noteReads_work_lastSlot (s : State) (i : Instr) (r : Run) : (noteReads s i r).work.lastSlot = r.work.lastSlot := rfl
@[simp] theorem setReg_work_lastSlot (r : Run) (n : Nat) (m : Mask) (x : VReg) : (setReg r n m x).work.lastSlot = r.work.lastSlot := rfl
@[simp] theorem writePred_work_lastSlot (r : Run) (n : Nat) (m v : Mask) : (writePred r n m v).work.lastSlot = r.work.lastSlot := rfl
@[simp] theorem noteReads_work_live (s : State) (i : Instr) (r : Run) : (noteReads s i r).work.live = r.work.live := rfl
@[simp] theorem setReg_work_live (r : Run) (n : Nat) (m : Mask) (x : VReg) : (setReg r n m x).work.live = r.work.live := rfl
@[simp] theorem writePred_work_live (r : Run) (n : Nat) (m v : Mask) : (writePred r n m v).work.live = r.work.live := rfl
@[simp] theorem noteReads_work_dsBase (s : State) (i : Instr) (r : Run) : (noteReads s i r).work.dsBase = r.work.dsBase := rfl
@[simp] theorem setReg_work_dsBase (r : Run) (n : Nat) (m : Mask) (x : VReg) : (setReg r n m x).work.dsBase = r.work.dsBase := rfl
@[simp] theorem writePred_work_dsBase (r : Run) (n : Nat) (m v : Mask) : (writePred r n m v).work.dsBase = r.work.dsBase := rfl
@[simp] theorem noteReads_work_dsLim (s : State) (i : Instr) (r : Run) : (noteReads s i r).work.dsLim = r.work.dsLim := rfl
@[simp] theorem setReg_work_dsLim (r : Run) (n : Nat) (m : Mask) (x : VReg) : (setReg r n m x).work.dsLim = r.work.dsLim := rfl
@[simp] theorem writePred_work_dsLim (r : Run) (n : Nat) (m v : Mask) : (writePred r n m v).work.dsLim = r.work.dsLim := rfl
@[simp] theorem noteReads_work_dsDepth (s : State) (i : Instr) (r : Run) : (noteReads s i r).work.dsDepth = r.work.dsDepth := rfl
@[simp] theorem setReg_work_dsDepth (r : Run) (n : Nat) (m : Mask) (x : VReg) : (setReg r n m x).work.dsDepth = r.work.dsDepth := rfl
@[simp] theorem writePred_work_dsDepth (r : Run) (n : Nat) (m v : Mask) : (writePred r n m v).work.dsDepth = r.work.dsDepth := rfl
@[simp] theorem noteReads_work_rsv (s : State) (i : Instr) (r : Run) : (noteReads s i r).work.rsv = r.work.rsv := rfl
@[simp] theorem setReg_work_rsv (r : Run) (n : Nat) (m : Mask) (x : VReg) : (setReg r n m x).work.rsv = r.work.rsv := rfl
@[simp] theorem writePred_work_rsv (r : Run) (n : Nat) (m v : Mask) : (writePred r n m v).work.rsv = r.work.rsv := rfl
@[simp] theorem noteReads_work_rmax (s : State) (i : Instr) (r : Run) : (noteReads s i r).work.rmax = r.work.rmax := rfl
@[simp] theorem setReg_work_rmax (r : Run) (n : Nat) (m : Mask) (x : VReg) : (setReg r n m x).work.rmax = r.work.rmax := rfl
@[simp] theorem writePred_work_rmax (r : Run) (n : Nat) (m v : Mask) : (writePred r n m v).work.rmax = r.work.rmax := rfl
@[simp] theorem noteReads_work_mode (s : State) (i : Instr) (r : Run) : (noteReads s i r).work.mode = r.work.mode := rfl
@[simp] theorem setReg_work_mode (r : Run) (n : Nat) (m : Mask) (x : VReg) : (setReg r n m x).work.mode = r.work.mode := rfl
@[simp] theorem writePred_work_mode (r : Run) (n : Nat) (m v : Mask) : (writePred r n m v).work.mode = r.work.mode := rfl
@[simp] theorem noteReads_work_shadow (s : State) (i : Instr) (r : Run) : (noteReads s i r).work.shadow = r.work.shadow := rfl
@[simp] theorem setReg_work_shadow (r : Run) (n : Nat) (m : Mask) (x : VReg) : (setReg r n m x).work.shadow = r.work.shadow := rfl
@[simp] theorem writePred_work_shadow (r : Run) (n : Nat) (m v : Mask) : (writePred r n m v).work.shadow = r.work.shadow := rfl
@[simp] theorem noteReads_work_entryMode (s : State) (i : Instr) (r : Run) : (noteReads s i r).work.entryMode = r.work.entryMode := rfl
@[simp] theorem setReg_work_entryMode (r : Run) (n : Nat) (m : Mask) (x : VReg) : (setReg r n m x).work.entryMode = r.work.entryMode := rfl
@[simp] theorem writePred_work_entryMode (r : Run) (n : Nat) (m v : Mask) : (writePred r n m v).work.entryMode = r.work.entryMode := rfl
@[simp] theorem noteReads_work_prog (s : State) (i : Instr) (r : Run) : (noteReads s i r).work.prog = r.work.prog := rfl
@[simp] theorem setReg_work_prog (r : Run) (n : Nat) (m : Mask) (x : VReg) : (setReg r n m x).work.prog = r.work.prog := rfl
@[simp] theorem writePred_work_prog (r : Run) (n : Nat) (m v : Mask) : (writePred r n m v).work.prog = r.work.prog := rfl
@[simp] theorem noteReads_work_progFlags (s : State) (i : Instr) (r : Run) : (noteReads s i r).work.progFlags = r.work.progFlags := rfl
@[simp] theorem setReg_work_progFlags (r : Run) (n : Nat) (m : Mask) (x : VReg) : (setReg r n m x).work.progFlags = r.work.progFlags := rfl
@[simp] theorem writePred_work_progFlags (r : Run) (n : Nat) (m v : Mask) : (writePred r n m v).work.progFlags = r.work.progFlags := rfl
@[simp] theorem noteReads_work_rstPc (s : State) (i : Instr) (r : Run) : (noteReads s i r).work.rstPc = r.work.rstPc := rfl
@[simp] theorem setReg_work_rstPc (r : Run) (n : Nat) (m : Mask) (x : VReg) : (setReg r n m x).work.rstPc = r.work.rstPc := rfl
@[simp] theorem writePred_work_rstPc (r : Run) (n : Nat) (m v : Mask) : (writePred r n m v).work.rstPc = r.work.rstPc := rfl
@[simp] theorem noteReads_work_rstRec (s : State) (i : Instr) (r : Run) : (noteReads s i r).work.rstRec = r.work.rstRec := rfl
@[simp] theorem setReg_work_rstRec (r : Run) (n : Nat) (m : Mask) (x : VReg) : (setReg r n m x).work.rstRec = r.work.rstRec := rfl
@[simp] theorem writePred_work_rstRec (r : Run) (n : Nat) (m v : Mask) : (writePred r n m v).work.rstRec = r.work.rstRec := rfl
@[simp] theorem noteReads_work_wrapCause (s : State) (i : Instr) (r : Run) : (noteReads s i r).work.wrapCause = r.work.wrapCause := rfl
@[simp] theorem setReg_work_wrapCause (r : Run) (n : Nat) (m : Mask) (x : VReg) : (setReg r n m x).work.wrapCause = r.work.wrapCause := rfl
@[simp] theorem writePred_work_wrapCause (r : Run) (n : Nat) (m v : Mask) : (writePred r n m v).work.wrapCause = r.work.wrapCause := rfl
@[simp] theorem noteReads_work_inflight (s : State) (i : Instr) (r : Run) : (noteReads s i r).work.inflight = r.work.inflight := rfl
@[simp] theorem setReg_work_inflight (r : Run) (n : Nat) (m : Mask) (x : VReg) : (setReg r n m x).work.inflight = r.work.inflight := rfl
@[simp] theorem writePred_work_inflight (r : Run) (n : Nat) (m v : Mask) : (writePred r n m v).work.inflight = r.work.inflight := rfl
@[simp] theorem noteReads_work_relAcc (s : State) (i : Instr) (r : Run) : (noteReads s i r).work.relAcc = r.work.relAcc := rfl
@[simp] theorem setReg_work_relAcc (r : Run) (n : Nat) (m : Mask) (x : VReg) : (setReg r n m x).work.relAcc = r.work.relAcc := rfl
@[simp] theorem writePred_work_relAcc (r : Run) (n : Nat) (m v : Mask) : (writePred r n m v).work.relAcc = r.work.relAcc := rfl
@[simp] theorem noteReads_work_received (s : State) (i : Instr) (r : Run) : (noteReads s i r).work.received = r.work.received := rfl
@[simp] theorem setReg_work_received (r : Run) (n : Nat) (m : Mask) (x : VReg) : (setReg r n m x).work.received = r.work.received := rfl
@[simp] theorem writePred_work_received (r : Run) (n : Nat) (m v : Mask) : (writePred r n m v).work.received = r.work.received := rfl
@[simp] theorem noteReads_work_pendRel (s : State) (i : Instr) (r : Run) : (noteReads s i r).work.pendRel = r.work.pendRel := rfl
@[simp] theorem setReg_work_pendRel (r : Run) (n : Nat) (m : Mask) (x : VReg) : (setReg r n m x).work.pendRel = r.work.pendRel := rfl
@[simp] theorem writePred_work_pendRel (r : Run) (n : Nat) (m v : Mask) : (writePred r n m v).work.pendRel = r.work.pendRel := rfl
@[simp] theorem noteReads_work_fenceOps (s : State) (i : Instr) (r : Run) : (noteReads s i r).work.fenceOps = r.work.fenceOps := rfl
@[simp] theorem setReg_work_fenceOps (r : Run) (n : Nat) (m : Mask) (x : VReg) : (setReg r n m x).work.fenceOps = r.work.fenceOps := rfl
@[simp] theorem writePred_work_fenceOps (r : Run) (n : Nat) (m v : Mask) : (writePred r n m v).work.fenceOps = r.work.fenceOps := rfl
@[simp] theorem noteReads_work_barrier (s : State) (i : Instr) (r : Run) : (noteReads s i r).work.barrier = r.work.barrier := rfl
@[simp] theorem setReg_work_barrier (r : Run) (n : Nat) (m : Mask) (x : VReg) : (setReg r n m x).work.barrier = r.work.barrier := rfl
@[simp] theorem writePred_work_barrier (r : Run) (n : Nat) (m v : Mask) : (writePred r n m v).work.barrier = r.work.barrier := rfl
@[simp] theorem noteReads_work_endArrived (s : State) (i : Instr) (r : Run) : (noteReads s i r).work.endArrived = r.work.endArrived := rfl
@[simp] theorem setReg_work_endArrived (r : Run) (n : Nat) (m : Mask) (x : VReg) : (setReg r n m x).work.endArrived = r.work.endArrived := rfl
@[simp] theorem writePred_work_endArrived (r : Run) (n : Nat) (m v : Mask) : (writePred r n m v).work.endArrived = r.work.endArrived := rfl
@[simp] theorem noteReads_work_rerun (s : State) (i : Instr) (r : Run) : (noteReads s i r).work.rerun = r.work.rerun := rfl
@[simp] theorem setReg_work_rerun (r : Run) (n : Nat) (m : Mask) (x : VReg) : (setReg r n m x).work.rerun = r.work.rerun := rfl
@[simp] theorem writePred_work_rerun (r : Run) (n : Nat) (m v : Mask) : (writePred r n m v).work.rerun = r.work.rerun := rfl
@[simp] theorem noteReads_work_pendFetch (s : State) (i : Instr) (r : Run) : (noteReads s i r).work.pendFetch = r.work.pendFetch := rfl
@[simp] theorem setReg_work_pendFetch (r : Run) (n : Nat) (m : Mask) (x : VReg) : (setReg r n m x).work.pendFetch = r.work.pendFetch := rfl
@[simp] theorem writePred_work_pendFetch (r : Run) (n : Nat) (m v : Mask) : (writePred r n m v).work.pendFetch = r.work.pendFetch := rfl
@[simp] theorem noteReads_work_deferred (s : State) (i : Instr) (r : Run) : (noteReads s i r).work.deferred = r.work.deferred := rfl
@[simp] theorem setReg_work_deferred (r : Run) (n : Nat) (m : Mask) (x : VReg) : (setReg r n m x).work.deferred = r.work.deferred := rfl
@[simp] theorem writePred_work_deferred (r : Run) (n : Nat) (m v : Mask) : (writePred r n m v).work.deferred = r.work.deferred := rfl
@[simp] theorem noteReads_work_sliceBinds (s : State) (i : Instr) (r : Run) : (noteReads s i r).work.sliceBinds = r.work.sliceBinds := rfl
@[simp] theorem setReg_work_sliceBinds (r : Run) (n : Nat) (m : Mask) (x : VReg) : (setReg r n m x).work.sliceBinds = r.work.sliceBinds := rfl
@[simp] theorem writePred_work_sliceBinds (r : Run) (n : Nat) (m v : Mask) : (writePred r n m v).work.sliceBinds = r.work.sliceBinds := rfl
@[simp] theorem noteReads_work_sched (s : State) (i : Instr) (r : Run) : (noteReads s i r).work.sched = r.work.sched := rfl
@[simp] theorem setReg_work_sched (r : Run) (n : Nat) (m : Mask) (x : VReg) : (setReg r n m x).work.sched = r.work.sched := rfl
@[simp] theorem writePred_work_sched (r : Run) (n : Nat) (m v : Mask) : (writePred r n m v).work.sched = r.work.sched := rfl
@[simp] theorem noteReads_work_since (s : State) (i : Instr) (r : Run) : (noteReads s i r).work.since = r.work.since := rfl
@[simp] theorem setReg_work_since (r : Run) (n : Nat) (m : Mask) (x : VReg) : (setReg r n m x).work.since = r.work.since := rfl
@[simp] theorem writePred_work_since (r : Run) (n : Nat) (m v : Mask) : (writePred r n m v).work.since = r.work.since := rfl
@[simp] theorem noteReads_work_waitFrom (s : State) (i : Instr) (r : Run) : (noteReads s i r).work.waitFrom = r.work.waitFrom := rfl
@[simp] theorem setReg_work_waitFrom (r : Run) (n : Nat) (m : Mask) (x : VReg) : (setReg r n m x).work.waitFrom = r.work.waitFrom := rfl
@[simp] theorem writePred_work_waitFrom (r : Run) (n : Nat) (m v : Mask) : (writePred r n m v).work.waitFrom = r.work.waitFrom := rfl
@[simp] theorem noteReads_work_waitFor (s : State) (i : Instr) (r : Run) : (noteReads s i r).work.waitFor = r.work.waitFor := rfl
@[simp] theorem setReg_work_waitFor (r : Run) (n : Nat) (m : Mask) (x : VReg) : (setReg r n m x).work.waitFor = r.work.waitFor := rfl
@[simp] theorem writePred_work_waitFor (r : Run) (n : Nat) (m v : Mask) : (writePred r n m v).work.waitFor = r.work.waitFor := rfl
@[simp] theorem noteReads_work_freeFrom (s : State) (i : Instr) (r : Run) : (noteReads s i r).work.freeFrom = r.work.freeFrom := rfl
@[simp] theorem setReg_work_freeFrom (r : Run) (n : Nat) (m : Mask) (x : VReg) : (setReg r n m x).work.freeFrom = r.work.freeFrom := rfl
@[simp] theorem writePred_work_freeFrom (r : Run) (n : Nat) (m v : Mask) : (writePred r n m v).work.freeFrom = r.work.freeFrom := rfl
@[simp] theorem noteReads_work_leftLane (s : State) (i : Instr) (r : Run) : (noteReads s i r).work.leftLane = r.work.leftLane := rfl
@[simp] theorem setReg_work_leftLane (r : Run) (n : Nat) (m : Mask) (x : VReg) : (setReg r n m x).work.leftLane = r.work.leftLane := rfl
@[simp] theorem writePred_work_leftLane (r : Run) (n : Nat) (m v : Mask) : (writePred r n m v).work.leftLane = r.work.leftLane := rfl
@[simp] theorem noteReads_work_draining (s : State) (i : Instr) (r : Run) : (noteReads s i r).work.draining = r.work.draining := rfl
@[simp] theorem setReg_work_draining (r : Run) (n : Nat) (m : Mask) (x : VReg) : (setReg r n m x).work.draining = r.work.draining := rfl
@[simp] theorem writePred_work_draining (r : Run) (n : Nat) (m v : Mask) : (writePred r n m v).work.draining = r.work.draining := rfl
@[simp] theorem noteReads_work_haltedFrom (s : State) (i : Instr) (r : Run) : (noteReads s i r).work.haltedFrom = r.work.haltedFrom := rfl
@[simp] theorem setReg_work_haltedFrom (r : Run) (n : Nat) (m : Mask) (x : VReg) : (setReg r n m x).work.haltedFrom = r.work.haltedFrom := rfl
@[simp] theorem writePred_work_haltedFrom (r : Run) (n : Nat) (m v : Mask) : (writePred r n m v).work.haltedFrom = r.work.haltedFrom := rfl
@[simp] theorem noteReads_work_stopped (s : State) (i : Instr) (r : Run) : (noteReads s i r).work.stopped = r.work.stopped := rfl
@[simp] theorem setReg_work_stopped (r : Run) (n : Nat) (m : Mask) (x : VReg) : (setReg r n m x).work.stopped = r.work.stopped := rfl
@[simp] theorem writePred_work_stopped (r : Run) (n : Nat) (m v : Mask) : (writePred r n m v).work.stopped = r.work.stopped := rfl
@[simp] theorem noteReads_work_diverted (s : State) (i : Instr) (r : Run) : (noteReads s i r).work.diverted = r.work.diverted := rfl
@[simp] theorem setReg_work_diverted (r : Run) (n : Nat) (m : Mask) (x : VReg) : (setReg r n m x).work.diverted = r.work.diverted := rfl
@[simp] theorem writePred_work_diverted (r : Run) (n : Nat) (m v : Mask) : (writePred r n m v).work.diverted = r.work.diverted := rfl
@[simp] theorem noteReads_work_mismatches (s : State) (i : Instr) (r : Run) : (noteReads s i r).work.mismatches = r.work.mismatches := rfl
@[simp] theorem setReg_work_mismatches (r : Run) (n : Nat) (m : Mask) (x : VReg) : (setReg r n m x).work.mismatches = r.work.mismatches := rfl
@[simp] theorem writePred_work_mismatches (r : Run) (n : Nat) (m v : Mask) : (writePred r n m v).work.mismatches = r.work.mismatches := rfl

end Sys2Proof.Machine
end

