-- ==== Sys2Proof/Laws/Memory.lean ====
section
/-! SUPPORT. The laws of memory: a byte reads as it was last written, the rest as before; every memory operation keeps the canonical
form; and the same for scratchpads. -/

namespace Sys2Proof.Machine

/-! The canonical form. -/

theorem memWfFrom_mono {m : Memory} {lo hi : Nat} (h : memWfFrom hi m = true) (le : lo ≤ hi) : memWfFrom lo m = true := by
  cases m with
  | nil => rfl
  | cons x m => simp [memWfFrom] at h ⊢; exact ⟨⟨by omega, h.1.2⟩, h.2⟩

/-- Below its bound a memory in canonical form lists nothing. -/
theorem memGet_below {m : Memory} {lo a : Nat} (h : memWfFrom lo m = true) (lt : a < lo) : memGet m a = 0 := by
  cases m with
  | nil => rfl
  | cons x m => simp [memWfFrom] at h; simp [memGet, show ¬x.1 = a by omega, show a < x.1 by omega]

theorem memSet_wfFrom {m : Memory} {lo a : Nat} (b : Byte) (h : memWfFrom lo m = true) (le : lo ≤ a) :
    memWfFrom lo (memSet m a b) = true := by
  induction m generalizing lo with
  | nil => unfold memSet; split <;> simp_all [memWfFrom]
  | cons x m ih =>
    obtain ⟨k, c⟩ := x
    simp [memWfFrom] at h
    unfold memSet
    split
    · split
      · exact memWfFrom_mono h.2 (by omega)
      · subst k; simp_all [memWfFrom]
    · split
      · split
        · simp_all [memWfFrom]
        · simp_all [memWfFrom] <;> omega
      · simp [memWfFrom, h]; exact ih h.2 (by omega)

/-- Writing a byte keeps the canonical form. -/
theorem memSet_wf {m : Memory} (a : Nat) (b : Byte) (h : Memory.wf m = true) : Memory.wf (memSet m a b) = true :=
  memSet_wfFrom b h (by omega)

/-- Writing bytes keeps the canonical form. -/
theorem memWrite_wf {m : Memory} (a : Nat) (bs : List Byte) (h : Memory.wf m = true) : Memory.wf (memWrite m a bs) = true := by
  induction bs generalizing m a with
  | nil => exact h
  | cons b bs ih => exact ih _ (memSet_wf a b h)

/-! Read after write. -/

theorem memGet_memSet_from {m : Memory} {lo : Nat} (a c : Nat) (b : Byte) (h : memWfFrom lo m = true) :
    memGet (memSet m a b) c = if c = a then b else memGet m c := by
  induction m generalizing lo with
  | nil =>
    unfold memSet
    split
    · rename_i hb; simp [memGet, hb]
    · by_cases hc : c = a
      · simp [memGet, hc]
      · simp [memGet, hc, Ne.symm hc]
  | cons x m ih =>
    obtain ⟨k, d⟩ := x
    simp [memWfFrom] at h
    unfold memSet
    split
    · rename_i hk
      have h0 : memGet m a = 0 := memGet_below h.2 (by omega)
      split
      · by_cases hc : c = a
        · subst c; simp [*]
        · simp only [hc, ite_false, memGet]
          split
          · omega
          · split
            · exact memGet_below h.2 (by omega)
            · rfl
      · simp only [memGet]; subst k
        by_cases hc : c = a
        · simp [hc]
        · simp [hc, Ne.symm hc]
    · split
      · split
        · by_cases hc : c = a
          · subst c; simp [memGet, *]
          · simp [hc]
        · by_cases hc : c = a
          · simp [hc, memGet]
          · simp only [memGet, hc, Ne.symm hc, ite_false]
            split
            · rename_i hca
              simp [show ¬k = c by omega, show c < k by omega]
            · rfl
      · simp only [memGet, ih h.2]
        by_cases hc : c = a
        · subst c; simp [*]
        · simp [hc]

/-- A byte reads as it was last written; every other byte as before. -/
theorem memGet_memSet {m : Memory} (a c : Nat) (b : Byte) (h : Memory.wf m = true) :
    memGet (memSet m a b) c = if c = a then b else memGet m c := memGet_memSet_from a c b h

/-- Bytes read as they were last written; every other byte as before. -/
theorem memGet_memWrite {m : Memory} (a c : Nat) (bs : List Byte) (h : Memory.wf m = true) :
    memGet (memWrite m a bs) c = if a ≤ c ∧ c < a + bs.length then bs.getD (c - a) 0 else memGet m c := by
  induction bs generalizing m a with
  | nil => simp [memWrite] <;> omega
  | cons b bs ih =>
    rw [memWrite, ih _ (memSet_wf a b h), memGet_memSet _ _ _ h]
    by_cases h1 : a + 1 ≤ c ∧ c < a + 1 + bs.length
    · have : c - a = (c - (a + 1)) + 1 := by omega
      simp [h1, this, show a ≤ c ∧ c < a + (bs.length + 1) by omega]
    · rw [if_neg h1]
      by_cases h2 : c = a
      · subst c; simp
      · rw [if_neg h2, if_neg (by simp only [List.length_cons]; omega)]

@[simp] theorem memRead_length (m : Memory) (a n : Nat) : (memRead m a n).length = n := by
  induction n generalizing a with
  | zero => rfl
  | succ n ih => simp [memRead, ih]

theorem memRead_getD (m : Memory) (a n k : Nat) : (memRead m a n).getD k 0 = if k < n then memGet m (a + k) else 0 := by
  induction n generalizing a k with
  | zero => simp [memRead]
  | succ n ih =>
    cases k with
    | zero => simp [memRead]
    | succ k => simp only [memRead, List.getD_cons_succ, ih]; simp [show a + 1 + k = a + (k + 1) by omega]

/-! Scratchpads. -/

/-- A scratchpad's written bytes: addresses strictly rising. -/
def cellsWf (lo : Nat) : Memory → Bool
  | [] => true
  | (k, _) :: m => lo ≤ k && cellsWf (k + 1) m

theorem cellsWf_mono {m : Memory} {lo hi : Nat} (h : cellsWf hi m = true) (le : lo ≤ hi) : cellsWf lo m = true := by
  cases m with
  | nil => rfl
  | cons x m => simp [cellsWf] at h ⊢; exact ⟨by omega, h.2⟩

theorem cellSet_wf {m : Memory} {lo a : Nat} (b : Byte) (h : cellsWf lo m = true) (le : lo ≤ a) : cellsWf lo (cellSet m a b) = true := by
  induction m generalizing lo with
  | nil => simp [cellSet, cellsWf, le]
  | cons x m ih =>
    obtain ⟨k, c⟩ := x
    simp [cellsWf] at h
    unfold cellSet
    split
    · subst k; simp_all [cellsWf]
    · split
      · simp_all [cellsWf] <;> omega
      · simp [cellsWf, h]; exact ih h.2 (by omega)

theorem cellWrite_wf {m : Memory} (a : Nat) (bs : List Byte) (h : cellsWf 0 m = true) : cellsWf 0 (cellWrite m a bs) = true := by
  induction bs generalizing m a with
  | nil => exact h
  | cons b bs ih => exact ih _ (cellSet_wf b h (by omega))

/-- A cell reads as it was last written, without any assumption on the list. -/
theorem cellGet_cellSet (m : Memory) (a c : Nat) (b : Byte) :
    cellGet (cellSet m a b) c = if c = a then some b else cellGet m c := by
  induction m with
  | nil =>
    by_cases hc : c = a
    · simp [cellSet, cellGet, hc]
    · simp [cellSet, cellGet, hc, Ne.symm hc]
  | cons x m ih =>
    obtain ⟨k, d⟩ := x
    unfold cellSet
    split
    · subst k
      by_cases hc : c = a
      · simp [cellGet, hc]
      · simp [cellGet, hc, Ne.symm hc]
    · split
      · by_cases hc : c = a
        · simp [hc, cellGet]
        · simp only [cellGet, hc, Ne.symm hc, ite_false]
          split
          · simp [show ¬k = c by omega, show c < k by omega]
          · rfl
      · simp only [cellGet, ih]
        by_cases hc : c = a
        · subst c; simp [*]
        · simp [hc]

theorem cellGet_cellWrite (m : Memory) (a c : Nat) (bs : List Byte) :
    cellGet (cellWrite m a bs) c = if a ≤ c ∧ c < a + bs.length then some (bs.getD (c - a) 0) else cellGet m c := by
  induction bs generalizing m a with
  | nil => simp [cellWrite] <;> omega
  | cons b bs ih =>
    rw [cellWrite, ih, cellGet_cellSet]
    by_cases h1 : a + 1 ≤ c ∧ c < a + 1 + bs.length
    · have : c - a = (c - (a + 1)) + 1 := by omega
      simp [h1, this, show a ≤ c ∧ c < a + (bs.length + 1) by omega]
    · rw [if_neg h1]
      by_cases h2 : c = a
      · subst c; simp
      · rw [if_neg h2, if_neg (by simp only [List.length_cons]; omega)]

@[simp] theorem scratchWrite_size (c : Scratch) (o : Nat) (b : List Byte) : (scratchWrite c o b).size = c.size := rfl
@[simp] theorem scratchWrite_persist (c : Scratch) (o : Nat) (b : List Byte) : (scratchWrite c o b).persist = c.persist := rfl
@[simp] theorem scratchWrite_epoch (c : Scratch) (o : Nat) (b : List Byte) : (scratchWrite c o b).epoch = c.epoch := rfl

/-- A scratchpad byte reads as it was last written; every other byte as before. -/
theorem scratchByte_scratchWrite (c : Scratch) (o k : Nat) (b : List Byte) :
    scratchByte (scratchWrite c o b) k = if o ≤ k ∧ k < o + b.length then b.getD (k - o) 0 else scratchByte c k := by
  simp only [scratchByte, scratchWrite, cellGet_cellWrite]
  by_cases h : o ≤ k ∧ k < o + b.length
  · simp [h]
  · rw [if_neg h, if_neg h]; rfl

/-! Writes at the homes. -/

@[simp] theorem overlay_length (o d : List Byte) (m : BitVec 64) : (overlay o d m).length = 64 := by simp [overlay]
theorem overlay_getD (o d : List Byte) (m : BitVec 64) (k : Nat) (h : k < 64) :
    (overlay o d m).getD k 0 = if m.getLsbD k then d.getD k 0 else o.getD k 0 := by
  simp [overlay, List.getD_eq_getElem?_getD, h]

@[simp] theorem modMeta_mem' (s : State) (pa : Nat) (f : SectorMeta → SectorMeta) : (modMeta s pa f).mem = s.mem := by simp

theorem performWrite_mem (s : State) (pa : Nat) (d : List Byte) (m : BitVec 64) (r : SigRule) :
    (performWrite s pa d m r).mem = memWrite s.mem (pa / 64 * 64) (overlay (memRead s.mem (pa / 64 * 64) 64) d m) := by
  simp [performWrite]

/-- A write of one sector changes the bytes of its mask, and no other byte of memory. -/
theorem performWrite_memGet (s : State) (pa : Nat) (d : List Byte) (m : BitVec 64) (r : SigRule) (a : Nat) (h : Memory.wf s.mem = true) :
    memGet (performWrite s pa d m r).mem a =
      if pa / 64 * 64 ≤ a ∧ a < pa / 64 * 64 + 64 ∧ m.getLsbD (a - pa / 64 * 64) then d.getD (a - pa / 64 * 64) 0 else memGet s.mem a := by
  rw [performWrite_mem, memGet_memWrite _ _ _ h]
  simp only [overlay_length]
  by_cases h1 : pa / 64 * 64 ≤ a ∧ a < pa / 64 * 64 + 64
  · rw [if_pos h1, overlay_getD _ _ _ _ (by omega), memRead_getD]
    simp [h1, show a - pa / 64 * 64 < 64 by omega, show pa / 64 * 64 + (a - pa / 64 * 64) = a by omega]
  · rw [if_neg h1, if_neg (fun h2 => h1 ⟨h2.1, h2.2.1⟩)]

end Sys2Proof.Machine
end

