-- ==== Sys2Proof/Laws/Ops.lean ====
section
/-! SUPPORT. What the shared operations do: the course of an instruction in its clause, register and predicate writes, results with their
flags, masks and lanes. -/

namespace Sys2Proof.Machine

/-! Lanes and masks. -/

theorem laneAt_map (f : Nat → Word) {t : Nat} (h : t < threads) : laneAt ((List.range threads).map f) t = f t := by
  simp only [threads] at h ⊢
  simp [laneAt, List.getD_eq_getElem?_getD, h]

theorem laneAt_splat (v : Word) {t : Nat} (h : t < threads) : laneAt (splat v) t = v := by
  simp only [threads] at h
  simp [laneAt, splat, List.getD_eq_getElem?_getD, h]

theorem laneAt_mergeLanes (m : Mask) (new old : Lanes) {t : Nat} (h : t < threads) :
    laneAt (mergeLanes m new old) t = if m.getLsbD t then laneAt new t else laneAt old t := laneAt_map _ h

theorem getLsbD_foldl_or (p : Nat → Bool) (l : List Nat) (m : Mask) (t : Nat) (h : t < 32) :
    (l.foldl (fun (m : Mask) t => if p t then m ||| (1 <<< t) else m) m).getLsbD t = (m.getLsbD t || (l.contains t && p t)) := by
  induction l generalizing m with
  | nil => simp
  | cons a l ih =>
    rw [List.foldl_cons, ih]
    by_cases hp : p a
    · by_cases ha : t = a
      · subst ha; simp [hp, h, BitVec.getLsbD_ofNat, Nat.testBit_shiftLeft]
      · have hb : (BitVec.ofNat 32 (1 <<< a)).getLsbD t = false := by
          rw [BitVec.getLsbD_ofNat, Nat.testBit_shiftLeft]
          by_cases hl : a ≤ t
          · have h1 : Nat.testBit 1 (t - a) = false := by
              rw [Bool.eq_false_iff]; intro hc
              exact absurd (Nat.testBit_one_eq_true_iff_self_eq_zero.mp hc) (by omega)
            simp [h1]
          · simp [hl]
        simp [hp, ha, hb]
    · by_cases ha : t = a
      · subst ha; simp [hp]
      · simp [hp, ha]

theorem getLsbD_maskOf (p : Nat → Bool) {t : Nat} (h : t < threads) : (maskOf p).getLsbD t = p t := by
  unfold maskOf
  rw [getLsbD_foldl_or _ _ _ _ h]
  simp only [threads] at h ⊢
  simp [h]

/-! The course of an instruction. -/

theorem nextWord_goesOn (s : State) (r : Run) : goesOn s r (nextWord s r) := by
  refine ⟨fun h => ?_, fun u h ha hu => ?_⟩
  · have h1 : (pastWord r).idx < (pastWord r).words.length := h
    simp only [nextWord, continueRun, h1, if_true]
  · have h1 : ¬(pastWord r).idx < (pastWord r).words.length := Nat.not_lt.mpr h
    have h2 : (pastWord r).arrival.isSome = false := by simp [ha]
    simp only [nextWord, continueRun, h1, if_false, h2, Bool.false_eq_true, completeRun, hu]

theorem withRun_ok {i : Instr} {s s1 : State} {r r1 : Run} {k : Run → Run → Except Stop (State × Run)} (h : s.run = some r)
    (hk : k r (noteReads s i r) = .ok (s1, r1)) : withRun i s k = .next (nextWord s1 r1) := by
  simp [withRun, h, hk]

theorem withRun_error {i : Instr} {s : State} {r : Run} {e : Stop} {k : Run → Run → Except Stop (State × Run)} (h : s.run = some r)
    (hk : k r (noteReads s i r) = .error e) : withRun i s k = .next (stopRun s r e) := by
  simp [withRun, h, hk]

theorem vector_ok {i : Instr} {f : Fields} {s : State} {r r1 : Run} {k : Run → Run → Mask → Except Stop Run} (h : s.run = some r)
    (hk : k r (noteReads s i r) (active r f) = .ok r1) : vector i f s k = .next (nextWord s r1) :=
  withRun_ok h (by simp [hk, bind, Except.bind])

theorem vector_error {i : Instr} {f : Fields} {s : State} {r : Run} {e : Stop} {k : Run → Run → Mask → Except Stop Run}
    (h : s.run = some r) (hk : k r (noteReads s i r) (active r f) = .error e) : vector i f s k = .next (stopRun s r e) :=
  withRun_error h (by simp [hk, bind, Except.bind])

theorem withEffect_ok {i : Instr} {s : State} {r : Run} {e : Effect} {k : Run → Run → Except Stop Effect} (h : s.run = some r)
    (hk : k r (noteReads s i r) = .ok e) :
    withEffect i s k = .next (nextWord s { noteReads s i r with effects := r.effects ++ [e] }) :=
  withRun_ok h (by simp [hk, bind, Except.bind])

theorem withEffect_error {i : Instr} {s : State} {r : Run} {e : Stop} {k : Run → Run → Except Stop Effect} (h : s.run = some r)
    (hk : k r (noteReads s i r) = .error e) : withEffect i s k = .next (stopRun s r e) :=
  withRun_error h (by simp [hk, bind, Except.bind])

/-! Register writes. -/

@[simp] theorem allocPhys_noteReads (s s1 : State) (i : Instr) (r : Run) : allocPhys s (noteReads s1 i r) = allocPhys s r := rfl

theorem canWrite_noteReads {s s1 : State} {i : Instr} {r : Run} {n : Nat} {m : Mask} (h : canWrite s r n m) :
    canWrite s (noteReads s1 i r) n m := h

/-- A register that can be written is written. -/
theorem writeReg_ok {s : State} {r : Run} {n : Nat} {m : Mask} (v : Lanes) (h : canWrite s r n m) :
    ∃ r1, writeReg s r n m v = .ok r1 ∧ wroteReg r n m (laneAt v) 0 r1 := by
  unfold writeReg
  by_cases hm : m = 0
  · exact ⟨r, by simp only [hm, if_true], r.work.regs, r.writes, by simp [hm], fun _ => ⟨rfl, rfl⟩, fun h => absurd hm h⟩
  · simp only [hm, if_false]
    cases hr : r.work.regs.getD n none with
    | some y =>
      refine ⟨_, rfl, r.work.regs.set n (some ⟨y.phys, mergeLanes m v y.vals, mirrorFor s r y.phys y.mirror⟩),
        r.writes ++ [(n, m, uniform (mergeLanes m v y.vals))], by simp only [setReg, if_neg hm]; simp,
        fun h => absurd h hm, fun _ => ⟨_, rfl, by rw [hr]; rfl, ?_, ?_⟩⟩
      · intro z hz; rw [hr] at hz; cases hz; rfl
      · intro t ht; rw [laneAt_mergeLanes _ _ _ ht]; simp only [regLanes, hr]
    | none =>
      simp only [canWrite, hm, hr, false_or, Option.isSome_none, Bool.false_eq_true] at h
      obtain ⟨p, hp⟩ := Option.isSome_iff_exists.mp h
      simp only [hp]
      refine ⟨_, rfl, r.work.regs.set n (some ⟨p, mergeLanes m v (splat 0), mirrorFor s r p none⟩),
        r.writes ++ [(n, BitVec.allOnes 32, uniform (mergeLanes m v (splat 0)))], by simp only [setReg, if_neg hm]; simp,
        fun h => absurd h hm, fun _ => ⟨_, rfl, by rw [hr]; rfl, ?_, ?_⟩⟩
      · intro z hz; rw [hr] at hz; cases hz
      · intro t ht; rw [laneAt_mergeLanes _ _ _ ht]; simp only [regLanes, hr]

/-- One that cannot be written makes the swarm wait for a register (R35). -/
theorem writeReg_held {s : State} {r : Run} {n : Nat} {m : Mask} (v : Lanes) (h : ¬canWrite s r n m) :
    writeReg s r n m v = .error (.held 0 .regs) := by
  simp only [canWrite, not_or] at h
  obtain ⟨hm, hr, ha⟩ := h
  have hr' : r.work.regs.getD n none = none := by cases hx : r.work.regs.getD n none <;> simp_all
  have ha' : allocPhys s r = none := by cases hx : allocPhys s r <;> simp_all
  simp only [writeReg, hm, if_false, hr', ha']

theorem wroteReg_raise {w r : Run} {n : Nat} {m : Mask} {v v' : Nat → Word} {fl : BitVec 6} (h : wroteReg w n m v 0 r)
    (hv : ∀ t, t < threads → m.getLsbD t = true → v t = v' t) : wroteReg w n m v' fl (raise r fl) := by
  obtain ⟨regs, writes, rfl, h0, h1⟩ := h
  refine ⟨regs, writes, ?_, h0, fun hm => ?_⟩
  · simp only [raise]; by_cases hs : w.ref.slice = true <;> simp [hs]
  · obtain ⟨x, hx, hw, hp, hl⟩ := h1 hm
    refine ⟨x, hx, hw, hp, fun t ht => ?_⟩
    rw [hl t ht]
    by_cases hmt : m.getLsbD t = true
    · simp [hmt, hv t ht hmt]
    · simp [hmt]

/-- The flags that the threads of a mask raise. -/
theorem flagsOf_results_zero (m : Mask) (g : Nat → Rounded) (h : ∀ t, (g t).flags = 0) : flagsOf (results m g) = 0 := by
  have key : ∀ l : List Rounded, (∀ x ∈ l, x.flags = 0) → ∀ a : BitVec 6, l.foldl (fun f x => f ||| x.flags) a = a := by
    intro l
    induction l with
    | nil => intros; rfl
    | cons x l ih => intro hl a; rw [List.foldl_cons, hl x (by simp), ih (fun y hy => hl y (by simp [hy]))]; simp
  apply key
  intro x hx
  simp only [results, List.mem_map] at hx
  obtain ⟨t, _, rfl⟩ := hx
  split
  · exact h t
  · rfl

theorem laneAt_results (m : Mask) (g : Nat → Rounded) {t : Nat} (h : t < threads) (hm : m.getLsbD t = true) :
    laneAt ((results m g).map fun x => BitVec.ofNat 32 x.bits) t = BitVec.ofNat 32 (g t).bits := by
  rw [results, List.map_map, laneAt_map _ h]; simp [hm]

/-- Results are written into a register that can be written, and their flags raised. -/
theorem writeResult_ok {s : State} {r : Run} {d : BitVec 8} {m : Mask} (g : Nat → Rounded) (h : canWrite s r d.toNat m) :
    ∃ r1, writeResult s r d m g = .ok r1 ∧ wroteReg r d.toNat m (fun t => BitVec.ofNat 32 (g t).bits) (flagsOf (results m g)) r1 := by
  obtain ⟨r1, h1, h2⟩ := writeReg_ok ((results m g).map fun x => BitVec.ofNat 32 x.bits) h
  refine ⟨raise r1 (flagsOf (results m g)), by simp [writeResult, h1, bind, Except.bind], wroteReg_raise h2 ?_⟩
  intro t ht hm
  exact laneAt_results m g ht hm

/-- A vector instruction that writes results completes. -/
theorem vector_result {i : Instr} {f : Fields} {s : State} {r : Run} {d : BitVec 8} {k : Run → Run → Mask → Except Stop Run} {g : Nat → Rounded}
    (h : s.run = some r) (hc : canWrite s r d.toNat (active r f))
    (hk : k r (noteReads s i r) (active r f) = writeResult s (noteReads s i r) d (active r f) g) :
    ∃ r1, vector i f s k = .next (nextWord s r1) ∧
      wroteReg (noteReads s i r) d.toNat (active r f) (fun t => BitVec.ofNat 32 (g t).bits) (flagsOf (results (active r f) g)) r1 := by
  obtain ⟨r1, h1, h2⟩ := writeResult_ok g (canWrite_noteReads (s1 := s) (i := i) hc)
  exact ⟨r1, vector_ok h (hk.trans h1), h2⟩

/-! Predicate writes. -/

theorem writePred_wrote (w : Run) (n : Nat) (m v : Mask) (hn : n < 64) : wrotePred w n m v.getLsbD (writePred w n m v) := by
  refine ⟨(predBits w.work n &&& ~~~m) ||| (v &&& m), by simp only [writePred, Nat.mod_eq_of_lt hn], fun t ht => ?_⟩
  simp only [threads] at ht
  simp only [predBits, Nat.mod_eq_of_lt hn, BitVec.getLsbD_or, BitVec.getLsbD_and, BitVec.getLsbD_not, ht, decide_true, Bool.true_and]
  by_cases h : m.getLsbD t = true <;> simp [h]

theorem wrotePred_congr {w r : Run} {n : Nat} {m : Mask} {v v' : Nat → Bool} (h : wrotePred w n m v r)
    (hv : ∀ t, t < threads → m.getLsbD t = true → v t = v' t) : wrotePred w n m v' r := by
  obtain ⟨x, hx, hl⟩ := h
  refine ⟨x, hx, fun t ht => ?_⟩
  rw [hl t ht]
  by_cases hm : m.getLsbD t = true
  · simp [hm, hv t ht hm]
  · simp [hm]

/-! What a vector instruction writes. -/

theorem wroteReg_congr {w r : Run} {n : Nat} {m : Mask} {v v' : Nat → Word} {fl : BitVec 6} (h : wroteReg w n m v fl r)
    (hv : ∀ t, t < threads → m.getLsbD t = true → v t = v' t) : wroteReg w n m v' fl r := by
  obtain ⟨regs, writes, rfl, h0, h1⟩ := h
  refine ⟨regs, writes, rfl, h0, fun hm => ?_⟩
  obtain ⟨x, hx, hw, hp, hl⟩ := h1 hm
  refine ⟨x, hx, hw, hp, fun t ht => ?_⟩
  rw [hl t ht]
  by_cases hmt : m.getLsbD t = true
  · simp [hmt, hv t ht hmt]
  · simp [hmt]

/-- A vector instruction whose body writes results completes with them, or waits for a register. -/
theorem writes_of {i : Instr} {f : Fields} {s : State} {r : Run} {d : BitVec 8} {k : Run → Run → Mask → Except Stop Run} {g : Nat → Rounded}
    {v : Nat → Word} {fl : BitVec 6}
    (hr : s.run = some r) (he : exec i s = vector i f s k)
    (hk : k r (noteReads s i r) (active r f) = writeResult s (noteReads s i r) d (active r f) g)
    (hv : ∀ t, t < threads → (active r f).getLsbD t = true → BitVec.ofNat 32 (g t).bits = v t)
    (hf : flagsOf (results (active r f) g) = fl) : writesWord i f d s r v fl := by
  refine ⟨fun hc => ?_, fun hc => ?_⟩
  · obtain ⟨r1, h1, h2⟩ := vector_result hr hc hk
    refine ⟨r1, ⟨_, he.trans h1, nextWord_goesOn _ _⟩, ?_⟩
    rw [hf] at h2
    exact wroteReg_congr h2 hv
  · rw [he]
    refine vector_error hr (hk.trans ?_)
    simp [writeResult, writeReg_held _ (show ¬canWrite s (noteReads s i r) _ _ from hc), bind, Except.bind]

/-- The same for results that raise no flag. -/
theorem plain_writes {i : Instr} {f : Fields} {s : State} {r : Run} {d : BitVec 8} {k : Run → Run → Mask → Except Stop Run} {g : Nat → Nat}
    {v : Nat → Word}
    (hr : s.run = some r) (he : exec i s = vector i f s k)
    (hk : k r (noteReads s i r) (active r f) = writeResult s (noteReads s i r) d (active r f) (fun t => ⟨g t, 0⟩))
    (hv : ∀ t, t < threads → (active r f).getLsbD t = true → BitVec.ofNat 32 (g t) = v t) : writesWord i f d s r v 0 :=
  writes_of hr he hk hv (flagsOf_results_zero _ _ fun _ => rfl)

/-- A vector instruction that writes a predicate completes. -/
theorem writesPred_of {i : Instr} {f : Fields} {n : BitVec 8} {s : State} {r : Run} {k : Run → Run → Mask → Except Stop Run} {x : Mask}
    {v : Nat → Bool} {fl : BitVec 6}
    (hr : s.run = some r) (he : exec i s = vector i f s k)
    (hk : k r (noteReads s i r) (active r f) = .ok (raise (writePred (noteReads s i r) n.toNat (active r f) x) fl))
    (hv : ∀ t, t < threads → (active r f).getLsbD t = true → x.getLsbD t = v t) : writesPred i f n s r v fl := by
  refine ⟨_, ⟨_, he.trans (vector_ok hr hk), nextWord_goesOn _ _⟩, ?_⟩
  have h := writePred_wrote (noteReads s i r) (n.toNat % 64) (active r f) x (Nat.mod_lt _ (by decide))
  have e : writePred (noteReads s i r) (n.toNat % 64) (active r f) x = writePred (noteReads s i r) n.toNat (active r f) x := by
    simp only [writePred, Nat.mod_mod]
  rw [e] at h
  exact wrotePred_congr h hv

theorem raise_zero (r : Run) : raise r 0 = r := by simp [raise]

/-! What sending a packet does (R395, R408, R414). -/

theorem mem_upPorts {s : State} {k : Nat} : k ∈ upPorts s ↔ (s.fabric.ports[k]?).any Port.up = true := by
  simp only [upPorts, List.mem_map, List.mem_filter, Prod.exists, exists_eq_right]
  cases h : s.fabric.ports[k]? <;> simp [List.mk_mem_zipIdx_iff_getElem?, h]

theorem mem_planesTo {s : State} {k dst : Nat} :
    k ∈ planesTo s dst ↔ k ∈ upPorts s ∧ ∀ p ∈ s.fabric.peers, p.num = dst → k ∉ p.down := by
  simp [planesTo, List.mem_filter]

theorem choosePlane_mem {s : State} {dst : Nat} (h : planesTo s dst ≠ []) : choosePlane s dst ∈ planesTo s dst := by
  simp only [choosePlane, List.getD_eq_getElem?_getD, List.getElem?_eq_getElem (Nat.mod_lt _ (List.length_pos_iff.mpr h)), Option.getD_some]
  exact List.getElem_mem _

/-- A packet to another module goes out on a plane it may take; or, when there is none, it waits. -/
theorem send_goes {s : State} {p : Packet} (h : p.dst ≠ ownMod s) (hl : s.fabric.ports.length ≤ 36) :
    (∃ k ∈ planesTo s p.dst, send s p = modFabric s fun f => { f with outbox := f.outbox ++ [(k, p)] }) ∨
      (planesTo s p.dst = [] ∧ send s p = modFabric s fun f => { f with planeWaits := f.planeWaits ++ [(36, p)] }) := by
  by_cases he : planesTo s p.dst = []
  · exact .inr ⟨he, by simp [send, sendOn, choosePlane, he, h, List.getElem?_eq_none hl]⟩
  · have hm := choosePlane_mem he
    exact .inl ⟨_, hm, by simp [send, sendOn, h, mem_upPorts.mp (mem_planesTo.mp hm).1]⟩

end Sys2Proof.Machine
end

