-- ==== Sys2Proof/Tests/Slice0.lean ====
section
/-! SUPPORT. Tests of the model by evaluation: decoding, well-formedness, one step of single instructions and events, and for every
statement of Certificates/Slice0 states that meet the hypotheses of its clauses. Expected values are computed by hand from the rules named,
or are the specification's own worked examples. -/

namespace Sys2Proof.Tests

open Machine Claims

set_option maxRecDepth 100000
set_option Elab.async false

/-! The state the tests start from. -/

/-- A register's values by thread. -/
def lanesOf (g : Nat → Nat) : Lanes := (List.range 32).map fun t => BitVec.ofNat 32 (g t)
/-- The same value in every thread. -/
def same (v : Nat) : Nat → Nat := fun _ => v
def ref1 : SwarmRef := ⟨1, 0, 0, false⟩
def wg1 : WgRef := ⟨1, 0⟩
/-- A page of plain data of context 1, and one of cells. -/
def dataPage : Mapping := ⟨1, 0x200000, 0x10000, 0x200000, true, false, false, none, none, false⟩
def cellPage : Mapping := ⟨1, 0x300000, 0x1000, 0x300000, true, false, true, none, none, false⟩
/-- The swarm of the tests, v0, v1, … holding the values given. -/
def swarm1 (regs : List (Nat → Nat)) : Swarm :=
  { placedSwarm wg1 with
    regs := (regs.mapIdx fun k g => some ⟨k, lanesOf g, none⟩) ++ List.replicate (128 - regs.length) none
    dsLim := 4
    dsBase := 0x208000 }
/-- A clause of n words at its first word. -/
def run1 (w : Swarm) (n : Nat := 1) : Run := newRun w .a 0x1000 0 (List.replicate n 0) 0 0
/-- The machine with one resident launch of one swarm, whose clause is in flight. -/
def demo (regs : List (Nat → Nat)) (n : Nat := 1) : State :=
  { State.reset with
    launches := [placedLaunch 0 1]
    wgs := [placedWg wg1]
    swarms := [swarm1 regs]
    dies := [{ Die.reset with tlb := [dataPage, cellPage] }, Die.reset, Die.reset, Die.reset]
    nextSeq := 2
    nextId := 1
    run := some (run1 (swarm1 regs) n) }
/-- The clause in flight of a test state. -/
def runOf (s : State) : Run := s.run.getD (run1 (swarm1 []))
/-- The next state, and a value of it. -/
def after (i : Instr) (s : State) : Option State :=
  match exec i s with
  | .next t => some t
  | _ => none
def regAt (o : Option State) (n t : Nat) : Option Nat := (o.bind fun s => swarm? s ref1).map fun w => (laneAt (regLanes w n) t).toNat
def modeOf (o : Option State) : Option Nat := (o.bind fun s => swarm? s ref1).map fun w => w.mode.toNat
def predOf (o : Option State) (n : Nat) : Option Mask := (o.bind fun s => swarm? s ref1).map fun w => w.preds.getD n 0
def slotAOf (o : Option State) : Option (Nat × Mask) := (o.bind fun s => swarm? s ref1).map fun w => (w.slotA.pc.toNat, w.slotA.mask)
/-- The trap of the record that a stopped clause left: whether its swarm is stopped. -/
def stoppedOf (o : Option State) : Option Bool := (o.bind fun s => swarm? s ref1).map fun w => w.stopped
/-- Register-form fields: TYPE, OPX, destination v3, sources v0, v1, v2. -/
def fa (tyc : BitVec 4) (opx : BitVec 6 := 0) : Fields := ⟨3, 0, 1, 2, tyc, opx, false, 0, 0, 0⟩
/-- Immediate-form fields: destination v3, source v0. -/
def fb (tyc : BitVec 4) (imm : BitVec 16) (opx : BitVec 6 := 0) : Fields :=
  ⟨3, 0, imm.extractLsb' 8 8, imm.extractLsb' 0 8, tyc, opx, false, 0, 0, 0⟩

/-! Decoding: words written out from R74, R75 and the entries' encodings; the specification's worked encodings where it has them. -/

/-- The instruction a word decodes to. -/
def read (w : DWord) : Option Instr :=
  match decodeWord w with
  | .ok i => some i
  | .error _ => none
def isHeader (w : DWord) : Bool :=
  match decodeWord w with
  | .error .header => true
  | _ => false
theorem test_decode_integer : read 0x0003010200300080 = some (.iaddReg ⟨3, 1, 2, 0, 3, 0, false, 0, 1, 0⟩) := by decide +kernel
theorem test_decode_float : read 0x4207030407902485 = some (.ffmaReg ⟨7, 3, 4, 7, 9, 0, true, 1, 1, 5⟩) := by decide +kernel
theorem test_decode_logic : read 0x23050102033A0000 = some (.tern ⟨5, 1, 2, 3, 3, 0x28, false, 0, 0, 0⟩) := by decide +kernel
theorem test_decode_immediate : read 0x1009090000300000 = some (.iaddImm ⟨9, 9, 0, 0, 3, 0, false, 0, 0, 0⟩) := by decide +kernel
theorem test_decode_control : read 0x5000000005002001 = some (.bra ⟨0, 0, 0, 5, 0, 0, true, 0, 0, 1⟩) ∧
    read 0x52FFFFFFF9030000 = some (.beod ⟨0xFF, 0xFF, 0xFF, 0xF9, 0, 0x0C, false, 0, 0, 0⟩) := by decide +kernel
theorem test_decode_memory : read 0x6008040040710000 = some (.ld ⟨8, 4, 0, 0x40, 7, 4, false, 0, 0, 0⟩) ∧
    read 0x6109060000709400 = some (.st ⟨9, 6, 0, 0, 7, 2, false, 5, 0, 0⟩) := by decide +kernel
theorem test_decode_queue : read 0x730C00030011C000 = some (.qpop ⟨12, 0, 3, 0, 1, 7, false, 0, 0, 0⟩) := by decide +kernel
theorem test_decode_cell : read 0x750804000080D800 = some (.propose ⟨8, 4, 0, 0, 8, 3, false, 6, 0, 0⟩) := by decide +kernel
theorem test_decode_matrix : read 0x8A03141617B14000 = some (.drain ⟨3, 0x14, 0x16, 0x17, 0xB, 5, false, 0, 0, 0⟩) := by decide +kernel
theorem test_decode_stream : read 0x9000140000000000 = some (.wbind ⟨0, 0x14, 0, 0, 0, 0, false, 0, 0, 0⟩) := by decide +kernel
theorem test_decode_task : read 0xA002000000004000 = some (.fetch ⟨2, 0, 0, 0, 0, 1, false, 0, 0, 0⟩) ∧
    read 0xA100000100000000 = some (.commit ⟨0, 0, 1, 0, 0, 0, false, 0, 0, 0⟩) ∧
    read 0xA30A040040008000 = some (.enq ⟨10, 4, 0, 0x40, 0, 2, false, 0, 0, 0⟩) := by decide +kernel
theorem test_decode_fabric : read 0xB10C060040005C00 = some (.rput ⟨12, 6, 0, 0x40, 0, 1, false, 7, 0, 0⟩) ∧
    read 0xB20C060000000000 = some (.mcast ⟨12, 6, 0, 0, 0, 0, false, 0, 0, 0⟩) ∧
    read 0xB308040000910000 = some (.cred ⟨8, 4, 0, 0, 9, 4, false, 0, 0, 0⟩) ∧
    read 0xB402140000000000 = some (.genfence ⟨2, 0x14, 0, 0, 0, 0, false, 0, 0, 0⟩) := by decide +kernel
theorem test_decode_prefix : read 0xE000000005000000 = some (.imx ⟨0, 0, 0, 5, 0, 0, false, 0, 0, 0⟩) ∧
    read 0xE100000009000000 = some (.msk ⟨0, 0, 0, 9, 0, 0, false, 0, 0, 0⟩) := by decide +kernel
theorem test_decode_refused : isHeader 0xF011F8FC00000000 = true ∧ read 0xF011F8FC00000000 = none ∧ read 0x9500000000000000 = none := by
  decide +kernel
/-- Worked encodings pass the word checks (R82). -/
theorem test_worked_words_wellFormed : (Instr.iaddReg ⟨3, 1, 2, 0, 3, 0, false, 0, 1, 0⟩).wellFormed = true ∧
    (Instr.ffmaReg ⟨7, 3, 4, 7, 9, 0, true, 1, 1, 5⟩).wellFormed = true ∧ (Instr.ld ⟨8, 4, 0, 0x40, 7, 4, false, 0, 0, 0⟩).wellFormed = true ∧
    (Instr.drain ⟨3, 0x14, 0x16, 0x17, 0xB, 5, false, 0, 0, 0⟩).wellFormed = true ∧
    (Instr.cred ⟨8, 4, 0, 0, 9, 4, false, 0, 0, 0⟩).wellFormed = true := by decide +kernel

/-! Well-formedness: for each check of R82 on one word, words that it refuses. -/

/-- Check 8: rounding 7. Check 10: reserved fields and codes. -/
theorem smoke_reserved : ∀ i ∈ [Instr.faddReg ⟨3, 0, 1, 0, 9, 0, false, 7, 0, 0⟩, .v2p ⟨64, 0, 0, 0, 0, 0, false, 0, 0, 0⟩,
    .exit ⟨0, 1, 0, 0, 0, 0, false, 0, 0, 0⟩, .iaddReg ⟨3, 0x90, 1, 0, 3, 0, false, 0, 0, 0⟩, .brev ⟨3, 0, 1, 0, 0, 0, false, 0, 0, 0⟩,
    .iaddReg ⟨3, 0, 1, 1, 3, 0, false, 0, 0, 0⟩, .exit ⟨0, 0, 0, 1, 0, 0, false, 0, 0, 0⟩, .iaddReg ⟨3, 0, 1, 0, 3, 0, false, 1, 0, 0⟩,
    .iaddReg ⟨3, 0, 1, 0, 3, 0, false, 0, 0, 1⟩, .nop ⟨0, 0, 0, 0, 0, 0, true, 0, 0, 0⟩, .iaddReg ⟨3, 0xF1, 1, 0, 3, 0, false, 0, 1, 0⟩,
    .getsr ⟨3, 0, 5, 0, 0, 0, false, 0, 0, 0⟩, .imx ⟨0, 0, 0, 0, 0, 0, false, 0, 0, 1⟩, .msk ⟨1, 0, 0, 0, 0, 0, false, 0, 0, 0⟩],
    i.wellFormed = false := by decide +kernel
/-- Check 11: registers, destinations, pairs, quads, streams, names, SEL, TYPE and OPX, scopes, the link pair. -/
theorem smoke_illegal : ∀ i ∈ [Instr.iaddReg ⟨128, 0, 1, 0, 3, 0, false, 0, 0, 0⟩, .iaddw ⟨2, 1, 4, 0, 4, 0, false, 0, 0, 0⟩,
    .gather ⟨2, 0, 0, 0, 7, 0, false, 0, 0, 0⟩, .fgstart ⟨0, 2, 0, 0, 0, 0, false, 0, 0, 0⟩, .spush ⟨0x90, 0, 0, 0, 0, 0, false, 0, 0, 0⟩,
    .accfree ⟨64, 0, 0, 0, 0, 0, false, 0, 0, 0⟩, .rels ⟨16, 0, 0, 0, 0, 0, false, 0, 0, 0⟩, .accrd ⟨4, 3, 0, 0, 0, 2, false, 0, 0, 0⟩,
    .mma ⟨0, 0, 4, 0, 1, 1, false, 0, 0, 0⟩, .grow ⟨0, 0, 2, 0, 0, 0, false, 0, 0, 0⟩, .iaddReg ⟨3, 0, 1, 0, 9, 0, false, 0, 0, 0⟩,
    .iaddReg ⟨3, 0, 1, 0, 3, 2, false, 0, 0, 0⟩, .fence ⟨0, 0, 1, 0, 0, 0, false, 0, 0, 0⟩, .invl1 ⟨0, 0, 1, 0, 0, 0, false, 0, 0, 0⟩,
    .call ⟨0, 0, 0, 0, 0, 4, false, 0, 0, 0⟩, .msk ⟨0, 0, 0, 0x80, 0, 0, false, 0, 0, 0⟩],
    i.wellFormed = false := by decide +kernel

/-! Integer arithmetic (R95 to R100). -/

/-- Bytes FE + 03, 01 + 02, FF + 02, 80 + 80 saturate unsigned; FSAT is bit 21 of MODE. -/
theorem test_iadd_bytes : regAt (after (.iaddReg (fa 5 1)) (demo [same 0x80FF01FE, same 0x80020203])) 3 7 = some 0xFFFF03FF ∧
    modeOf (after (.iaddReg (fa 5 1)) (demo [same 0x80FF01FE, same 0x80020203])) = some 0x200001 := by decide +kernel
theorem test_iadd_wraps : regAt (after (.iaddReg (fa 7)) (demo [same 0xFFFFFFFF, same 2])) 3 0 = some 1 ∧
    modeOf (after (.iaddReg (fa 7)) (demo [same 0xFFFFFFFF, same 2])) = some 1 := by decide +kernel
theorem test_iadd_imm_signed : regAt (after (.iaddImm (fb 3 0xFFFF)) (demo [same 5])) 3 0 = some 4 := by decide +kernel
theorem test_isub_halves : regAt (after (.isubReg (fa 2)) (demo [same 0x00050001, same 0x00020003])) 3 0 = some 0x0003FFFE := by decide +kernel
theorem test_isub_imm_unsigned : regAt (after (.isubImm (fb 7 0xFFFF)) (demo [same 0x10000])) 3 0 = some 1 := by decide +kernel
theorem test_imul_signed_sat : regAt (after (.imulReg (fa 3 1)) (demo [same 0x80000000, same 2])) 3 0 = some 0x80000000 ∧
    regAt (after (.imulImm (fb 3 0xFFFE 1)) (demo [same 0x80000000])) 3 0 = some 0x7FFFFFFF := by decide +kernel
theorem test_imulh_signs : regAt (after (.imulh (fa 3)) (demo [same 0xFFFFFFFE, same 3])) 3 0 = some 0xFFFFFFFF ∧
    regAt (after (.imulh (fa 7)) (demo [same 0xFFFFFFFE, same 3])) 3 0 = some 2 := by decide +kernel
theorem test_imad : regAt (after (.imad (fa 3)) (demo [same 3, same 0xFFFFFFFC, same 5])) 3 0 = some 0xFFFFFFF9 := by decide +kernel
theorem test_imin_imax : regAt (after (.iminReg (fa 1)) (demo [same 0x7F80FF01, same 0x80000002])) 3 0 = some 0x8080FF01 ∧
    regAt (after (.imaxReg (fa 5)) (demo [same 0x7F80FF01, same 0x80000002])) 3 0 = some 0x8080FF02 ∧
    regAt (after (.iminImm (fb 3 0xFFFF)) (demo [same 0])) 3 0 = some 0xFFFFFFFF ∧
    regAt (after (.imaxImm (fb 7 0xFFFF)) (demo [same 0])) 3 0 = some 0xFFFF := by decide +kernel
theorem test_iabs_most_negative : regAt (after (.iabs (fa 3)) (demo [same 0x80000000])) 3 0 = some 0x80000000 ∧
    regAt (after (.iabs (fa 3 1)) (demo [same 0x80000000])) 3 0 = some 0x7FFFFFFF := by decide +kernel
/-- The carry of FFFFFFFF + 1, and the borrow of 0 - 1, into p2. -/
theorem test_addc_subb : regAt (after (.addc (fa 7)) (demo [same 0xFFFFFFFF, same 1])) 3 0 = some 0 ∧
    predOf (after (.addc (fa 7)) (demo [same 0xFFFFFFFF, same 1])) 2 = some 0xFFFFFFFF ∧
    regAt (after (.subb (fa 7)) (demo [same 0, same 1])) 3 0 = some 0xFFFFFFFF ∧
    predOf (after (.subb (fa 7)) (demo [same 0, same 1])) 2 = some 0xFFFFFFFF := by decide +kernel
theorem test_iaddw_carries : regAt (after (.iaddw ⟨4, 0, 2, 0, 8, 0, false, 0, 0, 0⟩) (demo [same 0xFFFFFFFF, same 1, same 1, same 2])) 4 0 = some 0 ∧
    regAt (after (.iaddw ⟨4, 0, 2, 0, 8, 0, false, 0, 0, 0⟩) (demo [same 0xFFFFFFFF, same 1, same 1, same 2])) 5 0 = some 4 := by decide +kernel
theorem test_imadw_signed : regAt (after (.imadw ⟨4, 0, 1, 2, 4, 0, false, 0, 0, 0⟩) (demo [same 0xFFFFFFFF, same 2, same 1, same 0])) 4 0 =
      some 0xFFFFFFFF ∧
    regAt (after (.imadw ⟨4, 0, 1, 2, 4, 0, false, 0, 0, 0⟩) (demo [same 0xFFFFFFFF, same 2, same 1, same 0])) 5 0 = some 0xFFFFFFFF := by decide +kernel
theorem test_idot4_isad : regAt (after (.idot4 (fa 1)) (demo [same 0x010203FF, same 0x01010102, same 10])) 3 0 = some 14 ∧
    regAt (after (.isad (fa 5)) (demo [same 0x010203FF, same 0x01010102, same 10])) 3 0 = some 266 := by decide +kernel
theorem test_popc_clz : regAt (after (.popc (fa 0)) (demo [same 0xF0F1])) 3 0 = some 9 ∧ regAt (after (.clz (fa 0)) (demo [same 0x10000])) 3 0 = some 15 ∧
    regAt (after (.clz (fa 0)) (demo [same 0])) 3 0 = some 32 := by decide +kernel
/-- A guarded instruction writes in its guard's threads only: p0 is 0 everywhere, so nothing is written, and p0 inverted writes. -/
theorem test_guard : regAt (after (.iaddReg ⟨1, 0, 0, 0, 7, 0, true, 0, 0, 0⟩) (demo [same 3, same 9])) 1 0 = some 9 ∧
    regAt (after (.iaddReg ⟨1, 0, 0, 0, 7, 0, true, 0, 0, 0x40⟩) (demo [same 3, same 9])) 1 0 = some 6 := by decide +kernel

/-! Logic, shifts, bit fields and moves (R101 to R104). -/

theorem test_logic : regAt (after (.andReg (fa 0)) (demo [same 0xC, same 0xA])) 3 0 = some 8 ∧
    regAt (after (.orReg (fa 0)) (demo [same 0xC, same 0xA])) 3 0 = some 14 ∧ regAt (after (.xorReg (fa 0)) (demo [same 0xC, same 0xA])) 3 0 = some 6 ∧
    regAt (after (.andImm (fb 0 0xFF)) (demo [same 0x1234])) 3 0 = some 0x34 ∧ regAt (after (.orImm (fb 0 0xFF)) (demo [same 0x1200])) 3 0 = some 0x12FF ∧
    regAt (after (.xorImm (fb 0 0xFFFF)) (demo [same 0xFFFFFFFF])) 3 0 = some 0xFFFF0000 := by decide +kernel
/-- Table 0xE8 (TT in bits 21:14) is the majority of three. -/
theorem test_tern_majority : regAt (after (.tern ⟨3, 0, 1, 2, 3, 0x28, false, 0, 0, 0⟩) (demo [same 0xF0, same 0xCC, same 0xAA])) 3 0 = some 0xE8 := by decide +kernel
theorem test_shifts_by_the_width : regAt (after (.shlReg (fa 0)) (demo [same 1, same 32])) 3 0 = some 0 ∧
    regAt (after (.shrReg (fa 0)) (demo [same 0x80000000, same 100])) 3 0 = some 0 ∧
    regAt (after (.sarReg (fa 0)) (demo [same 0x80000000, same 100])) 3 0 = some 0xFFFFFFFF ∧
    regAt (after (.fshlReg (fa 0)) (demo [same 0xAAAA0000, same 0x5555, same 0])) 3 0 = some 0xAAAA0000 ∧
    regAt (after (.fshrReg (fa 0)) (demo [same 0xAAAA0000, same 0x5555, same 32])) 3 0 = some 0xAAAA0000 := by decide +kernel
theorem test_shifts_immediate : regAt (after (.shlImm (fb 0 4)) (demo [same 0x11])) 3 0 = some 0x110 ∧ regAt (after (.shrImm (fb 0 4)) (demo [same 0x11])) 3 0 = some 1 ∧
    regAt (after (.sarImm (fb 0 4)) (demo [same 0x80000000])) 3 0 = some 0xF8000000 ∧
    regAt (after (.fshlImm (fb 0 8)) (demo [same 0x12345678, same 0x9ABCDEF0])) 3 0 = some 0xBCDEF012 ∧
    regAt (after (.fshrImm (fb 0 8)) (demo [same 0x12345678, same 0x9ABCDEF0])) 3 0 = some 0xF0123456 := by decide +kernel
theorem test_bit_fields : regAt (after (.brev (fa 0)) (demo [same 3])) 3 0 = some 0xC0000000 ∧
    regAt (after (.bfxReg (fa 3)) (demo [same 0xF0, same 0x0404])) 3 0 = some 0xFFFFFFFF ∧ regAt (after (.bfxImm (fb 7 0x0404)) (demo [same 0xF0])) 3 0 = some 15 ∧
    regAt (after (.bfiReg (fa 0)) (demo [same 0xFF, same 0, same 0x0408])) 3 0 = some 0xF00 ∧
    regAt (after (.bfiImm ⟨1, 0, 0x04, 0x08, 0, 0, false, 0, 0, 0⟩) (demo [same 0, same 0xFFFF])) 1 0 = some 0xF0FF := by decide +kernel
/-- Nibbles 0, 4, 9 (byte 1's sign) and 7 of {b, a}. -/
theorem test_perm : regAt (after (.perm (fa 0)) (demo [same 0x00008011, same 0x77000022, same 0x7940])) 3 0 = some 0x77FF2211 := by decide +kernel
theorem test_moves : regAt (after (.sel (fa 0)) (demo [same 1, same 2])) 3 0 = some 2 ∧ regAt (after (.mov ⟨4, 0, 0, 0, 8, 0, false, 0, 0, 0⟩) (demo [same 1, same 2])) 5 0 = some 2 ∧
    regAt (after (.movi ⟨3, 0, 0x3F, 0x80, 9, 0, false, 0, 0, 0⟩) (demo [])) 3 0 = some 0x3F800000 ∧ regAt (after (.p2v (fa 0)) (demo [])) 3 0 = some 0 := by decide +kernel
/-- V2P from p62 on writes p62 and p63 alone. -/
theorem test_v2p_stops_at_p63 : (predOf (after (.v2p ⟨62, 0, 0, 0, 0, 0, false, 0, 0, 0⟩) (demo [same 0xFFFFFFFE])) 62,
    predOf (after (.v2p ⟨62, 0, 0, 0, 0, 0, false, 0, 0, 0⟩) (demo [same 0xFFFFFFFE])) 63,
    predOf (after (.v2p ⟨62, 0, 0, 0, 0, 0, false, 0, 0, 0⟩) (demo [same 0xFFFFFFFE])) 0) = (some 0, some 0xFFFFFFFF, some 0) := by decide +kernel

/-! Compares and cross-thread operations (R105, R106, R114 to R116). -/

theorem test_icmp : predOf (after (.icmp ⟨5, 0, 1, 0, 3, 2, false, 0, 0, 0⟩) (demo [same 0xFFFFFFFF, same 1])) 5 = some 0xFFFFFFFF ∧
    predOf (after (.icmp ⟨5, 0, 1, 0, 7, 2, false, 0, 0, 0⟩) (demo [same 0xFFFFFFFF, same 1])) 5 = some 0 := by decide +kernel
/-- +0 equals -0; a quiet NaN is unordered with itself and raises nothing. -/
theorem test_fcmp : predOf (after (.fcmp ⟨5, 0, 1, 0, 9, 0, false, 0, 0, 0⟩) (demo [same 0, same 0x80000000])) 5 = some 0xFFFFFFFF ∧
    predOf (after (.fcmp ⟨5, 0, 0, 0, 9, 6, false, 0, 0, 0⟩) (demo [same 0x7FC00000])) 5 = some 0xFFFFFFFF ∧
    modeOf (after (.fcmp ⟨5, 0, 0, 0, 9, 6, false, 0, 0, 0⟩) (demo [same 0x7FC00000])) = some 1 ∧
    modeOf (after (.fcmp ⟨5, 0, 0, 0, 9, 6, false, 0, 0, 0⟩) (demo [same 0x7F800001])) = some 0x10001 := by decide +kernel
/-- Table 1: true when the three predicates are 0. -/
theorem test_plop : predOf (after (.plop ⟨5, 0, 1, 2, 0, 1, false, 0, 0, 0⟩) (demo [])) 5 = some 0xFFFFFFFF := by decide +kernel
/-- R114's example: PICK.ROT by one gives thread t the value of thread t - 1. -/
theorem test_pick_rot : regAt (after (.pick (fa 0 1)) (demo [fun t => 10 * t, same 1])) 3 0 = some 310 ∧
    regAt (after (.pick (fa 0 1)) (demo [fun t => 10 * t, same 1])) 3 5 = some 40 := by decide +kernel
/-- A source above 31 names no thread. -/
theorem test_pick_at_outside : regAt (after (.pick (fa 0 0)) (demo [fun t => 10 * t, same 32])) 3 5 = some 50 := by decide +kernel
theorem test_pgath_count : regAt (after (.pgath ⟨3, 0, 0, 0, 0, 4, false, 0, 0, 0⟩) (demo [])) 3 0 = some 0 ∧
    regAt (after (.pgath ⟨3, 0, 0, 0, 0, 2, false, 0, 0, 0⟩) (demo [])) 3 0 = some 1 := by decide +kernel
theorem test_sred : regAt (after (.sred (fa 7 0)) (demo [fun t => t])) 3 9 = some 496 ∧ regAt (after (.sred (fa 3 1)) (demo [fun t => t + 0xFFFFFFF0])) 3 9 = some 0xFFFFFFF0 ∧
    regAt (after (.sred (fa 9 0)) (demo [same 0x3F800000])) 3 0 = some 0x42000000 := by decide +kernel
/-- X: 2^100 and -2^100 cancel exactly, and the 30 ones are left. -/
theorem test_sred_exact : regAt (after (.sred (fa 9 8)) (demo [fun t => if t = 0 then 0x71800000 else if t = 31 then 0xF1800000 else 0x3F800000])) 3 0 =
    some 0x41F00000 := by decide +kernel
/-- Thirty steps short of its end REDL has folded one element and holds its place. -/
theorem test_redl_first_element : ((after (.redl ⟨3, 0, 1, 2, 7, 0, false, 0, 0, 0⟩) (demo [same 0, same 4, same 256])).bind State.run).map
    (fun r => (r.work.prog, r.idx)) = some (1, 0) := by decide +kernel
theorem test_redl_empty : regAt (after (.redl ⟨3, 0, 1, 2, 7, 0, false, 0, 0, 0⟩) (demo [same 0, same 0, same 256])) 3 0 = some 0 := by decide +kernel

/-! Floating point (R107 to R113): exact values, and the worked examples of the entries. -/

theorem test_fadd_ffma : regAt (after (.faddReg (fa 9)) (demo [same 0x3F800000, same 0x40000000])) 3 0 = some 0x40400000 ∧
    regAt (after (.ffmaReg (fa 9)) (demo [same 0x40000000, same 0x40400000, same 0x3F800000])) 3 0 = some 0x40E00000 ∧
    regAt (after (.faddImm (fb 9 0x4000)) (demo [same 0x3F800000])) 3 0 = some 0x40400000 ∧
    regAt (after (.ffmaImm ⟨1, 0, 0x40, 0, 9, 0, false, 0, 0, 0⟩) (demo [same 0x40400000, same 0x3F800000])) 1 0 = some 0x40E00000 := by decide +kernel
/-- 0.1 × 0.1 in binary32, inexact: FINX is bit 20. -/
theorem test_fmul_inexact : regAt (after (.fmulReg (fa 9)) (demo [same 0x3DCCCCCD, same 0x3DCCCCCD])) 3 0 = some 0x3C23D70B ∧
    modeOf (after (.fmulReg (fa 9)) (demo [same 0x3DCCCCCD, same 0x3DCCCCCD])) = some 0x100001 ∧
    regAt (after (.fmulImm (fb 9 0x4000)) (demo [same 0x3F800000])) 3 0 = some 0x40000000 := by decide +kernel
theorem test_fmin_fmax : regAt (after (.fminReg (fa 9)) (demo [same 0, same 0x80000000])) 3 0 = some 0x80000000 ∧
    regAt (after (.fmaxReg (fa 9)) (demo [same 0x80000000, same 0])) 3 0 = some 0 ∧ regAt (after (.fminImm (fb 9 0x4000)) (demo [same 0x3F800000])) 3 0 = some 0x3F800000 ∧
    regAt (after (.fmaxImm (fb 9 0x4000)) (demo [same 0x3F800000])) 3 0 = some 0x40000000 := by decide +kernel
/-- 1 / 0 is an infinity, with FDZ (bit 17) alone. -/
theorem test_fdiv_by_zero : regAt (after (.fdiv (fa 9)) (demo [same 0x3F800000, same 0])) 3 0 = some 0x7F800000 ∧
    modeOf (after (.fdiv (fa 9)) (demo [same 0x3F800000, same 0])) = some 0x20001 := by decide +kernel
theorem test_roots_and_powers : regAt (after (.fsqrt (fa 9)) (demo [same 0x40800000])) 3 0 = some 0x40000000 ∧
    regAt (after (.frcp (fa 9)) (demo [same 0x40800000])) 3 0 = some 0x3E800000 ∧ regAt (after (.frsq (fa 9)) (demo [same 0x40800000])) 3 0 = some 0x3F000000 ∧
    regAt (after (.fexp2 (fa 9)) (demo [same 0x40400000])) 3 0 = some 0x41000000 ∧ regAt (after (.flog2 (fa 9)) (demo [same 0x41000000])) 3 0 = some 0x40400000 := by
  decide +kernel
theorem test_cvt : regAt (after (.cvt ⟨3, 0, 0, 0, 3, 9, false, 0, 0, 0⟩) (demo [same 0xC0600000])) 3 0 = some 0xFFFFFFFC ∧
    regAt (after (.cvt ⟨3, 0, 0, 0, 9, 7, false, 0, 0, 0⟩) (demo [same 3])) 3 0 = some 0x40400000 ∧
    regAt (after (.cvt ⟨3, 0, 0, 0, 11, 9, false, 0, 0, 0⟩) (demo [same 0x3F800000])) 3 0 = some 0x3F80 := by decide +kernel
theorem test_packed_halves : regAt (after (.pradd (fa 10)) (demo [same 0x3C004000, same 0x3C003C00])) 3 0 = some 0x40004200 ∧
    regAt (after (.prmul (fa 11)) (demo [same 0x40003F80, same 0x40004000])) 3 0 = some 0x40804000 ∧
    regAt (after (.prfma (fa 10)) (demo [same 0x3C003C00, same 0x40004000, same 0x3C003C00])) 3 0 = some 0x42004200 := by decide +kernel
/-- The element of the worked example of Number Formats: code 14, scale byte 0xA0, S = 0.5. -/
theorem test_qunpk_worked : regAt (after (.qunpk (fa 9)) (demo [same 0xE, same 0x3F000000, same 0xA0])) 3 0 = some 0x3E688000 := by decide +kernel
/-- The example of R113. -/
theorem test_qscale_qpack_worked : regAt (after (.qscale (fa 14)) (demo [same 0x3E99999A, same 0x3F800000])) 3 0 = some 77 ∧
    regAt (after (.qscale ⟨3, 0, 1, 0, 14, 0, false, 4, 0, 0⟩) (demo [same 0x3E99999A, same 0x3F800000])) 3 0 = some 78 ∧
    regAt (after (.qpack (fa 14)) (demo [same 0x3E99999A, same 0x3F800000, same 0x280])) 3 0 = some 0xD00 ∧
    regAt (after (.qpack ⟨3, 0, 1, 2, 14, 0, false, 4, 0, 0⟩) (demo [same 0x3E99999A, same 0x3F800000, same 0x280])) 3 0 = some 0xE00 := by decide +kernel

/-! States that meet the hypotheses of the statements. -/

/-- A computation that answers, and what holds of its answer. -/
def onOk {α : Type} (x : Except Stop α) (p : α → Bool) : Bool :=
  match x with
  | .ok a => p a
  | .error _ => false
theorem of_onOk {α : Type} {x : Except Stop α} {p : α → Bool} (h : onOk x p = true) : ∃ a, x = .ok a ∧ p a = true := by
  cases x with
  | ok a => exact ⟨a, rfl, h⟩
  | error e => simp [onOk] at h
theorem all_onOk {α : Type} {x : Except Stop α} {p : α → Bool} (h : onOk x p = true) : ∀ a, x = .ok a → p a = true := by
  obtain ⟨a, e, ha⟩ := of_onOk h
  intro b hb
  rw [e] at hb
  cases hb
  exact ha
def onError {α : Type} (x : Except Stop α) (p : Stop → Bool) : Bool :=
  match x with
  | .ok _ => false
  | .error e => p e
theorem of_onError {α : Type} {x : Except Stop α} {p : Stop → Bool} (h : onError x p = true) : ∃ e, x = .error e ∧ p e = true := by
  cases x with
  | ok a => simp [onError] at h
  | error e => exact ⟨e, rfl, h⟩

/-- The conditions to write registers, as they evaluate. -/
def canB (s : State) (r : Run) (n : Nat) (m : Mask) : Bool :=
  m == 0 || (r.work.regs.getD n none).isSome || (allocPhys s r).isSome
theorem canB_iff {s : State} {r : Run} {n : Nat} {m : Mask} : canB s r n m = true ↔ canWrite s r n m := by
  simp [canB, canWrite, or_assoc]
def regsB (s : State) (n : Nat) (m : Mask) : Nat → Run → Bool
  | 0, _ => true
  | k + 1, r => canB s r n m && onOk (writeReg s r n m (splat 0)) (regsB s (n + 1) m k)
theorem regsB_spec {s : State} {m : Mask} : ∀ {k n : Nat} {r : Run}, regsB s n m k r = true → canWriteRegs s r n m k
  | 0, _, _, _ => trivial
  | _ + 1, _, _, h => by
    simp only [regsB, Bool.and_eq_true] at h
    exact ⟨canB_iff.1 h.1, fun r1 e => regsB_spec (all_onOk h.2 r1 e)⟩
theorem pairB_spec {s : State} {m : Mask} {n : Nat} {r : Run} (h : regsB s n m 2 r = true) : canWritePair s r n m :=
  ⟨(regsB_spec h).1, fun r1 e => ((regsB_spec h).2 r1 e).1⟩
/-- The same for what a read needs. -/
def readB (s : State) (r : SwarmRef) (a : Nat) : Bool :=
  onOk (translateData s (dieOf r.core) (ctxOf s (wgOf r)) a false) fun x => (elsewhere s x.1).isSome || (sectorFault s x.2).isNone
theorem readB_spec {s : State} {r : SwarmRef} {a : Nat} (h : readB s r a = true) : readable s r a := by
  obtain ⟨x, e, hx⟩ := of_onOk h
  exact ⟨x.1, x.2, e, by simpa using hx⟩
def transB (s : State) (r : SwarmRef) (a : Nat) (write : Bool) : Bool :=
  onOk (translate s (dieOf r.core) (ctxOf s (wgOf r)) a write) fun _ => true
def storeB (s : State) (r : SwarmRef) (a : Nat) : Bool :=
  onOk (translateData s (dieOf r.core) (ctxOf s (wgOf r)) a true) fun _ => true
theorem storeB_spec {s : State} {r : SwarmRef} {a : Nat} (h : storeB s r a = true) : storable s r a := by
  obtain ⟨x, e, _⟩ := of_onOk h
  exact ⟨x, e⟩
theorem transB_spec {s : State} {r : SwarmRef} {a : Nat} {write : Bool} (h : transB s r a write = true) : translates s r a write := by
  obtain ⟨x, e, _⟩ := of_onOk h
  exact ⟨x, e⟩
theorem allActive_of {r : Run} {f : Fields} {P : Nat → Bool} {Q : Nat → Prop} (h : ∀ t, t < threads → (active r f).getLsbD t = true → P t = true)
    (i : ∀ t, P t = true → Q t) : allActive r f Q := fun t lt a => i t (h t lt a)

/-- The workgroups changed; bytes of words with errors in their scratchpads; bytes in them; the clause in flight changed. -/
def modWgs (s : State) (g : Workgroup → Workgroup) : State := { s with wgs := s.wgs.map g }
def scratchBad (s : State) (l : List Nat) : State := modWgs s fun g => { g with scratch := { g.scratch with bad := l } }
def scratchHas (s : State) (o : Nat) (b : List Byte) : State := modWgs s fun g => { g with scratch := scratchWrite g.scratch o b }
def modWork (s : State) (g : Swarm → Swarm) : State := { s with run := s.run.map fun r => { r with work := g r.work } }
def wgNow (s : State) : Workgroup := (wg? s wg1).getD (placedWg wg1)
def errs {α : Type} (x : Except Stop α) : Bool := onError x fun _ => true
/-- Four registers with values; the clause in flight. -/
def s0 : State := demo [same 0xFFFFFFFF, same 2, same 3, same 4]
def r0 : Run := runOf s0
/-- A lane whose other swarm reserves all of it: no register is granted beyond the reservation of 0. -/
def starved : State :=
  let w := { swarm1 [] with rsv := 0, rmax := 128 }
  { demo [] with
    swarms := [w, { swarm1 [] with ref := ⟨1, 0, 1, false⟩, rsv := 512, rmax := 512, sched := .ready }]
    run := some (run1 w) }
def guarded : Fields := { fa 7 with ge := true }

theorem witness_vectors : s0.run = some r0 ∧ canB s0 r0 3 (active r0 (fa 7)) = true ∧ canB s0 r0 7 (active r0 (fa 7)) = true ∧
    canB s0 r0 3 (active r0 guarded) = true ∧ starved.run = some (runOf starved) ∧ canB starved (runOf starved) 3 (active (runOf starved) (fa 7)) = false := by
  decide +kernel
theorem witness_IntegerArithmetic : s0.run = some r0 ∧ (∀ t ∈ Shape.packed, ∃ c : BitVec 4, (fa c).ty = t) ∧ (∀ t ∈ Shape.int32, ∃ c : BitVec 4, (fa c).ty = t) ∧
    canWrite s0 r0 3 (active r0 (fa 3)) ∧ (Instr.iaddReg ⟨3, 0, 1, 0, 5, 1, false, 0, 0, 0⟩).wellFormed = true :=
  ⟨by decide +kernel, by decide +kernel, by decide +kernel, canB_iff.1 (by decide +kernel), by decide +kernel⟩
theorem witness_CarriesAndPairs : s0.run = some r0 ∧ canWrite s0 r0 3 (active r0 (fa 7)) ∧ canWritePair s0 r0 2 (active r0 (fa 4)) ∧
    canWritePair s0 r0 6 (active r0 (fa 4)) ∧ (fa 4).ty = .s64 ∧ (fa 8).ty = .n64 ∧ (Instr.addc (fa 7)).wellFormed = true ∧
    (Instr.subb ⟨3, 0, 1, 63, 7, 0, false, 0, 0, 0⟩).wellFormed = true ∧ (Instr.iaddw ⟨4, 0, 2, 0, 4, 1, false, 0, 0, 0⟩).wellFormed = true :=
  ⟨by decide +kernel, canB_iff.1 (by decide +kernel), pairB_spec (by decide +kernel), pairB_spec (by decide +kernel), by decide +kernel⟩
theorem witness_PackedSumsAndCounts : s0.run = some r0 ∧ (fa 1).ty = .s8 ∧ (fa 5).ty = .n8 ∧ canWrite s0 r0 3 (active r0 (fa 1)) ∧
    (Instr.popc ⟨3, 0, 0, 0, 0, 0, false, 0, 0, 0⟩).wellFormed = true :=
  ⟨by decide +kernel, by decide +kernel, by decide +kernel, canB_iff.1 (by decide +kernel), by decide +kernel⟩
theorem witness_LogicAndShifts : s0.run = some r0 ∧ canWrite s0 r0 3 (active r0 (fa 0)) ∧ (Instr.andReg ⟨3, 0, 1, 0, 0, 0, false, 0, 0, 0⟩).wellFormed = true ∧
    (Instr.fshlImm ⟨3, 0, 0, 31, 0, 0, false, 0, 0, 0⟩).wellFormed = true :=
  ⟨by decide +kernel, canB_iff.1 (by decide +kernel), by decide +kernel⟩
theorem witness_BitFields : s0.run = some r0 ∧ canWrite s0 r0 3 (active r0 (fa 0)) ∧ (Instr.bfxReg ⟨3, 0, 1, 0, 3, 0, false, 0, 0, 0⟩).wellFormed = true ∧
    fieldPos 0x00FF ∈ [32] ∧ fieldLen 0x2000 = 32 ∧ fieldLen 0x0020 = 0 :=
  ⟨by decide +kernel, canB_iff.1 (by decide +kernel), by decide +kernel⟩
theorem witness_Moves : s0.run = some r0 ∧ (fa 0).ty ≠ .n64 ∧ (fa 8).ty = .n64 ∧ canWritePair s0 r0 2 (active r0 (fa 8)) ∧ (63#8).toNat < 64 ∧
    (Instr.sel ⟨3, 0, 1, 63, 0, 0, false, 0, 0, 0⟩).wellFormed = true ∧ (Instr.movi ⟨3, 0, 1, 2, 9, 0, false, 0, 0, 0⟩).wellFormed = true ∧
    (Instr.p2v ⟨3, 63, 0, 0, 0, 0, false, 0, 0, 0⟩).wellFormed = true :=
  ⟨by decide +kernel, by decide +kernel, by decide +kernel, pairB_spec (by decide +kernel), by decide +kernel⟩
theorem witness_ComparesAndPredicateLogic : s0.run = some r0 ∧ (fa 3).ty ∈ Shape.int32 ∧ (fa 4).ty = .s64 ∧
    (Instr.plop ⟨5, 63, 0, 1, 3, 0x28, false, 0, 0, 0⟩).wellFormed = true := by decide +kernel
theorem witness_AcrossThreads : s0.run = some r0 ∧ canWrite s0 r0 3 (active r0 (fa 3)) ∧ (∃ t, t < threads ∧ (active r0 (fa 3)).getLsbD t = true) ∧
    (∀ k ∈ [0, 1, 2, 3, 4], ((fa 0 (BitVec.ofNat 6 k)).opx.extractLsb' 0 3).toNat = k) ∧ (fa 3).ty ∈ Shape.int32 ∧ (fa 3 5).opx.getLsbD 3 = false ∧
    (fa 9).ty = .f32 ∧ (Instr.pgath ⟨3, 63, 0, 0, 0, 4, false, 0, 0, 0⟩).wellFormed = true ∧ (Instr.pick ⟨3, 0, 1, 0, 0, 3, false, 0, 0, 0⟩).wellFormed = true :=
  ⟨by decide +kernel, canB_iff.1 (by decide +kernel), ⟨0, by decide +kernel⟩, by decide +kernel⟩

/-- REDL of 4 elements at 0 with its work area at 3,952, the last 144 bytes of the scratchpad. -/
def sRedl (a n c prog : Nat) : State :=
  let s := demo [same a, same n, same c]
  let r := runOf s
  { s with run := some { r with work := { r.work with prog } } }
/-- Element 1 signals after element 0, a one: the addition is invalid. -/
def sRedlNaN (mode : Word) : State :=
  modWork (scratchHas (scratchHas (sRedl 0 2 3952 1) 4 (natToBytes 4 0x7FA00000)) 3952 (natToBytes 4 0x3F800000 ++ List.replicate 124 0 ++ natToBytes 4 1))
    fun w => { w with mode }
def redStops (s : State) : Option Nat :=
  let r := runOf s
  let f := fa 9
  enabledTrap r.work.mode (redElement (redCleared s r f 3952) r f (wgNow (redCleared s r f 3952)).scratch 3952
    (bytesToNat (seen (redCleared s r f 3952) (wgNow (redCleared s r f 3952)) 4 4))).2
theorem witness_LongReduction :
    (∀ x ∈ [(0, 4, 3952, 0), (0, 4, 3952, 3), (0, 4, 3952, 4), (4080, 4, 0, 0), (8000, 0, 0, 0)], let s := sRedl x.1 x.2.1 x.2.2.1 x.2.2.2
      s.run = some (runOf s) ∧ wg? s (wgOf (runOf s).ref) = some (placedWg wg1) ∧
      ¬((x.2.1 ≠ 0 ∧ (placedWg wg1).scratch.size < x.1 + 4 * x.2.1) ∨ (placedWg wg1).scratch.size < x.2.2.1 + 144 ∨
        ((placedWg wg1).frozen = true ∧ x.2.2.1 < (placedWg wg1).scratch.persist)) ∧
      (val s (runOf s) 0 0).toNat = x.1 ∧ (runOf s).work.prog = x.2.2.2) ∧ (placedWg wg1).scratch.bad = [] ∧
    -- beyond the end, and misaligned
    (placedWg wg1).scratch.size < 4084 + 4 * 4 ∧ (placedWg wg1).scratch.size < 3968 + 144 ∧ 2 % 4 ≠ 0 ∧ 8 % 16 ≠ 0 ∧
    -- the element's word has an error
    (let s := redCleared (scratchBad (sRedl 0 4 3952 1) [4]) (runOf (sRedl 0 4 3952 1)) (fa 9) 3952
     errs (scratchSeen s (wgNow s) 4 4)) = true ∧
    redStops (sRedlNaN 1) = none ∧ redStops (sRedlNaN 0x101) = some 0x100 ∧
    canB (redCleared s0 r0 (fa 9) 0) r0 3 (runMask r0) = true := by decide +kernel
theorem witness_LongReductionIsTheIndexTree : ([1, 2, 3] : List Nat).length < 2 ^ 32 := by decide +kernel
theorem witness_FloatArithmetic : s0.run = some r0 ∧ canWrite s0 r0 3 (active r0 (fa 9)) := ⟨by decide +kernel, canB_iff.1 (by decide +kernel)⟩
theorem witness_PackedFloatsAndConversions : s0.run = some r0 ∧ (fa 12).ty.isFloat = true ∧ (fa 9).ty.wide = false ∧ (fa 4).ty.wide = true ∧
    canWrite s0 r0 3 (active r0 (fa 14)) ∧ canWritePair s0 r0 2 (active r0 (fa 4)) :=
  ⟨by decide +kernel, by decide +kernel, by decide +kernel, by decide +kernel, canB_iff.1 (by decide +kernel), pairB_spec (by decide +kernel)⟩
def exactBits (F : Fmt) (w : Nat) : Bool :=
  match F.decode false w with
  | .fin _ num _ => decide (2 ^ F.frac ≤ num) || num == 0 || w == 1
  | _ => false
/-- The largest, the smallest normal, the smallest subnormal and a zero of each format. -/
theorem witness_RoundedResults : ∀ x ∈ [(fmtF32, 0x7F7FFFFF), (fmtF32, 0x00800000), (fmtF32, 1), (fmtF16, 0x7BFF), (fmtBF16, 0x7F7F),
    (fmtE5M2, 0x7B), (fmtE4M3, 0x7E), (fmtE4M3, 0)], x.2 < 2 ^ x.1.width ∧ ((x.1.decode false x.2).isNan = false) ∧
    exactBits x.1 x.2 = true := by decide +kernel

/-! Control flow and swarm state. -/

/-- A branch pair of targets in v0:v1. -/
def sTargets (lo : Nat) : State := demo [same lo, same 0]
theorem witness_Branches : s0.run = some r0 ∧ canWritePair s0 r0 2 (active r0 (fa 0)) ∧
    (∀ x ∈ pairTargets (sTargets 0x2000) (runOf (sTargets 0x2000)) (fa 0), x.2.toNat % 8 = 0) ∧
    (∃ x ∈ pairTargets (sTargets 0x2004) (runOf (sTargets 0x2004)) (fa 0), x.2.toNat % 8 ≠ 0) :=
  ⟨by decide +kernel, pairB_spec (by decide +kernel), by decide +kernel⟩
theorem witness_RejoinExitNopAndPrefixes : s0.run = some r0 ∧ (demo [] 2).run = some (runOf (demo [] 2)) ∧
    (runOf (demo [] 2)).idx + 1 < (runOf (demo [] 2)).words.length ∧ r0.words.length ≤ r0.idx + 1 := by decide +kernel
/-- A clause that branches, with the other slot in use or not, and DSDEPTH given. -/
def branching (b : Branch) (other : Bool) (depth : Nat) : Run :=
  let r := run1 { swarm1 [] with slotB := { Slot.empty with valid := other, mask := if other then 0xF0000000 else 0 }, dsDepth := depth }
  { r with branch := b }
theorem witness_ConditionalBranchAndStack :
    (∀ m ∈ [0xFFFFFFFF, 0, 1], (branching (.direct (BitVec.ofNat 32 m) 0x2000) false 0).branch = .direct (BitVec.ofNat 32 m) 0x2000) ∧ (slotOf (branching .none false 0).work .a).mask = 0xFFFFFFFF ∧
    (branching .none false 3).work.dsDepth + 1 ≤ (branching .none false 3).work.dsLim ∧ (branching .none true 2).work.dsDepth + 2 ≤ (branching .none true 2).work.dsLim ∧
    (branching .none true 3).work.dsLim < (branching .none true 3).work.dsDepth + 2 ∧ (slotOf (branching .none true 3).work .b).valid = true ∧
    1 < 2 ^ 8 := by decide +kernel
def fourTargets : List (Nat × DWord) := (List.range threads).map fun t => (t, BitVec.ofNat 64 (0x2000 + 64 * (t % 3)))
theorem witness_IndirectBranchPaths : (branching (.indirect fourTargets) false 0).branch = .indirect fourTargets ∧
    fourTargets.map Prod.fst = ((List.range threads).filter fun t => (slotOf (branching .none false 0).work .a).mask.getLsbD t) ∧
    (slotOf (branching .none false 0).work .b).valid = false ∧ ∃ p, branchPaths (branching (.indirect fourTargets) false 0) = .ok p ∧ p.pushes.length ≠ 0 := by
  refine ⟨by decide +kernel, by decide +kernel, by decide +kernel, ?_⟩
  obtain ⟨p, e, h⟩ := of_onOk (x := branchPaths (branching (.indirect fourTargets) false 0)) (p := fun p => p.pushes.length != 0) (by decide +kernel)
  exact ⟨p, e, by simpa using h⟩
theorem witness_SpecialRegisterReads : s0.run = some r0 ∧ (fa 0).sel.toNat ∉ [0x0F, 0x12, 0x13, 0x15, 0x16] ∧
    ({ fa 0 with opb := 0x0F } : Fields).sel.toNat ∈ [0x0F, 0x12, 0x13, 0x15, 0x16] ∧ canWrite s0 r0 3 (active r0 (fa 0)) ∧ canWritePair s0 r0 2 (active r0 (fa 0)) ∧
    swarm? s0 r0.ref = some (swarm1 [same 0xFFFFFFFF, same 2, same 3, same 4]) ∧ wg? s0 (wgOf r0.ref) = some (placedWg wg1) ∧ (placedWg wg1).task = none :=
  ⟨by decide +kernel, by decide +kernel, by decide +kernel, canB_iff.1 (by decide +kernel), pairB_spec (by decide +kernel), by decide +kernel⟩
abbrev badMode (v : Word) : Prop :=
  v.extractLsb' 0 3 = 0 ∨ v.extractLsb' 0 3 = 7 ∨ v.getLsbD 7 = true ∨ v.extractLsb' 14 2 ≠ 0 ∨ v.extractLsb' 22 10 ≠ 0
theorem witness_ModeWrites : s0.run = some r0 ∧ srListed 0 = true ∧ srListed 8 = true ∧
    (∀ v ∈ [0, 7, 0x81, 0x4001, 0x400001], badMode (BitVec.ofNat 32 v)) ∧ ¬badMode 0x3F3F7E ∧
    (swarm? s0 r0.ref).isSome = true := by decide +kernel
/-- A swarm with a reservation of 8, alone and beside one that reserves the lane. -/
def sReserved (rest : Nat) : State :=
  let w := { swarm1 [] with rsv := 8 }
  { demo [] with swarms := [w, { swarm1 [] with ref := ⟨1, 0, 1, false⟩, rsv := rest, sched := .ready }], run := some (run1 w) }
/-- The word of a GROW to 128 registers. -/
def growWord : DWord := (encode (.grow ⟨0, 0, 0, 0, 2, 0, false, 0, 0, 0⟩)).getD 0
theorem witness_ReservationsAndRestart : (sReserved 384).run = some (runOf (sReserved 384)) ∧ rsvNow (runOf (sReserved 384)) = 8 ∧
    (runOf (sReserved 384)).work.rmax = 128 ∧ 9 ≤ max ({ runOf (sReserved 384) with grown := 9 } : Run).grown 8 ∧ ¬9 ≤ max (runOf (sReserved 384)).grown 8 ∧
    grownAt (sReserved 384) { swarm1 [] with rsv := 8 } [growWord] = 128 ∧ grownAt (sReserved 385) { swarm1 [] with rsv := 8 } [growWord] = 0 ∧
    runMask (runOf (sReserved 384)) = (runOf (sReserved 384)).work.live ∧ runMask (runOf (demo [])) ≠ 1 := by decide +kernel
theorem witness_TrapInstructions : s0.run = some r0 ∧ active r0 (fa 0) ≠ 0 ∧ active r0 guarded = 0 ∧ (swarm? s0 r0.ref).isSome = true ∧ r0.ref.slice = false ∧
    inTask s0 (wgOf r0.ref) = false := by decide +kernel

/-! Traps. -/

/-- A task of the workgroup of the tests, on its first attempt. -/
def task1 : Task := ⟨5, 0x77, 0x88, false, 0, 0, [], [], [], [], none⟩
def openTask (s : State) (k : Task) : State := { s with wgs := s.wgs.map fun g => { g with task := some k } }
theorem witness_TrapHandling : swarm? s0 ref1 = some (swarm1 [same 0xFFFFFFFF, same 2, same 3, same 4]) ∧ wg? s0 (wgOf ref1) = some (placedWg wg1) ∧
    (placedWg wg1).task = none ∧ wg? (openTask s0 task1) (wgOf ref1) = some { placedWg wg1 with task := some task1 } ∧ trapClass 0x0C ≠ .debug ∧
    trapClass 0x14 = .debug ∧ (∀ c ∈ [1, 0x14], 1 ≤ c ∧ c ≤ 0x14) := by decide +kernel
/-- A trap area of 64 records at 0x10000, index at 0x8000, with room, and full. -/
def withArea (write : Nat) : State :=
  { s0 with contexts := [{ contextAt s0 1 with trapArea := some (0x10000, 64, 0x8000, 9), trapWrite := write }] }
def trap1 : TrapInfo := ⟨0x13, 5, 0, 0x2000, 0x3000, 7, 0⟩
theorem witness_TrapRecords : trap1.code < 2 ^ 8 ∧ trap1.origin < 2 ^ 8 ∧ trap1.origin ≠ 3 ∧ trap1.detail < 2 ^ 16 ∧ ref1.core < 2 ^ 16 ∧ trap1.addr < 2 ^ 64 ∧
    trap1.prog < 2 ^ 64 ∧ s0.clkns < 2 ^ 64 ∧ trap1.extra < 2 ^ 64 ∧ swidOf (swarm1 []) < 2 ^ 16 ∧ Memory.wf (withArea 0).host = true ∧
    (trapBytes (withArea 0) (some (swarm1 [])) 1 1 trap1).length = 64 ∧ (contextAt (withArea 63) 1).trapArea = some (0x10000, 64, 0x8000, 9) ∧
    (63 + 2 ^ 32 - (contextAt (withArea 63) 1).trapRead) % 2 ^ 32 < 64 ∧ ¬(64 + 2 ^ 32 - (contextAt (withArea 64) 1).trapRead) % 2 ^ 32 < 64 ∧
    0x8000 + 8 ≤ 0x10000 + 64 * (63 % 64) := by decide +kernel

/-! Memory. -/

/-- An LD or ST of .N32 at v0:v1, data v2; ORD 1 at .CLU; of quads; the first address of the page by thread. -/
def fe (opx : BitVec 6 := 0) (tyc : BitVec 4 := 7) (rnd : BitVec 3 := 0) : Fields := ⟨4, 0, 0, 0, tyc, opx, false, rnd, 0, 0⟩
def sMem (base : Nat := 0x200000) (step : Nat := 4) : State := demo [fun t => base + step * t, same 0, same 7, same 9, fun t => t, same 0, same 0, same 0]
def rMem : Run := runOf (sMem)
def addrB (s : State) (f : Fields) (P : Nat → Bool) : Bool := (List.range 32).all fun t => !(active (runOf s) f).getLsbD t || P (address s (runOf s) f t)
theorem addrB_spec {s : State} {f : Fields} {P : Nat → Bool} (h : addrB s f P = true) : allActive (runOf s) f fun t => P (address s (runOf s) f t) = true := by
  intro t lt a
  have := List.all_eq_true.1 h t (List.mem_range.2 lt)
  simpa [a] using this
theorem witness_Loads : (sMem).run = some rMem ∧ 1 ≤ accessSize (fe) ∧ accessSize (fe 8 0) = 16 ∧
    allActive rMem (fe) (fun t => address (sMem) rMem (fe) t % accessSize (fe) = 0 ∧ readable (sMem) rMem.ref (address (sMem) rMem (fe) t)) ∧
    (∃ x, loads (sMem) rMem (fe) = .ok x ∧ canWriteRegs x.2 (noteReads (sMem) (.ld (fe)) rMem) 4 (active rMem (fe)) (accessParts (fe))) ∧
    (fe 1 7 5).opx.extractLsb' 0 2 = 1 ∧ active rMem (fe 1 7 5) ≠ 0 ∧ (sMem).atomics.isEmpty = true ∧
    ((addrB (sMem 0x500000) (fe) fun a => a % 4 == 0) && errs (loads (sMem 0x500000) (runOf (sMem 0x500000)) (fe))) = true ∧
    wg? (sMem) (wgOf rMem.ref) = some (placedWg wg1) ∧ (placedWg wg1).scratch.bad = [] ∧
    (addrB (sMem 3968) (fe) fun a => a % 4 == 0 && decide (a + 4 ≤ (placedWg wg1).scratch.size)) = true ∧
    canWriteRegs (sMem 3968) (runOf (sMem 3968)) 4 (active rMem (fe)) (accessParts (fe 8 0)) ∧
    activeThreads (runOf (sMem 0x200002)) (fe) = 0 :: (List.range 31).map (· + 1) ∧ address (sMem 0x200002) (runOf (sMem 0x200002)) (fe) 0 % 4 ≠ 0 ∧
    errs (scratchSeen (scratchBad (sMem 0) [3]) (wgNow (scratchBad (sMem 0) [3])) 0 4) = true ∧
    4096 < address (sMem 4096) (runOf (sMem 4096)) (fe) 0 + 4 := by
  refine ⟨by decide +kernel, by decide +kernel, by decide +kernel, ?_, ?_, by decide +kernel, by decide +kernel, by decide +kernel, by decide +kernel,
    by decide +kernel, by decide +kernel, by decide +kernel, regsB_spec (by decide +kernel), by decide +kernel⟩
  · intro t lt a
    have h := addrB_spec (s := sMem) (f := fe) (P := fun a => a % 4 == 0 && readB sMem ref1 a) (by decide +kernel) t lt a
    simp only [Bool.and_eq_true, beq_iff_eq] at h
    exact ⟨h.1, readB_spec h.2⟩
  · obtain ⟨x, e, h⟩ := of_onOk (x := loads (sMem) rMem (fe)) (p := fun x => regsB x.2 4 (active rMem (fe)) (accessParts (fe))
      (noteReads (sMem) (.ld (fe)) rMem)) (by decide +kernel)
    exact ⟨x, e, regsB_spec h⟩
def frozen (s : State) (persist : Nat) : State :=
  { s with wgs := s.wgs.map fun g => { g with frozen := true, scratch := { g.scratch with persist } } }
theorem witness_Stores : allActive rMem (fe) (fun t => address (sMem) rMem (fe) t % accessSize (fe) = 0 ∧
      storable (sMem) rMem.ref (address (sMem) rMem (fe) t)) ∧
    (addrB (frozen (sMem 128) 128) (fe) fun a => a % 4 == 0 && decide (a + 4 ≤ 4096) && decide (128 ≤ a)) = true ∧
    (addrB (sMem 0x200002) (fe) fun a => a % 4 != 0) = true ∧ errs (translateData (sMem 0x500000) 0 1 0x500000 true) = true ∧
    (addrB (frozen (sMem 0) 128) (fe) fun a => a % 4 == 0 && decide (a < 128)) = true :=
  ⟨fun t lt a => by
      have h := addrB_spec (s := sMem) (f := fe) (P := fun a => a % 4 == 0 && storeB sMem ref1 a) (by decide +kernel) t lt a
      simp only [Bool.and_eq_true, beq_iff_eq] at h
      exact ⟨h.1, storeB_spec h.2⟩,
    by decide +kernel⟩
/-- GATHER of words: quad v4 = index array, data base, count, scale. -/
def sGather (idx data count scale prog : Nat) (base : Nat := 0x200000) : State :=
  let s := demo [same base, same 0, same 0, same 0, same idx, same data, same count, same scale]
  { s with run := s.run.map fun r => { r with work := { r.work with prog } } }
def fGather : Fields := ⟨4, 0, 0, 0, 7, 0, false, 0, 0, 0⟩
/-- A version of 342 rows of 64 exact elements, 48 sectors each: more than the core's budget. -/
def fullVersion : Version := ⟨wg1, List.replicate 342 (.add ⟨0x200000, .f32, true, false, List.replicate 64 0, 1, 0, 0, 0⟩), none, none, [], []⟩
def scatterB (s : State) (full : Bool) : Bool :=
  onOk (directWrite (markRel s ref1 0x200000) (accessOf s ref1) 0x200000 (natToBytes 4 0) .clear) fun s1 =>
    decide (inTask s1 wg1 = true ∧ Config.versionBudget < coreVersionCount s1 0) == full
theorem witness_IndexedAccesses :
    (∀ x ∈ [(0, 0, 1024, 4, 0), (0, 0, 1024, 4, 1023), (0, 0, 1024, 4, 1024), (4092, 4092, 1, 0, 0)], let s := sGather x.1 x.2.1 x.2.2.1 x.2.2.2.1 x.2.2.2.2
      s.run = some (runOf s) ∧ wg? s (wgOf (runOf s).ref) = some (placedWg wg1) ∧ x.1 + 4 * x.2.2.1 ≤ 4096 ∧ x.2.1 + 4 * x.2.2.1 ≤ 4096 ∧
      (laneAt (partLanes s (runOf s) fGather.dst 2) 0).toNat = x.2.2.1 ∧ (runOf s).work.prog = x.2.2.2.2 ∧ 1 ≤ x.2.2.1 ∧ x.2.2.1 ≤ 65536) ∧
    (laneAt (partLanes (sGather 2 0 0 0 0) (runOf (sGather 2 0 0 0 0)) 4 0) 0).toNat % 4 ≠ 0 ∧
    (laneAt (partLanes (sGather 0 0 65537 0 0) (runOf (sGather 0 0 65537 0 0)) 4 2) 0).toNat = 65537 ∧
    (laneAt (partLanes (sGather 0 0 0 0 0) (runOf (sGather 0 0 0 0 0)) 4 2) 0).toNat = 0 ∧ 4096 < 0 + 4 * 1025 ∧
    (wgNow (frozen (sGather 0 0 1 4 0) 128)).frozen = true ∧ 0 < (wgNow (frozen (sGather 0 0 1 4 0) 128)).scratch.persist ∧
    (placedWg wg1).scratch.bad = [] ∧ readB (sGather 0 0 1 4 0) ref1 0x200000 = true ∧
    onOk (translateData (sGather 0 0 1 4 0) 0 1 0x200000 true) (fun x => decide (x = (dataPage, 0x200000))) = true ∧ Memory.wf (sGather 0 0 1 4 0).mem = true ∧
    address (sGather 0 0 1 4 0 0x200002) (runOf (sGather 0 0 1 4 0 0x200002)) fGather 0 % 4 ≠ 0 ∧
    scatterB (sGather 0 0 1 4 0) false = true ∧ scatterB { openTask (sGather 0 0 1 4 0) task1 with versions := [fullVersion] } true = true ∧
    (coreAt (sGather 0 0 1 4 0) 0).wcb.isEmpty = true ∧ (sGather 0 0 1 4 0).announcements = [] ∧ inTask (sGather 0 0 1 4 0) wg1 = false := by decide +kernel
/-- Bytes at the page, canonical. -/
def sBytes : State := { sMem with mem := memWrite [] 0x200000 (natToBytes 8 0x1122334455667788) }
theorem witness_PerformedWrites : Memory.wf sBytes.mem = true ∧ (natToBytes 4 7) ≠ [] := by decide +kernel
theorem witness_LoadsReadTheHome : onOk (translateData sBytes 0 1 0x20003C false) (fun x => decide (x = (dataPage, 0x20003C))) = true ∧ dataPage.remote = none ∧
    sectorFault sBytes 0x20003C = none ∧ (accessOf sBytes ref1).task = none ∧ 0x20003C % 64 + 4 ≤ 64 ∧ (coreAt sBytes 0).wcb.isEmpty = true ∧
    (coreAt sBytes 0).l1.isEmpty = true := by decide +kernel
theorem witness_StoresAreSeenByTheirCore : onOk (translate sBytes 0 1 0x20003C true) (fun x => decide (x = (dataPage, 0x20003C))) = true ∧
    0x20003C % 64 + (natToBytes 4 7).length ≤ 64 ∧ (coreAt sBytes 0).wcb.isEmpty = true ∧
    (∃ u, storeCell ref1 false 0 sBytes (0, 0x20003C, natToBytes 4 7) = .ok u ∧ onOk (loadBytes u (accessOf u ref1) false 0x20003C 4) (fun _ => true) = true) :=
  ⟨by decide +kernel, by decide +kernel, by decide +kernel,
    of_onOk (p := fun u => onOk (loadBytes u (accessOf u ref1) false 0x20003C 4) fun _ => true) (by decide +kernel)⟩
/-- CPIN and CPOUT of v4:v5 = offset, length, at v0:v1; FLUSH of v4 bytes. -/
def sCopy (va spad len : Nat) : State := demo [same va, same 0, same 0, same 0, same spad, same len]
def fCopy : Fields := ⟨4, 0, 0, 0, 0, 0, false, 0, 0, 0⟩
/-- A page of the on-chip map, and a launch in redundant mode with an open task. -/
def chipPage : Mapping := ⟨1, 0x400000, 0x1000, 0, true, false, false, some (0, 1), none, false⟩
def withPages (s : State) (l : List Mapping) : State := { s with dies := s.dies.modify 0 fun d => { d with tlb := l ++ d.tlb } }
def redundant (s : State) : State :=
  { openTask s task1 with launches := s.launches.map fun l => { l with desc := { l.desc with redund := true } } }
def noRed (s : State) : Bool := s.atomics.all fun x => x.ref.core != 0
theorem noRed_spec {s : State} (h : noRed s = true) : noReds s 0 := by
  intro x hx
  have := List.all_eq_true.1 h x hx
  simpa using this
theorem witness_CopiesPrefetchFlushInvalidate : noRed (sCopy 0 0 0) = true ∧
    (let s := withPages (redundant (sCopy 0x400000 0 64)) [chipPage]
     transB s ref1 0x400000 true && copyImmediate s (accessOf s ref1) (.cpout 0x400000 0 64)) = true ∧
    inTask (redundant (sCopy 0x400000 0 64)) wg1 = true ∧ ((launch? (redundant (sCopy 0x400000 0 64)) 1).map fun l => l.desc.redund) = some true ∧
    copyImmediate (sCopy 0x200000 0 4096) (accessOf (sCopy 0x200000 0 4096) ref1) (.cpout 0x200000 0 4096) = false ∧
    transB (sCopy 0x200000 0 64) ref1 0x200000 false = true ∧ activeThreads (runOf (sCopy 0 0 0)) { fCopy with ge := true } = [] ∧
    activeThreads (runOf (sCopy 0 0 0)) fCopy = 0 :: (List.range 31).map (· + 1) ∧
    (∀ x ∈ [(0x200000, 0, 4096, true), (0x200000, 4032, 64, true), (0x200000, 4096, 64, false), (0x200000, 0, 1048640, false)],
      (laneAt (partLanes (sCopy x.1 x.2.1 x.2.2.1) (runOf (sCopy x.1 x.2.1 x.2.2.1)) 4 1) 0).toNat = x.2.2.1 ∧ x.2.2.1 ≠ 0 ∧ x.2.1 % 64 = 0 ∧ x.2.2.1 % 64 = 0 ∧
      x.1 % 64 = 0 ∧ decide (x.2.2.1 ≤ 2 ^ 20 ∧ x.2.1 + x.2.2.1 ≤ 4096) = x.2.2.2) ∧
    ((sectorsOf 4096).all fun o => transB (sCopy 0x200000 0 4096) ref1 ((0x200000 + o) % 2 ^ 64) true) = true ∧ 0x200020 % 64 ≠ 0 ∧ 0x200000 % 256 = 0 ∧
    0x200040 % 256 ≠ 0 ∧ transB (sCopy 0x200000 0 0) ref1 ((0x200000 / 64 * 64 + 64 * 0) % 2 ^ 64) false = true ∧ ({ fCopy with opb := 1, opc := 0 } : Fields).sel ≠ 0 ∧
    fCopy.sel = 0 := by decide +kernel

/-- Thirty-two words of the page, one for each thread: ADD of v4; acquire and release at .CLU. -/
def fAtom (opx : BitVec 6 := 0) (rnd : BitVec 3 := 0) : Fields := ⟨4, 0, 0, 0, 7, opx, false, rnd, 0, 0⟩
/-- An ATOM's whole course, with an acquire and release or without. -/
def atomB (s : State) (opx : BitVec 6) (rnd : BitVec 3) : Bool :=
  let r := runOf s
  let g := fAtom opx rnd
  let rels := releases r g (decide (2 ≤ (opx.extractLsb' 4 2).toNat))
  onOk (atomicReqs s r g (active r g)) fun x => onOk (x.1.foldlM (fun s y => settleHome s r.ref y.2.va) x.2) fun s1 => onOk (applyEffects s1 r) fun trial =>
    onOk (if !rels.isEmpty then settleSwarm trial r.ref (outer rels) else .ok trial) fun trial2 =>
      onOk (runAtomics trial2 r.ref false x.1) fun y => onOk (writeLoaded s1 (noteReads s (.atom g) r) 4 1 (active r g) y.1) fun _ => true
/-- A RED of the swarm's to a page that is not mapped waits. -/
def sWaitingRed : State := { s0 with atomics := [⟨1, ref1, 0, [⟨0x500000, .n32, 0, 1⟩], none⟩] }
theorem witness_Atomics : (sMem).run = some rMem ∧ inTask (sMem) (wgOf rMem.ref) = false ∧ active rMem (fAtom) ≠ 0 ∧
    (∃ x, atomicReqs (sMem) rMem (fAtom) (active rMem (fAtom)) = .ok x) ∧ atomB (sMem) 0 0 = true ∧ atomB (sMem) 0x20 5 = true ∧ atomB (sMem) 0x30 2 = true ∧
    (releases rMem (fAtom 0x20 5) true).isEmpty = false ∧
    ((launch? (openTask (sMem) task1) 1).map fun l => l.desc.redund) = some false ∧ inTask (openTask (sMem) task1) wg1 = true ∧ (sMem).announcements = [] ∧
    onOk (translateData (sMem) 0 1 0x200000 true) (fun x => decide (x = (dataPage, 0x200000))) = true ∧ sectorFault (sMem) 0x200000 = none ∧
    (coreAt (sMem) 0).wcb.isEmpty = true ∧ Ty.n32 ∈ [Ty.s32, .n32, .s64, .n64] ∧ 2 ^ 32 - 1 < 2 ^ Ty.n32.bits :=
  ⟨by decide +kernel, by decide +kernel, by decide +kernel,
    let ⟨x, e, _⟩ := of_onOk (x := atomicReqs (sMem) rMem (fAtom) (active rMem (fAtom))) (p := fun _ => true) (by decide +kernel)
    ⟨x, e⟩,
    by decide +kernel⟩
theorem witness_FencesAndWaits : s0.run = some r0 ∧ (∀ k ∈ [4, 7], 4 ≤ k ∧ k < 8) ∧ ((swarm? s0 r0.ref).map fun x => x.received.length) = some 4 ∧ 3 < 4 ∧
    onOk (settleSwarm s0 ref1 false) (fun _ => true) = true ∧ errs (settleSwarm sWaitingRed ref1 false) = true ∧ s0.atomics.isEmpty = true ∧
    s0.asyncs.isEmpty = true ∧ ({ fa 0 with opb := 3 } : Fields).sel = 3 := by
  decide +kernel

/-! Queues, cells, matrix names. -/

/-- Queue unit 3 as given; v0 the base of QINIT. -/
def sQueue (q : Queue) (base : Nat := 0) : State := modCore (demo [same base]) 0 fun c => { c with queues := c.queues.set 3 q }
def queue1 (pushers : List Nat) (pushRes popRes : List SwarmRef) : Queue := ⟨some wg1, 256, 2, 0, 0, 0, pushers.length % 2, pushers, pushRes, popRes⟩
def fQueue (imm : BitVec 18 := 0) : Fields := ⟨4, 0, 3, (imm.extractLsb' 10 8), imm.extractLsb' 6 4, imm.extractLsb' 0 6, false, 0, 0, 0⟩
theorem witness_QueuesAndBarriers :
    (∀ q ∈ [Queue.unowned, queue1 [] [] [], queue1 [0] [] [], queue1 [0, 0] [ref1] [ref1]], (sQueue q).run = some (runOf (sQueue q)) ∧
      wg? (sQueue q) wg1 = some (placedWg wg1) ∧ hiveAt (sQueue q) 0 (fQueue).sel.toNat = q) ∧
    queueReady (queue1 [0] [] []) ref1 true = true ∧ queueReady (queue1 [0, 0] [] []) ref1 true = false ∧ queueReady (queue1 [0] [] []) ref1 false = true ∧
    queueReady (queue1 [] [] []) ref1 false = false ∧ (queue1 [0, 0] [ref1] [ref1]).pushRes.contains ref1 = true ∧ Queue.unowned.owner = none ∧
    (⟨some ⟨9, 0⟩, 0, 1, 0, 0, 0, 0, [], [], []⟩ : Queue).owner ≠ some wg1 ∧ (fQueue 0x40).imm18.getLsbD 6 = true ∧ (fQueue 0).imm18.getLsbD 6 = false ∧
    3968 % 128 = 0 ∧ 3968 + 1 * (128 * 2 ^ 0) ≤ (placedWg wg1).scratch.size ∧ regsB (sQueue (queue1 [0] [] [])) 4 0xFFFFFFFF 1 (runOf (sQueue (queue1 [0] [] []))) = true ∧
    activeThreads (runOf (sQueue Queue.unowned)) (fQueue) ≠ [] ∧ activeThreads (runOf (sQueue Queue.unowned)) { fQueue with ge := true } = [] ∧
    (placedWg wg1).scratch.bad = [] ∧ runMask r0 = r0.work.live ∧ r0.work.inTeam = false := by decide +kernel
theorem witness_HiveQueuesAreFirstInFirstOut : let s := sQueue { queue1 [0] [] [] with head := 1, tail := 0 }
    wg? s wg1 = some (placedWg wg1) ∧ 3 < (coreAt s 0).queues.length ∧ (hiveAt s 0 3).head < (hiveAt s 0 3).cap ∧
    (hiveAt s 0 3).tail = ((hiveAt s 0 3).head + (hiveAt s 0 3).pushers.length) % (hiveAt s 0 3).cap ∧
    (hiveAt s 0 3).pushers.length < (hiveAt s 0 3).cap ∧ 4 * (List.replicate 32 (7 : Word)).length = 128 * 2 ^ (hiveAt s 0 3).width ∧
    ∀ n, n < 256 → ringEntry (ringsOf s wg1) (256 + n) = none := by decide +kernel
/-- PROPOSE.V of the quad v4, whose first word is the incarnation, at v0:v1. -/
def fCell (rnd : BitVec 3 := 0) : Fields := ⟨4, 0, 0, 0, 0, 0, false, rnd, 0, 0⟩
def sCell (va : Nat := 0x300000) : State := demo [same va, same 0, same 0, same 0, same 0, same 0, same 0, same 0]
/-- An earlier request of the swarm to the cell has not been performed. -/
def sBehind : State := { sCell with cellWaits := [⟨99, some ref1, 0, 0, 1, 0x300000, 0x300000, none, .docrd 0 0, none⟩] }
/-- The cells' page is not writable. -/
def sReadOnly : State := { sCell with dies := [{ Die.reset with tlb := [{ cellPage with writable := false }] }] }
theorem witness_CellInstructions : (sCell).run = some (runOf (sCell)) ∧ activeThreads (runOf (sCell)) { fCell with ge := true } = [] ∧
    (∃ e, cellCourse (sCell 0x300020) (runOf (sCell 0x300020)) (fCell) (.propose (fCell)) false = .error e) ∧
    (∃ st, cellCourse sBehind (runOf sBehind) (fCell) (.propose (fCell)) false = .ok st ∧ st.ids ≠ []) ∧
    (∃ st, cellCourse (sCell) (runOf (sCell)) (fCell 5) (.propose (fCell 5)) false = .ok st ∧ st.ids = []) ∧
    (∃ st, cellCourse (sCell) (runOf (sCell)) { fCell with ge := true } (.docrd { fCell with ge := true }) true = .ok st ∧ st.ids = []) ∧
    address (sCell 0x300020) (runOf (sCell 0x300020)) (fCell) 0 % 64 ≠ 0 ∧
    (onOk (cellTarget (sCell) ref1 0x300000) fun x => x.1.writable) = true ∧ (addrB (sCell) (fCell) fun a => a == 0x300000) = true ∧
    (onOk (cellTarget sReadOnly ref1 0x300000) fun x => !x.1.writable) = true ∧ comparedRequest (sCell) ref1 = false ∧ comparedRequest (redundant (sCell)) ref1 = true ∧
    (onOk (cellTarget (redundant (sCell)) ref1 0x300000) fun x => x.1.writable) = true := by
  refine ⟨by decide +kernel, by decide +kernel, ?_, ?_, ?_, ?_, by decide +kernel⟩
  · obtain ⟨e, h, _⟩ := of_onError (p := fun _ => true) (x := cellCourse (sCell 0x300020) (runOf (sCell 0x300020)) (fCell) (.propose (fCell)) false)
      (by decide +kernel)
    exact ⟨e, h⟩
  · obtain ⟨st, h, k⟩ := of_onOk (p := fun st => decide (st.ids ≠ [])) (x := cellCourse sBehind (runOf sBehind) (fCell) (.propose (fCell)) false)
      (by decide +kernel)
    exact ⟨st, h, by simpa using k⟩
  · obtain ⟨st, h, k⟩ := of_onOk (p := fun st => decide (st.ids = [])) (x := cellCourse (sCell) (runOf (sCell)) (fCell 5) (.propose (fCell 5)) false)
      (by decide +kernel)
    exact ⟨st, h, by simpa using k⟩
  · obtain ⟨st, h, k⟩ := of_onOk (p := fun st => decide (st.ids = [])) (x := cellCourse (sCell) (runOf (sCell)) { fCell with ge := true }
      (.docrd { fCell with ge := true }) true) (by decide +kernel)
    exact ⟨st, h, by simpa using k⟩
/-- A cell with the first four bytes given: INC, STATE. -/
def cellWith (head : List Byte) : State := { sCell with mem := memWrite [] 0x300000 head }
theorem witness_CellRows : (∀ x ∈ [(([0, 0, 0, 0] : List Byte), 0, 0), ([1, 0, 0, 0], 1, 0), ([0xFF, 0xFF, 1, 0], 65535, 1), ([0, 0, 2, 0], 0, 2), ([0, 0, 3, 0], 0, 3)],
    Memory.wf (cellWith x.1).mem = true ∧ sectorFault (cellWith x.1) 0x300000 = none ∧ incOf (cellSector (cellWith x.1) 0x300000) = x.2.1 ∧
    stateOf (cellSector (cellWith x.1) 0x300000) = x.2.2 ∧ x.2.1 < 2 ^ 16) ∧ (List.replicate 56 (7 : Byte)).length = 56 := by decide +kernel

/-! The matrix engine's names and tiles. -/

/-- The workgroup with a reservation of granules 2 and 3 in record 1 and name 0 on tile 5; the core's tiles as given. -/
def sMatrix (regs : List (Nat → Nat)) (tiles : List Tile := List.replicate 64 Tile.free) : State :=
  let s := demo regs
  modCore { s with wgs := s.wgs.map fun g => { g with
      records := g.records.set 1 (some ⟨2, 2, .s8, 0, 0⟩)
      names := g.names.set 0 (some 5) } } 0 fun c => { c with tiles := tiles }
def ownTile (lost : Bool := false) : Tile := ⟨some wg1, List.replicate 2048 1, lost, false⟩
def allTaken : List Tile := List.replicate 64 ⟨some ⟨9, 0⟩, [], false, false⟩
/-- The second swarm of the workgroup, part-way through a DRAIN of name 0. -/
def drainBeside (s : State) : State :=
  { s with swarms := s.swarms ++ [{ swarm1 [] with ref := ⟨1, 0, 1, false⟩, prog := 3, draining := some 0 }] }
/-- Its clause, past an ACCRD of name 0. -/
def readBeside (s : State) : State :=
  { s with
    swarms := s.swarms ++ [{ swarm1 [] with ref := ⟨1, 0, 1, false⟩ }]
    runs := [{ newRun { swarm1 [] with ref := ⟨1, 0, 1, false⟩ } .a 0x1000 0 [Fields.toWord 0x88 ⟨0, 3, 0, 0, 0, 0, false, 0, 0, 0⟩, 0] 1 0 with phase := .arrived }] }
def busyB (s : State) (write : Bool) : Bool := tileBusy s wg1 5 [ref1] write
def freeB (s : State) : List Nat := (List.range 64).filter fun k => (tileAt s 0 k).owner.isNone && !(tilesTaken s 0).contains k
def waiters (s : State) : Nat := (s.swarms.filter fun x => x.ref.core = 0 && x.ref ≠ ref1 && waitsForTile x).length
def fMat (dst : BitVec 8) (opx : BitVec 6 := 0) : Fields := ⟨dst, 0, 1, 2, 0, opx, false, 0, 0, 0⟩
def gMat : Workgroup := { placedWg wg1 with records := (placedWg wg1).records.set 1 (some ⟨2, 2, .s8, 0, 0⟩), names := (placedWg wg1).names.set 0 (some 5) }

theorem witness_MatrixNames : (sMatrix [same 0x0104]).run = some (runOf (sMatrix [same 0x0104])) ∧ wg? (sMatrix [same 0x0104]) wg1 = some gMat ∧
    -- RESV: live, too high, meeting another, apart
    (recordsNow gMat r0).getD 1 none ≠ none ∧ (recordsNow gMat r0).getD 0 none = none ∧ gMat.obufGranules < 255 + 2 ∧ ¬gMat.obufGranules < 254 + 2 ∧
    (∀ y ∈ (recordsNow gMat r0).filterMap id, y.base + y.granules ≤ 4 ∨ 4 + 2 ≤ y.base) ∧ ¬(∀ y ∈ (recordsNow gMat r0).filterMap id, y.base + y.granules ≤ 3 ∨ 3 + 1 ≤ y.base) ∧
    -- names: mapped, unmapped with a free tile, none free
    nameNow (sMatrix []) (runOf (sMatrix [])) 0 ≠ none ∧ nameNow (sMatrix []) (runOf (sMatrix [])) 1 = none ∧
    freeB (sMatrix []) = List.range 64 ∧ freeB (sMatrix [] allTaken) = [] ∧ waiters (sMatrix []) = 0 ∧
    busyB (sMatrix []) true = false ∧ busyB (drainBeside (sMatrix [])) true = true ∧ busyB (readBeside (sMatrix [])) true = true ∧ (fMat 0 1).opx.getLsbD 0 = true ∧
    (fMat 0 0).opx.getLsbD 0 = false ∧ 2 % 4 ≠ 0 ∧
    -- CPOB of 2,048 bytes into the two granules, from the scratchpad and from memory
    0 + 2048 ≤ 1024 * 2 ∧ ¬0 + 2112 ≤ 1024 * 2 ∧ 2048 + 2048 ≤ gMat.scratch.size ∧ ((sectorsOf 2048).all fun o => transB (sMatrix []) ref1 ((0x200000 + o) % 2 ^ 64) false) = true ∧
    activeThreads (runOf (sMatrix [])) (fMat 1) = 0 :: (List.range 31).map (· + 1) := by decide +kernel
theorem witness_AccumulatorNamesMapTiles : wg? (sMatrix []) wg1 = some gMat ∧ 63 < gMat.names.length ∧ 63 < (coreAt (sMatrix []) 0).tiles.length ∧
    tileOf (sMatrix []) wg1 0 = some 5 := by decide +kernel
theorem witness_MatrixElements : (sMatrix [same 3, same 4]).run = some (runOf (sMatrix [same 3, same 4])) ∧ wg? (sMatrix [same 3, same 4]) wg1 = some gMat ∧
    onOk (tileNow (sMatrix []) (runOf (sMatrix [])) 0 false) (fun _ => true) = true ∧ onOk (tileNow (sMatrix []) (runOf (sMatrix [])) 0 true) (fun _ => true) = true ∧
    (runOf (sMatrix [])).effects = [] ∧ tileOf (sMatrix []) wg1 0 = some 5 ∧ tileOf (sMatrix []) wg1 1 = none ∧
    (tileAt (sMatrix []) 0 5).lost = false ∧ (tileAt (sMatrix [] (List.replicate 64 (ownTile true))) 0 5).lost = true ∧ (fMat 0 2).opx.extractLsb' 0 2 = 2 ∧
    (fMat 0 1).opx.extractLsb' 0 2 ≠ 2 ∧ canB (sMatrix []) (runOf (sMatrix [])) 0 0xFFFFFFFF = true ∧ busyB (sMatrix []) false = false ∧
    busyB (drainBeside (sMatrix [])) false = true ∧ busyB (readBeside (sMatrix [])) false = false ∧
    (runOf (demo [] 2)).idx + 1 < (runOf (demo [] 2)).words.length ∧ r0.words.length ≤ r0.idx + 1 := by decide +kernel
/-- DRAIN.F32 to the scratchpad at v0, pitch v2, rows and columns v3; PROG given. -/
def sDrain (dst pitch rows cols prog : Nat) : State :=
  let s := sMatrix [same dst, same 0, same pitch, same (rows + 256 * cols)] (List.replicate 64 (ownTile))
  { s with run := s.run.map fun r => { r with work := { r.work with prog } } }
def fDrain (opx : BitVec 6 := 4) (dst : BitVec 8 := 0) : Fields := ⟨dst, 0, 2, 3, 9, opx, false, 0, 0, 0⟩
/-- DRAIN to memory at the page, in a task or not. -/
def sDrainOut : State := sDrain 0x200000 256 16 64 15
theorem witness_Drain :
    (∀ x ∈ [(0, 0, 33, 64, 0), (0, 0, 32, 65, 0), (2, 256, 32, 64, 0), (0, 256, 0, 64, 0), (0, 256, 16, 64, 15), (0, 256, 16, 64, 16)],
      let s := sDrain x.1 x.2.1 x.2.2.1 x.2.2.2.1 x.2.2.2.2
      s.run = some (runOf s) ∧ wg? s wg1 = some gMat ∧ (val s (runOf s) 3 0).toNat % 2 ^ 6 = x.2.2.1 ∧ (val s (runOf s) 3 0).toNat / 2 ^ 8 % 2 ^ 7 = x.2.2.2.1 ∧
      (runOf s).work.prog = x.2.2.2.2) ∧ 0 + (16 - 1) * 256 + 64 * 4 ≤ gMat.scratch.size ∧ addSize (fDrain).ty false = 4 ∧ 2 % 4 ≠ 0 ∧
    busyB (sDrain 0 256 16 64 0) false = false ∧ busyB (drainBeside (sDrain 0 256 16 64 0)) false = true ∧ ¬0 + (17 - 1) * 256 + 64 * 4 ≤ gMat.scratch.size ∧
    gMat.scratch.bad = [] ∧ ringsOf (sDrain 0 256 16 64 15) wg1 = [] ∧ (fDrain).opx.getLsbD 2 = true ∧ (fDrain 0).opx.getLsbD 2 = false ∧
    (tileAt (sDrain 0 256 16 64 0) 0 5).lost = false ∧ (tileAt (sDrain 0 256 16 64 0) 0 5).bad = false ∧
    ((sectorsTouched (0x200000 + 15 * 256) 256).all fun b => onOk (translateData sDrainOut 0 1 b true) fun x => (sectorFault sDrainOut x.2).isNone) = true ∧
    Memory.wf sDrainOut.mem = true ∧ sDrainOut.announcements = [] ∧ (coreAt sDrainOut 0).wcb.isEmpty = true ∧ inTask sDrainOut wg1 = false ∧
    onOk (drainRow sDrainOut (runOf sDrainOut) (fDrain 0) gMat ⟨0x200000, 256, 16, 64⟩) (fun _ => true) = true ∧
    onOk (drainRow (sDrain 0 256 16 64 15) (runOf (sDrain 0 256 16 64 15)) (fDrain) gMat ⟨0, 256, 16, 64⟩)
      (fun _ => true) = true ∧ onError (drainRow (sDrain 0 256 16 64 0) (runOf (sDrain 0 256 16 64 0)) (fDrain 4 1) gMat ⟨0, 256, 16, 64⟩) (fun _ => true) = true ∧
    tileOf (sDrain 0 256 16 64 0) wg1 1 = none ∧ tileOf (sDrain 0 256 16 64 0) wg1 0 = some 5 ∧ (sDrain 0 256 16 64 0).mmas.isEmpty = true := by decide +kernel

/-! Streams. -/

/-- A walk of 8 entries of 32 words from 0x200000, its ring of 4 at 1,024. -/
def walk1 : WalkDesc := ⟨0x200000, 4, 1, false, false, 4, 1024, [8], [128]⟩
def push1 : WalkDesc := { walk1 with push := true }
def stream1 (d : WalkDesc) (entries : Nat) : Stream := ⟨true, d, 1024, 4, 2, List.replicate entries ⟨0, none⟩, false, [0, 0, 0, 0], 0, none, false⟩
/-- The descriptor's 64 bytes, as R277 lays them out. -/
def walkBytes (d : WalkDesc) : List Byte :=
  natToBytes 8 d.base.toNat ++ natToBytes 4 d.tstride.toNat ++ natToBytes 1 (d.ndim + (if d.scratch then 8 else 0) + if d.push then 16 else 0) ++ natToBytes 1 d.depth ++
    natToBytes 2 0 ++ natToBytes 4 d.ring ++ natToBytes 4 0 ++ natToBytes 4 (d.counts.getD 0 0) ++ natToBytes 4 (d.strides.getD 0 0).toNat ++ List.replicate 32 0
/-- Stream register 3 as given; the descriptor in the scratchpad at 0 and in memory at the page. -/
def sStream (x : Stream) (d : WalkDesc := walk1) (regs : List (Nat → Nat) := [same 0, same 0]) : State :=
  let w := { swarm1 regs with streams := (swarm1 []).streams.set 3 x }
  let s := demo regs
  { s with
    swarms := [w]
    wgs := s.wgs.map fun g => { g with scratch := scratchWrite g.scratch 0 (walkBytes d) }
    mem := memWrite [] 0x200000 (walkBytes d)
    run := some (run1 w) }
def fBind (imm : BitVec 6 := 1) : Fields := ⟨0, 0, 3, 0, 0, imm, false, 0, 0, 0⟩
def gStream (d : WalkDesc := walk1) : Workgroup := { placedWg wg1 with scratch := scratchWrite (placedWg wg1).scratch 0 (walkBytes d) }
theorem walkBytes_reads_back : walkDesc (walkBytes walk1) = walk1 ∧ walkDesc (walkBytes push1) = push1 ∧ (walkBytes walk1).length = 64 := by decide +kernel
theorem witness_Streams :
    (∀ x ∈ [Stream.unbound, stream1 walk1 2, { Stream.unbound with failed := true }, { stream1 walk1 0 with next := some walk1 }],
      (sStream x).run = some (runOf (sStream x)) ∧ wg? (sStream x) wg1 = some (gStream) ∧ (streamsBefore (sStream x) (runOf (sStream x))).getD 3 Stream.unbound = x) ∧
    scratchRead (gStream).scratch 0 64 = walkBytes walk1 ∧ 4032 + 64 ≤ (gStream).scratch.size ∧ (gStream).scratch.size < 4096 + 64 ∧
    onOk (descriptorBytes (sStream Stream.unbound walk1 [same 0x200000, same 0]) (runOf (sStream Stream.unbound walk1 [same 0x200000, same 0])) (fBind 0) (gStream))
      (fun x => decide (x.1 = walkBytes walk1)) = true ∧
    descMisaligned walk1 false = false ∧ descMisaligned { walk1 with ring := 1088 } false = true ∧ descInvalid (walkBytes walk1) walk1 false = false ∧
    descInvalid (walkBytes { walk1 with depth := 1 }) { walk1 with depth := 1 } false = true ∧ 1024 + 128 * 4 ≤ (gStream).scratch.size ∧
    ¬3712 + 128 * 4 ≤ (gStream).scratch.size ∧ ringTaken (sStream Stream.unbound) (runOf (sStream Stream.unbound)) 3 1024 512 = false ∧
    ringTaken (sStream (stream1 walk1 2)) (runOf (sStream (stream1 walk1 2))) 4 1024 512 = true ∧ (gStream).sliceEntry = Config.noneAddr ∧
    sliceTaken (sStream Stream.unbound) (runOf (sStream Stream.unbound)) = false ∧ (0x3000 : DWord) ≠ Config.noneAddr ∧
    sliceTaken { sStream Stream.unbound with swarms := [swarm1 [], { swarm1 [] with ref := sliceOf ref1 }] } (runOf (sStream Stream.unbound)) = true ∧
    sliceRuns { sStream Stream.unbound with swarms := [swarm1 [], { swarm1 [] with ref := sliceOf ref1 }] } (runOf (sStream Stream.unbound)) = true ∧
    -- SPUSH: not a push stream, full, room; flags beyond the dimensions
    (stream1 walk1 0).desc.push = false ∧ (pushTarget (sStream (stream1 push1 4)) (runOf (sStream (stream1 push1 4))) 3).entries.length = 4 ∧
    (pushTarget (sStream (stream1 push1 3)) (runOf (sStream (stream1 push1 3))) 3).entries.length < 4 ∧ 2 ^ push1.ndim ≤ (2#4).toNat ∧ (1#4).toNat < 2 ^ push1.ndim ∧
    activeThreads (runOf (sStream Stream.unbound)) { fBind with ge := true } = [] ∧ activeThreads (runOf (sStream Stream.unbound)) (fBind) ≠ [] := by decide +kernel
theorem witness_StreamsAreFirstInFirstOut : let s := sStream (stream1 push1 3)
    swarm? s ref1 = some { swarm1 [same 0, same 0] with streams := (swarm1 []).streams.set 3 (stream1 push1 3) } ∧ wg? s wg1 = some (gStream) ∧
    3 < (swarm1 []).streams.length ∧ (stream1 push1 3).entries.length < (stream1 push1 3).depth ∧ (List.replicate 32 (0 : Word)).length = 32 := by decide +kernel

/-! Tasks, the fabric. -/

/-- Work queue 3 of context 1: 64 entries at 0x10000, n commands in them, e in the extension of 2. -/
def queue3 (n e : Nat) : WorkQueue :=
  ⟨3, 0x10000, 64, 1, 0, 7, 0x8000, 0x20000, 2, n, 0, 0, [], 0, e, 0, 0, true, false, []⟩
/-- ENQ of the command at 0x200000 with an opcode, to queue 3 (v4). -/
def sEnq (n e op : Nat) (va : Nat := 0x200000) : State :=
  { demo [same va, same 0, same 0, same 0, same 3, same 0] with queues := [queue3 n e], mem := memWrite [] 0x200000 (natToBytes 2 op) }
def fEnq : Fields := ⟨4, 0, 0, 0, 0, 2, false, 0, 0, 0⟩
theorem witness_Tasks : s0.run = some r0 ∧ runMask r0 = r0.work.live ∧ runMask (branching .none false 0) ≠ 1 ∧ divertedLaunch s0 1 = false ∧
    divertedLaunch { s0 with launches := [{ placedLaunch 0 1 with cause := 2 }] } 1 = true ∧ ((swarm? s0 ref1).map fun w => w.deferred.isEmpty) = some true ∧ regsB s0 2 0xFFFFFFFF 2 r0 = true ∧
    r0.effects = [] ∧
    enabledTrap r0.work.mode r0.raised = none ∧ inTask s0 wg1 = false ∧ inTask (openTask s0 task1) wg1 = true ∧ r0.work.diverted = false ∧
    0x200020 % 64 ≠ 0 ∧ (∀ x ∈ [(63, 0, 0), (64, 1, 1), (64, 2, 2)], onOk (threadLoad (sEnq x.1 x.2.1 1) ref1 true false 0 0x200000 64) (fun y =>
      decide (recField y.1 0 2 = 1) && (enqTarget y.2 1 3).isSome && ((enqTarget y.2 1 3).map enqPlace == some x.2.2)) = true) ∧
    onOk (threadLoad (sEnq 0 0 3) ref1 true false 0 0x200000 64) (fun y => decide (recField y.1 0 2 = 3)) = true ∧ (enqTarget (sEnq 0 0 1) 1 4).isNone = true ∧
    canB (sEnq 0 0 1) (runOf (sEnq 0 0 1)) 5 0xFFFFFFFF = true ∧ activeThreads (runOf (sEnq 0 0 1)) { fEnq with ge := true } = [] := by decide +kernel
/-- The membership of generation 7 with modules 4, 9 and 12, this one 9; the owner's context 1. Its ports are down, as at reset. -/
def members : Membership := ⟨7, 4, [4, 9, 12]⟩
def inFabric (s : State) : State := { s with fabric := { s.fabric with modNum := some 9, current := members, owner := some (1, 5), area := some (0x400000, 65536) } }
/-- A transfer's quad v4: offset, length, first rank, count. -/
def sTransfer (va spad len first count : Nat) : State := inFabric (demo [same va, same 0, same 0, same 0, same spad, same len, same first, same count])
def redundantTask : State := { openTask s0 task1 with launches := [{ placedLaunch 0 1 with desc := { placedDesc with redund := true } }] }
theorem witness_FabricTransfers :
    (∀ x ∈ [(0x200000, 0, 4096, 2, 1), (0x200000, 4032, 64, 0, 3), (0x200000, 0, 0, 0, 1)], let s := sTransfer x.1 x.2.1 x.2.2.1 x.2.2.2.1 x.2.2.2.2
      s.run = some (runOf s) ∧ wg? s wg1 = some (placedWg wg1) ∧ ownRank s = some 1 ∧ x.2.2.1 ≤ 2 ^ 20 ∧ x.2.1 + x.2.2.1 ≤ 4096 ∧ x.2.2.2.1 + x.2.2.2.2 ≤ s.fabric.current.mods.length) ∧
    3 < 2 + 2 ∧ 2 ^ 20 < 1048640 ∧ 4096 < 4096 + 64 ∧ ownRank (demo []) = none ∧ activeThreads r0 { fCopy with ge := true } = [] ∧
    (inTask redundantTask wg1 = true ∧ (launch? redundantTask 1).any (fun l => l.desc.redund) = true) := by
  decide +kernel
/-- A CRED descriptor: source, destination, CID 6, 64 elements, 32 to a chunk. -/
def credBytes (cid : Nat := 6) (src : Nat := 0x201000) : List Byte :=
  natToBytes 8 src ++ natToBytes 8 0x202000 ++ natToBytes 4 cid ++ natToBytes 4 64 ++ natToBytes 2 32 ++ List.replicate 38 0
def sCred (body : List Byte := credBytes) : State := { inFabric (demo [same 0x200000, same 0, same 0, same 0, same 0, same 2]) with mem := memWrite [] 0x200000 body }
def credReq : CredReq := ⟨0x200000, credBytes, 0, .f32, false, false, 0, 2⟩
theorem witness_FabricTransfers_cred : (credBytes).length = 64 ∧ descOk 0 (credBytes) = true ∧ 0 + 2 ≤ chunkCount (credBytes) ∧ ¬0 + 3 ≤ chunkCount (credBytes) ∧
    descSrc (credBytes) % 64 = 0 ∧ descSrc (credBytes 6 0x201020) % 64 ≠ 0 ∧ descOk 0 (credBytes 0) = false ∧
    onOk (engineRead (sCred) (accessOf (sCred) ref1) 0x200000 64) (fun x => decide (x.1 = credBytes) && (collective? x.2.2 6).isNone && areaFits x.2.2 [credReq] &&
      !areaFits { x.2.2 with fabric := { x.2.2.fabric with area := none } } [credReq]) = true ∧
    credDiffers credBytes 0 .f32 false credReq = false ∧ credDiffers credBytes 1 .f32 false credReq = true := by decide +kernel
/-- A membership image at 0x200000 and a view descriptor or join block at 0x200400. -/
def tableBytes (m : Membership) : List Byte :=
  natToBytes 2 m.gen ++ natToBytes 2 m.mods.length ++ natToBytes 2 m.anchor ++ natToBytes 2 0 ++ (m.mods.map (natToBytes 2)).flatten
def viewBytes (id : Nat) : List Byte := natToBytes 8 0x200000 ++ natToBytes 8 0x10000 ++ natToBytes 8 0x700000 ++ natToBytes 1 id ++ List.replicate 7 0
def joinBytes (n : Nat) : List Byte := natToBytes 8 0x200000 ++ natToBytes 8 0x200800 ++ natToBytes 4 n ++ List.replicate 44 0
def sTable (m : Membership) (block : List Byte := []) : State :=
  { inFabric (demo [same 0x200000, same 0]) with mem := memWrite (memWrite [] 0x200000 (tableBytes m)) 0x200400 block }
theorem witness_FabricControl : inTask (openTask (inFabric s0) task1) wg1 = true ∧ owns (inFabric s0) r0 ∧ ¬owns s0 r0 ∧ inTask s0 wg1 = false ∧
    onOk (readTable (sTable members) ref1 0x200000) (fun x => decide (x.1 = members)) = true ∧
    onOk (readTable (sTable ⟨8, 9, [9, 12]⟩) ref1 0x200000) (fun x => decide (x.1 = ⟨8, 9, [9, 12]⟩ ∧ x.1.gen = (members.gen + 1) % 2 ^ 16)) = true ∧
    onOk (readTable (sTable ⟨9, 9, [9, 12]⟩) ref1 0x200000) (fun x => decide (x.1.gen ≠ (members.gen + 1) % 2 ^ 16)) = true ∧
    onError (readTable (sTable members) ref1 0x200004) (fun _ => true) = true ∧ 0x200410 % 64 ≠ 0 ∧ 0x200410 % 32 ≠ 0 ∧
    onOk (homeBytes (sTable members (joinBytes 65536)) ref1 0x200400 64) (fun x => decide (x.1 = joinBytes 65536)) = true ∧
    (recField (joinBytes 65536) 8 8 % 32 = 0 ∧ recField (joinBytes 65536) 16 4 = 65536 ∧ recField (joinBytes 0) 16 4 = 0 ∧ recField (joinBytes 1) 0 8 = 0x200000) ∧
    ownRank (inFabric s0) ≠ none ∧ ownRank { inFabric s0 with fabric := { (inFabric s0).fabric with modNum := some 20 } } = none ∧
    rankIn members (some 20) = none ∧ rankIn members (some 12) ≠ none ∧ (7 + 32767 + 2 ^ 16 - 7) % 2 ^ 16 = 32767 ∧
    onOk (homeBytes (sTable members (viewBytes 63)) ref1 0x200400 32) (fun x => decide (x.1 = viewBytes 63)) = true ∧ viewOk (viewBytes 63) = true ∧
    viewOk (viewBytes 64) = false ∧ onOk (viewPages (sTable members) r0 0x200000 0x10000 0x700000) (fun _ => true) = true ∧ 63 ∉ viewIds (sTable members) r0 ∧
    63 ∈ viewIds { sTable members with views := [⟨1, 63, 0x200000, 0x10000, 0x700000, [.shared], 0, none⟩] } r0 ∧
    (contextAt (sTable members) 1).shadowPool = none ∧ canB (inFabric s0) r0 0 0xFFFFFFFF = true := by
  refine ⟨by decide +kernel, ⟨by decide +kernel, by decide +kernel⟩, ?_, by decide +kernel⟩
  intro h
  exact absurd h.2 (by decide +kernel)

/-! The headline statements. -/

def ask1 (v : Byte) (id : BitVec 128) : CellReq := .propose 1 (List.replicate 56 v) id none 0
theorem witness_CellsDecideOnce : let s := cellWith [1, 0, 0, 0]
    Memory.wf s.mem = true ∧ sectorFault s 0x300000 = none ∧ incOf (cellSector s 0x300000) = 1 ∧ stateOf (cellSector s 0x300000) < 2 ∧
    stateOf (cellSector (cellWith [1, 0, 1, 0]) 0x300000) = 1 ∧ ∀ q ∈ [ask1 7 1, .docrd 1 0, ask1 8 2], asks 1 q := by
  refine ⟨by decide +kernel, by decide +kernel, by decide +kernel, by decide +kernel, by decide +kernel, ?_⟩
  intro q hq
  rcases List.mem_cons.1 hq with rfl | hq
  · exact .inr ⟨_, _, _, _, rfl, by decide +kernel⟩
  rcases List.mem_cons.1 hq with rfl | hq
  · exact .inl ⟨_, rfl⟩
  rcases List.mem_cons.1 hq with rfl | hq
  · exact .inr ⟨_, _, _, _, rfl, by decide +kernel⟩
  · cases hq
/-- The machine right after reset with IADD d = v9, a = v9, #0 placed: its clause issues, and is then in flight. -/
def placed : State := State.reset.withFetchWord 64 0x1009090000300000
def placedRef : SwarmRef := ⟨1, 0, 0, false⟩
/-- What the second statement asks of a swarm whose issue is next. -/
def issuesB (s : State) (r : SwarmRef) (words : List DWord) (i : Instr) : Bool :=
  let t := { tick s with agenda := [] }
  s.run.isNone && (dueEvent (tick s)).isNone && ((tick s).runs.find? fun r => r.phase = .cellWait [] && onLane (tick s) r.ref).isNone &&
    (swarm? t r).any fun w => mayIssue t w && !divertsNow t w && w.deferred.isEmpty && w.pendFetch.isNone &&
      match choose t w with
      | (.a, .issue run) =>
        let now := { run with work := { run.work with waitFrom := none } }
        run.words = words && run.idx == 0 && !stopsHere (issueClause t r) now && (operandStop (issueClause t r) now i).isNone
      | _ => false
/-- A clause past an ATOM: no other agent moves before it completes. -/
def sLocked : State := { demo [] with run := (demo []).run.map fun r => { r with words := [Fields.toWord 0x68 ⟨0, 0, 1, 0, 0, 0, false, 0, 0, 0⟩, 0], idx := 1 } }
theorem witness_StepRunsTheDecodedInstruction :
    (∀ s ∈ [demo [], sLocked], s.run = some (runOf s) ∧ (runOf s).words[(runOf s).idx]? = some 0 ∧ stopsHere (tick s) (runOf s) = false ∧
      operandStop (tick s) (runOf s) (.iaddReg ⟨0, 0, 0, 0, 0, 0, false, 0, 0, 0⟩) = none ∧ (dueEvent (tick s)).isNone = true ∧ s.agenda = []) ∧
    read 0 = some (.iaddReg ⟨0, 0, 0, 0, 0, 0, false, 0, 0, 0⟩) ∧ locked (runOf sLocked) = true ∧
    placed.agenda = [.issue placedRef] ∧ issuesB placed placedRef [0x1009090000300000] (.iaddImm ⟨9, 9, 0, 0, 3, 0, false, 0, 0, 0⟩) = true ∧
    placedVa % 8 = 0 ∧ placedPa % 8 = 0 ∧ onOk (translate placed 0 1 placedVa false) (fun x => x.2 == placedPa && x.1.remote.isNone && x.1.onChip.isNone) = true ∧
    sectorFault placed placedPa = none := by decide +kernel
theorem witness_EncodingRoundTrip : (Instr.iaddReg (fa 3)).isInstruction = true ∧ read 0x1009090000300000 = some (.iaddImm ⟨9, 9, 0, 0, 3, 0, false, 0, 0, 0⟩) ∧
    encode (.join (fa 0)) = some (Fields.toWord 0xB6 (fa 0)) := by decide +kernel
/-- A state with canonical memories, a step of which answers a next state. -/
theorem witness_MemoryStaysCanonical : sBytes.memOk = true ∧ (match step { sBytes with agenda := [] } with | .next _ => true | _ => false) = true := by decide +kernel
/-- A clause at its end; with enabled flags, the lowest of which traps. -/
def ended : Run := { r0 with idx := 1 }
theorem witness_ClauseCompletion : swarm? s0 ended.ref = some (swarm1 [same 0xFFFFFFFF, same 2, same 3, same 4]) ∧ ended.ref.slice = false ∧ ended.effects = [] ∧ ended.exits = 0 ∧
    ended.branch = .none ∧ (swarm1 []).sliceBinds = [] ∧ (swarm1 []).deferred = [] ∧ ended.work.slotA = (swarm1 []).slotA ∧ ended.work.slotB = (swarm1 []).slotB ∧
    (slotOf (swarm1 []) ended.slot).valid = true ∧ (∀ k, k < 6 → ¬(ended.raised.getLsbD k = true ∧ ended.work.mode.getLsbD (8 + k) = true)) ∧ inTask s0 wg1 = false ∧
    inTask (openTask s0 task1) wg1 = true ∧ ((0x24 : BitVec 6).getLsbD 2 = true ∧ (0x2401 : Word).getLsbD (8 + 2) = true ∧
      ∀ j, j < 2 → ¬((0x24 : BitVec 6).getLsbD j = true ∧ (0x2401 : Word).getLsbD (8 + j) = true)) := by decide +kernel

/-! Control flow, special registers, memory: one step of the instruction. -/

def swarmOf (o : Option State) (r : SwarmRef := ref1) : Option Swarm := o.bind fun t => swarm? t r
/-- R121's worked example: threads 0 to 9 go to 0x1000, 10 to 19 to 0x1040, the rest to 0x1080; RJP is 0x10C0. -/
def sBrx (lim : Nat := 4) : State :=
  let w := { swarm1 [fun t => if t < 10 then 0x1000 else if t < 20 then 0x1040 else 0x1080, same 0] with
    slotA := { (swarm1 []).slotA with rjp := 0x10C0 }
    dsLim := lim }
  { demo [] with swarms := [w], run := some (run1 w) }
def fPlain : Fields := ⟨0, 0, 0, 0, 0, 0, false, 0, 0, 0⟩
def stackWord (o : Option State) (k : Nat) : Option Nat := o.map fun t => bytesToNat (memRead t.mem (0x208000 + 8 * k) 8)
theorem test_brx_worked : ((swarmOf (after (.brx fPlain) (sBrx))).map fun w => (w.slotA, w.slotB)) =
      some (⟨true, false, 0x1080, 0xFFF00000, 0x10C0, BitVec.allOnes 64⟩, ⟨true, false, 0x1040, 0xFFC00, 0x10C0, BitVec.allOnes 64⟩) ∧
    ((swarmOf (after (.brx fPlain) (sBrx))).map Swarm.dsDepth) = some 3 ∧
    -- JOIN(0x10C0), PATH(0x1000, threads 0 to 9), JOIN(0x10C0, RPC 0x10C0)
    ([0, 4, 5, 8, 9].map (stackWord (after (.brx fPlain) (sBrx)))) = [some 0x10C0, some 0x1000, some 0x10C0, some 0x10C0, some 0x10C0] := by decide +kernel
theorem test_brx_stack_full : ((swarmOf (after (.brx fPlain) (sBrx 2))).map fun w => (w.stopped, w.slotA.mask, w.dsDepth)) = some (true, 0xFFFFFFFF, 0) := by decide +kernel
/-- R119's worked word: five words after the header. -/
theorem test_bra_target : slotAOf (after (.bra { fPlain with opc := 5 }) s0) = some (0x1028, 0xFFFFFFFF) := by decide +kernel
theorem test_setsr_mode : modeOf (after (.setsr { fPlain with opb := 8 }) (demo [same 2])) = some 2 ∧ stoppedOf (after (.setsr { fPlain with opb := 8 }) (demo [same 7])) = some true ∧
    stoppedOf (after (.setsr fPlain) (demo [same 2])) = some true := by decide +kernel
theorem test_ld_words : ([0, 1, 2].map (regAt (after (.ld (fe)) sBytes) 4)) = [some 0x55667788, some 0x11223344, some 0] ∧ stoppedOf (after (.ld (fe)) (sMem 0x200002)) = some true := by
  decide +kernel
/-- Two sectors take the words of 32 threads; the store buffers hold them. -/
theorem test_st_buffers : ((after (.st (fe)) (sMem)).map fun t => (coreAt t 0).wcb.map fun e => (e.pa, e.mask)) = some [(0x200000, BitVec.allOnes 64), (0x200040, BitVec.allOnes 64)] := by
  decide +kernel

/-! Events: for each, a state that meets its conditions, and what the event makes of it. -/

def idle (w : Swarm) : State := { demo [] with run := none, swarms := [w], cycle := 5000 }
def schedOf (o : Option State) (r : SwarmRef := ref1) : Option Sched := (swarmOf o r).map Swarm.sched
def ref2 : SwarmRef := ⟨1, 0, 1, false⟩
/-- A swarm whose slot stands at its rejoin point. -/
def codeHolds (b : List Byte) (s : State) : State :=
  { s with
    mem := memWrite s.mem 0x100000 b
    dies := s.dies.modify 0 fun d => { d with tlb := ⟨1, 0x100000, 4096, 0x100000, false, true, false, none, none, false⟩ :: d.tlb } }
def sPark : State :=
  codeHolds (natToBytes 8 0xF000000200000000) (idle { swarm1 [] with slotA := { (swarm1 []).slotA with pc := 0x100000, rpc := 0x100000 } })
/-- Two swarms of the lane, and of a team of two lanes. -/
def sLane (a b : Sched) (since : Nat := 0) : State :=
  { idle { swarm1 [] with sched := a } with swarms := [{ swarm1 [] with sched := a }, { swarm1 [] with ref := ref2, sched := b, since }] }
def sTeam : State :=
  let w := { swarm1 [] with inTeam := true, sched := .ready }
  { idle w with swarms := [w, { w with ref := ref2, lane := 1, teamPos := 1 }], wgs := [{ placedWg wg1 with teamSize := 2, teamCount := 1 }] }
def ref3 : SwarmRef := ⟨1, 0, 2, false⟩
def sClaim : State := { sTeam with swarms := sTeam.swarms ++ [{ swarm1 [] with ref := ref3 }] }
theorem witness_SchedulerEvents_park : (swarm? sPark ref1).any (fun w => mayIssue sPark w && (match choose sPark w with | (.a, .park) => true | _ => false) &&
      !w.slotA.parked && onOk (reconverge (putSwarm sPark { w with slotA := { w.slotA with parked := true } }) { w with slotA := { w.slotA with parked := true } })
        fun v => !v.over) = true ∧ ((swarmOf (after (.reconvergencePark ref1) sPark)).map fun w => (w.slotA.valid, w.slotA.parked)) = some (true, true) := by decide +kernel
def sWait : State := { placed with agenda := [], swarms := placed.swarms.map fun w => { w with sched := .waiting } }
theorem witness_SchedulerEvents_wait : (swarm? sWait ref1).any (fun w => w.sched == .waiting && conditionMet sWait w) = true ∧
    schedOf (after (.waitConditionMet ref1) sWait) = some .ready := by decide +kernel
theorem witness_SchedulerEvents_fill : ((laneSwarms (sLane .waiting .ready) 0 0).all fun y => y.sched != .active && !y.inTeam) = true ∧
    (bestOf (choices (sLane .waiting .ready) 0 0)).map Choice.ref = some ref2 ∧ schedOf (after (.activeSlotFill 0 0) (sLane .waiting .ready)) ref2 = some .active := by
  decide +kernel
/-- R134: 1,024 cycles after it became ready, not one cycle before. -/
theorem witness_SchedulerEvents_swap : (bestOf ((choices (sLane .active .ready 3976) 0 0).filter fun x => x.since + 1024 ≤ 5000)).map (fun x => (x.ref, x.team)) = some (ref2, none) ∧
    (occupants (sLane .active .ready 3976) 0 0).map Swarm.ref = [ref1] ∧ atBoundary (sLane .active .ready 3976) ref1 = true ∧
    arrivedRun (sLane .active .ready 3976) ref1 = false ∧ (swarm? (sLane .active .ready 3976) ref1).any (fun w => w.sched == .active && !pinned (sLane .active .ready 3976) w &&
      !mayIssue (sLane .active .ready 3976) w) = true ∧
    -- a team has selected the lane of a swarm that is ACTIVE
    laneClaimed sClaim 0 0 = true ∧ (swarm? sClaim ref3).any (fun w => !mayIssue sClaim w) = true ∧
    schedOf (after (.forcedSwap 0 0) (sLane .active .ready 3976)) ref2 = some .active ∧ schedOf (after (.forcedSwap 0 0) (sLane .active .ready 3976)) = some .ready ∧
    schedOf (after (.forcedSwap 0 0) (sLane .active .ready 3977)) ref2 = some .ready := by decide +kernel
theorem witness_SchedulerEvents_team : teamReady sTeam wg1 0 = true ∧ teamActive sTeam wg1 0 = false ∧ ((liveTeam sTeam wg1 0).all fun w => laneFree sTeam 0 w.lane &&
      (bestOf (choices sTeam 0 w.lane)).any fun x => x.team == some (wg1, 0)) = true ∧ schedOf (after (.teamEntry wg1 0) sTeam) = some .active ∧
    schedOf (after (.teamEntry wg1 0) sTeam) ref2 = some .active := by decide +kernel
/-- The third mismatch in a row traps: the swarm, outside a task, is stopped. -/
def sMismatch (n : Nat) : State := { s0 with swarms := s0.swarms.map fun w => { w with mismatches := n } }
theorem witness_SchedulerEvents_scoreboard : ((s0.run.toList ++ s0.runs).filter fun y => y.ref = ref1).length = 1 ∧
    ((swarmOf (after (.scoreboardRebuild ref1) (sMismatch 1))).map fun w => (w.mismatches, w.stopped)) = some (2, false) ∧
    ((swarmOf (after (.scoreboardRebuild ref1) (sMismatch 2))).map fun w => (w.mismatches, w.stopped)) = some (0, true) := by decide +kernel
theorem witness_SchedulerEvents_arrays : 7 < 8 ∧ ((laneSwarms (sLane .ready .ready) 0 0).all fun w => w.sched != .active && decide (w.leftLane + 512 ≤ 5000)) = true ∧ 7 < (coreAt (sLane .ready .ready) 0).drowsy.length ∧
    ((coreAt (sLane .ready .ready) 0).bankUse.getD 7 []).getD 7 0 + 512 ≤ (sLane .ready .ready).cycle ∧
    ((after (.bankDrowsy 0 0 7) (sLane .ready .ready)).map fun t => (coreAt t 0).drowsy.getD 0 0) = some 0x80 ∧
    -- bank 3 of 16 in its slot of a period of 4,096: cycles 768 to 815
    periodOf (coreAt (sLane .ready .ready) 0) 4864 = 4096 ∧ 3 * 4096 / 16 ≤ 4911 % 4096 ∧ 4911 % 4096 < 3 * 4096 / 16 + 48 ∧
    ((after (.accRefreshSlot 0 3 [12, 20]) { sLane .ready .ready with cycle := 4911 }).map fun t => ((tileAt t 0 12).lost, (tileAt t 0 20).lost)) = some (true, false) ∧
    ((after (.accRefreshSlot 0 3 [12]) { sLane .ready .ready with cycle := 4912 }).map fun t => (tileAt t 0 12).lost) = some false ∧
    (coreAt (sLane .ready .ready) 0).hot ≠ true ∧ ((after (.junctionTemperatureChange 0 true) (sLane .ready .ready)).map fun t => (coreAt t 0).nextPeriod) = some (some (2048, 8192)) := by
  decide +kernel
/-- A buffered store of bytes 4 to 7 of the first sector of the page, made at cycle 904. -/
def entry1 (task : Option WgRef := none) (sent : Bool := false) : WcbEntry :=
  ⟨0x200000, 0x200000, 1, List.replicate 64 0xAB, 0xF0, task, [], 904, sent⟩
def withWcb (e : WcbEntry) (s : State := idle (swarm1 [])) : State := modCore s 0 fun c => { c with wcb := [e] }
theorem witness_SchedulerEvents_ageing : ((coreAt (withWcb (entry1)) 0).wcb.find? fun e => e.pa = 0x200000 && !e.sent && e.firstWrite + 4096 ≤ 5000) = some (entry1) ∧
    (entry1).task = none ∧ (entry1 (some wg1)).task = some wg1 ∧ ((after (.wcEntryAgeDrain 0 0x200000) (withWcb (entry1))).map fun t =>
      (t.announcements.map Announcement.pa, (coreAt t 0).wcb.map WcbEntry.sent)) = some ([0x200000], [true]) := by decide +kernel

/-- An engine's operation of the swarm. -/
def sAsync (k : AsyncKind) (s : State := sBytes) : State :=
  { s with run := none, asyncs := [⟨77, ref1, 0x1000, 1, k⟩], wgs := s.wgs.map fun g => { g with scratch := scratchWrite g.scratch 0 (List.replicate 64 0x5A) } }
def plainB (s : State) (va : Nat) (write : Bool) : Bool :=
  onOk (translateData s 0 1 va write) (fun x => decide (x = (dataPage, va))) && (sectorFault s va).isNone && (accessOf s ref1).task.isNone
theorem witness_EngineEvents_copies :
    (∀ k ∈ [AsyncKind.cpin 0x200000 128 64, .cpout 0x200000 0 64, .cpob 1 true 0 2048 64, .flush 0x200000 256], engineHeld (sAsync k) ref1 77 = false ∧
      onOk (performAsync (sAsync k) ⟨77, ref1, 0x1000, 1, k⟩) (fun t => t.asyncs.isEmpty) = true) ∧
    sameBytes ⟨77, ref1, 0x1000, 1, .cpin 0x200000 128 64⟩ ⟨76, ref1, 0x1000, 1, .cpin 0x200100 512 64⟩ = false ∧
    sameBytes ⟨77, ref1, 0x1000, 1, .cpin 0x200000 128 64⟩ ⟨76, ref1, 0x1000, 1, .cpout 0x200100 64 128⟩ = true ∧
    onOk (scratchSeen (sAsync (.cpout 0x200000 0 64)) (wgNow (sAsync (.cpout 0x200000 0 64))) 0 64) (fun b => decide (b = List.replicate 64 0x5A)) = true ∧
    ringsOf (sAsync (.cpin 0x200000 128 64)) wg1 = [] ∧ keyContext (sAsync (.flush 0x200000 256)) 0x200000 = none ∧
    keyContext (withPages (sAsync (.flush 0x200000 256)) [{ dataPage with encrypted := true }]) 0x200000 = some 1 ∧
    plainB (sAsync (.cpin 0x200000 128 64)) 0x200000 false = true ∧ plainB (sAsync (.cpout 0x200000 0 64)) 0x200000 true = true ∧ (placedWg wg1).frozen = false ∧
    ((after (.copyComplete 77) (sAsync (.cpin 0x200000 128 64))).bind fun t => (wg? t wg1).map fun g => scratchRead g.scratch 128 9) =
      some (natToBytes 8 0x1122334455667788 ++ [0]) ∧
    ((after (.copyComplete 77) (sAsync (.cpout 0x200000 0 64))).map fun t => (memRead t.mem 0x200000 2, memGet t.mem 0x20003F, memGet t.mem 0x200040)) = some ([0x5A, 0x5A], 0x5A, 0) ∧
    ((after (.cpobComplete 77) (sAsync (.cpob 1 true 0 2048 64))).bind fun t => (wg? t wg1).map fun g => (memGet g.obuf 2047, memGet g.obuf 2048, memGet g.obuf 2111, memGet g.obuf 2112)) =
      some (0, 0x5A, 0x5A, 0) ∧
    ((after (.flushComplete 77) { sAsync (.flush 0x200000 256) with dirty := [0x200000 / 256] }).map fun t => (t.dirty, memRead t.backing 0x200000 2)) = some ([], [0x88, 0x77]) := by
  decide +kernel
def sRed : State := { sBytes with run := none, atomics := [⟨78, ref1, 0x1000, [⟨0x200000, .n32, 0, 2⟩], none⟩] }
def announced : State := { sBytes with announcements := [⟨0x200000, List.replicate 64 0xAB, 0xF0, none, none⟩] }
/-- A copy of a sector on its way to die 0, with the count of announcements given. -/
def sFetch (n : Nat) : State :=
  { sBytes with dies := sBytes.dies.modify 0 fun d => { d with fetches := [⟨79, 0x200000, List.replicate 64 1, 0, n⟩] } }
def sCellWait : State := { cellWith [1, 0, 0, 0] with run := none, cellWaits := [⟨80, some ref1, 0, 0x1000, 1, 0x300000, 0x300000, none, .docrd 1 0, none⟩] }
/-- A RED of the word behind another home slice went out before it. -/
def sReds : State := { sRed with atomics := ⟨77, ref1, 0x1000, [⟨0x200100, .n32, 0, 2⟩], none⟩ :: sRed.atomics }
theorem witness_EngineEvents_homes : plainB sRed 0x200000 true = true ∧ (coreAt sRed 0).wcb.isEmpty = true ∧ sRed.announcements = [] ∧ Memory.wf sRed.mem = true ∧
    (sReds.atomics.map fun y => (sameHome sReds y 0x200000, (y.reqs.map (requestPa sReds y)))) = [(false, [some 0x200100]), (true, [some 0x200000])] ∧
    comparedRequest sCellWait ref1 = false ∧ engineHeld sRed ref1 78 = false ∧ onOk (performRed sRed ⟨78, ref1, 0x1000, [⟨0x200000, .n32, 0, 2⟩], none⟩) (fun t => t.atomics.isEmpty) = true ∧
    ((after (.atomicUnitRequest 78) sRed).map fun t => memRead t.mem 0x200000 4) = some (natToBytes 4 0x5566778A) ∧ Memory.wf announced.mem = true ∧
    ((after .announcementDelivery announced).map fun t => (memRead t.mem 0x200000 9, t.announcements)) = some (natToBytes 4 0x55667788 ++ [0xAB, 0xAB, 0xAB, 0xAB, 0], []) ∧
    (((sFetch 0).dies.findIdx? fun d => d.fetches.any fun f => f.id = 79) = some 0) ∧ (metaOf (sFetch 0) 0x200000).announced = 0 ∧
    ((after (.sectorFetchReply 79) (sFetch 0)).map fun t => ((dieAt t 0).copies.map DieCopy.pa, (dieAt t 0).fetches.length)) = some ([0x200000], 0) ∧
    ((after (.sectorFetchReply 79) (sFetch 1)).map fun t => (dieAt t 0).copies.length) = some 0 ∧
    (sCellWait.cellWaits.find? fun y => y.id = 80).isSome = true ∧ ((CellReq.docrd 1 0).key = none) ∧
    ((after (.cellRequestAtHome 80) sCellWait).map fun t => t.cellWaits.length) = some 0 := by decide +kernel
/-- A scratchpad walk of 8 entries of 32 words from 0, its ring of 4 at 1,024. -/
def scratchWalk : WalkDesc := { walk1 with base := 0, scratch := true }
def sWalk : State := { sStream { stream1 scratchWalk 1 with head := 3 } with run := none }
/-- A swarm that waits before FGSTART, its slice entry given. -/
def sSlice : State :=
  let s := State.reset.withFetchWord 64 0x9200F00000000000
  { s with agenda := [], cycle := 9, wgs := s.wgs.map fun g => { g with sliceEntry := 0x5000 },
           swarms := s.swarms.map fun w => { w with sched := .waiting, waitFrom := some 5, waitFor := .context } }
theorem witness_EngineEvents_cluster : (swarm? sWalk ref1).any (fun w => let x := w.streams.getD 3 Stream.unbound
      w.sched != .done && x.bound && !x.failed && !x.desc.push && !x.ended && decide (x.entries.length < x.depth) && x.desc.scratch &&
      (List.range 32).all fun t => decide (walkAddr x.desc x.pos t + 4 ≤ 4096) && !eccBad [] (walkAddr x.desc x.pos t) 4) = true ∧ (wgNow sWalk).scratch.bad = [] ∧ engineHeld sWalk ref1 (walkName 3) = false ∧
    ((swarmOf (after (.walkEntryGenerate ref1 3) sWalk)).map fun w => (w.streams.getD 3 Stream.unbound).entries.length) = some 2 ∧
    -- the ring's slot (3 + 1) mod 4 = 0 holds the first words of the walk
    ((after (.walkEntryGenerate ref1 3) sWalk).bind fun t => (wg? t wg1).map fun g => (scratchWord g.scratch 1024, scratchWord g.scratch 1032)) = some (0x200000, 4) ∧
    ((sSlice.swarms.filter fun w => clusterOf w.ref.core = 0 && w.sched = .waiting && waitsForSlice w).map Swarm.ref) = [ref1] ∧ slicesIn sSlice 0 < 64 ∧
    (swarm? sSlice ref1).any (canGo sSlice) = true ∧ schedOf (after (.sliceContextGrant 0) sSlice) = some .ready := by decide +kernel

/-- An arrival at the MMA of record 1 and name 0, TYPE S8 or what is given, with all quarters of ones in B. -/
def arrival1 (record : Nat := 1) (ty : Ty := .s8) (tile : Nat := 0) : Arrival :=
  ⟨false, 0, record, 0, tile, 0x80000001, (0x80, 0, 1, 4, 0, none), ty, .s8, (List.range 4).map fun k => (k, List.replicate 256 0x01010101)⟩
/-- The swarm arrived, alone; A's first row is -1 throughout and the tile as it was. -/
def sArrived (a : Arrival) : State :=
  let s := sMatrix [] (List.replicate 64 (ownTile))
  { s with
    run := none
    runs := [{ run1 (swarm1 []) with arrival := some a, phase := .arrived }]
    wgs := s.wgs.map fun g => { g with obuf := memWrite [] 2048 (List.replicate 64 0xFF) } }
theorem witness_MatrixEvents_accept :
    (∀ a ∈ [arrival1, arrival1 2, arrival1 1 .f16], (swarm? (sArrived a) ref1).any (fun w => !w.inTeam && w.sched != .done) = true ∧
      ((sArrived a).runs.find? fun y => y.ref = ref1 && y.phase = .arrived).bind Run.arrival = some a ∧ tileBusy (sArrived a) wg1 5 [ref1] true = false) ∧
    gMat.records.getD 2 none = none ∧ gMat.records.getD 1 none = some ⟨2, 2, .s8, 0, 0⟩ ∧
    (∀ b ∈ mmaReads (arrival1) ⟨2, 2, .s8, 0, 0⟩, b.1 + b.2 ≤ 1024 * (2 + 2)) ∧ ¬(∀ b ∈ mmaReads (arrival1 1 .s8 1) ⟨2, 2, .s8, 0, 0⟩, b.1 + b.2 ≤ 1024 * (2 + 2)) ∧
    tileOf (sArrived (arrival1)) wg1 0 = some 5 ∧ (tileAt (sArrived (arrival1)) 0 5).lost = false ∧ (tileAt (sArrived (arrival1)) 0 5).bad = false ∧
    (∀ b ∈ mmaReads (arrival1) ⟨2, 2, .s8, 0, 0⟩, eccBad [] b.1 b.2 = false) ∧ (sArrived (arrival1)).mmas = [] ∧ (sArrived (arrival1)).asyncs = [] ∧
    ((swarmOf (after (.mmaAccept ref1) (sArrived (arrival1)))).map fun w => (w.stopped, w.slotA.pc.toNat)) = some (false, 0x1010) ∧
    ((after (.mmaAccept ref1) (sArrived (arrival1))).map fun t => t.mmas.map fun m => (m.tile, m.aBytes.take 65)) = some [(5, List.replicate 64 0xFF ++ [0])] ∧
    ((swarmOf (after (.mmaAccept ref1) (sArrived (arrival1 2)))).map Swarm.stopped) = some true ∧
    ((swarmOf (after (.mmaAccept ref1) (sArrived (arrival1 1 .f16)))).map Swarm.stopped) = some true ∧
    -- beyond its record, an unmapped name, a tile lost, an operand word with an error
    ([sArrived (arrival1 1 .s8 1), modWgs (sArrived (arrival1)) (fun g => { g with names := g.names.set 0 none }),
      modTile (sArrived (arrival1)) 0 5 (fun x => { x with lost := true }), modWgs (sArrived (arrival1)) (fun g => { g with obufBad := [2111] })].map fun s =>
      (swarmOf (after (.mmaAccept ref1) s)).map Swarm.stopped) = List.replicate 4 (some true) ∧
    (∃ b ∈ mmaReads (arrival1) ⟨2, 2, .s8, 0, 0⟩, eccBad [2111] b.1 b.2 = true) := by decide +kernel
/-- That operation once accepted: row 0 adds 64 × (-1 × 1), row 31 adds 0, the others stay. -/
def sAccepted : State := (after (.mmaAccept ref1) (sArrived (arrival1))).getD State.reset
theorem witness_MatrixEvents_result : (sAccepted.mmas.map fun m => (m.id, m.discarded, m.tile)) = [(1, false, 5)] ∧ 5 < (coreAt sAccepted 0).tiles.length ∧
    (tileAt sAccepted 0 5).elems.length = 2048 ∧ (sAccepted.mmas.map fun m => [(0, 0), (0, 63), (31, 63)].map fun x =>
      (mmaNew m x.1 x.2 1).1.toInt) = [[-63, -63, 1]] := by decide +kernel
/-- Every tile is held by the workgroup, whose swarm waits before ACCALLOC of name 1. -/
def sReclaim : State :=
  let s := State.reset.withFetchWord 64 (BitVec.toNat (Fields.toWord 0x85 ⟨1, 0, 0, 0, 0, 0, false, 0, 0, 0⟩))
  modCore { s with
    agenda := []
    wgs := s.wgs.map fun g => { g with names := (List.range 64).map fun k => some k }
    swarms := s.swarms.map fun w => { w with sched := .waiting, waitFrom := some 5, waitFor := .tile } } 0 fun c =>
      { c with tiles := List.replicate 64 ⟨some wg1, [], false, false⟩ }
/-- Name 1 is not mapped; its tile is held by another workgroup of a diverted launch, which waits as well. -/
def sReclaim2 : State :=
  let s := modWg sReclaim wg1 fun g => { g with names := g.names.set 1 none }
  let other : WgRef := ⟨9, 0⟩
  modCore { s with
    wgs := s.wgs ++ [{ placedWg other with names := (placedWg other).names.set 0 (some 1) }]
    launches := s.launches ++ [{ placedLaunch 1 9 with cause := 1 }]
    swarms := s.swarms ++ (s.swarms.map fun w => { w with ref := ⟨9, 0, 0, false⟩ }) } 0 fun c => { c with tiles := c.tiles.set 1 ⟨some other, [], false, false⟩ }
theorem witness_MatrixEvents_reclaim : ((coreAt sReclaim2 0).tiles.all fun x => x.owner.isSome) = true ∧
    (((coreAt sReclaim2 0).tiles.filterMap Tile.owner).eraseDups.all fun h => (swarmsOf sReclaim2 h).any waitsForTile) = true ∧
    ((coreAt sReclaim2 0).tiles.filterMap Tile.owner).eraseDups = [wg1, ⟨9, 0⟩] ∧ divertedLaunch sReclaim2 1 = false ∧ divertedLaunch sReclaim2 9 = true ∧
    tileOf sReclaim2 wg1 0 ≠ none ∧ drainUnderWay sReclaim2 wg1 = false ∧ onlyMmas sReclaim2 wg1 = true ∧ (launch? sReclaim2 1).isSome = true ∧
    ((after (.accumulatorReclaim 0) sReclaim2).map fun t => ((tileAt t 0 0).owner, (tileAt t 0 1).owner, (launch? t 1).map Launch.reclaims)) =
      some (none, some ⟨9, 0⟩, some 1) := by decide +kernel

/-- A task of tile 5 whose one swarm has ended it as given, with a store of bytes 0 to 3 of the page in its version. -/
def sTask (k : EndKind) : State :=
  let s := idle { swarm1 [] with endArrived := some k, entryMode := 0x2401, shadow := 4 }
  { openTask s task1 with versions := [⟨wg1, [.store 0 0x200000 (List.replicate 64 0xAB) 0xF false], none, none, [], []⟩] }
/-- What its end leaves: the page's first bytes, the versions, the tile codes, the swarm's MODE. -/
def endOf (k : EndKind) : Option (List Nat) :=
  (after (.taskEnd wg1) (sTask k)).map fun t =>
    [bytesToNat (memRead t.mem 0x200000 5), t.versions.length, ((swarm? t ref1).map fun w => w.mode.toNat).getD 0] ++ t.launches.flatMap fun l => l.codes.map Prod.snd
theorem witness_TaskEvents_end : (∀ k ∈ [EndKind.commit, .partialCommit, .abandon], taskIsOver (sTask k) wg1 = true ∧ commitHeld (sTask k) (primaryOf (sTask k) wg1) = false ∧
      outcomeOf (sTask k) wg1 = k) ∧ (sTask .commit).announcements = [] ∧ (coreAt (sTask .commit) 0).wcb = [] ∧ (placedWg wg1).twin.twin = none ∧
    (launch? (sTask .commit) 1).map (fun l => l.desc.vmap) = some 0 ∧ versionOps (sTask .commit) wg1 = [.store 0 0x200000 (List.replicate 64 0xAB) 0xF false] ∧
    onOk (translate (sTask .commit) 0 1 0x200000 true) (fun x => decide (x.2 = 0x200000)) = true ∧
    endOf .commit = some [0xABABABAB, 0, 0x40001, 1] ∧ endOf .partialCommit = some [0xABABABAB, 0, 0x40001, 2] ∧
    endOf .abandon = some [0, 0, 0x2401, 3] := by decide +kernel
/-- The task's start record, and its task as a trap has ended it. -/
def start1 : StartRecord := ⟨0, 0x100000, 2, 0, ⟨true, false, 0x100010, 0xFF, 0x100100, 0x100100⟩, 0xFF, 3, 64, 0x2401, []⟩
def sTrapped (e : TrapEnd) : State := openTask (idle (swarm1 [])) { task1 with records := [start1], ending := some e, enqs := [(3, 0, [], false)] }
theorem witness_TaskEvents_replay : quiet (sTrapped .replay) wg1 = true ∧ restartWaits (sTrapped .replay) [wg1] = none ∧ (swarmsOf (sTrapped .replay) wg1).all (fun x => !x.stopped) = true ∧
    ([start1].map StartRecord.idx).Nodup ∧ swarm? (sTrapped .replay) ref1 ≠ none ∧ start1.stack = [] ∧ start1.dsDepth ≤ 4 ∧ (placedLaunch 0 1).cause = 0 ∧
    ((after (.taskReplay wg1) (sTrapped .replay)).bind fun t => (wg? t wg1).bind fun g => g.task.map fun k => (k.ending.isNone, k.attempt, k.enqs.length)) = some (true, 1, 0) ∧
    ((swarmOf (after (.taskReplay wg1) (sTrapped .replay))).map fun v => (v.slotA.pc.toNat, v.live, v.mode.toNat)) = some (0x100010, 0xFF, 0x2401) ∧
    ((swarmOf (after (.trapWithoutReplay wg1) (sTrapped (.noReplay 5)))).map fun v => (v.slotA.pc.toNat, v.live, v.mode.toNat)) = some (0x100000, 0xFF, 0x2401) ∧
    ((after (.trapWithoutReplay wg1) (sTrapped (.noReplay 5))).bind fun t => launch? t 1).map Launch.codes = some [(5, 5)] := by decide +kernel
/-- The twins of tile 5 wait on proposals of unequal values under one identity. -/
def sTie : State :=
  let wg2 : WgRef := ⟨1, 4⟩
  let req (v : Byte) : CellReq := .propose 1 (List.replicate 56 v) 3 none 0
  let g (r q : WgRef) (twin : Bool) : Workgroup := { placedWg r with task := some task1, twin := ⟨some q, twin, false, none⟩ }
  { idle (swarm1 []) with
    clkns := 2000000
    swarms := [swarm1 [], { swarm1 [] with ref := ⟨1, 4, 0, false⟩ }]
    wgs := [g wg1 wg2 false, g wg2 wg1 true]
    launches := [{ placedLaunch 0 1 with desc := { placedDesc with redund := true }, ties := [⟨5, wg1, wg2, false, 1000000⟩] }]
    cellWaits := [⟨80, some ref1, 0, 0x1000, 1, 0x300000, 0x300000, none, req 1, none⟩, ⟨81, some ⟨1, 4, 0, false⟩, 0, 0x1000, 1, 0x300000, 0x300000, none, req 2, none⟩] }
theorem witness_TaskEvents_tie : ((wg? sTie wg1).bind Workgroup.task).map Task.tile = some 5 ∧ (1000000 + 10 ^ 6 ≤ sTie.clkns ∧ ¬1000001 + 10 ^ 6 ≤ sTie.clkns) ∧
    ((disagreeing sTie wg1 ++ disagreeing sTie ⟨1, 4⟩).map CellWait.id) = [80, 81] ∧
    ((after (.tiebreakTimeout wg1) sTie).map fun t => (t.cellWaits.length, (launch? t 1).map fun l => l.ties.length)) = some (0, some 0) := by decide +kernel

/-- The queue's ring with one command in it, in the host's memory as in the device's, and what it names in memory. -/
def cmdBytes (op flags addr value : Nat) : List Byte := natToBytes 2 op ++ natToBytes 1 flags ++ natToBytes 5 0 ++ natToBytes 8 addr ++ natToBytes 8 value ++ List.replicate 40 0
def sRing (cmd : List Byte) (mem : List Byte := []) : State :=
  { idle (swarm1 []) with queues := [queue3 1 1], host := memWrite [] 0x10000 cmd, mem := memWrite (memWrite [] 0x10000 cmd) 0x200000 mem }
/-- A launch descriptor of R337: 2 tiles on cores 1 and 2, one swarm each, RINIT 16, RMAXV 32, 1,024 bytes of scratchpad. -/
def descBytes (entry : Nat := 0x2000) (swarms : Nat := 1) : List Byte :=
  natToBytes 8 entry ++ natToBytes 8 (2 ^ 64 - 1) ++ natToBytes 8 (2 ^ 64 - 1) ++ natToBytes 8 0 ++ natToBytes 4 0 ++ natToBytes 4 0 ++ natToBytes 8 0 ++ natToBytes 8 0 ++
    natToBytes 8 0 ++ natToBytes 4 1 ++ natToBytes 4 2 ++ natToBytes 2 2 ++ [1, 0, 2, 1, 0, BitVec.ofNat 8 swarms, 0, 0, 16, 32] ++ natToBytes 4 1024 ++ natToBytes 4 0 ++
    [4, 0] ++ natToBytes 2 2 ++ natToBytes 8 0 ++ natToBytes 2 0 ++ natToBytes 6 0 ++ natToBytes 8 0 ++ natToBytes 8 0
def onlyQueue (o : Option State) : Option (Nat × Nat × Nat) := (o.bind fun t => queue? t 3).map fun q => (q.taken, q.ridx, q.extCount)
def nopCmd : List Byte := cmdBytes 0 2 0 0
def launchCmd : List Byte := cmdBytes 1 0 0x200000 0
def signalCmd : List Byte := cmdBytes 2 0 0x200008 9
/-- Whichever memory holds the ring, its command is the one placed there. -/
theorem witness_LaunchEvents_ring : ∀ x ∈ [(nopCmd, []), (launchCmd, descBytes), (launchCmd, descBytes 0x2001), (launchCmd, descBytes 0x2000 33), (signalCmd, [])],
    commandAt (sRing x.1 x.2) (queue3 1 1) 0 = commandOf 0 x.1 := by
  intro x hx
  have h : ∀ x ∈ [(nopCmd, []), (launchCmd, descBytes), (launchCmd, descBytes 0x2001), (launchCmd, descBytes 0x2000 33), (signalCmd, [])],
      memRead (sRing x.1 x.2).mem 0x10000 64 = x.1 ∧ memRead (sRing x.1 x.2).host 0x10000 64 = x.1 := by decide +kernel
  have e : (if Config.deviceAddress 0x10000 = true then memRead (sRing x.1 x.2).mem 0x10000 64 else memRead (sRing x.1 x.2).host 0x10000 64) = x.1 := by
    rw [(h x hx).1, (h x hx).2, ite_self]
  unfold commandAt ringRead
  show commandOf 0 (memRead (if Config.deviceAddress 0x10000 = true then (sRing x.1 x.2).mem else (sRing x.1 x.2).host) 0x10000 64) = _
  rw [apply_ite (fun m => memRead m 0x10000 64), e]
/-- What the statement asks of a LAUNCH command's descriptor. -/
def admits (b : List Byte) : Option (Option (Nat × Nat)) :=
  match launchReads (sRing launchCmd b) (queue3 1 1) (commandOf 0 launchCmd) with
  | .ok (d, r) => some (admission d (launchDesc d) (r.isNone || recordBad (r.getD [])) (streamRecords (r.getD [])))
  | .error _ => none
theorem witness_LaunchEvents_commands : (descBytes).length = 128 ∧ (queue3 1 1).taken ≠ (queue3 1 1).widx ∧ engineHeld (sRing nopCmd) hubRef (queueName 3) = false ∧
    queue? (sRing nopCmd) 3 = some (queue3 1 1) ∧ onlyQueue (after (.doorbellWrite 3 2) (sRing nopCmd)) = some (0, 0, 1) ∧
    ((commandOf 0 nopCmd).opcode, (commandOf 0 launchCmd).opcode, (commandOf 0 signalCmd).opcode) = (0, 1, 2) ∧ (queue3 1 1).open_ = [] ∧
    (∀ c ∈ [launchCmd, signalCmd], mayStart (queue3 1 1) (commandOf 0 c) = true) ∧
    -- LAUNCH admitted; rejected for its entry, and for 33 swarms
    ([descBytes, descBytes 0x2001, descBytes 0x2000 33].map admits) = [some none, some (some (0x82, 0)), some (some (0x81, 1))] ∧
    -- SIGNAL of 9 to the page
    (commandOf 0 signalCmd).addr % 8 = 0 ∧
    onOk (writeAny (sRing signalCmd) 1 0x200008 (natToBytes 8 9) (.replace (BitVec.allOnes 512))) (fun u => decide (u.queues = [queue3 1 1])) = true ∧
    -- the extension's command goes to the ring's next place
    0 < (queue3 1 1).extCount ∧ ringUsed (queue3 1 1) < 64 ∧ ¬ringUsed (queue3 64 1) < 64 ∧
    ((after .mappingEvaluation { sRing [] with queues := [{ queue3 1 1 with mapped := false }] }).map fun t => t.queues.map WorkQueue.mapped) = some [true] := by decide +kernel
/-- That launch waiting for placement. -/
def sWaiting : State :=
  let s := sRing launchCmd
  { s with nextId := 2, launches := s.launches ++ [newLaunch s (queue3 1 1) (commandOf 0 launchCmd) (launchDesc (descBytes)) (streamRecords [])] }
def sPlaced : State := (after (.launchPlacement 1) sWaiting).getD State.reset
def byId (o : Option State) (id : Nat) : Option Launch := o.bind fun t => t.launches.find? fun l => l.id = id
theorem witness_LaunchEvents_placement : ((sWaiting.launches.find? fun l => l.id = 1 && l.state = .waiting).bind (placesFor sWaiting)).map (fun ps => ps.map Prod.fst) = some [1, 2] ∧
    sWaiting.powered = true ∧ (queue? sWaiting 3).any WorkQueue.mapped = true ∧ activating sWaiting = false ∧ sPlaced.swarms.length = 1 + 2 * 1 ∧
    ((sPlaced.swarms.drop 1).map fun w => (w.ref.core, w.slotA.pc.toNat, w.live, w.rsv, w.rmax)) = [(1, 0x2000, 0xFFFFFFFF, 16, 32), (2, 0x2000, 0xFFFFFFFF, 16, 32)] ∧
    (sPlaced.launches.map Launch.state) = [.resident, .resident] := by decide +kernel
/-- A resident launch with deadline, budget and wrap-up as given, at the time given; its workgroup ended or not. -/
def sTimed (deadline budget : Nat) (now : Nat) (ended : Bool := false) (wrap : Bool := true) : State :=
  let s := idle (swarm1 [])
  { s with
    clkns := now
    wgs := s.wgs.map fun g => { g with ended, wrapup := if wrap then 0x3000 else Config.noneAddr }
    launches := [{ placedLaunch 0 1 with desc := { placedDesc with deadline, budget, wrapup := if wrap then 0x3000 else Config.noneAddr } }] }
theorem witness_LaunchEvents_ends : ((sTimed 0 0 9 true).wgs.all Workgroup.ended) = true ∧ engineHeld (sTimed 0 0 9 true) hubRef (recordName 0) = false ∧
    (byId (after (.launchComplete 0) (sTimed 0 0 9 true)) 0).map (fun l => (l.state, l.status)) = some (.completed, 0) ∧
    ((sTimed 0 0 9 true).launches.all fun l => !overrunDue (sTimed 0 0 9 true) l && l.unwritten.isEmpty && l.desc.crec == 0) = true ∧
    -- diversion at 5,000,000 - 1,000 × 1,000, not a nanosecond before
    5000000 - 1000 * 1000 ≤ 4000000 ∧ ¬5000000 - 1000 * 1000 ≤ 3999999 ∧ allEnded (sTimed 5000000 1000 4000000) 1 = false ∧
    (byId (after (.diversion 0) (sTimed 5000000 1000 4000000)) 0).map (fun l => (l.cause, l.overrunAt)) = some (1, 5000000) ∧
    (byId (after (.diversion 0) (sTimed 5000000 1000 3999999)) 0).map (fun l => (l.cause, l.overrunAt)) = some (0, 0) ∧
    -- the overrun at the deadline
    (placedLaunch 0 1).live = true ∧ (byId (after (.deadlineOverrun 0) (sTimed 5000000 0 5000000 false false)) 0).map (fun l => (l.status, l.live)) = some (0x10, false) ∧
    (byId (after (.deadlineOverrun 0) (sTimed 5000000 0 4999999 false false)) 0).map (fun l => (l.status, l.live)) = some (0, true) := by decide +kernel
/-- With a watchdog of 1,000,000 of which the launch has used what is given; and while a pre-emption is under way. -/
def sWatched (used : Nat) : State :=
  { sTimed 0 0 9 with launches := [{ placedLaunch 0 1 with watchdog := used, desc := { placedDesc with wrapup := 0x3000 } }], contexts := [{ contextAt State.reset 1 with watchdog := 1000000 }] }
def sSaving : State := { idle (swarm1 [same 7]) with launches := [{ placedLaunch 0 1 with stopping := true, queue := 3 }], queues := [queue3 0 0], fwPending := none }
def sSaved : State := (after (.preemption 0) sSaving).getD State.reset
theorem witness_LaunchEvents_saves : (byId (after (.watchdogExpiry 0) (sWatched 1000000)) 0).map (fun l => (l.expired, l.cancelled)) = some (true, true) ∧
    (byId (after (.watchdogExpiry 0) (sWatched 999999)) 0).map Launch.expired = some false ∧ (contextAt (sWatched 0) 1).watchdog ≠ 0 ∧
    (sSaving.launches.all (canSave sSaving)) = true ∧ (sSaved.swarms, sSaved.wgs) = ([], []) ∧ ((sSaved.launches.findSome? Launch.saved).map Saved.layout, sSaved.fwLayout) = (some 2, 2) ∧ (sSaved.launches.map fun l => (l.state, l.saved.isSome)) = [(.saved, true)] ∧
    ((sSaved.launches.findSome? Launch.saved).any fun x => unitsFree sSaved x && (restorePlaces sSaved x).isSome) = true ∧ activating sSaved = false ∧ sSaved.powered = true ∧
    ((after (.contextRestore 0) sSaved).map fun t => (t.swarms.length, t.wgs.length, t.launches.map Launch.state)) = some (1, 1, [.resident]) ∧
    regAt (after (.contextRestore 0) sSaved) 0 31 = some 7 ∧
    activating { sSaved with fwPending := some (sSaved.fwLayout + 2) } = true ∧ activating { sSaved with fwPending := some (sSaved.fwLayout + 3) } = false ∧
    ((after .deferredActivation { sSaved with fwPending := some 2 }).map fun t => (t.fwLayout, t.fwPending)) = some (2, none) := by decide +kernel

/-! Pages, views, the scrubber. -/

/-- The swarm held on the page at 0x400000, since cycle 904, with the reason and the queue entry given; requests as given. -/
def hold1 (why : HoldWhy) (queued : Bool) (since : Nat := 904) : Hold := ⟨ref1, none, 1, 0x400000, 0x400010, why, queued, since, true⟩
def sHeld (h : Hold) (ats : List (Nat × Nat × Bool) := []) (reqs : List PageRequest := []) : State :=
  let s := idle { swarm1 [] with sched := .held }
  { s with pageRequests := reqs, dies := s.dies.modify 0 fun d => { d with holds := [h], ats } }
def newPage : Mapping := ⟨1, 0x400000, 0x1000, 0x400000, true, false, false, none, none, false⟩
def holdsOf (o : Option State) : Option Nat := o.map fun t => (dieAt t 0).holds.length
theorem witness_PageEvents_requests : pageOf 0x400010 = 0x400000 ∧ newPage.va ≤ 0x400000 ∧ 0x400000 + 4096 ≤ newPage.va + newPage.len ∧
    0 < (sHeld (hold1 .fault true)).dies.length ∧
    schedOf (after (.atsTranslationCompletion 0 1 0x400010 (some newPage)) (sHeld (hold1 .fault true) [(1, 0x400000, true)])) = some .ready ∧
    (after (.atsTranslationCompletion 0 1 0x400010 (some newPage)) (sHeld (hold1 .fault true) [(1, 0x400000, true)])).map (fun t => tlbFind t 0 1 0x400000) = some (some newPage) ∧
    -- 4,096 cycles after cycle 904 is cycle 5,000
    904 + 4096 ≤ (sHeld (hold1 .fault true)).cycle ∧ ((sHeld (hold1 .fault true)).dies.map fun d => d.ats.length).sum < Config.atsLimit ∧
    (after (.pageRequestRetry 0) (sHeld (hold1 .fault true))).map (fun t => (dieAt t 0).ats) = some [(1, 0x400000, true)] ∧
    (after (.pageRequestRetry 0) (sHeld (hold1 .fault true 905))).map (fun t => (dieAt t 0).ats) = some [] ∧
    holdsOf (after (.holdRetry 0) (sHeld (hold1 .fault false))) = some 0 ∧ schedOf (after (.holdRetry 0) (sHeld (hold1 .snapshot false))) = some .ready ∧
    holdsOf (after (.holdRetry 0) (sHeld (hold1 .fault false 905))) = some 1 ∧ holdsOf (after (.holdRetry 0) (sHeld (hold1 .regs false))) = some 1 := by decide +kernel
theorem witness_PageEvents_responses : (waitingFor (sHeld (hold1 .fault true) [] [⟨7, 1, 0x400000, true, true⟩]) 1 0x400000) = [hold1 .fault true] ∧
    (after (.pageRequestResponse 1 7 .success) (sHeld (hold1 .fault true) [] [⟨7, 1, 0x400000, true, true⟩])).map (fun t => t.pageRequests) = some [] ∧
    (swarmOf (after (.pageRequestResponse 1 7 .invalidRequest) (sHeld (hold1 .fault true) [] [⟨7, 1, 0x400000, true, true⟩]))).map Swarm.stopped = some true ∧
    (waitingFor (sHeld (hold1 .migrate true) [] [⟨7, 1, 0x400000, true, true⟩, ⟨8, 1, 0x500000, true, false⟩]) 1 0x400000) = [] ∧
    (after (.pageRequestResponse 1 7 .responseFailure) (sHeld (hold1 .migrate true) [] [⟨7, 1, 0x400000, true, true⟩, ⟨8, 1, 0x500000, true, false⟩])).map
      (fun t => (t.pageRequests.length, (contextAt t 1).pageRequests)) = some (0, false) := by decide +kernel
/-- A migration of 128 bytes from the page's start to 0x700000; a snapshot of the page. -/
def sMigrate (l : List Migration) : State := { sBytes with run := none, migrating := l }
def view1 (g : Granule) (starved : Option Nat := none) : View := ⟨1, 3, 0x200000, 0x10000, 0x700000, [g], 0, starved⟩
theorem witness_PageEvents_moves : (sMigrate []).memOk = true ∧ (sMigrate []).announcements = [] ∧ 0x200000 + 128 ≤ 0x700000 ∧ 0x200000 % 64 = 0 ∧ 128 % 64 = 0 ∧
    (after (.migration 1 0x200000 128 (.mark 0x200000)) (sMigrate [])).map (fun t => (t.migrating, (dieAt t 0).tlb)) = some ([⟨1, 0x200000, 128, 0x200000, none⟩], [cellPage]) ∧
    (after (.migration 1 0x200000 128 (.copy 0x700000)) (sMigrate [⟨1, 0x200000, 128, 0x200000, none⟩])).map (fun t => (bytesToNat (memRead t.mem 0x700000 8), t.migrating)) =
      some (0x1122334455667788, [⟨1, 0x200000, 128, 0x200000, some 0x700000⟩]) ∧
    (sMigrate []).precopies = [] ∧ cellsPending (sMigrate []) 0x200000 128 = false ∧
    (after (.migration 1 0x200000 128 (.e1Pass 0x200000 0x700000)) (sMigrate [])).map (fun t => (bytesToNat (memRead t.mem 0x700000 8), t.precopies)) =
      some (0x1122334455667788, [⟨1, 0x200000, 128, 0x200000, 0x700000, []⟩]) ∧
    (after (.migration 1 0x200000 128 (.writeFrame 0x700000)) (sMigrate [⟨1, 0x200000, 128, 0x200000, some 0x700000⟩])).map (fun t => t.migrating) = some [] ∧
    schedOf (after (.migration 1 0x400000 4096 .release) (sHeld (hold1 .migrate true))) = some .ready ∧
    schedOf (after (.migration 1 0x400011 4096 .release) (sHeld (hold1 .migrate true))) = some .held := by decide +kernel
def sScrub (ring : Option Nat) : State :=
  { s0 with sectors := [⟨0x2000C0, 0, 0, some (0x0C, 0), none, false, 0, none⟩], dies := s0.dies.modify 2 fun d => { d with scrubRing := ring } }
theorem witness_PageEvents_views : (view1 .copying).granules[0]? = some .copying ∧ (sectorOffsets 65536).all (fun o => (liveFrame s0 1 (0x200000 + 65536 * 0 + o)).isSome) = true ∧
    (liveFrame s0 1 (0x200000 + 65536)).isSome = false ∧ (({ s0 with views := [view1 .copying] }).views.find? fun v => v.ctx = 1 && v.id = 3) = some (view1 .copying) ∧
    -- 10 ms without a frame, not a nanosecond less
    (after (.viewEnded 1) { s0 with views := [view1 .shared (some 5)], clkns := 10000005 }).map (fun t => (t.replies, t.views.map View.granules)) = some ([3, 3], [[]]) ∧
    (after (.viewEnded 1) { s0 with views := [view1 .shared (some 6)], clkns := 10000005 }).map (fun t => (t.replies, t.views.map View.granules)) = some ([], [[.shared]]) ∧
    -- line 8,192, whose home is die 2, with an uncorrectable error in its sector 3
    homeDie (sScrub none) (256 * 8192) = 2 ∧ homeDie (sScrub none) (256 * 8192) ≠ 0 ∧ (metaOf (sScrub none) (256 * 8192 + 64 * 3)).bad = some (0x0C, 0) ∧
    ([1, 2, 3, 4, 5].map (findings (sScrub none) 8192)) = [[], [3], [], [], []] ∧ ([1, 2, 3, 4, 5].map (findings s0 8192)) = [[], [], [], [], []] ∧
    256 * 8192 + 256 ≤ 0x300000 ∧ Memory.wf (sScrub (some 0x300000)).mem = true ∧
    (after (.scrubVisit 2 8192 []) (sScrub none)).map (fun t => (dieAt t 2).scrubCounts) = some [(8192, 2, 1)] ∧
    -- an error in sector 1 that the visit is the first to meet
    (after (.scrubVisit 2 8192 [(1, 2)]) { s0 with dies := (sScrub none).dies }).map (fun t => ((dieAt t 2).scrubCounts, (metaOf t 0x200040).bad)) =
      some ([(8192, 2, 1)], some (0x0C, 0x0102)) ∧
    -- the 16-byte entry: LINE, SECTORS and KIND, CTX, COUNT, TIME
    (after (.scrubVisit 2 8192 []) (sScrub (some 0x300000))).map (fun t => bytesToNat (memRead t.mem 0x300000 16)) = some (8192 + 2 ^ 59 + 2 * 2 ^ 60 + 2 ^ 80) := by
  decide +kernel

/-! The module. -/

def queueBytes (ring : Nat := 0x10000) (entries : Nat := 64) (ctx : Nat := 1) : List Byte :=
  natToBytes 8 ring ++ natToBytes 4 entries ++ natToBytes 2 ctx ++ natToBytes 2 0 ++ natToBytes 2 7 ++ natToBytes 6 0 ++ natToBytes 8 0x8000 ++ List.replicate 32 0
def repliesOf (o : Option State) : Option (List Nat) := o.map fun t => t.replies
theorem witness_ModuleEvents_host : (queueBytes).length = 64 ∧
    ([((queueBytes), true), (queueBytes 0x10000 65536 4095, true), (queueBytes 0x10020, false), (queueBytes 0x10000 32, false), (queueBytes 0x10000 96, false),
      (queueBytes 0x10000 131072, false), (queueBytes 0x10000 64 0, false), (queueBytes 0x10000 64 4096, false)].all fun x => queueOk s0 (queueOf s0 3 x.1) x.1 == x.2) = true ∧
    queueOk (sRing []) (queueOf (sRing []) 3 (queueBytes)) (queueBytes) = false ∧ repliesOf (after (.mailboxInstallQueue 3 (queueBytes)) s0) = some [0] ∧
    repliesOf (after (.mailboxInstallQueue 3 (queueBytes 0x10020)) s0) = some [1] ∧ queue? s0 3 = none ∧ repliesOf (after (.mailboxRemoveQueue 3) s0) = some [1] ∧
    (after (.mailboxRemoveQueue 3) { State.reset with queues := [{ queue3 0 0 with mapped := false }] }).map (fun t => t.queues.length) = some 0 ∧
    (byId (after (.mailboxCancelLaunch 0) { s0 with launches := [{ placedLaunch 0 1 with state := .waiting }] }) 0).map (fun l => (l.status, l.live)) = some (0x85, false) ∧
    (byId (after (.mailboxPreempt 0) s0) 0).map Launch.stopping = some true ∧ repliesOf (after (.mailboxPreempt 9) s0) = some [1] ∧
    ((after (.mailboxKillContext 1) (sRing [])).map fun t => (t.queues.length, t.launches.map Launch.state)) = some (0, [.completed]) := by decide +kernel
def noEdit : SlotEdit := ⟨none, none, none, none, none, none⟩
/-- The host sets slot A's PC, PROG, DSDEPTH, MODE, RSV, v3 of thread 1 and p4. -/
def edit0 : SwarmEdit := ⟨{ noEdit with pc := some 0x5000 }, noEdit, none, some 96, some 7, [], [], [(3, 1, 0x77)], [(4, 0xF)], some 0x2401, some 2, some (0x6000, 0x6010, 0x6020, 1), some 5⟩
theorem witness_ModuleEvents_swarms : (swarm? { s0 with swarms := s0.swarms.map fun w => { w with stopped := true } } ref1).map Swarm.stopped = some true ∧
    (launch? s0 1).map Launch.cause = some 0 ∧
    ((swarmOf (after (.mailboxResumeSwarm ref1 edit0) { s0 with run := none, swarms := s0.swarms.map fun w => { w with stopped := true } })).map fun v =>
      (v.slotA.pc.toNat, v.slotA.mask, v.dsDepth, v.sched)) = some (0x5000, 0xFFFFFFFF, 2, .ready) ∧
    ((swarmOf (after (.mailboxResumeSwarm ref1 edit0) { s0 with run := none, swarms := s0.swarms.map fun w => { w with stopped := true } })).map fun v =>
      (v.prog, v.rsv, v.mode.toNat, laneAt (regLanes v 3) 1, v.preds.getD 4 0)) = some (7, 96, 0x2401, 0x77, 0xF) ∧
    (modeReserved 0x2401 = false ∧ modeReserved 0x4001 = true) ∧
    repliesOf (after (.mailboxResumeSwarm ref1 edit0) s0) = some [1] ∧ schedOf (after (.debugHalt ref1) (idle (swarm1 []))) = some .halted ∧
    schedOf (after (.debugResume ref1) (idle { swarm1 [] with sched := .halted, haltedFrom := .waiting })) = some .waiting := by decide +kernel
theorem witness_ModuleEvents_limits : (∃ k, 6 ≤ k ∧ k ≤ 16 ∧ 64 = 2 ^ k) ∧ (∃ k, 6 ≤ k ∧ k ≤ 16 ∧ 65536 = 2 ^ k) ∧
    ([(1, 0x1000, 64), (4095, 0, 65536), (0, 0, 64), (4096, 0, 64), (1, 0x800, 64), (1, 0, 32), (1, 0, 131072), (1, 0, 96)].map fun x =>
      repliesOf (after (.mailboxTrapArea x.1 x.2.1 x.2.2 0x8000 9) s0)) = [some [0], some [0], some [1], some [1], some [1], some [1], some [1], some [1]] ∧
    ([0, 999999, 10 ^ 6, 2 ^ 40, 2 ^ 40 + 1].map fun n => repliesOf (after (.mailboxWatchdogLimit 1 n) s0)) = [some [0], some [1], some [0], some [0], some [1]] ∧
    ([1150, 1200, 1225, 3600, 3650].map fun n => repliesOf (after (.mailboxPowerCap n) s0)) = [some [1], some [0], some [1], some [0], some [1]] ∧
    (after (.thermalThrottle 1200) s0).map (fun t => t.mhz) = some 1200 ∧ (after (.thermalThrottle 3300) s0).map (fun t => t.mhz) = some 3300 ∧
    (after (.ptpMessage 1000001) s0).map (fun t => (t.clkns, t.slew)) = some (1000001, 0) ∧ (after (.ptpMessage 1000000) s0).map (fun t => (t.clkns, t.slew)) = some (0, 1000000) ∧
    (after (.ptpMessage (-1000001)) s0).map (fun t => (t.slew, t.replies)) = some (-1000001, [4]) ∧ (after (.ptpMessage (-1000000)) s0).map (fun t => t.replies) = some [] ∧
    ((after .thermalShutdown s0).map fun t => (t.powered, t.launches.map Launch.status)) = some (false, [0x85]) := by
  refine ⟨⟨6, by decide⟩, ⟨16, by decide⟩, ?_⟩
  decide +kernel
theorem witness_ModuleEvents_fabric : ((after (.moduleReset (List.replicate 36 143)) s0).map fun t => (t.fabric.modNum, t.fabric.ports.all Port.up, t.swarms.length)) = some (some 143, true, 0) ∧
    ((after (.moduleReset (List.replicate 36 144)) s0).map fun t => (t.fabric.modNum, t.fabric.ports.any Port.up)) = some (none, false) ∧
    s0.fabric.counters[15]?.isSome = true ∧ (s0.dies[3]?.bind fun d => d.counters[15]?).isSome = true ∧
    tableOf (tableBytes members) = some members ∧ tableOf (tableBytes ⟨7, 5, [4, 9, 12]⟩) = none ∧ fabricIdle s0 = true ∧ 8 + 2 * 3 ≤ (tableBytes members).length ∧
    (after (.mailboxBindFabricOwner 1 5 (tableBytes members)) s0).map (fun t => (t.fabric.owner, t.replies)) = some (some (1, 5), [0]) ∧
    (after (.mailboxWatchList [143]) s0).map (fun t => t.fabric.watch) = some [143] ∧ s0.fabric.collectives = [] ∧ s0.fabric.early = [] ∧
    (after (.mailboxSuspectMap 0x1004) s0).map (fun t => (t.fabric.suspectMap, t.replies)) = some (some 0x1004, [0]) ∧ repliesOf (after (.mailboxSuspectMap 0x1002) s0) = some [1] := by
  decide +kernel

/-! Packets and the fabric engine. The module is 9, of rank 1 in the membership of 4, 9 and 12. -/

/-- A packet of module 4. -/
def packet1 (op cid addr : Nat) (payload : List Byte := []) (last : Bool := false) (gen : Nat := 7) (ident : Bool := false) : Packet :=
  ⟨gen, 4, 0, 9, op, last, ident, 5, 0, cid, addr, payload, []⟩
/-- The owner's machine between clauses, with a change of its fabric engine. -/
def sFab (f : Fabric → Fabric := id) (s : State := sBytes) : State := let t := inFabric { s with run := none }; { t with fabric := f t.fabric }
/-- The same with its ports up. -/
def linked (f : Fabric → Fabric := id) : State := sFab fun x => f { x with ports := x.ports.map fun p => { p with up := true } }
/-- What was sent, and waits for a plane while the ports are down. -/
def sentBy (o : Option State) : Option (List Packet) := o.map fun t => t.fabric.planeWaits.map Prod.snd
/-- Its OP, destination and CID. -/
def sentOf (o : Option State) : Option (List (Nat × Nat × Nat)) := (sentBy o).map fun l => l.map fun q => (q.op, q.dst, q.cid)
def fencing (s : State) (started : Nat := 0) : State := { s with fabric := { s.fabric with fence := some ⟨⟨8, 4, [4, 9]⟩, started⟩ } }
theorem witness_FabricEvents_admission : (∀ g ∈ [6, 7, 8], heldEntry (sFab) (packet1 0x0E 0 0 [] false g) = none) ∧ ownMod (sFab) = 9 ∧
    admissionOf (sFab) (packet1 4 0 0) = .admitted 1 ∧ (s0.fabric.current.mods = []) ∧ fenceGen (fencing (sFab)) = some 8 ∧ fenceGen (sFab) = none ∧
    ((after (.stripeRequest (packet1 0x0E 0 0 [] false 6)) (sFab)).map fun t => t.fabric.heldPackets.length) = some 0 ∧
    ((after (.stripeRequest (packet1 0x0E 0 0 [] false 8)) (fencing (sFab))).map fun t => t.fabric.heldPackets.length) = some 1 ∧
    sentOf (after (.stripeRequest (packet1 0x0E 0 0)) { sFab with killList := [5] }) = some [] := by decide +kernel
/-- RGET of 128 bytes to the scratchpad at 1,024, and RPUT to 4 and 12, in flight. -/
def get1 (remaining : Nat := 128) : Transfer := ⟨90, ref1, 0x1000, ⟨true, false, 1024, 128, 0x200000, [4]⟩, [4], remaining, 0, true, none⟩
def put1 (waiting : List Nat) : Transfer := ⟨90, ref1, 0x1000, ⟨false, false, 1024, 128, 0x200000, [4, 12]⟩, waiting, 128, 0, true, none⟩
def withTransfer (t : Transfer) : State := sFab fun f => { f with transfers := [t] }
def transfersOf (o : Option State) : Option (List Nat) := o.map fun t => t.fabric.transfers.flatMap fun x => x.waiting ++ [x.remaining]
theorem witness_FabricEvents_transfers : onOk (fabricRead (sFab) 1 0x200000 64) (fun b => decide (b.1.map List.length = some 64)) = true ∧ 4 ≠ ownMod (sFab) ∧ ringsOf (sFab) wg1 = [] ∧
    sentOf (after (.rgetRequest (packet1 1 33 0x200000 (natToBytes 4 64 ++ natToBytes 8 0 ++ List.replicate 52 0) true)) (sFab)) = some [(2, 4, 33)] ∧
    transferOf (withTransfer (get1)) (packet1 2 90 64 (List.replicate 64 7)) = some (get1) ∧ onOk (scratchCheck (placedWg wg1) (1024 + 64 + 64 * 0) 64 true) (fun _ => true) = true ∧
    transfersOf (after (.rgetData (packet1 2 90 64 (List.replicate 64 7))) (withTransfer (get1))) = some [4, 64] ∧
    transfersOf (after (.rgetData (packet1 2 90 64 (List.replicate 64 7))) (withTransfer (get1 64))) = some [] ∧
    ((after (.rgetData (packet1 2 90 64 (List.replicate 64 7))) (withTransfer (get1))).bind fun t => (wg? t wg1).map fun g =>
      bytesToNat [scratchByte g.scratch 1087, scratchByte g.scratch 1088, scratchByte g.scratch 1151]) = some 0x070700 ∧
    earlierHeld (sFab) (packet1 3 33 0x200000 [] true) = false ∧
    onOk (writeAny (sFab) 1 0x200040 (List.replicate 64 7) .clear) (fun u => decide (memGet u.mem 0x200040 = 7)) = true ∧
    sentOf (after (.rputData (packet1 3 33 0x200040 (List.replicate 64 7) true)) (sFab)) = some [(4, 4, 33)] ∧
    sentOf (after (.rputData (packet1 3 33 0x200040 (List.replicate 64 7))) (sFab)) = some [] ∧
    ((after (.rputData (packet1 3 33 0x200040 (List.replicate 64 7) true)) (sFab)).map fun t => memGet t.mem 0x20007F) = some 7 ∧
    transfersOf (after (.acknowledgement (packet1 4 90 0)) (withTransfer (put1 [4, 12]))) = some [12, 128] ∧
    transfersOf (after (.acknowledgement (packet1 4 90 0)) (withTransfer (put1 [4]))) = some [] ∧
    transfersOf (after (.transferAckTimeout 90) { withTransfer (put1 [4]) with clkns := 10 ^ 6 }) = some [] ∧
    transfersOf (after (.transferAckTimeout 90) { withTransfer (put1 [4]) with clkns := 10 ^ 6 - 1 }) = some [4, 128] := by decide +kernel
/-- Collective 6 with its two chunks of 32 elements; chunk 0 as given. -/
def coll1 (sw : Bool) (ch : Chunk) : Collective := ⟨6, 1, 0x200000, credBytes, 0, .f32, sw, [ch, ⟨[], false, false, 0⟩], [], []⟩
def withColl (c : Collective) : State := sFab fun f => { f with collectives := [c] }
def partsOf (o : Option State) : Option (List Nat) := o.map fun t => t.fabric.collectives.flatMap fun c => (c.chunks.headD ⟨[], false, false, 0⟩).parts.map Prod.fst
theorem witness_FabricEvents_collectives : (collective? (withColl (coll1 false ⟨[], false, false, 0⟩)) 6).isSome = true ∧ collective? (sFab) 6 = none ∧
    (0 < members.mods.length ∧ ¬members.mods.length ≤ 2 ∧ 0 + 1 < members.mods.length ∧ ¬2 + 1 < members.mods.length) ∧
    partsOf (after (.contribution (packet1 6 6 0 (List.replicate 128 0))) (withColl (coll1 false ⟨[], false, false, 0⟩))) = some [0] ∧
    partsOf (after (.contribution (packet1 6 6 0 (List.replicate 128 0))) (withColl (coll1 false ⟨[(0, [])], false, false, 0⟩))) = some [0] ∧
    partsOf (after (.contribution { packet1 6 6 0 (List.replicate 128 0) with srank := 3 }) (withColl (coll1 false ⟨[], false, false, 0⟩))) = some [] ∧
    areaUsed (sFab) + 32 + 128 ≤ 65536 ∧ ((after (.contribution (packet1 6 6 0 (List.replicate 128 0))) (sFab)).map fun t => t.fabric.early.length) = some 1 ∧
    ((after (.contribution (packet1 6 6 0 (List.replicate 128 0))) (sFab fun f => { f with closed := [coll1 false ⟨[], false, false, 0⟩] })).map fun t => t.fabric.early.length) = some 0 ∧
    onOk (writeChunk (withColl (coll1 true ⟨[], false, false, 0⟩)) (coll1 true ⟨[], false, false, 0⟩) 0 (List.replicate 128 5)) (fun _ => true) = true ∧
    ((after (.switchResult (packet1 7 6 0 (List.replicate 128 5))) (withColl (coll1 true ⟨[], false, false, 0⟩))).map fun t => memGet t.mem 0x202000) = some 5 := by
  decide +kernel
/-- A sector that fails its check value is refused, the other written; a refused read; a refusal and an acknowledgement. -/
theorem witness_FabricEvents_refusals : ((after (.rputData { packet1 3 33 0x200000 (List.replicate 128 7) true with bad := [0] }) (sFab)).map fun t => [memGet t.mem 0x20003F, memGet t.mem 0x200040]) =
      some [memGet (sFab).mem 0x20003F, 7] ∧ memGet (sFab).mem 0x20003F ≠ 7 ∧
    (sentBy (after (.rputData { packet1 3 33 0x200000 (List.replicate 128 7) with bad := [0] }) (sFab))).map (fun l => l.map fun q => (q.op, q.ident, q.last)) =
      some [(4, true, true)] ∧
    (sentBy (after (.rgetRequest { packet1 1 33 0x200000 (natToBytes 4 64) with bad := [0] }) (sFab))).map (fun l => l.map fun q => (q.op, q.ident, q.last)) =
      some [(4, true, true)] ∧
    transfersOf (after (.acknowledgement (packet1 4 90 0 [] true 7 true)) (withTransfer (put1 [4, 12]))) = some [12, 0] := by decide +kernel
/-- A sector that fails its check value: its sender is asked again. -/
theorem witness_FabricEvents_retries : (sentBy (after (.contribution { packet1 6 6 0 (List.replicate 128 0) with bad := [1] }) (withColl (coll1 false ⟨[], false, false, 1⟩)))).map
      (fun l => l.map fun q => (q.op, q.dst, q.cid, q.ident, q.last)) = some [(4, 4, 6, true, false)] := by decide +kernel
def remote1 (sentAt : Nat) : RemoteCell := ⟨95, 44, ref1, 0, 0x1000, 0x300000, 0x300000, 12, sentAt, false⟩
def view2 : View := ⟨1, 3, 0x200000, 0x10000, 0x200000, [.shared], 0, none⟩
/-- A stripe of 128 bytes from rank 0, else rank 2, to 0x202000, of which got bytes are here. -/
def stripe1 (got : Nat) (alt : Nat := 2) : Stripe := ⟨0, alt, 0x200000, 0x202000, 128, some 0, got, 1, 4⟩
def withReel (x : Stripe) : State := sFab fun f => { f with reel := some ⟨ref1, 0x1000, 96, 1, 0x200800, [x, ⟨2, 0xFFFF, 0, 0, 64, some 0, 0, 1, 12⟩]⟩ }
def stripesOf (o : Option State) : Option (List (Nat × Nat)) := o.map fun t => (t.fabric.reel.toList.flatMap Reel.stripes).map fun x => (x.got, x.state)
theorem witness_FabricEvents_cells : onOk (translateAny (sFab) 1 0x300000 false) (fun x => x.1.cell && x.2 == 0x300000) = true ∧ 0x300000 % 64 = 0 ∧
    ((after (.cellRequest (packet1 8 44 0x300000 [1, 0, 1, 0])) (sFab)).map fun t => t.cellWaits.map fun x => (x.pa, x.req)) = some [(0x300000, .docrd 1 0)] ∧
    ((after (.cellReply (packet1 9 44 0 [1])) (sFab fun f => { f with remoteCells := [remote1 0] })).map fun t => t.fabric.remoteCells.length) = some 0 ∧
    12 ∈ (sFab).fabric.current.mods ∧
    ((after (.cellReplyTimeout 44) { sFab (fun f => { f with remoteCells := [remote1 0] }) with clkns := 10 ^ 6 }).map fun t => t.fabric.remoteCells.length) = some 0 ∧
    ((after (.cellReplyTimeout 44) { sFab (fun f => { f with remoteCells := [remote1 1] }) with clkns := 10 ^ 6 }).map fun t => t.fabric.remoteCells.length) = some 1 := by decide +kernel
theorem witness_FabricEvents_stripes : servingView (sFab) 1 0x200000 4096 = false ∧ servingView { sFab with views := [view2] } 1 0x200000 65536 = true ∧
    servingView { sFab with views := [view2] } 1 0x200000 65537 = false ∧ onOk (readAny { sFab with views := [view2] } 1 0x200000 4096) (fun b => decide (b.length = 4096)) = true ∧
    ((sentBy (after (.stripeRequest (packet1 0x0E 2 0x200000 (natToBytes 4 64))) (sFab))).map fun l => l.map fun q => (q.op, q.ident, q.payload.length)) = some [(0x0F, true, 0)] ∧
    ((sentBy (after (.stripeRequest (packet1 0x0E 2 0x200000 (natToBytes 4 64))) { sFab with views := [view2] })).map fun l => l.map fun q => (q.op, q.ident, q.payload.length)) =
      some [(0x0F, false, 64)] ∧
    stripesOf (after (.stripeData (packet1 0x0F 0 64 (List.replicate 64 7))) (withReel (stripe1 64))) = some [(128, 3), (0, 1)] ∧
    stripesOf (after (.stripeData (packet1 0x0F 0 0 (List.replicate 64 7))) (withReel (stripe1 0))) = some [(64, 1), (0, 1)] ∧
    stripesOf (after (.stripeTimeout 0) { withReel (stripe1 0) with clkns := 10 ^ 6 }) = some [(0, 4), (0, 1)] ∧
    stripesOf (after (.stripeTimeout 0) { withReel (stripe1 0) with clkns := 10 ^ 6 - 1 }) = some [(0, 1), (0, 1)] ∧ (members.mods[2]?) = some 12 := by decide +kernel
theorem witness_FabricEvents_heartbeats : 4 ∈ (sFab).fabric.current.mods ++ (sFab).fabric.watch ∧ upPorts (linked) = List.range 36 ∧ (sFab).fabric.mapStale = [] ∧ (sFab).fabric.resends = [] ∧
    ((after (.heartbeat 3 4) (sFab fun f => { f with peers := [⟨4, 0, [3, 5], 0, []⟩], suspected := [4] })).map fun t => (t.fabric.peers.map Peer.down, t.fabric.suspected)) = some ([[5]], []) ∧
    ((after .heartbeatTimer { linked with clkns := 20000 }).map fun t => ((t.fabric.outbox.filter fun q => q.2.dst = 4 && q.2.op = 0x0A).map Prod.fst, t.fabric.beatAt)) =
      some (List.range 36, 20000) ∧
    -- what is missed by then is noted: of plane 7, heard last at 1 ns, and not of plane 6, heard at 2 ns
    ((after .heartbeatTimer { linked (fun f => { f with peers := [⟨4, 0, [], 0, (List.range 36).map fun k => (k, if k = 7 then 1 else 2)⟩] }) with clkns := 100001 }).map
      fun t => t.fabric.peers.map Peer.down) = some [[7]] ∧
    ((after .heartbeatTimer { linked with clkns := 19999 }).map fun t => t.fabric.outbox.length) = some 0 ∧
    ((after (.suspicionTimeout 4) { sFab (fun f => { f with peers := [⟨4, 0, [], 0, []⟩] }) with clkns := 100000 }).map fun t => t.fabric.suspected) = some [4] ∧
    ((after (.suspicionTimeout 4) { sFab (fun f => { f with peers := [⟨4, 1, [], 1, []⟩] }) with clkns := 100000 }).map fun t => t.fabric.suspected) = some [] ∧
    (sFab).fabric.statuses = [] ∧
    ((after (.heartbeatMiss 4 35) { sFab (fun f => { f with peers := [⟨4, 0, [], 1, [(35, 2)]⟩] }) with clkns := 100002 }).map fun t => t.fabric.peers.map Peer.down) = some [[35]] ∧
    ((after (.heartbeatMiss 4 35) { sFab (fun f => { f with peers := [⟨4, 0, [], 1, [(35, 2)]⟩] }) with clkns := 100001 }).map fun t => t.fabric.peers.map Peer.down) = some [[]] := by decide +kernel
/-- Markers of module 4 on every plane but the last. -/
def nearly (s : State) : State := { s with fabric := { s.fabric with markers := (List.range 35).map fun k => (k, 4, 8) } }
def fenceOf (o : Option State) : Option (Bool × Nat) := o.map fun t => (t.fabric.fence.isSome, t.fabric.current.gen)
theorem witness_FabricEvents_fences : fenceOf (after (.fenceMarker 34 4 9) (nearly (fencing (linked)))) = some (true, 7) ∧
    fenceOf (after (.fenceMarker 35 4 8) (nearly (fencing (linked)))) = some (false, 8) ∧ fenceOf (after (.fenceMarker 35 4 8) (sFab)) = some (false, 7) ∧
    fenceOf (after .fenceTimeout { fencing (sFab) 1 with clkns := 10 ^ 7 }) = some (true, 7) ∧ fenceOf (after .fenceTimeout { fencing (sFab) with clkns := 10 ^ 7 }) = some (false, 7) := by
  decide +kernel
theorem witness_FabricEvents_kills : (sFab).fabric.notices = [] ∧ (sFab).kills = [] ∧ 0 < Config.killTags ∧ ¬Config.killTags < Config.killTags ∧
    sentOf (after (.killNotice 4 77) (sFab)) = some [(0x0D, 4, 0)] ∧ ((after (.killNotice 4 77) (sFab)).map fun t => t.killList) = some [77] ∧
    ((after (.killAck 4 77) { sFab with kills := [⟨2, 77, true, [4]⟩], killList := [77] }).map fun t => (t.kills, t.killList)) = some ([], []) := by decide +kernel
/-- A flit of kind 1 with a sequence number and its check value; 248 bytes of padding. -/
def flitBody (seq : Nat) : List Byte := natToBytes 4 (2 ^ 24 + seq) ++ List.replicate 248 0
def flit1 (seq : Nat) : List Byte := flitBody seq ++ natToBytes 4 (crc32 (flitBody seq))
def portOf (o : Option State) (k : Nat) : Option (Nat × Nat × Bool) := (o.bind fun t => t.fabric.ports[k]?).map fun p => (p.rxSeq, p.failures, p.up)
theorem witness_FabricEvents_flits : (flit1 0).length = 256 ∧ recField (flit1 4095) 0 4 / 2 ^ 24 % 16 = 1 ∧ recField (flit1 4095) 0 4 % 2 ^ 12 = 4095 ∧
    portOf (after (.flitReceive 35 (flit1 0)) (linked)) 35 = some (1, 0, true) ∧ portOf (after (.flitReceive 35 (flit1 1)) (linked)) 35 = some (0, 0, true) ∧
    portOf (after (.flitReceive 35 (flit1 4095)) (linked fun f => { f with ports := f.ports.set 35 ⟨true, 4095, 0, 2, 0, 0, 0, []⟩ })) 35 = some (0, 0, true) ∧
    portOf (after (.flitReceive 35 (List.replicate 256 0)) (linked)) 35 = some (0, 1, true) ∧
    portOf (after (.flitReceive 35 (List.replicate 256 0)) (linked fun f => { f with ports := f.ports.set 35 ⟨true, 0, 0, 15, 0, 0, 0, []⟩ })) 35 = some (0, 16, false) ∧
    portOf (after (.portUp 35) (linked fun f => { f with ports := f.ports.set 35 ⟨false, 0, 0, 16, 0, 0, 0, []⟩ })) 35 = some (0, 0, true) := by decide +kernel
/-- What waited for a plane goes out. -/
theorem witness_FabricEvents_ports : (after (.portUp 35) (sFab fun f => { f with planeWaits := [(35, packet1 3 0 0)] })).map (fun t => (t.fabric.outbox, t.fabric.planeWaits)) =
      some ([], []) ∧ (packet1 3 0 0).dst = ownMod (sFab) ∧
    (after (.portUp 35) (sFab fun f => { f with planeWaits := [(35, { packet1 3 0 0 with dst := 4 })] })).map (fun t => (t.fabric.outbox, t.fabric.planeWaits)) =
      some ([(35, { packet1 3 0 0 with dst := 4 })], []) ∧ (sFab).fabric.modNum ≠ none := by decide +kernel

/-! States that meet the further hypotheses of some statements. -/

theorem witness_RoundedResults_operands : finite (fmtF16.decode false 0x3C01) ∧ finite (fmtE4M3.decode true 0x07) ∧ (fmtF16.decode false 0x7D01).isSnan = true ∧
    (fmtE5M2.decode false 0x7E).isNan = true ∧ (fmtE5M2.decode false 0x7E).isSnan = false ∧ fmtE4M3.inf = false ∧ fmtF16.inf = true :=
  ⟨⟨_, _, _, rfl⟩, ⟨_, _, _, rfl⟩, by decide +kernel⟩
/-- Threads 0 to 27 branch while the others stand in the other slot. -/
def rBoth : Run :=
  let r := branching (.indirect ((List.range 28).map fun t => (t, BitVec.ofNat 64 (0x2000 + 64 * (t % 3))))) true 0
  { r with work := { r.work with slotA := { r.work.slotA with mask := 0x0FFFFFFF } } }
theorem witness_IndirectBranchPaths_both : (List.range 28 = (List.range threads).filter fun t => (slotOf rBoth.work .a).mask.getLsbD t) ∧
    (slotOf rBoth.work .b).valid = true ∧ (slotOf rBoth.work .b).mask &&& (slotOf rBoth.work .a).mask = 0 ∧
    onOk (branchPaths rBoth) (fun p => p.pushes.length != 0) = true := by decide +kernel
theorem witness_SpecialRegisterReads_rank : (inFabric s0).fabric.modNum = some 9 ∧ (inFabric s0).fabric.current.mods[1]? = some 9 ∧
    (inFabric s0).fabric.current.mods[0]? ≠ some 9 ∧ s0.fabric.modNum = none := by decide +kernel
/-- A task whose version's first entry, over the page's first sector, has failed. -/
def sFailed : State := { openTask (sMem) task1 with versions := [⟨wg1, [.store 0 0x200000 (List.replicate 64 0xAB) 0xF false], none, none, [0], []⟩] }
theorem witness_Loads_failed : inTask sFailed wg1 = true ∧ activeThreads rMem (fe) = 0 :: (List.range 31).map (· + 1) ∧ versionFailed sFailed wg1 0x200000 = true ∧
    address sFailed rMem (fe) 0 = 0x200000 ∧ (coreAt sFailed 0).l1.isEmpty = true ∧ (coreAt sFailed 0).wcb.isEmpty = true ∧ sFailed.atomics.isEmpty = true ∧
    onOk (translateData sFailed 0 1 0x200000 false) (fun x => x.1.remote.isNone) = true := by decide +kernel
theorem witness_Drain_bytes : sDrainOut.asyncs.isEmpty = true ∧ (fDrain 0).ty = .f32 ∧ sDrainOut.mmas.isEmpty = true ∧ (tileAt sDrainOut 0 5).elems.length = 2048 := by
  decide +kernel
/-- An earlier SPUSH of the clause finds its stream full. -/
def sPushFull : State := let s := sStream (stream1 push1 4); { s with run := s.run.map fun r => { r with effects := [.spush 3 [] 0 false] } }
theorem witness_QueuesAndBarriers_waits : (match applyEffects sPushFull (runOf sPushFull) with | .error .wait => true | _ => false) = true ∧
    onOk (applyEffects s0 r0) (fun _ => true) = true := by decide +kernel
/-- An earlier CRED of the clause opens collective 6. -/
def rCred : Run := { runOf (sCred) with effects := [.cred credReq] }
theorem witness_FabricTransfers_earlier : openedCreds (sCred) rCred = [credReq] ∧ descCid credReq.body = 6 ∧ (collective? (sCred) 6).isNone = true ∧
    openedCreds (sCred) (runOf (sCred)) = [] := by decide +kernel
/-- Two stripe records at the join block's list, of 64 bytes and of the length given. -/
def stripeRecord (len : Nat) : List Byte := List.replicate 24 0 ++ natToBytes 4 len ++ List.replicate 4 0
def sStripes (len : Nat) : State :=
  let s := sTable members (joinBytes 2)
  { s with mem := memWrite s.mem 0x200800 (stripeRecord 64 ++ stripeRecord len) }
theorem witness_FabricControl_stripes : ([64, 2 ^ 20, 2 ^ 20 + 64, 0, 96].map fun len => onOk (homeBytes (sStripes len) ref1 0x200800 64) fun x =>
      decide (∀ k, k < 2 → 64 ≤ recField x.1 (32 * k + 24) 4 ∧ recField x.1 (32 * k + 24) 4 ≤ 2 ^ 20 ∧ recField x.1 (32 * k + 24) 4 % 64 = 0)) =
    [true, true, false, false, false] := by decide +kernel
theorem witness_StepRunsTheDecodedInstruction_settled : (∀ s ∈ [demo [], sLocked], (settled (tick s)).run = some (runOf s) ∧
      ((tick s).launches.find? (overrunDue (tick s))).isNone = true ∧ passesOver (runOf s) = false ∧ stopsHere (settled (tick s)) (runOf s) = false ∧
      operandStop (settled (tick s)) (runOf s) (.iaddReg ⟨0, 0, 0, 0, 0, 0, false, 0, 0, 0⟩) = none ∧ (dueEvent (settled (tick s))).isNone = true) ∧
    ((tick placed).launches.find? (overrunDue (tick placed))).isNone = true ∧ (settled (tick placed)).run = none ∧
    (settled (tick placed)).agenda = [.issue placedRef] ∧ (dueEvent (settled (tick placed))).isNone = true := by decide +kernel
/-- A clause at its end that branches, exits or has effects. -/
def endsWith (w : Swarm) (f : Run → Run) : State × Run :=
  let r := f { run1 w with idx := 1 }
  ({ demo [] with swarms := [w], run := some r }, r)
def completingB (s : State) (r : Run) (w : Swarm) : Bool :=
  swarm? s r.ref == some w && !r.ref.slice && w.sliceBinds.isEmpty && w.deferred.isEmpty && r.work.slotA == w.slotA && r.work.slotB == w.slotB &&
    (slotOf w r.slot).valid && (List.range 6).all fun k => !(r.raised.getLsbD k && r.work.mode.getLsbD (8 + k))
def swarmTwo (depth : Nat) : Swarm := { swarm1 [] with slotB := { Slot.empty with valid := true, mask := 0xF0 }, dsDepth := depth }
def splitting (r : Run) : Run := { r with branch := .direct 0xFF 0x2000 }
def leaving (m : Mask) (r : Run) : Run := { r with exits := m }
theorem witness_ClauseCompletion_paths :
    (∀ x ∈ [(swarm1 [], splitting), ({ swarm1 [] with dsDepth := 4 }, splitting), (swarm1 [], leaving 0xF), (swarm1 [], leaving 0xFFFFFFFF),
        (swarmTwo 0, leaving 0xFFFFFFFF), (swarmTwo 1, leaving 0xFFFFFFFF)],
      completingB (endsWith x.1 x.2).1 (endsWith x.1 x.2).2 x.1 = true ∧ (endsWith x.1 x.2).2.effects = []) ∧
    onOk (branchPaths (endsWith (swarm1 []) splitting).2) (fun p => p.pushes.length == 1) = true ∧
    errs (branchPaths (endsWith { swarm1 [] with dsDepth := 4 } splitting).2) = true ∧
    onOk (branchPaths (endsWith (swarm1 []) (leaving 0xF)).2) (fun p => p.pushes.isEmpty && p.x.mask &&& ~~~(0xF : Mask) != 0) = true ∧
    transB (endsWith (swarm1 []) splitting).1 ref1 0x208000 true = true ∧ Memory.wf (demo []).mem = true ∧ (swarmTwo 1).slotB.running = true ∧
    onOk (translate (endsWith (swarmTwo 1) (leaving 0xFFFFFFFF)).1 0 1 0x208000 false) (fun x => x.2 == 0x208000) = true ∧
    (stackSlot (stackEntry 0 { (swarm1 []).slotA with pc := 0x4000 })).1 = 0 := by decide +kernel
/-- With a queue's entry to push; and with an SPUSH that waits. -/
theorem witness_ClauseCompletion_effects : (∀ e ∈ [Effect.rsv 96, .spush 3 [] 0 false],
      completingB (endsWith (swarm1 []) fun r => { r with effects := [e] }).1 (endsWith (swarm1 []) fun r => { r with effects := [e] }).2 (swarm1 []) = true) ∧
    inTask (demo []) wg1 = false ∧
    onOk (applyEffect ref1 0x1000 (demo []) (.rsv 96)) (fun u => (swarm? u ref1).any fun v => slotMarks v == slotMarks (swarm1 []) && v.deferred.isEmpty) = true ∧
    errs (applyEffect ref1 0x1000 (demo []) (.spush 3 [] 0 false)) = true := by decide +kernel
/-- A team of two at the MMA: the members' arrivals, the first's scheduling state, and the quarters of each. -/
def sTeamArrived (a b : Option Arrival) (first : Sched := .active) : State :=
  let s := sArrived (arrival1)
  let w := { swarm1 [] with inTeam := true, sched := first }
  let v := { swarm1 [] with inTeam := true, ref := ref2, lane := 1, teamPos := 1 }
  { s with
    swarms := [w, v]
    wgs := s.wgs.map fun g => { g with teamSize := 2, teamCount := 1 }
    runs := (a.map fun x => { run1 w with arrival := some x, phase := .arrived }).toList ++
      (b.map fun x => { run1 v with ref := ref2, arrival := some x, phase := .arrived }).toList }
def quartersOf (a : Arrival) (ks : List Nat) : Arrival := { a with quarters := a.quarters.filter fun q => ks.contains q.1 }
def sTeamBoth : State := sTeamArrived (some (quartersOf (arrival1) [0, 2])) (some (quartersOf (arrival1) [1, 3]))
theorem witness_MatrixEvents_team :
    ((after (.mmaAccept ref1) sTeamBoth).map fun t => t.mmas.map fun m => (m.members, m.tile, m.quarters.map List.length)) =
      some [([ref1, ref2], 5, [256, 256, 256, 256])] ∧
    ([ref1, ref2].map fun r => (swarmOf (after (.mmaAccept ref1) sTeamBoth) r).map fun w => (w.stopped, w.slotA.pc.toNat)) =
      [some (false, 0x1010), some (false, 0x1010)] ∧
    -- one is still to come; they disagree; a DONE member held quarters
    (after (.mmaAccept ref1) (sTeamArrived (some (arrival1)) none)) = some (sTeamArrived (some (arrival1)) none) ∧
    ([ref1, ref2].map fun r => (swarmOf (after (.mmaAccept ref1) (sTeamArrived (some (arrival1)) (some { arrival1 with key := (0x80, 0, 1, 5, 0, none) }))) r).map Swarm.stopped) =
      [some true, some true] ∧
    (swarmOf (after (.mmaAccept ref2) (sTeamArrived none (some (arrival1)) .done)) ref2).map Swarm.stopped = some true := by decide +kernel
/-- Two FP16 operands and an accumulator for the sum of a group. -/
theorem witness_MatrixEvents_elements : finite (fmtF16.decode false 0x3C00) ∧ (fmtF16.decode false 0x7C00).isInf = true ∧ finite (fmtF32.decode false 0x3F800000) ∧
    Ty.q16 ≠ .s8 ∧ Ty.f16 ≠ .q16 := ⟨⟨_, _, _, rfl⟩, by decide +kernel, ⟨_, _, _, rfl⟩, by decide +kernel⟩
/-- A refused translation becomes a page request of its access kind, and its group is sent. -/
theorem witness_PageEvents_refused : ((dieAt (sHeld (hold1 .fault true) [(1, 0x400000, true)]) 0).ats.find? fun x => x.1 = 1 && x.2.1 = pageOf 0x400010) =
      some (1, 0x400000, true) ∧ (contextAt (sHeld (hold1 .fault true)) 1).pageRequests = true ∧ 0 < min Config.tagEntries (sHeld (hold1 .fault true)).prAllocation ∧
    requestGroup (sHeld (hold1 .fault true)) 1 = some 0 ∧
    (after (.atsTranslationCompletion 0 1 0x400010 none) (sHeld (hold1 .fault true) [(1, 0x400000, true)])).map (fun t => t.pageRequests) =
      some [⟨0, 1, 0x400000, true, true⟩] := by decide +kernel
/-- A granule of zeros copied to a frame of its own. -/
theorem witness_PageEvents_granule : (sMigrate []).memOk = true ∧ 0x700000 % 64 = 0 ∧
    ((sectorOffsets 65536).all fun o => (liveFrame s0 1 (0x200000 + 65536 * 0 + o)).all fun pa => pa + 64 ≤ 0x700000) = true := by decide +kernel
/-- The host binds stream register 3 of a stopped swarm. -/
def editBind : SwarmEdit := { edit0 with bind := [⟨3, walkBytes walk1, 1, [(0, none)], false, [5, 0, 0, 0], 0, none⟩] }
theorem witness_ModuleEvents_binds : descMisaligned (walkDesc (walkBytes walk1)) false = false ∧ descInvalid (walkBytes walk1) (walkDesc (walkBytes walk1)) false = false ∧
    ((swarmOf (after (.mailboxResumeSwarm ref1 editBind) { s0 with run := none, swarms := s0.swarms.map fun w => { w with stopped := true } })).map fun v =>
      let x := v.streams.getD 3 Stream.unbound
      (x.bound, x.desc, x.pos, v.rstPc, v.wrapCause)) = some (true, walk1, [5, 0, 0, 0], 0x6000, 5) := by decide +kernel
/-- The suspect map at an address of the owner's page: each word is written there. -/
theorem witness_ModuleEvents_suspects : onOk ((List.range 8).foldlM (fun v k => writeAny v 1 (0x201000 + 4 * k)
      (natToBytes 4 (suspectWord (sFab fun f => { f with suspected := [33] }) k)) (.replace (BitVec.allOnes 512))) (sFab fun f => { f with suspected := [33] }))
      (fun u => memGet u.mem 0x201004 == 2) = true ∧
    (after (.mailboxSuspectMap 0x201000) (sFab fun f => { f with suspected := [33] })).map (fun t => (memGet t.mem 0x201004, t.fabric.mapStale)) = some (2, []) ∧
    s0.fabric.owner = none ∧ (sFab).fabric.owner ≠ some (1, 6) := by decide +kernel

/-! Errors of stored words (log 77): what their consumers meet. -/

/-- v3 ← v0 + v1 in flight, v0's second physical register as given. -/
def sAdd (mirror : Option Nat) : State :=
  let w : Swarm := { swarm1 [same 5, same 6] with regs := (swarm1 [same 5, same 6]).regs.set 0 (some ⟨0, lanesOf (same 5), mirror⟩), rmax := 32, rsv := 8 }
  { demo [] with swarms := [w], run := some { run1 w with words := [(encode (.iaddReg (fa 3))).getD 0] } }
def nextOf (o : Host.Outcome State Fault Refusal) : Option State := match o with | .next t => some t | _ => none
def softOf (o : Option State) : Option (List Nat) := o.map fun t => (coreAt t 0).softErrors
-- R141, R157: without a mirror the reading clause traps, and counts; with one the word is repaired, counts, and is read as it was
theorem test_register_error :
    (let o := nextOf (stepRun (upset (.register ref1 0 5) (sAdd none))); (stoppedOf o, softOf o, regAt o 3 0)) =
      (some true, some [0, 1, 0, 0, 0, 0, 0], some 0) ∧
    (let o := nextOf (stepRun (upset (.register ref1 0 5) (sAdd (some 64)))); (stoppedOf o, softOf o, regAt o 3 5)) =
      (some false, some [0, 1, 0, 0, 0, 0, 0], some 11) ∧
    (let o := nextOf (stepRun (upset (.register ref1 2 5) (sAdd none))); (stoppedOf o, regAt o 3 5)) = (some false, some 11) := by decide +kernel
-- R153: a sector of wrong parity is fetched again; R152, R153: the storing swarm loses its entries and is to trap 0x0C, 0x0005
theorem test_cache_errors :
    (let s := upset (.l1 0 0x200020) (modCore sBytes 0 fun c => { c with l1 := [⟨0x200000, List.replicate 64 0, none, false⟩] })
     (onOk (loadBytes s (accessOf s ref1) false 0x200000 8) fun x => x.1 = natToBytes 8 0x1122334455667788 && (coreAt x.2.2 0).softErrors = [0, 0, 0, 0, 1, 0, 0]) = true) ∧
    (let o := some (upset (.writeBuffer 0 0x200000) (withWcb { entry1 with writers := [(ref1, 7)] }))
     ((swarmOf o).map fun w => w.deferred.map fun d => (d.code, d.detail), o.map fun t => (coreAt t 0).wcb, softOf o)) =
      (some [(0x0C, 0x0005)], some [], some [0, 0, 0, 0, 0, 1, 0]) := by decide +kernel
-- R158: a scratchpad word that fails is met by its reader until it is written
theorem test_scratchpad_error :
    (let g := wgNow (upset (.scratchpad wg1 0x105) s0)
     (g.scratch.bad, errs (scratchData g.scratch 0x104 4), errs (scratchData g.scratch 0x108 4), (scratchWrite g.scratch 0x100 (List.replicate 8 0)).bad)) =
      ([0x100], true, false, []) := by decide +kernel
-- R305: bytes that fail their check value are reported as CheckValue until a write supplies the whole sector
theorem test_check_value :
    (let s := upset (.sectorBytes 0x200000 [1]) sBytes
     (sectorFault s 0x200000, sectorFault (performWrite s 0x200000 [7] 1 .clear) 0x200000,
       sectorFault (performWrite s 0x200000 (List.replicate 64 7) (BitVec.allOnes 64) .clear) 0x200000)) =
      (some (0x0B, 0), some (0x0B, 0), none) := by decide +kernel
-- R329: dies that report a notification parity error admit no launch
theorem test_notification_error :
    (let s := upset (.notification [1, 3]) s0; (s.dies.map Die.admits, s.machineChecks)) = ([true, false, true, false], 1) := by decide +kernel
-- R73: code changes only while every swarm of the launch is halted
theorem test_debug_code :
    (let s (x : Sched) : State := codeHolds [] (idle { swarm1 [] with sched := x })
     ((serve (.debugCode 1 0x100000 [0xAA]) (s .halted)).replies, memRead (serve (.debugCode 1 0x100000 [0xAA]) (s .halted)).mem 0x100000 1,
       (serve (.debugCode 1 0x100000 [0xAA]) (s .ready)).replies)) = ([0], [0xAA], [1]) := by decide +kernel

end Sys2Proof.Tests
end

section
/-! Integers as bit patterns (R50, R51): how reading, wrapping and saturating a number of the model meets reading a bit vector. -/

namespace Sys2Proof.Claims

open Machine

theorem readInt_eq_asInt (signed : Bool) (w n : Nat) : readInt signed w n = asInt signed (BitVec.ofNat w n) := by
  have hp : 2 ^ (w - 1) ≤ n % 2 ^ w ↔ ¬2 * (n % 2 ^ w) < 2 ^ w := by
    cases w with
    | zero => simp [Nat.mod_one]
    | succ w => rw [Nat.add_sub_cancel, Nat.pow_succ]; omega
  cases signed
  · simp [readInt, asInt]
  · by_cases h : 2 * (n % 2 ^ w) < 2 ^ w
    · simp [readInt, asInt, BitVec.toInt_eq_toNat_cond, hp, h]
    · simp [readInt, asInt, BitVec.toInt_eq_toNat_cond, hp, h]

@[simp] theorem readInt_toNat {w : Nat} (signed : Bool) (x : BitVec w) : readInt signed w x.toNat = asInt signed x := by
  rw [readInt_eq_asInt, BitVec.ofNat_toNat, BitVec.setWidth_eq]

/-- The part of w bits from bit o on, of a word read as a number. -/
theorem ofNat_div_eq_extractLsb' {v : Nat} (x : BitVec v) (o w : Nat) : BitVec.ofNat w (x.toNat / 2 ^ o) = x.extractLsb' o w := by
  apply BitVec.eq_of_toNat_eq
  rw [BitVec.toNat_ofNat, BitVec.extractLsb'_toNat, Nat.shiftRight_eq_div_pow]

theorem readInt_elem (ty : Ty) (x : Word) (k : Nat) : readInt ty.signed ty.bits (x.toNat / 2 ^ (ty.bits * k)) = elem ty x k := by
  rw [readInt_eq_asInt, ofNat_div_eq_extractLsb', elem]

theorem wrapBits_lt (w : Nat) (x : Int) : wrapBits w x < 2 ^ w := by
  have h : (0 : Int) < 2 ^ w := by positivity
  have := Int.emod_lt_of_pos x h
  have := Int.emod_nonneg x h.ne'
  zify
  simp only [wrapBits]
  omega

@[simp] theorem ofNat_wrapBits (w : Nat) (x : Int) : BitVec.ofNat w (wrapBits w x) = BitVec.ofInt w x := by
  apply BitVec.eq_of_toNat_eq
  rw [BitVec.toNat_ofNat, BitVec.toNat_ofInt, Nat.mod_eq_of_lt (wrapBits_lt w x), wrapBits]
  norm_cast

theorem asInt_ofInt (signed : Bool) (w : Nat) (x : Int) :
    asInt signed (BitVec.ofInt w x) = if signed then Int.bmod x (2 ^ w) else x % 2 ^ w := by
  cases signed
  · have h := Int.emod_nonneg x (show ((2 : Int) ^ w) ≠ 0 by positivity)
    simp [asInt, BitVec.toNat_ofInt, h]
  · simp [asInt, BitVec.toInt_ofInt]

/-- A number within the limits of a TYPE is read back from its pattern. -/
theorem asInt_ofInt_of_mem {signed : Bool} {w : Nat} {x : Int} (hw : 0 < w) (lo : least signed w ≤ x) (hi : x ≤ greatest signed w) :
    asInt signed (BitVec.ofInt w x) = x := by
  obtain ⟨n, rfl⟩ := Nat.exists_eq_add_of_lt hw
  rw [asInt_ofInt]
  cases signed
  · simp only [least, greatest, Bool.false_eq_true, if_false] at lo hi ⊢
    exact Int.emod_eq_of_lt lo (by omega)
  · simp only [least, greatest, if_true, Nat.add_sub_cancel] at lo hi ⊢
    have e : (2 : Nat) ^ (0 + n + 1) = 2 * 2 ^ n := by rw [Nat.zero_add, Nat.pow_succ]; omega
    simp only [Nat.zero_add] at lo hi e ⊢
    have e' : ((2 ^ n : Nat) : Int) = 2 ^ n := by norm_cast
    rw [Int.bmod_eq_of_le] <;> omega

end Sys2Proof.Claims
end

section
/-! fin(x) of R96 in an element, in a packed word and over the active threads: the value it leaves and the flag FSAT it raises. -/

namespace Sys2Proof.Claims

open Machine

/-- The flags of a result that only sat() can flag. -/
def satFlag (b : Bool) : BitVec 6 := if b then fsat else 0

theorem satFlag_or (a b : Bool) : satFlag a ||| satFlag b = satFlag (a || b) := by
  cases a <;> cases b <;> rfl

theorem satFlag_zero_or (b : Bool) : satFlag b = 0 ∨ satFlag b = fsat := by
  cases b
  · exact .inl rfl
  · exact .inr rfl

theorem satFlag_eq_fsat (b : Bool) : satFlag b = fsat ↔ b = true := by
  cases b <;> decide

/-- sat() is asked for and changes x. -/
def saturates (sat signed : Bool) (w : Nat) (x : Int) : Bool := sat && decide (x < least signed w ∨ greatest signed w < x)

theorem saturates_iff (sat signed : Bool) (w : Nat) (x : Int) : saturates sat signed w x = true ↔ sat = true ∧ leaves signed w x := by
  simp [saturates, leaves]

theorem finInt_flags (sat signed : Bool) (w : Nat) (x : Int) : (finInt sat signed w x).flags = satFlag (saturates sat signed w x) := by
  cases sat
  · rfl
  · change (satInt signed w x).flags = satFlag (decide (x < intMin signed w ∨ intMax signed w < x))
    unfold satInt
    by_cases lo : x < intMin signed w
    · simp [lo, satFlag]
    · by_cases hi : intMax signed w < x
      · simp [lo, hi, satFlag]
      · simp [lo, hi, satFlag]

theorem finInt_bits_lt (sat signed : Bool) (w : Nat) (x : Int) : (finInt sat signed w x).bits < 2 ^ w := by
  unfold finInt satInt
  split_ifs <;> exact wrapBits_lt _ _

theorem least_le_greatest (signed : Bool) (w : Nat) : least signed w ≤ greatest signed w := by
  have h : (0 : Int) < 2 ^ (w - 1) := by positivity
  have h' : (0 : Int) < 2 ^ w := by positivity
  cases signed <;> simp only [least, greatest, Bool.false_eq_true, if_true, if_false] <;> omega

/-- fin(x), read back from the bits it leaves. -/
theorem asInt_finInt {w : Nat} (hw : 0 < w) (sat signed : Bool) (x : Int) :
    asInt signed (BitVec.ofNat w (finInt sat signed w x).bits) = fin sat signed w x := by
  cases sat
  · exact (congrArg _ (ofNat_wrapBits w x)).trans (asInt_ofInt signed w x)
  · change asInt signed (BitVec.ofNat w (satInt signed w x).bits) = max (least signed w) (min (greatest signed w) x)
    have hlg := least_le_greatest signed w
    by_cases lo : x < least signed w
    · rw [show satInt signed w x = ⟨wrapBits w (least signed w), fsat⟩ from if_pos lo, ofNat_wrapBits, asInt_ofInt_of_mem hw le_rfl hlg]
      omega
    · by_cases hi : greatest signed w < x
      · rw [show satInt signed w x = ⟨wrapBits w (greatest signed w), fsat⟩ from (if_neg lo).trans (if_pos hi), ofNat_wrapBits,
          asInt_ofInt_of_mem hw hlg le_rfl]
        omega
      · rw [show satInt signed w x = ⟨wrapBits w x, 0⟩ from (if_neg lo).trans (if_neg hi), ofNat_wrapBits,
          asInt_ofInt_of_mem hw (by omega) (by omega)]
        omega

/-! Packed words. -/

/-- The first n results side by side, each in w bits, with the flags of all (R95). -/
def sideBySide (w : Nat) (x : Nat → Rounded) (n : Nat) : Rounded :=
  (List.range n).foldl (fun acc k => ⟨acc.bits + (x k).bits * 2 ^ (w * k), acc.flags ||| (x k).flags⟩) ⟨0, 0⟩

theorem sideBySide_succ (w : Nat) (x : Nat → Rounded) (n : Nat) :
    sideBySide w x (n + 1) = ⟨(sideBySide w x n).bits + (x n).bits * 2 ^ (w * n), (sideBySide w x n).flags ||| (x n).flags⟩ := by
  simp only [sideBySide, List.range_succ, List.foldl_append, List.foldl_cons, List.foldl_nil]

theorem sideBySide_bits_lt {w : Nat} {x : Nat → Rounded} (hx : ∀ k, (x k).bits < 2 ^ w) (n : Nat) : (sideBySide w x n).bits < 2 ^ (w * n) := by
  induction n with
  | zero => simp [sideBySide]
  | succ n ih =>
    have h : ((x n).bits + 1) * 2 ^ (w * n) ≤ 2 ^ w * 2 ^ (w * n) := Nat.mul_le_mul_right _ (hx n)
    rw [sideBySide_succ, Nat.mul_succ, Nat.add_comm (w * n), Nat.pow_add]
    rw [Nat.add_mul] at h
    dsimp only
    omega

theorem sideBySide_bits_elem {w : Nat} {x : Nat → Rounded} (hx : ∀ k, (x k).bits < 2 ^ w) {n k : Nat} (hk : k < n) :
    (sideBySide w x n).bits / 2 ^ (w * k) % 2 ^ w = (x k).bits := by
  induction n with
  | zero => omega
  | succ n ih =>
    rw [sideBySide_succ]
    dsimp only
    rcases Nat.lt_succ_iff_lt_or_eq.mp hk with lt | rfl
    · obtain ⟨d, hd⟩ := Nat.exists_eq_add_of_lt lt
      have e : (x n).bits * 2 ^ (w * n) = 2 ^ (w * k) * (2 ^ w * ((x n).bits * 2 ^ (w * d))) := by
        rw [hd, Nat.mul_add, Nat.mul_add, Nat.pow_add, Nat.pow_add, Nat.mul_one]; ring
      rw [e, Nat.add_mul_div_left _ _ (Nat.two_pow_pos _), Nat.add_mul_mod_self_left, ih lt]
    · rw [Nat.add_mul_div_right _ _ (Nat.two_pow_pos _), Nat.div_eq_of_lt (sideBySide_bits_lt hx k), Nat.zero_add, Nat.mod_eq_of_lt (hx k)]

theorem sideBySide_flags {w : Nat} {x : Nat → Rounded} {p : Nat → Bool} (hx : ∀ k, (x k).flags = satFlag (p k)) (n : Nat) :
    (sideBySide w x n).flags = satFlag ((List.range n).any p) := by
  induction n with
  | zero => rfl
  | succ n ih => rw [sideBySide_succ]; simp [ih, hx, satFlag_or, List.range_succ]

theorem elements_eq_sideBySide (ty : Ty) (sat : Bool) (op : Int → Int → Int) (a b : Word) : elements ty sat op a.toNat b.toNat =
    sideBySide ty.bits (fun k => finInt sat ty.signed ty.bits (op (elem ty a k) (elem ty b k))) (32 / ty.bits) := by
  simp only [elements, readInt_elem, sideBySide]

theorem bits_pos (ty : Ty) : 0 < ty.bits := by
  cases ty <;> decide

/-- Element k of a word that holds elements packed up to 32 bits. -/
theorem elem_ofNat {ty : Ty} {k : Nat} (hk : k < 32 / ty.bits) (n : Nat) :
    elem ty (BitVec.ofNat 32 n) k = asInt ty.signed (BitVec.ofNat ty.bits (n / 2 ^ (ty.bits * k))) := by
  have hb : ty.bits * k + ty.bits ≤ 32 := by
    have := (Nat.le_div_iff_mul_le (bits_pos ty)).mp hk
    rwa [Nat.succ_mul, Nat.mul_comm] at this
  refine congrArg (asInt ty.signed) (BitVec.eq_of_getLsbD_eq fun i hi => ?_)
  have h32 : ty.bits * k + i < 32 := by omega
  simp only [BitVec.getLsbD_extractLsb', BitVec.getLsbD_ofNat, Nat.testBit_div_two_pow, hi, h32, decide_true, Bool.true_and,
    Nat.add_comm i]

/-- R95: each element of the result is fin of the elements' exact integer. -/
theorem elem_elements {ty : Ty} {k : Nat} (hk : k < 32 / ty.bits) (sat : Bool) (op : Int → Int → Int) (a b : Word) :
    elem ty (BitVec.ofNat 32 (elements ty sat op a.toNat b.toNat).bits) k = fin sat ty.signed ty.bits (op (elem ty a k) (elem ty b k)) := by
  rw [elem_ofNat hk, elements_eq_sideBySide, ← asInt_finInt (bits_pos ty)]
  refine congrArg (asInt ty.signed) (BitVec.eq_of_toNat_eq ?_)
  rw [BitVec.toNat_ofNat, BitVec.toNat_ofNat, sideBySide_bits_elem (fun _ => finInt_bits_lt _ _ _ _) hk, Nat.mod_eq_of_lt (finInt_bits_lt _ _ _ _)]

theorem elements_flags (ty : Ty) (sat : Bool) (op : Int → Int → Int) (a b : Word) : (elements ty sat op a.toNat b.toNat).flags =
    satFlag ((List.range (32 / ty.bits)).any fun k => saturates sat ty.signed ty.bits (op (elem ty a k) (elem ty b k))) := by
  rw [elements_eq_sideBySide, sideBySide_flags fun _ => finInt_flags _ _ _ _]

/-! The active threads. -/

theorem flagsOf_results_satFlag {m : Mask} {g : Nat → Rounded} {p : Nat → Bool} (hg : ∀ t, (g t).flags = satFlag (p t)) :
    flagsOf (results m g) = satFlag ((List.range threads).any fun t => m.getLsbD t && p t) := by
  have fold : ∀ (l : List Nat) (b : Bool), (l.map fun t => if m.getLsbD t then g t else ⟨0, 0⟩).foldl (fun f x => f ||| x.flags) (satFlag b) =
      satFlag (b || l.any fun t => m.getLsbD t && p t) := by
    intro l
    induction l with
    | nil => intro b; simp
    | cons t l ih =>
      intro b
      have e : (if m.getLsbD t then g t else (⟨0, 0⟩ : Rounded)).flags = satFlag (m.getLsbD t && p t) := by
        cases m.getLsbD t
        · rfl
        · exact hg t
      rw [List.map_cons, List.foldl_cons, e, satFlag_or, ih, List.any_cons, Bool.or_assoc]
  exact fold (List.range threads) false

/-! What the forms of an instruction write. -/

section Forms

variable {i : Instr} {f : Fields} {s : State} {r : Run} {g : Run → Mask → Nat → Rounded}

/-- A vector instruction whose threads write results that raise no flag. -/
theorem writesWord_of {v : Nat → Word} (hr : s.run = some r) (he : exec i s = vector i f s fun rd wr m => writeResult s wr f.dst m (g rd m))
    (hf : ∀ t, (g r (active r f) t).flags = 0)
    (hv : ∀ t, t < threads → (active r f).getLsbD t = true → BitVec.ofNat 32 (g r (active r f) t).bits = v t) : writesWord i f f.dst s r v 0 :=
  writes_of hr he rfl hv (flagsOf_results_zero _ _ hf)

/-- A vector instruction whose threads write elements(). -/
theorem elementwise_of {sat : Bool} {op : Int → Int → Int} {a b : Nat → Word} (hr : s.run = some r)
    (he : exec i s = vector i f s fun rd wr m => writeResult s wr f.dst m (g rd m))
    (hg : ∀ t, g r (active r f) t = elements f.ty sat op (a t).toNat (b t).toNat) :
    elementwise i f s r sat fun t k => op (elem f.ty (a t) k) (elem f.ty (b t) k) := by
  have hf := flagsOf_results_satFlag (m := active r f) fun t => (congrArg _ (hg t)).trans (elements_flags f.ty sat op (a t) (b t))
  refine ⟨_, _, writes_of hr he rfl (fun _ _ _ => rfl) hf, fun t _ _ k hk => ?_, satFlag_zero_or _, ?_⟩
  · rw [hg, elem_elements hk]
  · rw [satFlag_eq_fsat]
    simp only [List.any_eq_true, List.mem_range, Bool.and_eq_true, saturates_iff]
    constructor
    · rintro ⟨t, ht, hm, k, hk, hs, hl⟩
      exact ⟨hs, t, k, ht, hm, hk, hl⟩
    · rintro ⟨hs, t, k, ht, hm, hk, hl⟩
      exact ⟨t, ht, hm, k, hk, hs, hl⟩

/-- FSAT over the active threads (R95): raised exactly when sat() changes the integer of one. -/
theorem any_saturates_iff (m : Mask) (sat signed : Bool) (w : Nat) (x : Nat → Int) :
    ((List.range threads).any fun t => m.getLsbD t && saturates sat signed w (x t)) = true ↔
      sat = true ∧ ∃ t, t < threads ∧ m.getLsbD t = true ∧ leaves signed w (x t) := by
  simp only [List.any_eq_true, List.mem_range, Bool.and_eq_true, saturates_iff]
  constructor
  · rintro ⟨t, ht, hm, hs, hl⟩
    exact ⟨hs, t, ht, hm, hl⟩
  · rintro ⟨hs, t, ht, hm, hl⟩
    exact ⟨t, ht, hm, hs, hl⟩

/-- A vector instruction whose threads write fin of a 32-bit integer. -/
theorem wordwise_of {sat : Bool} {x : Nat → Int} (hr : s.run = some r)
    (he : exec i s = vector i f s fun rd wr m => writeResult s wr f.dst m (g rd m))
    (hg : ∀ t, g r (active r f) t = finInt sat f.ty.signed 32 (x t)) : wordwise i f s r sat x := by
  have hf := flagsOf_results_satFlag (m := active r f) fun t => (congrArg _ (hg t)).trans (finInt_flags sat f.ty.signed 32 (x t))
  refine ⟨_, _, writes_of hr he rfl (fun _ _ _ => rfl) hf, fun t _ _ => ?_, satFlag_zero_or _, ?_⟩
  · rw [hg, asInt_finInt (by decide)]
  · rw [satFlag_eq_fsat, any_saturates_iff]

end Forms

end Sys2Proof.Claims
end

section
/-! The entries of chapter 04: what a word that passes the checks of R82 says of its TYPE, OPX and operand bytes. -/

namespace Sys2Proof.Claims

open Machine

theorem ite_some_eq_none_iff {α : Type} {p : Prop} [Decidable p] {x : α} {y : Option α} :
    (if p then some x else y) = none ↔ ¬p ∧ y = none := by
  by_cases h : p <;> simp [h]

/-- A well-formed instruction word passes the checks 10 and 11 of R82 on its modifiers and operand bytes. -/
theorem wellFormed_shape {i : Instr} {sh : Shape} {f : Fields} (hs : i.shape = some (sh, f)) (ho : i.opcode.isSome = true)
    (h : i.wellFormed = true) : sh.modOk = true ∧ sh.opa.reserved false f.opa false = false ∧ sh.opb.reserved false f.opb true = false ∧
      sh.opc.reserved false f.opc true = false := by
  obtain ⟨op, hop⟩ := Option.isSome_iff_exists.mp ho
  simp only [Instr.wellFormed, checkFields, hs, hop, Option.isNone_iff_eq_none, ite_some_eq_none_iff, Bool.or_eq_true, not_or,
    Bool.not_eq_true] at h
  obtain ⟨-, hr, hi, -⟩ := h
  simp only [and_assoc] at hr hi
  obtain ⟨-, ha, hb, hc, -⟩ := hr
  obtain ⟨-, -, -, -, hm, -⟩ := hi
  exact ⟨by simpa using hm, ha, hb, hc⟩

/-- What an entry's row says: its opcode, and a MOD admitted by its TYPEs and a test of OPX. -/
def modRow (c : Fields → Instr) (op : BitVec 8) (types : List Ty) (ok : Fields → Bool) : Prop :=
  ∀ f, (c f).opcode = some (op, f) ∧ (c f).shape.map (fun x => (x.1.modOk, x.2)) = some (tyIn f types && ok f, f)

theorem entry_of_modRow {c : Fields → Instr} {op : BitVec 8} {types : List Ty} {n : Nat} {ok : Fields → Bool}
    (hn : ∀ f, ok f = true → f.opx.toNat < n) (h : modRow c op types ok) : entry c op types n := by
  refine fun f => ⟨(h f).1, fun hw => ?_⟩
  obtain ⟨ho, hs⟩ := h f
  obtain ⟨⟨sh, g⟩, hsh, he⟩ := Option.map_eq_some_iff.mp hs
  obtain ⟨hm, rfl⟩ := Prod.mk.inj he
  have hok := (wellFormed_shape hsh (by rw [ho]; rfl) hw).1
  rw [hm, Bool.and_eq_true] at hok
  exact ⟨of_decide_eq_true hok.1, hn _ hok.2⟩

/-- OPX is the integer saturation bit (R94). -/
theorem entry_sat {c : Fields → Instr} {op : BitVec 8} {types : List Ty} (h : modRow c op types opxSat) : entry c op types 2 :=
  entry_of_modRow (fun _ h => Nat.lt_succ_of_le (of_decide_eq_true h)) h

/-- OPX is 0. -/
theorem entry_opx0 {c : Fields → Instr} {op : BitVec 8} {types : List Ty} (h : modRow c op types opx0) : entry c op types :=
  entry_of_modRow (fun f h => by rw [show f.opx = 0 from of_decide_eq_true h]; decide) h

end Sys2Proof.Claims
end


section
/-! Integer arithmetic (R95, R96): what the shapes of one, two and three sources and of an immediate write. -/

namespace Sys2Proof.Claims

open Machine

theorem bits_eq_32 {ty : Ty} (h : ty ∈ Shape.int32) : ty.bits = 32 := by
  simp only [Shape.int32, List.mem_cons, List.not_mem_nil, or_false] at h
  rcases h with rfl | rfl <;> rfl

/-- A TYPE of 32 bits has one element. -/
theorem elements_eq_finInt {ty : Ty} (h : ty.bits = 32) (sat : Bool) (op : Int → Int → Int) (a b : Word) :
    elements ty sat op a.toNat b.toNat = finInt sat ty.signed 32 (op (asInt ty.signed a) (asInt ty.signed b)) := by
  simp [elements, h]

section Forms

variable {i : Instr} {f : Fields} {s : State} {r : Run} {sat : Bool} (hr : s.run = some r)
include hr

theorem unary_elementwise {op : Int → Int} (he : exec i s = unary i f s fun a => elements f.ty sat (fun x _ => op x) a 0) :
    elementwise i f s r sat fun t k => op (elem f.ty (val s r f.opa t) k) :=
  elementwise_of (op := fun x _ => op x) (b := fun _ => 0) hr he fun _ => rfl

theorem binary_elementwise {op : Int → Int → Int} (he : exec i s = binary i f s (elements f.ty sat op)) :
    elementwise i f s r sat fun t k => op (elem f.ty (val s r f.opa t) k) (elem f.ty (val s r f.opb t) k) :=
  elementwise_of hr he fun _ => rfl

theorem immediate_elementwise {op : Int → Int → Int} (he : exec i s = immediate i f s (elements f.ty sat op)) :
    elementwise i f s r sat fun t k => op (elem f.ty (val s r f.opa t) k) (elem f.ty (immWord r f) k) :=
  elementwise_of (b := fun _ => immWord r f) hr he fun _ => rfl

theorem binary_wordwise {op : Int → Int → Int} (he : exec i s = binary i f s (elements f.ty sat op)) (hb : f.ty.bits = 32) :
    wordwise i f s r sat fun t => op (asInt f.ty.signed (val s r f.opa t)) (asInt f.ty.signed (val s r f.opb t)) :=
  wordwise_of hr he fun t => elements_eq_finInt hb sat op (val s r f.opa t) (val s r f.opb t)

theorem ternary_wordwise {op : Int → Int → Int → Int} (he : exec i s = ternary i f s fun a b c =>
      finInt sat f.ty.signed 32 (op (readInt f.ty.signed 32 a) (readInt f.ty.signed 32 b) (readInt f.ty.signed 32 c))) :
    wordwise i f s r sat fun t =>
      op (asInt f.ty.signed (val s r f.opa t)) (asInt f.ty.signed (val s r f.opb t)) (asInt f.ty.signed (val s r f.opc t)) :=
  wordwise_of hr he fun t => by simp only [← readInt_toNat, val, natAt]

end Forms

/-- Settles O1: every entry is a shape of sources with the integer operation of R96's table. -/
theorem integerArithmetic : Obligations.IntegerArithmetic := by
  refine ⟨?_, fun f s r hr _ => ?_, fun f s r hr hty => ?_⟩
  · exact ⟨entry_sat fun _ => ⟨rfl, rfl⟩, entry_sat fun _ => ⟨rfl, rfl⟩, entry_sat fun _ => ⟨rfl, rfl⟩,
      entry_sat fun _ => ⟨rfl, rfl⟩,
      entry_sat fun _ => ⟨rfl, rfl⟩, entry_sat fun _ => ⟨rfl, rfl⟩, entry_opx0 fun _ => ⟨rfl, rfl⟩, entry_sat fun _ => ⟨rfl, rfl⟩,
      entry_opx0 fun _ => ⟨rfl, rfl⟩, entry_opx0 fun _ => ⟨rfl, rfl⟩, entry_opx0 fun _ => ⟨rfl, rfl⟩, entry_opx0 fun _ => ⟨rfl, rfl⟩,
      entry_sat fun _ => ⟨rfl, rfl⟩⟩
  · exact ⟨binary_elementwise hr rfl, immediate_elementwise hr rfl, binary_elementwise hr rfl, immediate_elementwise hr rfl,
      binary_elementwise hr rfl, immediate_elementwise hr rfl, binary_elementwise hr rfl, immediate_elementwise hr rfl,
      binary_elementwise hr rfl, immediate_elementwise hr rfl, unary_elementwise (op := fun x => x.natAbs) hr rfl⟩
  · exact ⟨binary_wordwise (op := fun a b => a * b / 2 ^ 32) hr rfl (bits_eq_32 hty),
      ternary_wordwise (op := fun a b c => a * b + c) hr rfl⟩

end Sys2Proof.Claims
end

section
/-! Carries and pairs (R97, R98): a pair is written when its two registers are, and whether they can be does not depend on the values. -/

namespace Sys2Proof.Claims

open Machine

/-! What can be written does not depend on the values written before. -/

/-- Two register files that map the same registers to the same physical ones. -/
def sameMap (a b : List (Option VReg)) : Prop :=
  a.map (Option.map fun x => (x.phys, x.mirror)) = b.map (Option.map fun x => (x.phys, x.mirror))

theorem physOf_congr {a b : List (Option VReg)} (h : sameMap a b) : physOf a = physOf b := by
  have e : ∀ l : List (Option VReg), physOf l = (l.map (Option.map fun x => (x.phys, x.mirror))).filterMap fun x => x.map Prod.fst := by
    intro l
    simp [physOf, List.filterMap_map, Function.comp_def]
  rw [e, e, h]

theorem mirrorsOf_congr {a b : List (Option VReg)} (h : sameMap a b) : mirrorsOf a = mirrorsOf b := by
  have e : ∀ l : List (Option VReg), mirrorsOf l = (l.map (Option.map fun x => (x.phys, x.mirror))).filterMap fun x => x.bind Prod.snd := by
    intro l
    rw [List.filterMap_map]
    refine List.filterMap_congr fun x _ => ?_
    cases x <;> rfl
  rw [e, e, h]

theorem isSome_congr {a b : List (Option VReg)} (h : sameMap a b) (n : Nat) : (a.getD n none).isSome = (b.getD n none).isSome := by
  have e : ∀ l : List (Option VReg), (l.getD n none).isSome = ((l.map (Option.map fun x => (x.phys, x.mirror))).getD n none).isSome := by
    intro l
    rw [List.getD_eq_getElem?_getD, List.getD_eq_getElem?_getD, List.getElem?_map]
    cases l[n]? <;> simp
  rw [e, e, h]

theorem sameMap_set {a : List (Option VReg)} {x y : VReg} (n : Nat) (hp : x.phys = y.phys) (hm : x.mirror = y.mirror) :
    sameMap (a.set n (some x)) (a.set n (some y)) := by
  simp [sameMap, List.map_set, hp, hm]

/-- Two clauses alike in all that decides whether a register can be written. -/
def sameRoom (q r : Run) : Prop :=
  q.ref = r.ref ∧ q.work.lane = r.work.lane ∧ q.work.rsv = r.work.rsv ∧ sameMap q.work.regs r.work.regs

theorem canWrite_congr {q r : Run} (h : sameRoom q r) (s : State) (n : Nat) (m : Mask) : canWrite s q n m ↔ canWrite s r n m := by
  obtain ⟨hr, hl, hv, hm⟩ := h
  have e : allocPhys s q = allocPhys s r := by
    simp only [allocPhys, lanePhys, hr, hl, hv, List.map_cons, physOf_congr hm, mirrorsOf_congr hm]
  rw [canWrite, canWrite, e, isSome_congr hm]

/-- Two writes of one register, whatever their values, leave the same room, before or after the reads of an instruction are noted. -/
theorem writeReg_sameRoom {s s1 : State} {i : Instr} {r : Run} {n : Nat} {m : Mask} {v v' : Lanes} {q q' : Run}
    (h : writeReg s (noteReads s1 i r) n m v = .ok q) (h' : writeReg s r n m v' = .ok q') : sameRoom q q' := by
  unfold writeReg at h h'
  rw [allocPhys_noteReads] at h
  by_cases hm : m = 0
  · rw [if_pos hm] at h h'
    cases h; cases h'
    exact ⟨rfl, rfl, rfl, rfl⟩
  · rw [if_neg hm] at h h'
    cases hx : r.work.regs.getD n none with
    | some x =>
      simp only [noteReads_work_regs, hx] at h h'
      cases h; cases h'
      exact ⟨rfl, rfl, rfl, sameMap_set n rfl rfl⟩
    | none =>
      simp only [noteReads_work_regs, hx] at h h'
      cases hp : allocPhys s r with
      | none => simp only [hp] at h; cases h
      | some p =>
        simp only [hp] at h h'
        cases h; cases h'
        exact ⟨rfl, rfl, rfl, sameMap_set n rfl rfl⟩

/-- After the low register of a pair is written, the high one can be written exactly when the pair can. -/
theorem canWritePair_iff {s s1 : State} {i : Instr} {r q : Run} {n : Nat} {m : Mask} {v : Lanes} (hc : canWrite s r n m)
    (h : writeReg s (noteReads s1 i r) n m v = .ok q) : canWritePair s r n m ↔ canWrite s q (n + 1) m := by
  obtain ⟨r0, h0, -⟩ := writeReg_ok (splat 0) hc
  rw [canWrite_congr (writeReg_sameRoom h h0)]
  refine ⟨fun hp => hp.2 r0 h0, fun hp => ⟨hc, fun r1 h1 => ?_⟩⟩
  rw [h0] at h1
  cases h1
  exact hp

/-! What a pair is written with. -/

section Pairs

variable {i : Instr} {f : Fields} {s : State} {r : Run} {d : BitVec 8} {m : Mask} {g : Nat → Rounded}

theorem laneAt_results_bits (m : Mask) (g : Nat → Rounded) (h : Nat → Nat) {t : Nat} (ht : t < threads) (hm : m.getLsbD t = true) :
    laneAt (((results m g).map Rounded.bits).map fun x => BitVec.ofNat 32 (h x)) t = BitVec.ofNat 32 (h (g t).bits) := by
  rw [results, List.map_map, List.map_map, laneAt_map _ ht]
  simp [hm]

theorem ofNat_low (n : Nat) : BitVec.ofNat 32 n = (BitVec.ofNat 64 n).extractLsb' 0 32 := by
  apply BitVec.eq_of_toNat_eq
  simp only [BitVec.extractLsb'_toNat, BitVec.toNat_ofNat, Nat.shiftRight_zero]
  omega

theorem ofNat_high (n : Nat) : BitVec.ofNat 32 (n / 2 ^ 32) = (BitVec.ofNat 64 n).extractLsb' 32 32 := by
  apply BitVec.eq_of_toNat_eq
  simp only [BitVec.extractLsb'_toNat, BitVec.toNat_ofNat, Nat.shiftRight_eq_div_pow]
  omega

theorem writeWide_ok (g : Nat → Rounded) (h : canWritePair s r d.toNat m) : ∃ q, writeWide s (noteReads s i r) d m g = .ok q ∧
    wrotePair (noteReads s i r) d.toNat m (fun t => BitVec.ofNat 64 (g t).bits) (flagsOf (results m g)) q := by
  obtain ⟨x, hx, wx⟩ := writeReg_ok (((results m g).map Rounded.bits).map fun x => BitVec.ofNat 32 x) (canWrite_noteReads (s1 := s) (i := i) h.1)
  obtain ⟨y, hy, wy⟩ := writeReg_ok (((results m g).map Rounded.bits).map fun x => BitVec.ofNat 32 (x / 2 ^ 32)) ((canWritePair_iff h.1 hx).mp h)
  refine ⟨raise y (flagsOf (results m g)), by simp only [writeWide, writePair, hx, hy, bind, Except.bind],
    x, wroteReg_congr wx fun t ht hm => ?_, wroteReg_raise wy fun t ht hm => ?_⟩
  · exact (laneAt_results_bits m g id ht hm).trans (ofNat_low _)
  · exact (laneAt_results_bits m g (· / 2 ^ 32) ht hm).trans (ofNat_high _)

theorem writeWide_held (g : Nat → Rounded) (h : ¬canWritePair s r d.toNat m) :
    writeWide s (noteReads s i r) d m g = .error (.held 0 .regs) := by
  by_cases hc : canWrite s r d.toNat m
  · obtain ⟨x, hx, -⟩ := writeReg_ok (((results m g).map Rounded.bits).map fun x => BitVec.ofNat 32 x) (canWrite_noteReads (s1 := s) (i := i) hc)
    simp only [writeWide, writePair, hx, writeReg_held _ (mt (canWritePair_iff hc hx).mpr h), bind, Except.bind]
  · simp only [writeWide, writePair, writeReg_held _ (show ¬canWrite s (noteReads s i r) _ _ from hc), bind, Except.bind]

/-- A vector instruction whose body writes 64-bit results completes with them, or waits for a register. -/
theorem writesPair_of {g : Run → Mask → Nat → Rounded} {v : Nat → DWord} {fl : BitVec 6} (hr : s.run = some r)
    (he : exec i s = vector i f s fun rd wr m => writeWide s wr f.dst m (g rd m))
    (hv : ∀ t, t < threads → (active r f).getLsbD t = true → BitVec.ofNat 64 (g r (active r f) t).bits = v t)
    (hf : flagsOf (results (active r f) (g r (active r f))) = fl) : writesPair i f f.dst s r v fl := by
  refine ⟨fun hc => ?_, fun hc => he.trans (vector_error hr (writeWide_held _ hc))⟩
  obtain ⟨q, hq, x, wx, wq⟩ := writeWide_ok (i := i) (g r (active r f)) hc
  rw [hf] at wq
  exact ⟨q, ⟨_, he.trans (vector_ok hr hq), nextWord_goesOn _ _⟩, x,
    wroteReg_congr wx fun t ht hm => congrArg (BitVec.extractLsb' 0 32) (hv t ht hm),
    wroteReg_congr wq fun t ht hm => congrArg (BitVec.extractLsb' 32 32) (hv t ht hm)⟩

/-- A vector instruction whose threads write fin of a 64-bit integer. -/
theorem pairwise_of {g : Run → Mask → Nat → Rounded} {sat : Bool} {x : Nat → Int} (hr : s.run = some r)
    (he : exec i s = vector i f s fun rd wr m => writeWide s wr f.dst m (g rd m))
    (hg : ∀ t, g r (active r f) t = finInt sat f.ty.signed 64 (x t)) : pairwise i f s r sat x := by
  have hf := flagsOf_results_satFlag (m := active r f) fun t => (congrArg _ (hg t)).trans (finInt_flags sat f.ty.signed 64 (x t))
  refine ⟨_, _, writesPair_of hr he (fun _ _ _ => rfl) hf, fun t _ _ => ?_, satFlag_zero_or _, ?_⟩
  · rw [hg, asInt_finInt (by decide)]
  · rw [satFlag_eq_fsat, any_saturates_iff]

end Pairs

theorem toNat_pairVal (s : State) (r : Run) (c : BitVec 8) (t : Nat) : (pairVal s r c t).toNat = pairAt s r c t := by
  rw [pairVal, BitVec.toNat_append, ← Nat.shiftLeft_add_eq_or_of_lt (BitVec.isLt _), Nat.shiftLeft_eq, pairAt, natAt, natAt]
  omega

/-! Carries. -/

theorem ofInt_sub (w : Nat) (x y : Int) : BitVec.ofInt w (x - y) = BitVec.ofInt w x - BitVec.ofInt w y := by
  rw [Int.sub_eq_add_neg, BitVec.ofInt_add, BitVec.ofInt_neg, BitVec.sub_eq_add_neg]

/-- The carries of an instruction of R97: the word is written first, then the predicate. -/
theorem carried_writes {i : Instr} {f : Fields} {s : State} {r : Run} {g : Nat → Nat → Nat → Nat × Bool} {v : Nat → Word} {c : Nat → Bool}
    (hr : s.run = some r) (hc : canWrite s r f.dst.toNat (active r f)) (he : exec i s = Machine.carried i f s g)
    (hg : ∀ t, let x := g (val s r f.opa t).toNat (val s r f.opb t).toNat ((r.work.preds.getD (f.opc.toNat % 64) 0).getLsbD t).toNat
      BitVec.ofNat 32 x.1 = v t ∧ x.2 = c t) :
    ∃ r1 r2, completes i s r2 ∧ wroteReg (noteReads s i r) f.dst.toNat (active r f) v 0 r1 ∧
      wrotePred r1 (f.opc.toNat % 64) (active r f) c r2 := by
  let x (t : Nat) := g (val s r f.opa t).toNat (val s r f.opb t).toNat ((r.work.preds.getD (f.opc.toNat % 64) 0).getLsbD t).toNat
  obtain ⟨r1, h1, w1⟩ := writeResult_ok (fun t => plain (x t).1) (canWrite_noteReads (s1 := s) (i := i) hc)
  rw [flagsOf_results_zero _ _ fun _ => rfl] at w1
  have hp := writePred_wrote r1 (f.opc.toNat % 64) (active r f) (maskOf fun t => (x t).2) (Nat.mod_lt _ (by decide))
  refine ⟨r1, writePred r1 f.opc.toNat (active r f) (maskOf fun t => (x t).2), ⟨_, he.trans (vector_ok hr ?_), nextWord_goesOn _ _⟩,
    wroteReg_congr w1 fun t _ _ => (hg t).1, ?_⟩
  · change (writeResult s _ f.dst _ fun t => plain (x t).1) >>= _ = _
    rw [h1]
    rfl
  · simp only [writePred, Nat.mod_mod] at hp ⊢
    exact wrotePred_congr hp fun t ht _ => (getLsbD_maskOf _ ht).trans (hg t).2

/-- Settles O2: the carries by `carried_writes`, the pairs by `pairwise_of`. -/
theorem carriesAndPairs : Obligations.CarriesAndPairs := by
  refine ⟨⟨entry_opx0 fun _ => ⟨rfl, rfl⟩, entry_opx0 fun _ => ⟨rfl, rfl⟩, entry_sat fun _ => ⟨rfl, rfl⟩, entry_sat fun _ => ⟨rfl, rfl⟩, ?_⟩,
    fun f s r hr hc => ⟨?_, ?_⟩, fun f s r hr _ => ⟨?_, ?_⟩⟩
  · rintro f (h | h)
    · simpa [Shape.a, Use.reserved] using (wellFormed_shape (i := .addc f) rfl rfl h).2.2.2
    · simpa [Shape.a, Use.reserved] using (wellFormed_shape (i := .subb f) rfl rfl h).2.2.2
  · refine carried_writes hr hc (show exec (.addc f) s = execAddc f s from rfl) fun t => ⟨?_, rfl⟩
    apply BitVec.eq_of_toNat_eq
    simp
  · refine carried_writes hr hc (show exec (.subb f) s = execSubb f s from rfl) fun t => ⟨?_, rfl⟩
    rw [ofNat_wrapBits, ofInt_sub, ofInt_sub]
    simp
  · refine pairwise_of hr (show exec (.iaddw f) s = execIaddw f s from rfl) fun t => ?_
    simp only [← readInt_toNat, toNat_pairVal]
    rfl
  · refine pairwise_of hr (show exec (.imadw f) s = execImadw f s from rfl) fun t => ?_
    simp only [← readInt_toNat, toNat_pairVal]
    rfl

end Sys2Proof.Claims
end

section
/-! Plain results of one, two and three sources and of an immediate; counts and packed sums (R99, R100). -/

namespace Sys2Proof.Claims

open Machine

theorem natAt_srcLanes (s : State) (r : Run) (c : BitVec 8) (t : Nat) : natAt (srcLanes s r c) t = (val s r c t).toNat := rfl

section Forms

variable {i : Instr} {f : Fields} {s : State} {r : Run} {v : Nat → Word} (hr : s.run = some r)
include hr

theorem unary_writes {g : Nat → Rounded} (he : exec i s = unary i f s g) (hf : ∀ a, (g a).flags = 0)
    (hv : ∀ t, t < threads → (active r f).getLsbD t = true → BitVec.ofNat 32 (g (val s r f.opa t).toNat).bits = v t) :
    writesWord i f f.dst s r v 0 :=
  writesWord_of hr he (fun _ => hf _) hv

theorem binary_writes {g : Nat → Nat → Rounded} (he : exec i s = binary i f s g) (hf : ∀ a b, (g a b).flags = 0)
    (hv : ∀ t, BitVec.ofNat 32 (g (val s r f.opa t).toNat (val s r f.opb t).toNat).bits = v t) : writesWord i f f.dst s r v 0 :=
  writesWord_of hr he (fun _ => hf _ _) fun t _ _ => hv t

theorem immediate_writes {g : Nat → Nat → Rounded} (he : exec i s = immediate i f s g) (hf : ∀ a b, (g a b).flags = 0)
    (hv : ∀ t, BitVec.ofNat 32 (g (val s r f.opa t).toNat (immWord r f).toNat).bits = v t) : writesWord i f f.dst s r v 0 :=
  writesWord_of hr he (fun _ => hf _ _) fun t _ _ => hv t

theorem ternary_writes {g : Nat → Nat → Nat → Rounded} (he : exec i s = ternary i f s g) (hf : ∀ a b c, (g a b c).flags = 0)
    (hv : ∀ t, BitVec.ofNat 32 (g (val s r f.opa t).toNat (val s r f.opb t).toNat (val s r f.opc t).toNat).bits = v t) :
    writesWord i f f.dst s r v 0 :=
  writesWord_of hr he (fun _ => hf _ _ _) fun t _ _ => hv t

end Forms

/-! Counts. -/

theorem popCount_toNat (x : Word) : popCount x.toNat = ones x := by
  have e : x.getLsbD = fun k => x.toNat.testBit k := rfl
  simp only [popCount, bitsOf, ones, List.filter_map, List.length_map, e, Function.comp_def, id]

/-- CLZ is the place of the first one, from the top. -/
theorem leadingZeros_eq_findIdx (n : Nat) : leadingZeros n = (bitsOf n).reverse.findIdx id := by
  rw [leadingZeros, List.takeWhile_eq_take_findIdx_not, List.length_take, Nat.min_eq_left List.findIdx_le_length]
  simp only [Bool.not_not]
  rfl

theorem leadingZeros_le (n : Nat) : leadingZeros n ≤ 32 := by
  simpa [leadingZeros_eq_findIdx, bitsOf] using (List.findIdx_le_length (p := id) (xs := (bitsOf n).reverse))

theorem testBit_of_lt_leadingZeros {n k : Nat} (h : k < leadingZeros n) : n.testBit (31 - k) = false := by
  rw [leadingZeros_eq_findIdx] at h
  simpa [bitsOf] using List.not_of_lt_findIdx h

theorem testBit_leadingZeros {n : Nat} (h : leadingZeros n < 32) : n.testBit (31 - leadingZeros n) = true := by
  have h' : (bitsOf n).reverse.findIdx id < (bitsOf n).reverse.length := by simpa [leadingZeros_eq_findIdx, bitsOf] using h
  simpa [leadingZeros_eq_findIdx, bitsOf] using List.findIdx_getElem (w := h')

/-! Packed sums. -/

theorem byteElem_eq_elem {ty : Ty} (h : ty.bits = 8) (x : Word) (k : Nat) : byteElem ty.signed x.toNat k = elem ty x k := by
  rw [← readInt_elem, h, byteElem]

/-- Settles O3: the sums over the four bytes are written out, the counts read off the list of bits. -/
theorem packedSumsAndCounts : Obligations.PackedSumsAndCounts := by
  refine ⟨⟨entry_opx0 fun _ => ⟨rfl, rfl⟩, entry_opx0 fun _ => ⟨rfl, rfl⟩⟩, fun f s r hr hty => ?_, fun f s r hr => ⟨?_, ?_⟩⟩
  · have hb : f.ty.bits = 8 := by rcases hty with h | h <;> rw [h] <;> rfl
    have hf : f.ty.isFloat = false := by rcases hty with h | h <;> rw [h] <;> rfl
    constructor
    · refine wordwise_of hr (show exec (.idot4 f) s = execIdot4 f s from rfl) fun t => ?_
      simp only [hf, Bool.false_eq_true, if_false, natAt_srcLanes, byteElem_eq_elem hb, readInt_toNat]
      simp [List.range_succ, satOf, add_assoc]
    · refine ternary_writes hr (show exec (.isad f) s = execIsad f s from rfl) (fun _ _ _ => rfl) fun t => ?_
      have e (x : Nat → Nat) : ((List.range 4).map fun k => (x k : Int)).sum = ((x 0 + x 1 + x 2 + x 3 : Nat) : Int) := by
        simp [List.range_succ, add_assoc]
      simp only [plain, byteElem_eq_elem hb]
      rw [e, ofNat_wrapBits, BitVec.ofInt_add, BitVec.ofInt_natCast, BitVec.ofInt_natCast, BitVec.ofNat_toNat, BitVec.setWidth_eq]
  · refine unary_writes hr (show exec (.popc f) s = execPopc f s from rfl) (fun _ => rfl) fun t _ _ => ?_
    rw [← popCount_toNat]
    rfl
  · refine ⟨_, unary_writes hr (show exec (.clz f) s = execClz f s from rfl) (fun _ => rfl) fun t _ _ => rfl, fun t _ _ => ?_⟩
    have hz := leadingZeros_le (val s r f.opa t).toNat
    simp only [plain, BitVec.toNat_ofNat, Nat.mod_eq_of_lt (show leadingZeros (val s r f.opa t).toNat < 2 ^ 32 by omega)]
    refine ⟨hz, fun k hk hv => ?_, testBit_leadingZeros⟩
    have := testBit_of_lt_leadingZeros (n := (val s r f.opa t).toNat) (k := 31 - k) (by omega)
    rwa [show 31 - (31 - k) = k by omega] at this

end Sys2Proof.Claims
end

section
/-! Logic and shifts (R101, R102): the model's numbers are the bit vectors' own operations. -/

namespace Sys2Proof.Claims

open Machine

theorem ofNat_and_toNat (a b : Word) : BitVec.ofNat 32 (a.toNat &&& b.toNat) = a &&& b := by
  rw [← BitVec.toNat_and, BitVec.ofNat_toNat, BitVec.setWidth_eq]

theorem ofNat_or_toNat (a b : Word) : BitVec.ofNat 32 (a.toNat ||| b.toNat) = a ||| b := by
  rw [← BitVec.toNat_or, BitVec.ofNat_toNat, BitVec.setWidth_eq]

theorem ofNat_xor_toNat (a b : Word) : BitVec.ofNat 32 (a.toNat ^^^ b.toNat) = a ^^^ b := by
  rw [← BitVec.toNat_xor, BitVec.ofNat_toNat, BitVec.setWidth_eq]

/-- A truth table over three words, bit by bit (R101). -/
theorem getLsbD_ttWord (tt : BitVec 8) (a b c : Word) {k : Nat} (hk : k < 32) :
    (ttWord tt a b c).getLsbD k = tt.getLsbD (4 * (a.getLsbD k).toNat + 2 * (b.getLsbD k).toNat + (c.getLsbD k).toNat) :=
  getLsbD_maskOf _ hk

theorem shlNat_bits (a : Word) (n : Nat) : BitVec.ofNat 32 (shlNat a.toNat n).bits = a <<< min n 32 := by
  apply BitVec.eq_of_toNat_eq
  simp [shlNat, plain, BitVec.toNat_shiftLeft, Nat.shiftLeft_eq]

theorem shrNat_bits (a : Word) (n : Nat) : BitVec.ofNat 32 (shrNat a.toNat n).bits = a >>> min n 32 := by
  apply BitVec.eq_of_toNat_eq
  rw [BitVec.toNat_ushiftRight, Nat.shiftRight_eq_div_pow, BitVec.toNat_ofNat]
  exact Nat.mod_eq_of_lt ((Nat.div_le_self _ _).trans_lt a.isLt)

theorem sarNat_bits (a : Word) (n : Nat) : BitVec.ofNat 32 (sarNat a.toNat n).bits = a.sshiftRight (min n 32) := by
  rw [sarNat, plain, ofNat_wrapBits, readInt_toNat, asInt, if_pos rfl, BitVec.sshiftRight, Int.shiftRight_eq_div_pow]
  norm_cast

theorem toNat_append_words (a b : Word) : (a ++ b).toNat = a.toNat * 2 ^ 32 + b.toNat := by
  rw [BitVec.toNat_append, ← Nat.shiftLeft_add_eq_or_of_lt b.isLt, Nat.shiftLeft_eq]

theorem fshlNat_bits (a b : Word) (n : Nat) :
    BitVec.ofNat 32 (fshlNat a.toNat b.toNat n).bits = ((a ++ b) <<< min n 32).extractLsb' 32 32 := by
  apply BitVec.eq_of_toNat_eq
  simp only [fshlNat, plain, BitVec.toNat_ofNat, BitVec.extractLsb'_toNat, BitVec.toNat_shiftLeft, toNat_append_words,
    Nat.shiftRight_eq_div_pow, Nat.shiftLeft_eq]
  rw [show (2 : Nat) ^ (32 + 32) = 2 ^ 32 * 2 ^ 32 from rfl, Nat.mod_mul_right_div_self]

theorem fshrNat_bits (a b : Word) (n : Nat) :
    BitVec.ofNat 32 (fshrNat a.toNat b.toNat n).bits = ((a ++ b) >>> min n 32).extractLsb' 0 32 := by
  apply BitVec.eq_of_toNat_eq
  simp only [fshrNat, plain, BitVec.toNat_ofNat, BitVec.extractLsb'_toNat, BitVec.toNat_ushiftRight, toNat_append_words,
    Nat.shiftRight_eq_div_pow, Nat.pow_zero, Nat.div_one, Nat.mod_mod]

/-- A funnel shift of a pair by an immediate. -/
theorem funnelImm_writes {i : Instr} {f : Fields} {s : State} {r : Run} {g : Nat → Nat → Nat → Rounded} {v : Nat → Word} (hr : s.run = some r)
    (he : exec i s = funnelImm i f s g) (hf : ∀ a b c, (g a b c).flags = 0)
    (hv : ∀ t, BitVec.ofNat 32 (g (laneAt (partLanes s r f.opa 1) t).toNat (laneAt (partLanes s r f.opa 0) t).toNat (immWord r f).toNat).bits =
      v t) : writesWord i f f.dst s r v 0 :=
  writesWord_of hr he (fun _ => hf _ _ _) fun t _ _ => hv t

/-- Settles O4: each entry is a shape of sources with an operation on numbers that is the bit vectors' own. -/
theorem logicAndShifts : Obligations.LogicAndShifts := by
  refine ⟨⟨?_, ?_, ?_, ?_, ?_, ?_, fun _ => rfl, ?_, ?_, ?_, ?_, ?_, ?_, ?_, ?_, ?_, ?_⟩, fun f s r hr => ⟨?_, ?_, ?_, ?_, ?_, ?_, ?_⟩,
    fun f s r hr => ⟨?_, ?_, ?_, ?_, ?_, ?_, ?_, ?_, ?_, ?_⟩⟩
  iterate 16 exact entry_opx0 fun _ => ⟨rfl, rfl⟩
  · exact binary_writes hr (show exec (.andReg f) s = execAndReg f s from rfl) (fun _ _ => rfl) fun _ => ofNat_and_toNat _ _
  · exact immediate_writes hr (show exec (.andImm f) s = execAndImm f s from rfl) (fun _ _ => rfl) fun _ => ofNat_and_toNat _ _
  · exact binary_writes hr (show exec (.orReg f) s = execOrReg f s from rfl) (fun _ _ => rfl) fun _ => ofNat_or_toNat _ _
  · exact immediate_writes hr (show exec (.orImm f) s = execOrImm f s from rfl) (fun _ _ => rfl) fun _ => ofNat_or_toNat _ _
  · exact binary_writes hr (show exec (.xorReg f) s = execXorReg f s from rfl) (fun _ _ => rfl) fun _ => ofNat_xor_toNat _ _
  · exact immediate_writes hr (show exec (.xorImm f) s = execXorImm f s from rfl) (fun _ _ => rfl) fun _ => ofNat_xor_toNat _ _
  · refine ⟨fun t => ttWord f.tt (val s r f.opa t) (val s r f.opb t) (val s r f.opc t),
      ternary_writes hr (show exec (.tern f) s = execTern f s from rfl) (fun _ _ _ => rfl) fun t => ?_, fun t _ _ k hk => getLsbD_ttWord _ _ _ _ hk⟩
    simp [plain]
  · exact binary_writes hr (show exec (.shlReg f) s = execShlReg f s from rfl) (fun _ _ => rfl) fun _ => shlNat_bits _ _
  · exact immediate_writes hr (show exec (.shlImm f) s = execShlImm f s from rfl) (fun _ _ => rfl) fun _ => shlNat_bits _ _
  · exact binary_writes hr (show exec (.shrReg f) s = execShrReg f s from rfl) (fun _ _ => rfl) fun _ => shrNat_bits _ _
  · exact immediate_writes hr (show exec (.shrImm f) s = execShrImm f s from rfl) (fun _ _ => rfl) fun _ => shrNat_bits _ _
  · exact binary_writes hr (show exec (.sarReg f) s = execSarReg f s from rfl) (fun _ _ => rfl) fun _ => sarNat_bits _ _
  · exact immediate_writes hr (show exec (.sarImm f) s = execSarImm f s from rfl) (fun _ _ => rfl) fun _ => sarNat_bits _ _
  · exact ternary_writes hr (show exec (.fshlReg f) s = execFshlReg f s from rfl) (fun _ _ _ => rfl) fun _ => fshlNat_bits _ _ _
  · exact funnelImm_writes hr (show exec (.fshlImm f) s = execFshlImm f s from rfl) (fun _ _ _ => rfl) fun _ => fshlNat_bits _ _ _
  · exact ternary_writes hr (show exec (.fshrReg f) s = execFshrReg f s from rfl) (fun _ _ _ => rfl) fun _ => fshrNat_bits _ _ _
  · exact funnelImm_writes hr (show exec (.fshrImm f) s = execFshrImm f s from rfl) (fun _ _ _ => rfl) fun _ => fshrNat_bits _ _ _

end Sys2Proof.Claims
end

section
/-! Bit fields (R103), bit by bit. -/

namespace Sys2Proof.Claims

open Machine

theorem fieldOf_toNat (d : Word) : fieldOf d.toNat = (fieldPos d, fieldLen d) := by
  simp only [fieldOf, fieldPos, fieldLen, BitVec.extractLsb'_toNat, Nat.shiftRight_eq_div_pow, Nat.pow_zero, Nat.div_one]

theorem brevNat_bit (a : Word) {k : Nat} (hk : k < 32) : (BitVec.ofNat 32 (brevNat a.toNat)).getLsbD k = a.getLsbD (31 - k) := by
  rw [brevNat, BitVec.ofNat_toNat, BitVec.setWidth_eq, getLsbD_maskOf _ hk, BitVec.testBit_toNat]

/-- The low l bits of a shifted word, extended to 32 by a signedness. -/
theorem getLsbD_ofInt_asInt (signed : Bool) {l : Nat} (x : BitVec l) {k : Nat} (hk : k < 32) :
    (BitVec.ofInt 32 (asInt signed x)).getLsbD k = if k < l then x.getLsbD k else signed && x.msb := by
  cases signed
  · rw [asInt, if_neg Bool.false_ne_true, BitVec.ofInt_natCast, BitVec.getLsbD_ofNat]
    by_cases h : k < l
    · rw [if_pos h]; simp [hk, BitVec.testBit_toNat]
    · rw [if_neg h]; simp [BitVec.testBit_toNat, BitVec.getLsbD_of_ge x k (by omega)]
  · rw [asInt, if_pos rfl, ← BitVec.signExtend, BitVec.getLsbD_signExtend]
    simp [hk]

theorem bfxNat_bit (signed : Bool) (a d : Word) {k : Nat} (hk : k < 32) :
    (BitVec.ofNat 32 (bfxNat signed a.toNat d.toNat).bits).getLsbD k = bfxBit signed a d k := by
  simp only [bfxNat, fieldOf_toNat]
  by_cases hl : fieldLen d = 0
  · simp [hl, plain, bfxBit]
  · rw [if_neg hl, plain, ofNat_wrapBits, readInt_eq_asInt, getLsbD_ofInt_asInt _ _ hk, bfxBit, ofNat_div_eq_extractLsb']
    by_cases h : k < fieldLen d
    · simp [h]
    · have e : fieldPos d + (fieldLen d - 1) = fieldPos d + fieldLen d - 1 := by omega
      simp [h, BitVec.msb_eq_getLsbD_last, e, Nat.pos_of_ne_zero hl]

theorem bfiNat_bit (a b d : Word) {k : Nat} (hk : k < 32) :
    (BitVec.ofNat 32 (bfiNat a.toNat b.toNat d.toNat).bits).getLsbD k = bfiBit a b d k := by
  have lo : b.toNat % 2 ^ fieldPos d < 2 ^ fieldPos d := Nat.mod_lt _ (Nat.two_pow_pos _)
  have mid : a.toNat % 2 ^ fieldLen d < 2 ^ fieldLen d := Nat.mod_lt _ (Nat.two_pow_pos _)
  have e : b.toNat / 2 ^ (fieldPos d + fieldLen d) * 2 ^ (fieldPos d + fieldLen d) + a.toNat % 2 ^ fieldLen d * 2 ^ fieldPos d +
      b.toNat % 2 ^ fieldPos d = 2 ^ fieldPos d * (2 ^ fieldLen d * (b.toNat / 2 ^ (fieldPos d + fieldLen d)) + a.toNat % 2 ^ fieldLen d) +
        b.toNat % 2 ^ fieldPos d := by
    rw [Nat.pow_add]; ring
  simp only [bfiNat, fieldOf_toNat, plain, e, BitVec.getLsbD_ofNat, hk, decide_true, Bool.true_and]
  rw [Nat.testBit_two_pow_mul_add _ lo, bfiBit]
  by_cases h0 : k < fieldPos d
  · rw [if_pos h0, if_neg (by omega), Nat.testBit_mod_two_pow]
    simp [h0, BitVec.testBit_toNat]
  · rw [if_neg h0, Nat.testBit_two_pow_mul_add _ mid]
    by_cases h1 : k < fieldPos d + fieldLen d
    · rw [if_pos (by omega), if_pos (by omega), Nat.testBit_mod_two_pow]
      simp [show k - fieldPos d < fieldLen d by omega, BitVec.testBit_toNat]
    · rw [if_neg (by omega), if_neg (by omega), Nat.testBit_div_two_pow, BitVec.testBit_toNat]
      congr 1
      omega

theorem decide_le_toNat_nibble : ∀ n : BitVec 4, n.getLsbD 3 = decide (8 ≤ n.toNat) := by decide

theorem decide_le_toNat_byte : ∀ x : Byte, x.getLsbD 7 = decide (128 ≤ x.toNat) := by decide

/-- PERM's byte k. -/
theorem permByte_eq_toNat (a b c : Word) (k : Nat) : permByte a.toNat b.toNat c.toNat k = (permOf a b c k).toNat := by
  have hn : c.toNat / 2 ^ (4 * k) % 16 = (c.extractLsb' (4 * k) 4).toNat := by
    rw [BitVec.extractLsb'_toNat, Nat.shiftRight_eq_div_pow]
  have hx (o : Nat) : (a.toNat + b.toNat * 2 ^ 32) / 2 ^ o % 256 = ((b ++ a).extractLsb' o 8).toNat := by
    rw [BitVec.extractLsb'_toNat, Nat.shiftRight_eq_div_pow, toNat_append_words, Nat.add_comm]
  have h3 (n : BitVec 4) : (n.extractLsb' 0 3).toNat = n.toNat % 8 := by
    rw [BitVec.extractLsb'_toNat, Nat.shiftRight_zero]
  simp only [permByte, permOf, hn, hx, h3, decide_le_toNat_nibble, decide_le_toNat_byte]
  generalize c.extractLsb' (4 * k) 4 = n
  generalize (b ++ a).extractLsb' (8 * (n.toNat % 8)) 8 = x
  by_cases h : n.toNat < 8
  · simp [h, Nat.not_le.mpr h]
  · by_cases h' : 128 ≤ x.toNat <;> simp [h, h', Nat.le_of_not_lt h]

theorem ofNat_bytes (x0 x1 x2 x3 : Byte) :
    BitVec.ofNat 32 (x0.toNat + 2 ^ 8 * x1.toNat + 2 ^ 16 * x2.toNat + 2 ^ 24 * x3.toNat) = x3 ++ x2 ++ x1 ++ x0 := by
  have app {w : Nat} (x : BitVec w) (y : Byte) : (x ++ y).toNat = x.toNat * 2 ^ 8 + y.toNat := by
    rw [BitVec.toNat_append, ← Nat.shiftLeft_add_eq_or_of_lt y.isLt, Nat.shiftLeft_eq]
  apply BitVec.eq_of_toNat_eq
  rw [BitVec.toNat_ofNat, app, app, app]
  omega

/-- Settles O5: each result is its row's number, whose bits the lemmas above name. -/
theorem bitFields : Obligations.BitFields := by
  refine ⟨⟨?_, ?_, ?_, ?_, ?_, ?_⟩, fun f s r hr => ?_⟩
  iterate 6 exact entry_opx0 fun _ => ⟨rfl, rfl⟩
  have bfx (a d : Nat) : (bfxNat f.ty.signed a d).flags = 0 := by
    simp only [bfxNat]
    split <;> rfl
  refine ⟨⟨_, unary_writes hr (show exec (.brev f) s = execBrev f s from rfl) (fun _ => rfl) fun _ _ _ => rfl, fun t _ k => brevNat_bit _⟩,
    ⟨_, binary_writes hr (show exec (.bfxReg f) s = execBfxReg f s from rfl) bfx fun _ => rfl, fun t _ k => bfxNat_bit _ _ _⟩,
    ⟨_, immediate_writes hr (show exec (.bfxImm f) s = execBfxImm f s from rfl) bfx fun _ => rfl, fun t _ k => bfxNat_bit _ _ _⟩,
    ⟨_, ternary_writes hr (show exec (.bfiReg f) s = execBfiReg f s from rfl) (fun _ _ _ => rfl) fun _ => rfl, fun t _ k => bfiNat_bit _ _ _⟩,
    ⟨_, writesWord_of hr (show exec (.bfiImm f) s = execBfiImm f s from rfl) (fun _ => rfl) fun _ _ _ => rfl, fun t _ k => bfiNat_bit _ _ _⟩,
    ternary_writes hr (show exec (.perm f) s = execPerm f s from rfl) (fun _ _ _ => rfl) fun t => ?_⟩
  simp only [plain, permByte_eq_toNat]
  exact ofNat_bytes _ _ _ _

end Sys2Proof.Claims
end

section
/-! Moves between registers and predicates (R104). -/

namespace Sys2Proof.Claims

open Machine

theorem ofNat_val (s : State) (r : Run) (c : BitVec 8) (t : Nat) : BitVec.ofNat 32 (val s r c t).toNat = val s r c t := by
  rw [BitVec.ofNat_toNat, BitVec.setWidth_eq]

/-- V2P's predicates, written one after the other: those from d on take the bits, the others stay. -/
theorem foldl_writePred (w : Run) (d : Nat) (m : Mask) (v : Nat → Mask) {n : Nat} (hn : d + n ≤ 64) : ∃ preds,
    (List.range n).foldl (fun r k => writePred r (d + k) m (v k)) w = { w with work := { w.work with preds } } ∧
      preds.length = w.work.preds.length ∧ ∀ q t, q < preds.length → t < threads → (preds.getD q 0).getLsbD t =
        if m.getLsbD t = true ∧ d ≤ q ∧ q < d + n then (v (q - d)).getLsbD t else (w.work.preds.getD q 0).getLsbD t := by
  induction n with
  | zero => exact ⟨w.work.preds, rfl, rfl, fun q t _ _ => (if_neg fun h => by omega).symm⟩
  | succ n ih =>
    obtain ⟨preds, he, hlen, hbits⟩ := ih (by omega)
    obtain ⟨x, hx, hxbits⟩ := writePred_wrote { w with work := { w.work with preds } } (d + n) m (v n) (by omega)
    refine ⟨preds.set (d + n) x, ?_, (List.length_set ..).trans hlen, fun q t hq ht => ?_⟩
    · rw [List.range_succ, List.foldl_append, he]
      exact hx
    · rw [List.length_set] at hq
      by_cases e : q = d + n
      · subst e
        rw [List.getD_eq_getElem?_getD, List.getElem?_set_self hq, Option.getD_some, hxbits t ht, Nat.add_sub_cancel_left]
        refine if_congr ⟨fun hm => ⟨hm, by omega, by omega⟩, And.left⟩ rfl ?_
        exact (hbits _ t hq ht).trans (if_neg fun h => by omega)
      · rw [List.getD_eq_getElem?_getD, List.getElem?_set_ne (Ne.symm e), ← List.getD_eq_getElem?_getD, hbits q t hq ht]
        exact if_congr (and_congr_right fun _ => by omega) rfl rfl

theorem mov_modRow : modRow .mov 0x2E [.none, .n64] opx0 := by
  refine fun f => ⟨rfl, ?_⟩
  simp only [Instr.shape, Option.map_some]
  by_cases h : f.ty = .n64 <;> simp [h, Shape.a, tyIn]

/-- Settles O6: V2P by induction on the predicates it writes, the rest as plain results. -/
theorem moves : Obligations.Moves := by
  refine ⟨⟨entry_opx0 fun _ => ⟨rfl, rfl⟩, entry_opx0 mov_modRow, entry_opx0 fun _ => ⟨rfl, rfl⟩, entry_opx0 fun _ => ⟨rfl, rfl⟩,
    entry_opx0 fun _ => ⟨rfl, rfl⟩, fun f h => ?_, fun f h => ?_, fun f h => ?_⟩, fun f s r hr => ⟨?_, fun h => ?_, fun h => ?_, ?_, ?_, fun hd => ?_⟩⟩
  · simpa [Shape.a, Use.reserved] using (wellFormed_shape (i := .sel f) rfl rfl h).2.2.2
  · simpa [Shape.b, Use.reserved] using (wellFormed_shape (i := .movi f) rfl rfl h).2.1
  · simpa [Shape.a, Use.reserved] using (wellFormed_shape (i := .p2v f) rfl rfl h).2.1
  · refine writesWord_of hr (show exec (.sel f) s = execSel f s from rfl) (fun _ => rfl) fun t _ _ => ?_
    exact (apply_ite (BitVec.ofNat 32) _ _ _).trans (if_congr Iff.rfl (ofNat_val _ _ _ _) (ofNat_val _ _ _ _))
  · have he : exec (.mov f) s = unary (.mov f) f s plain := by
      change execMov f s = _
      simp only [execMov, h, if_false, unary]
    exact unary_writes hr he (fun _ => rfl) fun _ _ _ => ofNat_val _ _ _ _
  · have he : exec (.mov f) s = vector (.mov f) f s fun rd wr m => writeWide s wr f.dst m fun t => plain (pairAt s rd f.opa t) := by
      change execMov f s = _
      simp only [execMov, h, if_true]
    refine writesPair_of (g := fun rd _ t => plain (pairAt s rd f.opa t)) hr he (fun t _ _ => ?_) (flagsOf_results_zero _ _ fun _ => rfl)
    rw [plain, ← toNat_pairVal, BitVec.ofNat_toNat, BitVec.setWidth_eq]
  · refine writesWord_of hr (show exec (.movi f) s = execMovi f s from rfl) (fun _ => rfl) fun t _ _ => ?_
    simp [plain]
  · refine ⟨_, writesWord_of hr (show exec (.p2v f) s = execP2v f s from rfl) (fun _ => rfl) fun t _ _ => rfl, fun t _ _ k hk => ?_⟩
    simp only [plain, BitVec.ofNat_toNat, BitVec.setWidth_eq, getLsbD_maskOf _ hk, predBits]
    by_cases h : f.opa.toNat + k < 64
    · simp [h, Nat.le_of_lt_succ h, Nat.mod_eq_of_lt h]
    · simp [h, show ¬f.opa.toNat + k ≤ 63 by omega]
  · obtain ⟨preds, he, hlen, hbits⟩ := foldl_writePred (noteReads s (.v2p f) r) f.dst.toNat (active r f)
      (fun k => maskOf fun t => (val s r f.opa t).getLsbD k) (n := min 32 (64 - f.dst.toNat)) (by omega)
    refine ⟨preds, ⟨_, (show exec (.v2p f) s = execV2p f s from rfl).trans (vector_ok hr (congrArg Except.ok he)), nextWord_goesOn _ _⟩, hlen,
      fun n t hn hq ht => ?_⟩
    rw [hbits n t hq ht, getLsbD_maskOf _ ht]
    exact if_congr (and_congr_right fun _ => by omega) rfl rfl

end Sys2Proof.Claims
end

section
/-! Compares and predicate logic (R105, R106): the bits of the predicate that is written. -/

namespace Sys2Proof.Claims

open Machine

theorem predBits_getLsbD (w : Swarm) (n t : Nat) : (predBits w n).getLsbD t = (w.preds.getD (n % 64) 0).getLsbD t := rfl

theorem getLsbD_combine (f : Fields) (old cmp : Mask) (t : Nat) :
    (combine f old cmp).getLsbD t = combined f (old.getLsbD t) (cmp.getLsbD t) := by
  unfold combine combined
  generalize (f.opx.extractLsb' 3 2).toNat = comb
  match comb with
  | 0 => rfl
  | 1 => exact BitVec.getLsbD_and
  | 2 => exact BitVec.getLsbD_or
  | _ + 3 => rfl

theorem intCond_eq_compares (cond : Nat) (a b : Int) : intCond cond a b = compares cond a b := by
  match cond with
  | 0 => exact (beq_eq_decide a b).symm
  | 1 => simp [intCond, compares, bne, beq_eq_decide]
  | 2 | 3 | 4 => rfl
  | _ + 5 => rfl

/-- A vector instruction that writes a predicate and raises no flag. -/
theorem predicate_writes {i : Instr} {f : Fields} {s : State} {r : Run} {x : Run → Mask} {v : Nat → Bool} (hr : s.run = some r)
    (he : exec i s = vector i f s fun rd wr m => .ok (writePred wr f.dst.toNat m (x rd)))
    (hv : ∀ t, t < threads → (x r).getLsbD t = v t) : writesPred i f f.dst s r v 0 :=
  writesPred_of hr he (by rw [raise_zero]) fun t ht _ => hv t ht

/-- Settles O7: the bits of the mask that each entry hands to the predicate write. -/
theorem comparesAndPredicateLogic : Obligations.ComparesAndPredicateLogic := by
  refine ⟨fun f => ⟨rfl, fun h => ?_⟩, fun f s r hr => ⟨fun hty => ?_, fun hty => ?_, ?_, ?_⟩⟩
  · obtain ⟨hm, ha, hb, hc⟩ := wellFormed_shape (i := .plop f) rfl rfl h
    simpa [Shape.a, Use.reserved, and_assoc] using And.intro ha (And.intro hb (And.intro hc hm))
  · have hw : f.ty.wide = false := by
      simp only [Shape.int32, List.mem_cons, List.not_mem_nil, or_false] at hty
      rcases hty with h | h <;> rw [h] <;> rfl
    refine predicate_writes hr (show exec (.icmp f) s = execIcmp f s from rfl) fun t ht => ?_
    rw [getLsbD_combine, getLsbD_maskOf _ ht, intCond_eq_compares]
    simp only [hw, Bool.false_eq_true, if_false, bits_eq_32 hty, natAt_srcLanes, readInt_toNat, predBits_getLsbD]
  · have hw : f.ty.wide = true := by rcases hty with h | h <;> rw [h] <;> rfl
    have hb : f.ty.bits = 64 := by rcases hty with h | h <;> rw [h] <;> rfl
    refine predicate_writes hr (show exec (.icmp f) s = execIcmp f s from rfl) fun t ht => ?_
    rw [getLsbD_combine, getLsbD_maskOf _ ht, intCond_eq_compares]
    simp only [hw, if_true, hb, ← toNat_pairVal, readInt_toNat, predBits_getLsbD]
  · refine writesPred_of hr (show exec (.fcmp f) s = execFcmp f s from rfl) rfl fun t ht _ => ?_
    rw [getLsbD_combine, getLsbD_maskOf _ ht]
    rfl
  · exact predicate_writes hr (show exec (.plop f) s = execPlop f s from rfl) fun t ht => getLsbD_ttWord _ _ _ _ ht

end Sys2Proof.Claims
end

section
/-! Operations across the threads of a swarm (R114 to R116): PICK's source, PGATH's forms, and SRED's tree as a fold. -/

namespace Sys2Proof.Claims

open Machine

/-! PICK. -/

theorem add_sub_mod_eq_toNat {t n m : Nat} (hm : m % 32 = 0) (hn : n < m) : (t + m - n) % 32 = (((t : Int) - n) % 32).toNat := by
  omega

theorem pickFrom_eq_pickSource (rule t : Nat) {n : Nat} (hn : n < 2 ^ 32) : pickFrom rule t n = pickSource rule t n := by
  unfold pickFrom pickSource
  split
  · rfl
  · exact add_sub_mod_eq_toNat (by norm_num) hn
  · rfl
  · next h0 h1 h2 =>
    have hr : rule ≠ 0 ∧ rule ≠ 1 ∧ rule ≠ 2 := ⟨h0, h1, h2⟩
    obtain ⟨k, rfl⟩ : ∃ k, rule = k + 3 := ⟨rule - 3, by omega⟩
    rfl

/-! PGATH. -/

section Gather

variable (p m : Mask)

theorem and_eq_right_iff : p &&& m = m ↔ ∀ t, t < threads ∧ m.getLsbD t = true → p.getLsbD t = true := by
  refine ⟨fun h t ht => ?_, fun h => BitVec.eq_of_getLsbD_eq fun t ht => ?_⟩
  · have := ht.2
    rw [← h, BitVec.getLsbD_and, Bool.and_eq_true] at this
    exact this.1
  · rw [BitVec.getLsbD_and]
    cases hm : m.getLsbD t
    · exact Bool.and_false _
    · rw [h t ⟨ht, hm⟩]; rfl

theorem and_eq_zero_iff : p &&& m = 0 ↔ ∀ t, t < threads ∧ m.getLsbD t = true → p.getLsbD t = false := by
  refine ⟨fun h t ht => ?_, fun h => BitVec.eq_of_getLsbD_eq fun t ht => ?_⟩
  · have := congrArg (fun x => x.getLsbD t) h
    simpa [ht.2] using this
  · rw [BitVec.getLsbD_and]
    cases hm : m.getLsbD t
    · simp
    · rw [h t ⟨ht, hm⟩]; simp

/-- PGATH.EQ (R115): all of the active threads' bits are 1, or none is. -/
theorem and_uniform_iff : (p &&& m = m ∨ p &&& m = 0) ↔
    ∀ t u, t < threads ∧ m.getLsbD t = true → u < threads ∧ m.getLsbD u = true → p.getLsbD t = p.getLsbD u := by
  rw [and_eq_right_iff, and_eq_zero_iff]
  constructor
  · rintro (h | h) t u ht hu <;> rw [h t ht, h u hu]
  · intro h
    by_cases h1 : ∀ t, t < threads ∧ m.getLsbD t = true → p.getLsbD t = true
    · exact .inl h1
    · obtain ⟨u, hu, hp⟩ := not_forall₂.mp h1
      exact .inr fun t ht => (h t u ht hu).trans (Bool.eq_false_iff.mpr hp)

theorem ofNat_bit_eq_one_iff (c : Prop) [Decidable c] : (BitVec.ofNat 32 (if c then 1 else 0) = 1 ∨ BitVec.ofNat 32 (if c then 1 else 0) = 0) ∧
    (BitVec.ofNat 32 (if c then 1 else 0) = 1 ↔ c) := by
  by_cases h : c <;> simp [h]

theorem ones_and : ones (p &&& m) = ((List.range threads).filter fun t => m.getLsbD t && p.getLsbD t).length := by
  have e : (p &&& m).getLsbD = fun t => m.getLsbD t && p.getLsbD t := funext fun t => by rw [BitVec.getLsbD_and, Bool.and_comm]
  rw [ones, e]

end Gather

/-! SRED. -/

/-- The combinations of R116's table on integers. -/
def redWord (signed : Bool) (op : Nat) (x y : Word) : Word :=
  match op with
  | 0 => x + y
  | 1 => if asInt signed y < asInt signed x then y else x
  | 2 => if asInt signed x < asInt signed y then y else x
  | 3 => x &&& y
  | 4 => x ||| y
  | _ => x ^^^ y

theorem redCombine_toNat {ty : Ty} (h : ty ≠ .f32) (op : Nat) (c : FCtx) (x y : Word) :
    redCombine ty op c x.toNat y.toNat = plain (redWord ty.signed op x y).toNat := by
  match op with
  | 0 => exact (if_neg h).trans (congrArg plain (BitVec.toNat_add x y).symm)
  | 1 =>
    refine (if_neg h).trans (congrArg plain ?_)
    simp only [readInt_toNat, decide_eq_true_eq, redWord, apply_ite BitVec.toNat]
  | 2 =>
    refine (if_neg h).trans (congrArg plain ?_)
    simp only [readInt_toNat, decide_eq_true_eq, redWord, apply_ite BitVec.toNat]
  | 3 => exact (if_neg h).trans (congrArg plain (BitVec.toNat_and x y).symm)
  | 4 => exact (if_neg h).trans (congrArg plain (BitVec.toNat_or x y).symm)
  | _ + 5 => exact (if_neg h).trans (congrArg plain (BitVec.toNat_xor x y).symm)

theorem redWord_assoc (signed : Bool) (op : Nat) (x y z : Word) :
    redWord signed op (redWord signed op x y) z = redWord signed op x (redWord signed op y z) := by
  match op with
  | 0 => exact BitVec.add_assoc x y z
  | 1 => simp only [redWord]; grind
  | 2 => simp only [redWord]; grind
  | 3 => exact BitVec.and_assoc x y z
  | 4 => exact BitVec.or_assoc x y z
  | _ + 5 => exact BitVec.xor_assoc x y z

/-- A fold of a list that is not empty, from its first member. -/
def fold1 (h : Word → Word → Word) : List Word → Word
  | [] => 0
  | x :: xs => xs.foldl h x

section Tree

variable {h : Word → Word → Word} {op : Nat → Nat → Nat → Nat → Rounded}

/-- Terms of the tree: an index and a word each. -/
def wordTerms (ws : List (Nat × Word)) : List (Nat × Nat) := ws.map fun x => (x.1, x.2.toNat)

theorem wordTerms_cons (x : Nat × Word) (ws : List (Nat × Word)) : wordTerms (x :: ws) = (x.1, x.2.toNat) :: wordTerms ws := rfl

/-- A level of the tree combines terms to terms that an associative operation folds to the same word. -/
theorem treeLevel_wordTerms (assoc : ∀ x y z, h (h x y) z = h x (h y z)) {o : Nat → Nat → Nat → Rounded}
    (ho : ∀ i (x y : Word), o i x.toNat y.toNat = plain (h x y).toNat) : ∀ ws : List (Nat × Word), ∃ us, treeLevel o (wordTerms ws) =
      (wordTerms us, 0) ∧ us.length = (ws.length + 1) / 2 ∧ ∀ a, (us.map Prod.snd).foldl h a = (ws.map Prod.snd).foldl h a
  | [] => ⟨[], rfl, rfl, fun _ => rfl⟩
  | [x] => ⟨[x], rfl, by simp, fun _ => rfl⟩
  | x :: y :: rest => by
    obtain ⟨us, he, hl, hf⟩ := treeLevel_wordTerms assoc ho rest
    refine ⟨(x.1, h x.2 y.2) :: us, ?_, ?_, fun a => ?_⟩
    · simp [wordTerms_cons, treeLevel, he, ho, plain]
    · simp only [List.length_cons, hl]; omega
    · simp only [List.map_cons, List.foldl_cons, hf, assoc]

/-- R64: the index tree of an associative operation is the fold of its terms. -/
theorem indexTree_wordTerms (assoc : ∀ x y z, h (h x y) z = h x (h y z))
    (ho : ∀ l i (x y : Word), op l i x.toNat y.toNat = plain (h x y).toNat) (k l : Nat) (w : Nat × Word) (ws : List (Nat × Word))
    (hk : ws.length < 2 ^ k) : indexTree op k l (wordTerms (w :: ws)) 0 = some ((fold1 h ((w :: ws).map Prod.snd)).toNat, 0) := by
  induction k generalizing l w ws with
  | zero =>
    obtain rfl : ws = [] := by simpa using hk
    rfl
  | succ k ih =>
    cases ws with
    | nil => rfl
    | cons y rest =>
      obtain ⟨us, he, hl, hf⟩ := treeLevel_wordTerms assoc (ho l) rest
      have step : indexTree op (k + 1) l (wordTerms (w :: y :: rest)) 0 = indexTree op k (l + 1) (wordTerms ((w.1, h w.2 y.2) :: us)) 0 := by
        simp [wordTerms_cons, indexTree, treeLevel, ho, plain, he]
      rw [step, ih]
      · simp only [fold1, List.map_cons, List.foldl_cons, hf]
      · rw [List.length_cons, Nat.pow_succ] at hk
        omega

end Tree

/-- SRED of integers (R116): the fold of the terms by the combination that OP selects. -/
theorem reduce_wordTerms {s : State} {r : Run} {f : Fields} (hty : f.ty ≠ .f32) (hx : f.opx.getLsbD 3 = false) (ws : List (Nat × Word))
    (hlen : ws.length ≤ 2 ^ 32) : reduce s r f (wordTerms ws) = plain (fold1 (redWord f.ty.signed (redOp f)) (ws.map Prod.snd)).toNat := by
  rw [reduce, if_neg (by rw [redX, hx]; decide)]
  · cases ws with
    | nil => rfl
    | cons w ws =>
      rw [indexTree_wordTerms (redWord_assoc f.ty.signed (redOp f)) (fun _ _ _ _ => redCombine_toNat hty _ _ _ _) 32 0 w ws
        (Nat.lt_of_succ_le hlen)]
      rfl
  · exact fun _ _ h => hty h

theorem fold1_eq_foldl {h : Word → Word → Word} {e : Word} (he : ∀ x, h e x = x) {xs : List Word} (hx : xs ≠ [] ∨ e = 0) :
    fold1 h xs = xs.foldl h e := by
  cases xs with
  | nil => exact (hx.resolve_left (not_not_intro rfl)).symm
  | cons x xs => rw [fold1, List.foldl_cons, he]

/-- A fold by an operation that selects one of two words by a preorder selects a least word. -/
theorem fold1_select {h : Word → Word → Word} {le : Word → Word → Prop} (refl : ∀ x, le x x) (trans : ∀ x y z, le x y → le y z → le x z)
    (sel : ∀ x y, (h x y = x ∨ h x y = y) ∧ le (h x y) x ∧ le (h x y) y) {xs : List Word} (hx : xs ≠ []) :
    fold1 h xs ∈ xs ∧ ∀ y ∈ xs, le (fold1 h xs) y := by
  obtain ⟨x, xs, rfl⟩ := List.exists_cons_of_ne_nil hx
  change xs.foldl h x ∈ x :: xs ∧ ∀ y ∈ x :: xs, le (xs.foldl h x) y
  clear hx
  induction xs generalizing x with
  | nil => simp [refl]
  | cons z xs ih =>
    obtain ⟨hs, hl, hr⟩ := sel x z
    obtain ⟨hm, hle⟩ := ih (h x z)
    have first := hle _ (List.mem_cons_self ..)
    refine ⟨?_, fun y hy => ?_⟩
    · rw [List.foldl_cons]
      rcases List.mem_cons.mp hm with e | e
      · rcases hs with hs | hs <;> rw [e, hs] <;> simp
      · simp [e]
    · rcases List.mem_cons.mp hy with rfl | hy
      · exact trans _ _ _ first hl
      · rcases List.mem_cons.mp hy with rfl | hy
        · exact trans _ _ _ first hr
        · exact hle y (List.mem_cons_of_mem _ hy)

theorem redWord_min (signed : Bool) (x y : Word) : (redWord signed 1 x y = x ∨ redWord signed 1 x y = y) ∧
    asInt signed (redWord signed 1 x y) ≤ asInt signed x ∧ asInt signed (redWord signed 1 x y) ≤ asInt signed y := by
  rw [redWord]
  split <;> simp <;> omega

theorem redWord_max (signed : Bool) (x y : Word) : (redWord signed 2 x y = x ∨ redWord signed 2 x y = y) ∧
    asInt signed x ≤ asInt signed (redWord signed 2 x y) ∧ asInt signed y ≤ asInt signed (redWord signed 2 x y) := by
  rw [redWord]
  split <;> simp <;> omega

/-- The values of a in the active threads, lowest first. -/
def activeVals (s : State) (r : Run) (f : Fields) : List Word :=
  ((List.range threads).filter fun t => (active r f).getLsbD t).map (val s r f.opa)

theorem mem_activeVals {s : State} {r : Run} {f : Fields} {v : Word} :
    v ∈ activeVals s r f ↔ ∃ t, (t < threads ∧ (active r f).getLsbD t = true) ∧ v = val s r f.opa t := by
  simp only [activeVals, List.mem_map, List.mem_filter, List.mem_range, eq_comm]

theorem activeVals_ne_nil (s : State) {r : Run} {f : Fields} (h : ∃ t, t < threads ∧ (active r f).getLsbD t = true) : activeVals s r f ≠ [] := by
  obtain ⟨t, ht⟩ := h
  exact List.ne_nil_of_mem (mem_activeVals.mpr ⟨t, ht, rfl⟩)

/-- SRED of integers writes the fold of the active threads' values. -/
theorem sred_writes {f : Fields} {s : State} {r : Run} (hr : s.run = some r) (hty : f.ty ∈ Shape.int32) (hx : f.opx.getLsbD 3 = false) :
    writesWord (.sred f) f f.dst s r (fun _ => fold1 (redWord f.ty.signed (redOp f)) (activeVals s r f)) 0 := by
  have hne : f.ty ≠ .f32 := fun h => absurd (h ▸ hty) (by decide)
  have hred := reduce_wordTerms (s := s) (r := r) hne hx
    (((List.range threads).filter fun t => (active r f).getLsbD t).map fun t => (t, val s r f.opa t)) (by
      rw [List.length_map]
      exact (List.length_filter_le ..).trans (by rw [List.length_range]; norm_num))
  rw [wordTerms, List.map_map, List.map_map] at hred
  refine writesWord_of hr (show exec (.sred f) s = execSred f s from rfl) (fun _ => congrArg Rounded.flags hred) fun t _ _ => ?_
  have e := congrArg (fun x : Rounded => BitVec.ofNat 32 x.bits) hred
  simp only [plain, BitVec.ofNat_toNat, BitVec.setWidth_eq] at e
  exact e

/-- Settles O8: SRED's tree is a fold, since its operations on integers are associative. -/
theorem acrossThreads : Obligations.AcrossThreads := by
  refine ⟨⟨entry_of_modRow (ok := fun f => f.opx.toNat ≤ 3) (fun f h => Nat.lt_succ_of_le (of_decide_eq_true h)) fun _ => ⟨rfl, rfl⟩,
    entry_of_modRow (ok := fun f => f.opx.toNat ≤ 4) (fun f h => Nat.lt_succ_of_le (of_decide_eq_true h)) fun _ => ⟨rfl, rfl⟩,
    fun f h => ?_⟩, fun f s r hr => ⟨?_, ?_⟩, fun f s r hr => ⟨fun hty hx hop => ?_, fun hty => ?_⟩⟩
  · simpa [Shape.a, Use.reserved] using (wellFormed_shape (i := .pgath f) rfl rfl h).2.1
  · refine writesWord_of hr (show exec (.pick f) s = execPick f s from rfl) (fun _ => rfl) fun t _ _ => ?_
    simp only [plain, natAt_srcLanes, pickFrom_eq_pickSource _ _ (BitVec.isLt _), mskValue]
    cases hm : r.msk <;> exact (apply_ite (BitVec.ofNat 32) _ _ _).trans (if_congr Iff.rfl (ofNat_val _ _ _ _) (ofNat_val _ _ _ _))
  · refine ⟨BitVec.ofNat 32 (gathered (f.opx.extractLsb' 0 3).toNat (predBits r.work f.opa.toNat) (active r f)),
      writesWord_of hr (show exec (.pgath f) s = execPgath f s from rfl) (fun _ => rfl) fun _ _ _ => rfl, ?_, ?_, ?_, ?_, ?_⟩
    · intro h
      rw [h]
      refine (ofNat_bit_eq_one_iff _).imp_right fun e => e.trans (and_eq_right_iff _ _)
    · intro h
      rw [h]
      refine (ofNat_bit_eq_one_iff _).imp_right fun e => e.trans ?_
      rw [ne_eq, and_eq_zero_iff]
      simp [predBits_getLsbD, and_assoc]
    · intro h
      rw [h]
      refine (ofNat_bit_eq_one_iff _).imp_right fun e => e.trans (and_uniform_iff _ _)
    · intro h t ht
      rw [h]
      simp only [gathered, BitVec.ofNat_toNat, BitVec.setWidth_eq, BitVec.getLsbD_and, predBits_getLsbD, Bool.and_comm]
    · intro h
      have hl := List.length_filter_le (fun t => (active r f).getLsbD t && (predBits r.work f.opa.toNat).getLsbD t) (List.range threads)
      rw [List.length_range] at hl
      rw [h]
      change (BitVec.ofNat 32 (popCount _)).toNat = _
      rw [popCount_toNat, ones_and, BitVec.toNat_ofNat, Nat.mod_eq_of_lt (hl.trans_lt (by norm_num))]
      rfl
  · refine ⟨_, sred_writes hr hty hx, fun h => ?_, fun h hon => ?_, fun h hon => ?_, fun h hon => ?_, fun h => ?_, fun h => ?_⟩ <;>
      rw [show redOp f = _ from h]
    · exact fold1_eq_foldl BitVec.zero_add (.inr rfl)
    · obtain ⟨hm, hle⟩ := fold1_select (le := fun x y => asInt f.ty.signed x ≤ asInt f.ty.signed y) (fun _ => le_rfl) (fun _ _ _ => le_trans)
        (redWord_min f.ty.signed) (activeVals_ne_nil s hon)
      exact ⟨mem_activeVals.mp hm, fun t ht => hle _ (mem_activeVals.mpr ⟨t, ht, rfl⟩)⟩
    · obtain ⟨hm, hle⟩ := fold1_select (le := fun x y => asInt f.ty.signed y ≤ asInt f.ty.signed x) (fun _ => le_rfl) (fun _ _ _ => ge_trans)
        (redWord_max f.ty.signed) (activeVals_ne_nil s hon)
      exact ⟨mem_activeVals.mp hm, fun t ht => hle _ (mem_activeVals.mpr ⟨t, ht, rfl⟩)⟩
    · exact fold1_eq_foldl (h := redWord f.ty.signed 3) (fun _ => BitVec.allOnes_and) (.inl (activeVals_ne_nil s hon))
    · exact fold1_eq_foldl (h := redWord f.ty.signed 4) (fun _ => BitVec.zero_or) (.inr rfl)
    · exact fold1_eq_foldl (h := redWord f.ty.signed 5) (fun _ => BitVec.zero_xor) (.inr rfl)
  · exact writes_of hr (show exec (.sred f) s = execSred f s from rfl) rfl (fun _ _ _ => rfl) rfl

end Sys2Proof.Claims
end
